-- ==== Sys2Proof/Word.lean ====
section
/-!
DEFINITION. The two machine words of CFED: a 32-bit register or memory word, and a byte.
-/

namespace Sys2Proof

/-- A register, a SRCMEM or OUTMEM word, or a command word (spec/10_state.md R30, spec/20_memory.md R80). -/
abbrev Word := BitVec 32

/-- A byte of BSMEM (spec/20_memory.md R80), and the unit in which the model lists every memory. -/
abbrev Byte := BitVec 8

end Sys2Proof
end

