-- ==== Sys2Proof/Syntax.lean ====
section
/-!
DEFINITION. The command set: one constructor for each row of spec/opcode_table.json (spec/30_encoding.md R114), with the
fields its format carries (R112): `cs` the 2-bit codeset field, `imm` the 24-bit immediate.
-/

namespace Sys2Proof

/-- A CFED command. `cs` is the raw field of R111, so that the value 3, which names no codeset, can be written down;
`Instr.wellFormed` refuses it. -/
inductive Instr where
  | nop
  | initCodebooks (cs : BitVec 2)
  | sortRunlength (cs : BitVec 2)
  | buildRunlength (cs : BitVec 2)
  | fillScanLut (cs : BitVec 2)
  | fillCodeLut (cs : BitVec 2)
  | buildCubic
  | fillVlcTable (cs : BitVec 2)
  | loadFsm (cs : BitVec 2)
  | scaleFsm (cs : BitVec 2)
  | extractBandEnd (cs : BitVec 2)
  | initDecoderFsm (cs : BitVec 2)
  | freeCodebooks (cs : BitVec 2)
  | matchPattern (cs : BitVec 2) (imm : BitVec 24)
  | bsPeek (imm : BitVec 24)
  | bsGet (imm : BitVec 24)
  | bsSkip (imm : BitVec 24)
  | vlcDecode (cs : BitVec 2)
  | vlcRun (cs : BitVec 2) (imm : BitVec 24)
  | fsmSetState (cs : BitVec 2) (imm : BitVec 24)
  | fsmStep (cs : BitVec 2)
  | fsmRun (cs : BitVec 2) (imm : BitVec 24)
  deriving DecidableEq, Repr

/-- The four formats of a command word (R112). -/
inductive Format where
  | N | C | I | CI
  deriving DecidableEq, Repr

end Sys2Proof
end

