-- ==== Sys2Proof/WellFormed.lean ====
section
/-!
DEFINITION. Which commands an encoding can stand for: the codeset field of formats C and CI names a codeset
(spec/30_encoding.md R111, R118; spec/60_exceptions.md R302). An immediate has no check of its own: every 24-bit value is
encoded (R113), and its range is checked by the command.
-/

namespace Sys2Proof

/-- The codeset field of a command of format C or CI, none for formats N and I. -/
def Instr.codesetField : Instr → Option (BitVec 2)
  | .nop => none
  | .initCodebooks cs => some cs
  | .sortRunlength cs => some cs
  | .buildRunlength cs => some cs
  | .fillScanLut cs => some cs
  | .fillCodeLut cs => some cs
  | .buildCubic => none
  | .fillVlcTable cs => some cs
  | .loadFsm cs => some cs
  | .scaleFsm cs => some cs
  | .extractBandEnd cs => some cs
  | .initDecoderFsm cs => some cs
  | .freeCodebooks cs => some cs
  | .matchPattern cs _ => some cs
  | .bsPeek _ => none
  | .bsGet _ => none
  | .bsSkip _ => none
  | .vlcDecode cs => some cs
  | .vlcRun cs _ => some cs
  | .fsmSetState cs _ => some cs
  | .fsmStep cs => some cs
  | .fsmRun cs _ => some cs

/-- The codeset field, where there is one, is 0, 1 or 2. -/
def Instr.wellFormed (i : Instr) : Bool := i.codesetField ≠ some 3#2

end Sys2Proof
end

