-- ==== Sys2Proof/Decode.lean ====
section
/-!
DEFINITION. Decoding a command word (spec/30_encoding.md R110 to R118) and, after it, encoding one. The decoder is total: it
answers the command or names the failure, in the order of R118.
-/

namespace Sys2Proof

/-- Why a command word is not decoded (R118). -/
inductive DecodeError where
  /-- A reserved opcode (R115) or a non-zero reserved field (R116). -/
  | illegalCmd
  /-- The `cs` field of a format C or CI command is 3 (R302). -/
  | badCodeset
  deriving DecidableEq, Repr

/-- Bits 31:26 (R111). -/
def opField (w : Word) : BitVec 6 := w.extractLsb' 26 6

/-- Bits 25:24 (R111). -/
def csField (w : Word) : BitVec 2 := w.extractLsb' 24 2

/-- Bits 23:0 (R111, R113). -/
def immField (w : Word) : BitVec 24 := w.extractLsb' 0 24

/-- Format N: `cs` and `imm` are reserved (R112). -/
def decodeN (i : Instr) (w : Word) : Except DecodeError Instr :=
  if csField w = 0 ∧ immField w = 0 then .ok i else .error .illegalCmd

/-- Format C: `imm` is reserved and is checked before the codeset (R112, R118). -/
def decodeC (f : BitVec 2 → Instr) (w : Word) : Except DecodeError Instr :=
  if immField w ≠ 0 then .error .illegalCmd
  else if csField w = 3 then .error .badCodeset
  else .ok (f (csField w))

/-- Format I: `cs` is reserved (R112). -/
def decodeI (f : BitVec 24 → Instr) (w : Word) : Except DecodeError Instr :=
  if csField w = 0 then .ok (f (immField w)) else .error .illegalCmd

/-- Format CI: no reserved field (R112). -/
def decodeCI (f : BitVec 2 → BitVec 24 → Instr) (w : Word) : Except DecodeError Instr :=
  if csField w = 3 then .error .badCodeset else .ok (f (csField w) (immField w))

/-- The decoder of command words (R118) over the opcode map of R114; every other opcode is reserved (R115). -/
def decode (w : Word) : Except DecodeError Instr :=
  match (opField w).toNat with
  | 0x00 => decodeN .nop w
  | 0x01 => decodeC .initCodebooks w
  | 0x02 => decodeC .sortRunlength w
  | 0x03 => decodeC .buildRunlength w
  | 0x04 => decodeC .fillScanLut w
  | 0x05 => decodeC .fillCodeLut w
  | 0x06 => decodeN .buildCubic w
  | 0x07 => decodeC .fillVlcTable w
  | 0x08 => decodeC .loadFsm w
  | 0x09 => decodeC .scaleFsm w
  | 0x0A => decodeC .extractBandEnd w
  | 0x0B => decodeC .initDecoderFsm w
  | 0x0C => decodeC .freeCodebooks w
  | 0x0D => decodeCI .matchPattern w
  | 0x10 => decodeI .bsPeek w
  | 0x11 => decodeI .bsGet w
  | 0x12 => decodeI .bsSkip w
  | 0x18 => decodeC .vlcDecode w
  | 0x19 => decodeCI .vlcRun w
  | 0x1A => decodeCI .fsmSetState w
  | 0x1B => decodeC .fsmStep w
  | 0x1C => decodeCI .fsmRun w
  | _ => .error .illegalCmd

/-- What the decoder reads from an instruction given as `nbits` bits of `w`. A command is one 32-bit word written to `CMD`
(R110); it has no byte order, because no sub-word access reaches the register window (spec/20_memory.md R86). -/
def decodeTableWord (nbits w : Nat) : Option Instr :=
  (decode (BitVec.ofNat 32 (w % 2 ^ nbits))).toOption

/-- `(op << 26) | (c << 24) | n` (R114). -/
def commandWord (op : BitVec 6) (cs : BitVec 2) (imm : BitVec 24) : Word := op ++ cs ++ imm

/-- The command word of a command (R114): the unused fields of its format are 0 (R112). -/
def encode : Instr → Word
  | .nop => commandWord 0x00 0 0
  | .initCodebooks cs => commandWord 0x01 cs 0
  | .sortRunlength cs => commandWord 0x02 cs 0
  | .buildRunlength cs => commandWord 0x03 cs 0
  | .fillScanLut cs => commandWord 0x04 cs 0
  | .fillCodeLut cs => commandWord 0x05 cs 0
  | .buildCubic => commandWord 0x06 0 0
  | .fillVlcTable cs => commandWord 0x07 cs 0
  | .loadFsm cs => commandWord 0x08 cs 0
  | .scaleFsm cs => commandWord 0x09 cs 0
  | .extractBandEnd cs => commandWord 0x0A cs 0
  | .initDecoderFsm cs => commandWord 0x0B cs 0
  | .freeCodebooks cs => commandWord 0x0C cs 0
  | .matchPattern cs imm => commandWord 0x0D cs imm
  | .bsPeek imm => commandWord 0x10 0 imm
  | .bsGet imm => commandWord 0x11 0 imm
  | .bsSkip imm => commandWord 0x12 0 imm
  | .vlcDecode cs => commandWord 0x18 cs 0
  | .vlcRun cs imm => commandWord 0x19 cs imm
  | .fsmSetState cs imm => commandWord 0x1A cs imm
  | .fsmStep cs => commandWord 0x1B cs 0
  | .fsmRun cs imm => commandWord 0x1C cs imm

end Sys2Proof
end

