-- ==== Sys2Proof/Config.lean ====
section
/-!
DEFINITION. What an instance of CFED fixes (spec/00_scope.md R7, R8), and the free values: what the spec leaves open.
A free value has no body, so no proof can see what it is.
-/

namespace Sys2Proof

/-- The parameters the source names without a value (R8). "A model must take these as arguments": an instance's values stand
in `Machine.State.params`, where every step leaves them alone. -/
structure Params where
  /-- `L`, BITSTREAM_LONG_SIZE, 3..32. -/
  longSize : Nat
  /-- `S`, VALUE_TABLE_SIZE, 2..16: `valuebook` has `2^S` entries. -/
  valueSize : Nat
  /-- `K`, FSM_INDEX_SIZE, 1..12: each FSM state has `2^K` entries. -/
  indexSize : Nat
  /-- FSM_RAM_ENTRIES, 2^K..2^24. -/
  fsmRamEntries : Nat
  /-- RLC_MAX_ENTRIES, 1..2^24. -/
  rlcMaxEntries : Nat
  /-- VLC_POSITIVE_CODE. -/
  positiveCode : BitVec 2
  /-- VLC_NEGATIVE_CODE, different from VLC_POSITIVE_CODE. -/
  negativeCode : BitVec 2
  deriving DecidableEq, Repr, Inhabited

/-- The ranges of R8. -/
abbrev Params.inRange (p : Params) : Prop :=
  3 ≤ p.longSize ∧ p.longSize ≤ 32 ∧ 2 ≤ p.valueSize ∧ p.valueSize ≤ 16 ∧ 1 ≤ p.indexSize ∧ p.indexSize ≤ 12 ∧
    2 ^ p.indexSize ≤ p.fsmRamEntries ∧ p.fsmRamEntries ≤ 2 ^ 24 ∧ 1 ≤ p.rlcMaxEntries ∧ p.rlcMaxEntries ≤ 2 ^ 24 ∧
    p.positiveCode ≠ p.negativeCode

/-- The composite-codeword bit budget `BUDGET = L - 1` (spec/40_table_generator.md R145). -/
def Params.budget (p : Params) : Nat := p.longSize - 1

/-- The reference instance of the spec's test vectors (spec/95_test_vectors.md section 1.1), not the source's values. -/
def Config.referenceParams : Params where
  longSize := 32
  valueSize := 10
  indexSize := 2
  fsmRamEntries := 64
  rlcMaxEntries := 64
  positiveCode := 0b10#2
  negativeCode := 0b11#2

/-- FREE VALUE: the parameters of the instance that `State.reset` is (log entry 1). -/
opaque Config.rawParams : Params

/-- The parameters of the instance at reset: whatever they are, they are in the ranges of R8. Every in-range choice is a
possible value (log entry 1). DESIGN CHOICE: where the free value is out of range the reference instance stands in for it, so
that an instance outside R8 does not exist. -/
def Config.params : Params :=
  if Config.rawParams.inRange then Config.rawParams else Config.referenceParams

/-- `N`, LOOKUP_TABLE_SIZE (R7). -/
abbrev Config.windowSize : Nat := 12
/-- FASTBOOK_DEPTH = 2^N (R7). -/
abbrev Config.fastbookDepth : Nat := 4096
/-- NEW_CODEBOOK_LENGTH (R7). -/
abbrev Config.newCodebookLength : Nat := 3072
/-- CUBIC_LENGTH (R7). -/
abbrev Config.cubicLength : Nat := 1025

/-- FREE VALUE: what a table RAM entry that holds no defined value reads as, one value for each (table, codeset, generation,
version, index), so that it is stable until the entry is written again (spec/93_implementation_defined.md U1, log entry 2). -/
opaque Config.ramContent : (table codeset generation version index : Nat) → BitVec 96

/-- FREE VALUE: which of the old and new values one read of a word or byte sees that another agent writes while the command
runs: a position in the list of the candidates, one for each read (spec/20_memory.md R93, U5, log entry 3). -/
opaque Config.raceChoice : (fresh : Nat) → (site : List Nat) → (address : Nat) → Nat

/-- FREE VALUE: what a register that the running command may write reads as while BUSY, chosen at each read
(spec/70_reset_and_hazards.md R352, U4, log entry 4). -/
opaque Config.busyRead : (fresh : Nat) → Word

/-- FREE VALUE: the two words of the record that a run was writing when a reset aborted it (R344, U15, log entry 5). -/
opaque Config.abortWord : (fresh position : Nat) → Word

/-- FREE VALUE: `remaining / 0`, which R12 of spec/00_scope.md leaves undefined. A class of `WORK` has count 0 only where a racing
write put it there after the check of R140 (spec/40_table_generator.md R146, R148, log entry 22). -/
opaque Config.zeroDivision : (remaining : Nat) → Nat

/-- FREE VALUE: what the 32-bit `codeword` field of a `VALUEBOOK` entry holds of a code of more than 32 bits
(spec/40_table_generator.md R178, spec/10_state.md R59, log entry 23). -/
opaque Config.wideCode : (code : Nat) → Word

/-- FREE VALUE: what the signed 32-bit `value` field of a continuation marker holds of a book index of 2^31 or more
(spec/40_table_generator.md R164, spec/10_state.md R58, log entry 24). -/
opaque Config.wideIndex : (index : Nat) → Word

end Sys2Proof
end

