-- ==== Sys2Proof/Machine/State.lean ====
section
/-!
DEFINITION. The state of CFED as plain data: every register, table RAM, memory and hidden engine state the spec names, and the
few fields of the model's own (the inputs still to come, the last answer of the host port, the counter of the free values and
the racing writes). INVENTORY.md lists each with its rule.
-/

namespace Sys2Proof.Machine

/-! ### Names -/

/-- A codeset (spec/00_scope.md R16): `NUM_CODESETS` is 3. -/
inductive CsId where
  | c0 | c1 | c2
  deriving DecidableEq, Repr

/-- The error codes of spec/60_exceptions.md R301. The reserved codes have no name here: they are never recorded (U11). -/
inductive ErrCode where
  | none | invalidCodebook | outOfMemory | initFsm | illegalCmd | badCodeset | notInitialized | bitstreamUnderrun
  | decodeError | unsupported | badFlags | badOperand
  deriving DecidableEq, Repr

/-- The width of a host access (spec/20_memory.md R86). -/
inductive AccessSize where
  | byte | half | word | double
  deriving DecidableEq, Repr

/-- The hidden state of the engine (spec/10_state.md R63). -/
inductive Engine where
  | idle
  | busy (cmd : Word)
  deriving DecidableEq, Repr

/-- How much of what the running command does is there for other agents to see before it completes: words of OUTMEM
(spec/20_memory.md R93, spec/70_reset_and_hazards.md R354) and two bits of `STATUS` (R352). Log entry 4. -/
inductive Progress where
  /-- Nothing. -/
  | start
  /-- A run has made `steps` steps and written their records. -/
  | steps (steps : Nat)
  /-- A run has made one step more, and written the first word of its record; the second word will be `second`. -/
  | record (steps : Nat) (second : Word)
  /-- `INIT_CODEBOOKS` has built its run-length and fast lookup tables. -/
  | lookup
  /-- All but the completion. -/
  | over
  deriving DecidableEq, Repr

/-- One event of an agent of spec/00_scope.md R3. The schedule `State.inputs` holds them in the order in which they happen. -/
inductive Input where
  /-- A host write to the register window at a byte offset. -/
  | write (offset : BitVec 9) (size : AccessSize) (value : Word)
  /-- A host read of the register window. -/
  | read (offset : BitVec 9) (size : AccessSize)
  /-- The level of the reset input (spec/70_reset_and_hazards.md R342). -/
  | resetLine (asserted : Bool)
  /-- A write to a word of SRCMEM by the host or another bus master. -/
  | srcWrite (address value : Word)
  /-- A write to a byte of BSMEM by the host or another bus master. -/
  | bsWrite (address : Word) (value : Byte)
  /-- A write to a word of OUTMEM by the host or another bus master. -/
  | outWrite (address value : Word)
  /-- A read of a word of SRCMEM by the host or another bus master. -/
  | srcRead (address : Word)
  /-- A read of a byte of BSMEM by the host or another bus master. -/
  | bsRead (address : Word)
  /-- A read of a word of OUTMEM by the host or another bus master. -/
  | outRead (address : Word)
  /-- The command engine carries out the next part of its running command that another agent can see before the completion: one
  word of a run's output, or what sets `STATUS.BAND_END` or `STATUS.UNMATCHED` (log entry 4). -/
  | stage
  /-- The command engine carries the rest of its running command out, to its completion. -/
  | engine
  deriving DecidableEq, Repr

/-! ### Registers -/

/-- `CTRL` (spec/10_state.md R35); `SOFT_RESET` is an effect and its reserved bits read 0. -/
structure Ctrl where
  irqEn : Bool
  bandEndDetect : Bool
  lutLegacy : Bool
  deriving DecidableEq, Repr

/-- `STATUS` (spec/10_state.md R37) but for `BUSY`, which is the engine's state (R63). -/
structure Status where
  done : Bool
  err : Bool
  bandEnd : Bool
  unmatched : Bool
  overrun : Bool
  errCode : ErrCode
  deriving DecidableEq, Repr

/-- The three companding policy bits of `CS_FLAGS` (spec/10_state.md R50), which `FSM_FLAGS[2:0]` copies (R53). -/
structure CompandFlags where
  notNeeded : Bool
  cubic : Bool
  more : Bool
  deriving DecidableEq, Repr

/-- `FSM_FLAGS` (spec/10_state.md R53). -/
structure FsmFlags where
  policy : CompandFlags
  compandingDone : Bool
  initialized : Bool
  deriving DecidableEq, Repr

/-- `TABLE_VALIDc` (spec/10_state.md R48). -/
structure TableValid where
  newcodes : Bool
  fastbook : Bool
  fastbookLegacy : Bool
  valuebook : Bool
  cbReplaced : Bool
  bandEnd : Bool
  deriving DecidableEq, Repr

/-! ### Table RAMs -/

/-- An entry of `NEWCODES` (spec/10_state.md R57). -/
structure NewCode where
  bits : BitVec 32
  size : BitVec 6
  count : BitVec 16
  deriving DecidableEq, Repr

/-- An entry of `FASTBOOK` (spec/10_state.md R58); `value` is two's complement. -/
structure FastEntry where
  count : BitVec 32
  value : BitVec 32
  shift : BitVec 6
  deriving DecidableEq, Repr

/-- An entry of `VALUEBOOK` (spec/10_state.md R59). -/
structure ValueEntry where
  codeword : BitVec 32
  size : BitVec 6
  deriving DecidableEq, Repr

/-- An entry of `FSM` (spec/10_state.md R60); the two values are two's complement. -/
structure FsmEntry where
  nextState : BitVec 16
  preSkip : BitVec 8
  postSkip : BitVec 8
  value0 : BitVec 16
  value1 : BitVec 16
  deriving DecidableEq, Repr

/-- An entry of `WORK` (spec/10_state.md R62). -/
structure WorkEntry where
  bits : BitVec 32
  size : BitVec 6
  count : BitVec 32
  deriving DecidableEq, Repr

/-- A table RAM. Commands write entries 0, 1, 2, … in order, so the entries that hold a defined value are the first
`cells.length`. The two counters tell one unspecified content of an entry from the next (spec/93_implementation_defined.md U1):
`generation` counts the resets, and `versions` lists, for each entry, how often its value became unspecified since (0 where the
list has ended). -/
structure Ram (α : Type) where
  generation : Nat
  versions : List Nat
  cells : List α
  deriving DecidableEq, Repr

/-- Codeset `c`: its descriptor block (spec/10_state.md R49 to R56), its `TABLE_VALIDc` (R48) and its table RAMs (R57 to R60). -/
structure Codeset where
  csFlags : CompandFlags
  magBase : Word
  magLen : Word
  rlcBase : Word
  rlcLen : Word
  rlvBase : Word
  rlvLen : Word
  tagBase : Word
  fsmBase : Word
  zeroBits : Word
  zeroSize : Word
  fsmFlags : FsmFlags
  fsmNumStates : Word
  fsmState : BitVec 16
  bandEndCode : Word
  bandEndSize : Word
  valid : TableValid
  newcodes : Ram NewCode
  fastbook : Ram FastEntry
  valuebook : Ram ValueEntry
  fsm : Ram FsmEntry
  deriving DecidableEq, Repr

/-! ### Memories -/

/-- A memory: the bytes that differ from what an unlisted address reads as, addresses strictly rising. Byte `a` of BSMEM is at
key `a`; word `a` of SRCMEM or OUTMEM is the four bytes at keys `4a` to `4a + 3` (log entry 9). -/
abbrev Memory := List Host.Cell

/-- What a byte that is not listed reads as. DESIGN CHOICE, unsafe: the spec gives the external memories no content
(log entry 8). -/
abbrev Memory.unlisted : Byte := 0

/-! ### The machine -/

/-- The whole state. -/
structure State where
  /-- The instance constants that `PARAMS` reports, with the two it does not report (spec/10_state.md R36). -/
  params : Params
  engine : Engine
  ctrl : Ctrl
  status : Status
  cmd : Word
  arg0 : Word
  result0 : Word
  result1 : Word
  result2 : Word
  result3 : Word
  errInfo : Word
  bsBase : Word
  bsLen : Word
  bsPos : Word
  outPtr : Word
  workLen : Word
  /-- `TBL_SEL` bits 5:0: `TID` in bits 3:0, `TCS` in bits 5:4 (spec/10_state.md R45). -/
  tblSel : BitVec 6
  tblIndex : Word
  tblData0 : Word
  tblData1 : Word
  tblData2 : Word
  tblData3 : Word
  cs0 : Codeset
  cs1 : Codeset
  cs2 : Codeset
  cubic : Ram (BitVec 8)
  work : Ram WorkEntry
  /-- The level of the reset input (spec/70_reset_and_hazards.md R342). -/
  resetLine : Bool
  srcmem : Memory
  bsmem : Memory
  outmem : Memory
  /-- MODEL'S OWN: the events of the host, the other bus masters and the engine still to come, the next one first. -/
  inputs : List Input
  /-- MODEL'S OWN: the value that the last read of the host or of another bus master returned. -/
  readData : Word
  /-- MODEL'S OWN: the counter that makes each use of a free value a fresh one. -/
  fresh : Nat
  /-- MODEL'S OWN: the SRCMEM writes that race with the running command, each with the value it replaced (R93). -/
  srcRaces : List (Nat × Word)
  /-- MODEL'S OWN: the BSMEM writes that race with the running command, each with the byte it replaced (R93). -/
  bsRaces : List (Nat × Byte)
  /-- MODEL'S OWN: how much of the running command other agents can already see (log entry 4). -/
  progress : Progress
  deriving DecidableEq, Repr

/-- Why the machine stops for good: nothing stops CFED. A failing command completes with `STATUS.ERR` set and the block goes on
(spec/60_exceptions.md R306, R309), and every address of the three external memories exists (spec/20_memory.md R80), so this
type has no constructor (log entry 13). -/
inductive Fault where
  deriving DecidableEq, Repr

/-- What the model gives no meaning. -/
inductive Refusal where
  /-- Raised by `exec` for a command without a meaning; no arm raises it. Safe: the model stops where the hardware goes on. -/
  | notModelled (mnemonic : String)
  /-- Raised by `step` for a host access to the window that is not an aligned 32-bit access (spec/20_memory.md R86: "not defined
  by this spec; a model refuses it"). Safe: no claim is made about such an access. -/
  | hostAccess
  deriving DecidableEq, Repr

/-! ### Reset -/

def CompandFlags.reset : CompandFlags := ⟨false, false, false⟩
def FsmFlags.reset : FsmFlags := ⟨CompandFlags.reset, false, false⟩
def TableValid.reset : TableValid := ⟨false, false, false, false, false, false⟩
def Ctrl.reset : Ctrl := ⟨false, false, false⟩
def Status.reset : Status := ⟨false, false, false, false, false, .none⟩

/-- A codeset right after reset: every register 0 (R340), every table unwritten (R341). -/
def Codeset.reset : Codeset where
  csFlags := CompandFlags.reset
  magBase := 0
  magLen := 0
  rlcBase := 0
  rlcLen := 0
  rlvBase := 0
  rlvLen := 0
  tagBase := 0
  fsmBase := 0
  zeroBits := 0
  zeroSize := 0
  fsmFlags := FsmFlags.reset
  fsmNumStates := 0
  fsmState := 0
  bandEndCode := 0
  bandEndSize := 0
  valid := TableValid.reset
  newcodes := ⟨0, [], []⟩
  fastbook := ⟨0, [], []⟩
  valuebook := ⟨0, [], []⟩
  fsm := ⟨0, [], []⟩

/-- The machine right after a hardware reset (spec/70_reset_and_hazards.md R340 to R342): every register at its value of R340,
the engine idle and the reset input deasserted. No input is scheduled and no memory byte is listed. -/
def State.reset : State where
  params := Config.params
  engine := .idle
  ctrl := Ctrl.reset
  status := Status.reset
  cmd := 0
  arg0 := 0
  result0 := 0
  result1 := 0
  result2 := 0
  result3 := 0
  errInfo := 0
  bsBase := 0
  bsLen := 0
  bsPos := 0
  outPtr := 0
  workLen := 0
  tblSel := 0
  tblIndex := 0
  tblData0 := 0
  tblData1 := 0
  tblData2 := 0
  tblData3 := 0
  cs0 := Codeset.reset
  cs1 := Codeset.reset
  cs2 := Codeset.reset
  cubic := ⟨0, [], []⟩
  work := ⟨0, [], []⟩
  resetLine := false
  srcmem := []
  bsmem := []
  outmem := []
  inputs := []
  readData := 0
  fresh := 0
  srcRaces := []
  bsRaces := []
  progress := .start

end Sys2Proof.Machine
end

