-- ==== Sys2Proof/Machine/Ops.lean ====
section
/-!
DEFINITION. The named operations that every command is built from: memories, table RAMs, codesets, the memory primitives with
their races, the bit-shift unit, and the acceptance, completion and failure of a command.
-/

namespace Sys2Proof.Machine

/-! ### Memories (spec/20_memory.md R80, log entries 8 and 9) -/

/-- One byte of a memory. -/
def Memory.read (m : Memory) (a : Nat) : Byte :=
  match m with
  | [] => Memory.unlisted
  | c :: rest => if c.1 = a then c.2 else Memory.read rest a

/-- Writing one byte keeps the canonical form: the cell is put in its place, or removed if it would equal what an unlisted
address reads as. -/
def Memory.write (m : Memory) (a : Nat) (v : Byte) : Memory :=
  match m with
  | [] => if v = Memory.unlisted then [] else [(a, v)]
  | c :: rest =>
    if c.1 < a then c :: Memory.write rest a v
    else if c.1 = a then (if v = Memory.unlisted then rest else (a, v) :: rest)
    else if v = Memory.unlisted then c :: rest else (a, v) :: c :: rest

/-- The canonical form: addresses strictly rising and below `limit`, and no cell equal to what an unlisted address reads as. -/
abbrev Memory.wf (limit : Nat) (m : Memory) : Prop :=
  m.Pairwise (fun c d => c.1 < d.1) ∧ ∀ c ∈ m, c.1 < limit ∧ c.2 ≠ Memory.unlisted

/-- Word `a`: the bytes at `4a` to `4a + 3`, the least significant first. DESIGN CHOICE, safe: no access of CFED can tell
(spec/20_memory.md R87, log entry 9). -/
def Memory.readWord (m : Memory) (a : Nat) : Word :=
  m.read (4 * a + 3) ++ m.read (4 * a + 2) ++ m.read (4 * a + 1) ++ m.read (4 * a)

def Memory.writeWord (m : Memory) (a : Nat) (v : Word) : Memory :=
  (((m.write (4 * a) (v.extractLsb' 0 8)).write (4 * a + 1) (v.extractLsb' 8 8)).write
    (4 * a + 2) (v.extractLsb' 16 8)).write (4 * a + 3) (v.extractLsb' 24 8)

/-- The number of bytes of SRCMEM and of OUTMEM: 2^32 words (R80). -/
abbrev Memory.wordSpace : Nat := 2 ^ 34

/-- The number of bytes of BSMEM (R80). -/
abbrev Memory.byteSpace : Nat := 2 ^ 32

/-! ### Table RAMs (spec/10_state.md R57 to R62, R65) -/

/-- Writing entries 0, 1, … of a table in order: the entries after them keep what they hold. -/
def Ram.store {α : Type} (r : Ram α) (new : List α) : Ram α := { r with cells := new ++ r.cells.drop new.length }

/-- The versions after the first `n` entries became unspecified once more. -/
def bumpFirst : (n : Nat) → List Nat → List Nat
  | 0, vs => vs
  | n + 1, [] => 1 :: bumpFirst n []
  | n + 1, v :: vs => (v + 1) :: bumpFirst n vs

/-- The first `n` entries are written with values that stay unspecified: the table stays invalid (U1, U16). -/
def Ram.spoil {α : Type} (r : Ram α) (n : Nat) : Ram α := { r with versions := bumpFirst n r.versions }

/-- The defined entries become unspecified, each with a value chosen afresh; an entry that was unspecified keeps what it reads as
(U1: "stable until the next write of that entry"). So does a table whose valid bit is cleared, or that is released
(spec/41_fsm_tables.md R217, R218). -/
def Ram.forget {α : Type} (r : Ram α) : Ram α := { r.spoil r.cells.length with cells := [] }

/-- Building a table that has a valid bit: the old entries are gone once the bit is cleared, and all the new ones are written. -/
def Ram.rebuild {α : Type} (r : Ram α) (new : List α) : Ram α := r.forget.store new

/-- The contents after a reset: every entry is unspecified and chosen afresh (spec/70_reset_and_hazards.md R341). -/
def Ram.afterReset {α : Type} (r : Ram α) : Ram α := { generation := r.generation + 1, versions := [], cells := [] }

/-- What entry `i` reads as where it holds no defined value (U1). -/
def Ram.unspecified {α : Type} (r : Ram α) (free : Nat → Nat → α) (i : Nat) : α := free r.generation (r.versions[i]?.getD 0)

/-- Entry `i`, unspecified where no command has written it since the contents became so (R65, U1). -/
def Ram.entry {α : Type} (r : Ram α) (free : Nat → Nat → α) (i : Nat) : α := r.cells[i]?.getD (r.unspecified free i)

/-! ### Codesets (spec/00_scope.md R16) -/

/-- The codeset a 2-bit field names, none for 3 (spec/30_encoding.md R111). -/
def CsId.ofField (cs : BitVec 2) : Option CsId :=
  if cs = 0 then some .c0 else if cs = 1 then some .c1 else if cs = 2 then some .c2 else none

def CsId.toNat : CsId → Nat
  | .c0 => 0
  | .c1 => 1
  | .c2 => 2

def State.codeset (s : State) : CsId → Codeset
  | .c0 => s.cs0
  | .c1 => s.cs1
  | .c2 => s.cs2

def State.setCodeset (s : State) (c : CsId) (v : Codeset) : State :=
  match c with
  | .c0 => { s with cs0 := v }
  | .c1 => { s with cs1 := v }
  | .c2 => { s with cs2 := v }

/-- `TABLE_VALIDc <- v` (spec/10_state.md R48). -/
def State.setValid (s : State) (c : CsId) (v : TableValid) : State :=
  s.setCodeset c { s.codeset c with valid := v }

/-! ### Memory primitives (spec/00_scope.md R14) and races (spec/20_memory.md R93)

A read is named by its place in the command, its `site`: the rule's loop indices. Where no racing write was made the site does
not matter; where one was, each site sees the old or a new value by a free choice of its own. -/

/-- The place of one read among the reads of a command. -/
abbrev Site := List Nat

/-- The value one read sees: `current`, or a value that a racing write replaced (R93, U5). -/
def racePick {α : Type} (fresh : Nat) (site : Site) (a : Nat) (current : α) (replaced : List (Nat × α)) : α :=
  match replaced.filterMap (fun r => if r.1 = a then some r.2 else none) with
  | [] => current
  | olds => (current :: olds).getD (Config.raceChoice fresh site a) current

/-- `SrcRead(a)`. -/
def State.srcRead (s : State) (site : Site) (a : Word) : Word :=
  racePick s.fresh site a.toNat (s.srcmem.readWord a.toNat) s.srcRaces

/-- `BsReadByte(a)`. -/
def State.bsReadByte (s : State) (site : Site) (a : Word) : Byte :=
  racePick s.fresh site a.toNat (s.bsmem.read a.toNat) s.bsRaces

/-- `OutWrite(a, v)`. -/
def State.outWrite (s : State) (a : Word) (v : Word) : State :=
  { s with outmem := s.outmem.writeWord a.toNat v }

/-! ### Acceptance, completion and failure (spec/60_exceptions.md R304 to R308) -/

/-- What a failure records (R301): the code and, modulo 2^32, the information. -/
structure Failure where
  code : ErrCode
  info : Nat
  deriving DecidableEq, Repr

/-- The engine becomes IDLE: no command is running, so no write races with one any more. -/
def State.release (s : State) : State := { s with engine := .idle, srcRaces := [], bsRaces := [], progress := .start }

/-- `complete()` (R305). -/
def State.complete (s : State) : State :=
  { s.release with status := { s.status with done := true } }

/-- `fail(code, info)` (R306): what a command failure records and where the block goes on, the one operation that every failing
command ends in. `STATUS.BAND_END`, `UNMATCHED` and `OVERRUN` stay (R311). -/
def State.fail (s : State) (f : Failure) : State :=
  { s.release with
    status := { s.status with errCode := f.code, err := true, done := true }
    errInfo := BitVec.ofNat 32 f.info }

/-- `Accept(w)` (R304), up to the decoding of `w`. -/
def State.accept (s : State) (w : Word) : State :=
  { s with
    cmd := w
    status := { s.status with done := false, err := false, errCode := .none }
    errInfo := 0
    engine := .busy w
    fresh := s.fresh + 1
    srcRaces := []
    bsRaces := []
    progress := .start }

/-- A host's recovery from a failure: the W1C write of `ERR`, which "also clears ERRCODE and ERRINFO" (R309,
spec/10_state.md R37). -/
def State.clearError (s : State) : State :=
  { s with status := { s.status with err := false, errCode := .none }, errInfo := 0 }

/-- The end of a command body: it ran to its end, or it failed with what it had done so far (R307, R308). -/
inductive Body where
  | done (s : State)
  | failed (f : Failure) (s : State)
  deriving DecidableEq, Repr

/-- `body of X` inside a composite command (spec/00_scope.md R15): a failure ends the composite command. -/
def Body.andThen (b : Body) (k : State → Body) : Body :=
  match b with
  | .done s => k s
  | .failed f s => .failed f s

/-- The completion of a command whose body is done or has failed (R305, R306). -/
def Body.finish : Body → State
  | .done s => s.complete
  | .failed f s => s.fail f

/-! ### The bit-shift unit (spec/42_bitstream.md R230 to R233) -/

/-- `BitAt(p)` (R233): 0 at and beyond `BS_LEN`, else bit `7 - p % 8` of its byte, the address modulo 2^32. -/
def State.bitAt (s : State) (site : Site) (p : Nat) : Bool :=
  if s.bsLen.toNat ≤ p then false
  else (s.bsReadByte site (s.bsBase + BitVec.ofNat 32 (p / 8))).getLsbD (7 - p % 8)

/-- `Peek(n)` (R231): the next `n` bits, the first one most significant. -/
def State.peek (s : State) (site : Site) (n : Nat) : Nat :=
  (List.range' 0 n).foldl (fun r i => 2 * r + (s.bitAt (site ++ [i]) (s.bsPos.toNat + i)).toNat) 0

/-- `Consume(n)` (R232). -/
def State.consume (s : State) (n : Nat) : Except Failure State :=
  if s.bsPos.toNat + n > s.bsLen.toNat then .error ⟨.bitstreamUnderrun, n⟩
  else .ok { s with bsPos := s.bsPos + BitVec.ofNat 32 n }

/-- The write of one output record at `OUT_PTR`, which advances by 2 modulo 2^32 (spec/43_decode.md R262, R275). -/
def State.emit (s : State) (w0 w1 : Word) : State :=
  let s := s.outWrite s.outPtr w0
  let s := s.outWrite (s.outPtr + 1) w1
  { s with outPtr := s.outPtr + 2 }

end Sys2Proof.Machine
end

