-- ==== Sys2Proof/Machine/Bitstream.lean ====
section
/-!
DEFINITION. The bit-shift unit commands (spec/42_bitstream.md R234 to R236). Read sites begin with 7.
-/

namespace Sys2Proof.Machine

/-- The body of `BS_PEEK n` (R234). -/
def State.bsPeek (s : State) (n : Nat) : Body :=
  if n > 32 then .failed ⟨.badOperand, n⟩ s else .done { s with result0 := BitVec.ofNat 32 (s.peek [7] n) }

/-- The body of `BS_GET n` (R235): `RESULT0` is unchanged if the bits do not remain. -/
def State.bsGet (s : State) (n : Nat) : Body :=
  if n > 32 then .failed ⟨.badOperand, n⟩ s
  else
    match s.consume n with
    | .error f => .failed f s
    | .ok t => .done { t with result0 := BitVec.ofNat 32 (s.peek [7] n) }

/-- The body of `BS_SKIP n` (R236). -/
def State.bsSkip (s : State) (n : Nat) : Body :=
  match s.consume n with
  | .error f => .failed f s
  | .ok t => .done t

/-- `BS_PEEK` (R234). -/
def execBsPeek (imm : BitVec 24) (s : State) : Host.Outcome State Fault Refusal :=
  .next (s.bsPeek imm.toNat).finish

/-- `BS_GET` (R235). -/
def execBsGet (imm : BitVec 24) (s : State) : Host.Outcome State Fault Refusal :=
  .next (s.bsGet imm.toNat).finish

/-- `BS_SKIP` (R236). -/
def execBsSkip (imm : BitVec 24) (s : State) : Host.Outcome State Fault Refusal :=
  .next (s.bsSkip imm.toNat).finish

end Sys2Proof.Machine
end

