-- ==== Sys2Proof/Machine/Flags.lean ====
section
/-!
DEFINITION. The status and flag words: the packing of `CTRL`, `STATUS`, `TABLE_VALIDc`, `CS_FLAGS` and `FSM_FLAGS`, the error
codes, the interrupt output, and the companding policies that the flags select.
-/

namespace Sys2Proof.Machine

/-- One bit of a register, in its place. -/
def bitAtPlace (b : Bool) (i : Nat) : Word := if b then 1#32 <<< i else 0#32

/-- The code recorded in `STATUS.ERRCODE` (spec/60_exceptions.md R301). -/
def ErrCode.toByte : ErrCode → Byte
  | .none => 0x00
  | .invalidCodebook => 0x01
  | .outOfMemory => 0x02
  | .initFsm => 0x03
  | .illegalCmd => 0x05
  | .badCodeset => 0x06
  | .notInitialized => 0x07
  | .bitstreamUnderrun => 0x08
  | .decodeError => 0x09
  | .unsupported => 0x0B
  | .badFlags => 0x0C
  | .badOperand => 0x0D

/-- `CTRL` as it reads (spec/10_state.md R35): `SOFT_RESET` and the reserved bits read 0. -/
def Ctrl.toWord (c : Ctrl) : Word := bitAtPlace c.irqEn 0 ||| bitAtPlace c.bandEndDetect 1 ||| bitAtPlace c.lutLegacy 2

/-- The read-write bits of a word written to `CTRL` (R35). -/
def Ctrl.ofWord (w : Word) : Ctrl := ⟨w.getLsbD 0, w.getLsbD 1, w.getLsbD 2⟩

def Engine.isBusy : Engine → Bool
  | .idle => false
  | .busy _ => true

/-- `STATUS` as it reads (spec/10_state.md R37, R63). -/
def State.statusWord (s : State) : Word :=
  bitAtPlace s.engine.isBusy 0 ||| bitAtPlace s.status.done 1 ||| bitAtPlace s.status.err 2 ||| bitAtPlace s.status.bandEnd 3 |||
    bitAtPlace s.status.unmatched 4 ||| bitAtPlace s.status.overrun 5 ||| (s.status.errCode.toByte.setWidth 32) <<< 8

/-- `irq = CTRL.IRQ_EN & STATUS.DONE` (spec/60_exceptions.md R315, R316). -/
def State.irq (s : State) : Bool := s.ctrl.irqEn && s.status.done

/-- `TABLE_VALIDc` as it reads (spec/10_state.md R48). -/
def TableValid.toWord (v : TableValid) : Word :=
  bitAtPlace v.newcodes 0 ||| bitAtPlace v.fastbook 1 ||| bitAtPlace v.fastbookLegacy 2 ||| bitAtPlace v.valuebook 3 |||
    bitAtPlace v.cbReplaced 4 ||| bitAtPlace v.bandEnd 5

/-- `CS_FLAGS` as it reads (spec/10_state.md R50). -/
def CompandFlags.toWord (f : CompandFlags) : Word :=
  bitAtPlace f.notNeeded 0 ||| bitAtPlace f.cubic 1 ||| bitAtPlace f.more 2

/-- The defined bits of a word written to `CS_FLAGS` (R50). -/
def CompandFlags.ofWord (w : Word) : CompandFlags := ⟨w.getLsbD 0, w.getLsbD 1, w.getLsbD 2⟩

/-- `FSM_FLAGS` as it reads (spec/10_state.md R53). -/
def FsmFlags.toWord (f : FsmFlags) : Word :=
  f.policy.toWord ||| bitAtPlace f.compandingDone 30 ||| bitAtPlace f.initialized 31

/-- `PARAMS` as it reads (spec/10_state.md R36): `NUM_CODESETS`, the sign codes, `L`, `S`, `K` and `N` from the top. -/
def paramsWord (p : Params) : Word :=
  0#5 ++ 3#2 ++ p.negativeCode ++ p.positiveCode ++ BitVec.ofNat 6 p.longSize ++ BitVec.ofNat 5 p.valueSize ++
    BitVec.ofNat 5 p.indexSize ++ 12#5

/-! ### Companding policies -/

/-- The policies a command can apply (spec/40_table_generator.md R171, spec/41_fsm_tables.md R204). -/
inductive Policy where
  | notNeeded | cubic | legacy
  deriving DecidableEq, Repr

/-- The policy that flags select, or the failure: both exclusive policies are `BAD_FLAGS`, and the second legacy stage, whose
formula no source gives, is `UNSUPPORTED` (R171, R176, R204, R207). `info` is the flags word. `MORE` is ignored outside the legacy
policy. -/
def CompandFlags.policy (f : CompandFlags) (info : Word) : Except Failure Policy :=
  if f.notNeeded && f.cubic then .error ⟨.badFlags, info.toNat⟩
  else if f.notNeeded then .ok .notNeeded
  else if f.cubic then .ok .cubic
  else if f.more then .error ⟨.unsupported, info.toNat⟩
  else .ok .legacy

/-- The law `m + floor(768 * m^3 / 2^24)`, computed exactly (R170, R205). -/
def cubicExpand (m : Nat) : Nat := m + 768 * m ^ 3 / 2 ^ 24

/-- `ScaleCubic(v)` (spec/41_fsm_tables.md R205). -/
def scaleCubic (v : Int) : Int :=
  if v.natAbs < 264 then (if v < 0 then -(cubicExpand v.natAbs : Int) else cubicExpand v.natAbs) else v

/-- `ScaleLegacy(v)` (spec/41_fsm_tables.md R206): the negative branch has no lower bound. -/
def scaleLegacy (v : Int) : Int :=
  if 40 ≤ v ∧ v < 264 then (v - 40) * 4 + 40
  else if v ≤ -40 then -((-v - 40) * 4 + 40)
  else v

/-! ### Kinds of a fast-lookup entry -/

/-- The three kinds of spec/30_encoding.md R123. -/
inductive FastKind where
  | complete | marker | unmatched
  deriving DecidableEq, Repr

/-- A complete decode has a count of at least 1, a continuation marker has count 0 and shift `N` (R123). -/
def FastEntry.kind (e : FastEntry) : FastKind :=
  if e.count ≠ 0 then .complete else if e.shift = BitVec.ofNat 6 Config.windowSize then .marker else .unmatched

end Sys2Proof.Machine
end

