-- ==== Sys2Proof/Machine/Operands.lean ====
section
/-!
DEFINITION. The operands of the commands: the codeset field, the records of the static data in SRCMEM
(spec/20_memory.md R82, R83), their validation (spec/40_table_generator.md R140 to R142) and the entries of the table RAMs.
-/

namespace Sys2Proof.Machine

/-- A command of format C or CI: `cs = 3` fails with `BAD_CODESET` before any other effect, with the command word as its
information (spec/60_exceptions.md R301 to R303). -/
def State.onCodeset (s : State) (cs : BitVec 2) (k : CsId → State) : State :=
  match CsId.ofField cs with
  | none => s.fail ⟨.badCodeset, s.cmd.toNat⟩
  | some c => k c

/-! ### Records in SRCMEM -/

/-- An entry of a codebook as mathematical integers (spec/00_scope.md R12). A run-length or magnitude entry has the fields its
record has; the others are 0. -/
structure BookEntry where
  bits : Nat
  size : Nat
  count : Nat
  value : Int
  deriving DecidableEq, Repr

/-- An RLE entry, `RLC_BASE + 3*j`; its value is taken as 0 (R82, spec/90_conflicts.md C2). -/
def State.rleAt (s : State) (c : CsId) (site : Site) (j : Nat) : BookEntry :=
  let a := (s.codeset c).rlcBase + BitVec.ofNat 32 (3 * j)
  { bits := (s.srcRead (site ++ [0]) a).toNat
    size := (s.srcRead (site ++ [1]) (a + 1)).toNat
    count := (s.srcRead (site ++ [2]) (a + 2)).toNat
    value := 0 }

/-- An RLV entry, `RLV_BASE + 4*j`; its value word is signed (R82). -/
def State.rlvAt (s : State) (c : CsId) (site : Site) (j : Nat) : BookEntry :=
  let a := (s.codeset c).rlvBase + BitVec.ofNat 32 (4 * j)
  { bits := (s.srcRead (site ++ [0]) a).toNat
    size := (s.srcRead (site ++ [1]) (a + 1)).toNat
    count := (s.srcRead (site ++ [2]) (a + 2)).toNat
    value := (s.srcRead (site ++ [3]) (a + 3)).toInt }

/-- A `VLCBOOK` entry, `MAG_BASE + 2*m` (R82). -/
def State.vlcAt (s : State) (c : CsId) (site : Site) (m : Nat) : BookEntry :=
  let a := (s.codeset c).magBase + BitVec.ofNat 32 (2 * m)
  { bits := (s.srcRead (site ++ [0]) a).toNat
    size := (s.srcRead (site ++ [1]) (a + 1)).toNat
    count := 0
    value := 0 }

/-- The two packed words of an `FSMARRAY` entry (spec/20_memory.md R83). -/
def FsmEntry.ofWords (w0 w1 : Word) : FsmEntry where
  nextState := w0.extractLsb' 0 16
  preSkip := w0.extractLsb' 16 8
  postSkip := w0.extractLsb' 24 8
  value0 := w1.extractLsb' 0 16
  value1 := w1.extractLsb' 16 16

/-- The state and skip counts of an entry packed as `w0` (R83). -/
def FsmEntry.stateWord (e : FsmEntry) : Word := e.postSkip ++ e.preSkip ++ e.nextState

/-- The two values of an entry packed as `w1` (R83). -/
def FsmEntry.valueWord (e : FsmEntry) : Word := e.value1 ++ e.value0

/-- `FsmEntryRead(c, e)` (spec/41_fsm_tables.md R200). -/
def State.fsmArrayAt (s : State) (c : CsId) (site : Site) (e : Nat) : FsmEntry :=
  let a := (s.codeset c).fsmBase + BitVec.ofNat 32 (2 * e)
  FsmEntry.ofWords (s.srcRead (site ++ [0]) (a + 1)) (s.srcRead (site ++ [1]) (a + 2))

/-! ### Validation -/

/-- The entry breaks the limits of R140. -/
def BookEntry.badRun (e : BookEntry) : Bool :=
  e.size < 1 || e.size > 31 || e.bits ≥ 2 ^ e.size || e.count < 1

/-- The entry breaks the limits of R141. -/
def BookEntry.badRunValue (e : BookEntry) : Bool := e.badRun || e.value == -2 ^ 31

/-- Entry `m` of the magnitude book breaks the limits of R142. -/
def BookEntry.badMagnitude (e : BookEntry) (budget m : Nat) : Bool :=
  e.size < 1 || e.size > (if m = 0 then budget else budget - 2) || e.bits ≥ 2 ^ e.size

/-- The index, in rising order, of the first of `n` entries that is bad. -/
def firstBad (n : Nat) (bad : Nat → Bool) : Option Nat := (List.range' 0 n).find? bad

/-- `ValidateRLE(c)` (R140). -/
def State.validateRle (s : State) (c : CsId) (site : Site) : Option Failure :=
  (firstBad (s.codeset c).rlcLen.toNat fun j => (s.rleAt c (site ++ [j]) j).badRun).map fun j => ⟨.invalidCodebook, j⟩

/-- `ValidateRLV(c)` (R141). -/
def State.validateRlv (s : State) (c : CsId) (site : Site) : Option Failure :=
  (firstBad (s.codeset c).rlvLen.toNat fun j => (s.rlvAt c (site ++ [j]) j).badRunValue).map fun j => ⟨.invalidCodebook, j⟩

/-- `ValidateVLC(c)` (R142). -/
def State.validateVlc (s : State) (c : CsId) (site : Site) : Option Failure :=
  if (s.codeset c).magLen = 0 then some ⟨.invalidCodebook, 0xFFFFFFFF⟩
  else (firstBad (s.codeset c).magLen.toNat fun m => (s.vlcAt c (site ++ [m]) m).badMagnitude s.params.budget m).map
    fun m => ⟨.invalidCodebook, m⟩

/-! ### Entries of the table RAMs, with what an unwritten entry reads as (spec/10_state.md R65, log entry 2) -/

def NewCode.ofBits (b : BitVec 96) : NewCode := ⟨b.extractLsb' 0 32, b.extractLsb' 32 6, b.extractLsb' 64 16⟩
def FastEntry.ofBits (b : BitVec 96) : FastEntry := ⟨b.extractLsb' 0 32, b.extractLsb' 32 32, b.extractLsb' 64 6⟩
def ValueEntry.ofBits (b : BitVec 96) : ValueEntry := ⟨b.extractLsb' 0 32, b.extractLsb' 32 6⟩
def FsmEntry.ofBits (b : BitVec 96) : FsmEntry := FsmEntry.ofWords (b.extractLsb' 0 32) (b.extractLsb' 32 32)
def WorkEntry.ofBits (b : BitVec 96) : WorkEntry := ⟨b.extractLsb' 0 32, b.extractLsb' 32 6, b.extractLsb' 64 32⟩

/-- The unspecified contents of the four tables of a codeset and of the two block-wide tables, named by their `TID`
(spec/10_state.md R45). -/
def freeNewcode (c : CsId) (i generation version : Nat) : NewCode := .ofBits (Config.ramContent 0 c.toNat generation version i)
def freeFastbook (c : CsId) (i generation version : Nat) : FastEntry := .ofBits (Config.ramContent 1 c.toNat generation version i)
def freeValuebook (c : CsId) (i generation version : Nat) : ValueEntry := .ofBits (Config.ramContent 2 c.toNat generation version i)
def freeFsm (c : CsId) (i generation version : Nat) : FsmEntry := .ofBits (Config.ramContent 3 c.toNat generation version i)
def freeCubic (i generation version : Nat) : BitVec 8 := (Config.ramContent 4 0 generation version i).extractLsb' 0 8
def freeWork (i generation version : Nat) : WorkEntry := .ofBits (Config.ramContent 5 0 generation version i)

def State.newcodeAt (s : State) (c : CsId) (i : Nat) : NewCode := (s.codeset c).newcodes.entry (freeNewcode c i) i
def State.fastbookAt (s : State) (c : CsId) (i : Nat) : FastEntry := (s.codeset c).fastbook.entry (freeFastbook c i) i
def State.valuebookAt (s : State) (c : CsId) (i : Nat) : ValueEntry := (s.codeset c).valuebook.entry (freeValuebook c i) i
def State.fsmAt (s : State) (c : CsId) (i : Nat) : FsmEntry := (s.codeset c).fsm.entry (freeFsm c i) i
def State.cubicAt (s : State) (i : Nat) : BitVec 8 := s.cubic.entry (freeCubic i) i
def State.workAt (s : State) (i : Nat) : WorkEntry := s.work.entry (freeWork i) i

end Sys2Proof.Machine
end

