-- ==== Sys2Proof/Machine/TableGen.lean ====
section
/-!
DEFINITION. The table generator commands (spec/40_table_generator.md): the run-length code table, bit-pattern matching, the two
fast-lookup algorithms, the signed-value table, the cubic table and the composite `INIT_CODEBOOKS`.

The first index of every read site names the command body, so that the bodies of a composite command have sites of their own:
0 run-length, 1 scan, 2 legacy, 3 signed values, 4 FSM load, 5 band end, 6 MATCH_PATTERN, 7 and up the decode steps.
-/

namespace Sys2Proof.Machine

/-! ### Run-length code table (R143 to R150) -/

/-- An RLE record as it is stored in `WORK` (R143, spec/00_scope.md R10). -/
def BookEntry.toWork (e : BookEntry) : WorkEntry := ⟨BitVec.ofNat 32 e.bits, BitVec.ofNat 6 e.size, BitVec.ofNat 32 e.count⟩

/-- `has1`: some entry of the run-length codebook has count 1 (R143). -/
def State.hasCountOne (s : State) (c : CsId) : Bool :=
  (List.range' 0 (s.codeset c).rlcLen.toNat).any fun j => (s.rleAt c [0, 1, j] j).count == 1

/-- `j0`: the first entry whose count an earlier entry has (R143). -/
def State.firstDuplicate (s : State) (c : CsId) : Option Nat :=
  (List.range' 0 (s.codeset c).rlcLen.toNat).find? fun j =>
    (List.range' 0 j).any fun i => (s.rleAt c [0, 2, j, i, 0] i).count == (s.rleAt c [0, 2, j, i, 1] j).count

/-- The isolated-zero codeword is no codeword (R143). -/
def Codeset.badZeroCode (k : Codeset) : Bool :=
  k.zeroSize.toNat < 1 || k.zeroSize.toNat > 31 || k.zeroBits.toNat ≥ 2 ^ k.zeroSize.toNat

/-- The isolated-zero codeword as the count-1 entry it stands for (spec/10_state.md R52). -/
def Codeset.zeroEntry (k : Codeset) : WorkEntry := ⟨k.zeroBits, k.zeroSize.setWidth 6, 1⟩

/-- The entries `SORT_RUNLENGTH` copies: the codebook, and the isolated zero if no entry has count 1 (R143). -/
def State.copiedRuns (s : State) (c : CsId) (hasOne : Bool) : List WorkEntry :=
  (List.range' 0 (s.codeset c).rlcLen.toNat).map (fun j => (s.rleAt c [0, 3, j] j).toWork) ++
    if hasOne then [] else [(s.codeset c).zeroEntry]

/-- A stable sort by decreasing count (R143). -/
def sortRuns (l : List WorkEntry) : List WorkEntry := l.insertionSort (fun a b => b.count.toNat ≤ a.count.toNat)

/-- `SortRunLength(c)` (R143). -/
def State.sortRunLength (s : State) (c : CsId) : Body :=
  match s.validateRle c [0, 0] with
  | some f => .failed f s
  | none =>
    let n := (s.codeset c).rlcLen.toNat
    let hasOne := s.hasCountOne c
    let need := if hasOne then n else n + 1
    if need > s.params.rlcMaxEntries then .failed ⟨.outOfMemory, need⟩ s
    else if !hasOne && (s.codeset c).badZeroCode then .failed ⟨.invalidCodebook, n⟩ s
    else
      match s.firstDuplicate c with
      | some j => .failed ⟨.invalidCodebook, j⟩ s
      | none =>
        .done { s with
          work := s.work.store (sortRuns (s.copiedRuns c hasOne))
          workLen := BitVec.ofNat 32 need
          result0 := BitVec.ofNat 32 need }

/-- A partial composition: the composite codeword, its size and the run length still to cover (R148). -/
structure Composite where
  code : Nat
  size : Nat
  remaining : Nat
  deriving DecidableEq, Repr

/-- Up to `reps` more codewords of one class; the class is left at once when the next one would exceed the budget (R147). -/
def Composite.append (budget : Nat) (e : WorkEntry) : Nat → Composite → Composite
  | 0, a => a
  | reps + 1, a =>
    if a.size + e.size.toNat > budget then a
    else
      Composite.append budget e reps
        { code := a.code <<< e.size.toNat ||| e.bits.toNat
          size := a.size + e.size.toNat
          remaining := a.remaining - e.count.toNat }

/-- The repetitions of a class, `remaining / count` (R146). The checks of R140 and R143 exclude count 0. A racing write can put it
into `WORK` after them (each read is a read of its own, R93), and R12 gives no quotient by 0: DESIGN CHOICE, a free value (log
entry 22). -/
def repetitions (remaining count : Nat) : Nat := if count = 0 then Config.zeroDivision remaining else remaining / count

/-- One class of `WORK`: applicable when its count is at most `remaining`, with the repetitions computed once (R146). -/
def Composite.visit (budget : Nat) (a : Composite) (e : WorkEntry) : Composite :=
  if e.count.toNat ≤ a.remaining then Composite.append budget e (repetitions a.remaining e.count.toNat) a else a

/-- The composition of run length `r` from the largest class to the smallest (R146, R148). -/
def composition (budget : Nat) (work : List WorkEntry) (r : Nat) : Composite :=
  work.foldl (Composite.visit budget) ⟨0, 0, r⟩

/-- `Compose(r)` (R148): the stored count is the covered length (R149). -/
def compose (budget : Nat) (work : List WorkEntry) (r : Nat) : NewCode :=
  let a := composition budget work r
  ⟨BitVec.ofNat 32 a.code, BitVec.ofNat 6 a.size, BitVec.ofNat 16 (r - a.remaining)⟩

/-- `WORK[0 .. WORK_LEN-1]`. -/
def State.workList (s : State) : List WorkEntry := (List.range' 0 s.workLen.toNat).map s.workAt

/-- The start of `BUILD_RUNLENGTH` (R150): the table is invalid, and its entries are unspecified (U1). -/
def State.startRunLength (s : State) (c : CsId) : State :=
  let k := s.codeset c
  s.setCodeset c { k with newcodes := k.newcodes.forget, valid := { k.valid with newcodes := false } }

/-- The body of `BUILD_RUNLENGTH` (R150). -/
def State.buildRunLength (s : State) (c : CsId) : Body :=
  let s := s.startRunLength c
  (s.sortRunLength c).andThen fun s =>
    let codes := (List.range' 0 Config.newCodebookLength).map (compose s.params.budget s.workList)
    let k := s.codeset c
    .done { s.setCodeset c { k with newcodes := k.newcodes.rebuild codes, valid := { k.valid with newcodes := true } } with
      result0 := s.workLen }

/-! ### Bit-pattern matching (R155 to R158) -/

/-- A book as its entries are read: `book site j` is entry `j` read at `site`. -/
abbrev Book := Site → Nat → BookEntry

/-- What `Match` reports with `OKAY`; `NOTFOUND` is `none` (R155, R157). -/
structure MatchHit where
  count : Nat
  value : Int
  shift : Nat
  deriving DecidableEq, Repr

/-- The codeword of `e` is `size` bits long and equals the leading bits of the `width`-bit window `w` (R155). -/
def BookEntry.leads (e : BookEntry) (w width size : Nat) : Bool := e.size == size && w >>> (width - size) == e.bits

/-- The first entry, in book order, of the given size that leads the window (R158). -/
def matchSize (book : Book) (len : Nat) (site : Site) (w width size : Nat) : Option BookEntry :=
  ((List.range' 0 len).find? fun j => (book (site ++ [size, j]) j).leads w width size).map
    fun j => book (site ++ [size, j]) j

/-- The value of a matched entry with the sign code that follows it; none if the window does not hold the sign code
(R155 to R157). -/
def signedHit (p : Params) (w width size : Nat) (e : BookEntry) : Option MatchHit :=
  if e.value = 0 then some ⟨e.count, 0, size⟩
  else if size + 2 > width then none
  else if BitVec.ofNat 2 (w >>> (width - size - 2)) = p.negativeCode then some ⟨e.count, -e.value, size + 2⟩
  else some ⟨e.count, e.value, size + 2⟩

/-- `Match(word, width, book, len)` (R155): sizes in rising order, book order within a size (R158). -/
def matchPattern (p : Params) (word width : Nat) (book : Book) (len : Nat) (site : Site) : Option MatchHit :=
  let w := word % 2 ^ width
  match (List.range' 1 (min width 31)).findSome? fun size => (matchSize book len site w width size).map (size, ·) with
  | none => none
  | some (size, e) => signedHit p w width size e

/-! ### Fast lookup table, scan algorithm (R160 to R165) -/

def FastEntry.unmatched : FastEntry := ⟨0, 0, 0⟩

/-- The stored entry `(count, value, shift)` (spec/00_scope.md R10). -/
def FastEntry.ofParts (count : Nat) (value : Int) (shift : Nat) : FastEntry :=
  ⟨BitVec.ofNat 32 count, BitVec.ofInt 32 value, BitVec.ofNat 6 shift⟩

/-- The `value` field of the marker of book entry `j` (R164): `j`, where the signed 32-bit field of R58 can hold it. DESIGN CHOICE:
for an index of 2^31 or more, which `RLC_LEN` admits in the legacy fill (R167), no rule says what is stored, and the field holds a
free value (log entry 24). -/
def indexField (j : Nat) : Word := if j < 2 ^ 31 then BitVec.ofNat 32 j else Config.wideIndex j

/-- The continuation marker of book entry `j` (R164). -/
def FastEntry.continuation (j : Nat) : FastEntry := ⟨0, indexField j, BitVec.ofNat 6 Config.windowSize⟩

/-- A combination of more than `N` bits whose leading `N` bits are the index (R163). -/
def overflows (bits size idx : Nat) : Bool := size > Config.windowSize && bits >>> (size - Config.windowSize) == idx

/-- Entry `e` has such a combination: the codeword alone, or followed by either sign code (R163). -/
def BookEntry.marks (p : Params) (e : BookEntry) (idx : Nat) : Bool :=
  overflows e.bits e.size idx ||
    e.value ≠ 0 && (overflows (e.bits <<< 2 ||| p.positiveCode.toNat) (e.size + 2) idx ||
      overflows (e.bits <<< 2 ||| p.negativeCode.toNat) (e.size + 2) idx)

/-- `MarkerScan(idx)` (R163). -/
def markerScan (p : Params) (book : Book) (len : Nat) (site : Site) (idx : Nat) : FastEntry :=
  match (List.range' 0 len).find? fun j => (book (site ++ [j]) j).marks p idx with
  | some j => .continuation j
  | none => .unmatched

/-- How the loop of `ScanEntry` ends (R160): with a complete entry, with nothing consumed, or with a count that does not fit
32 bits (R161). -/
inductive ScanEnd where
  | entry (count : Nat) (value : Int) (shift : Nat)
  | nothing
  | overflow
  deriving DecidableEq, Repr

/-- The loop of `ScanEntry` (R160). Every match consumes at least one bit, so `N` iterations are enough. -/
def scanLoop (p : Params) (book : Book) (len : Nat) (site : Site) (idx : Nat) : (fuel rem cnt sh : Nat) → ScanEnd
  | 0, _, cnt, sh => if sh > 0 then .entry cnt 0 sh else .nothing
  | fuel + 1, rem, cnt, sh =>
    if rem = 0 then (if sh > 0 then .entry cnt 0 sh else .nothing)
    else
      match matchPattern p (idx % 2 ^ rem) rem book len (site ++ [rem]) with
      | none => if sh > 0 then .entry cnt 0 sh else .nothing
      | some m =>
        if cnt + m.count > 2 ^ 32 - 1 then .overflow
        else if m.value ≠ 0 then .entry (cnt + m.count) m.value (sh + m.shift)
        else scanLoop p book len site idx fuel (rem - m.shift) (cnt + m.count) (sh + m.shift)

/-- `ScanEntry(idx)` (R160, R162); none where it fails per R161. -/
def scanEntry (p : Params) (book : Book) (len : Nat) (site : Site) (idx : Nat) : Option FastEntry :=
  match scanLoop p book len (site ++ [0, idx]) idx Config.windowSize Config.windowSize 0 0 with
  | .entry cnt v sh => some (.ofParts cnt v sh)
  | .nothing => some (markerScan p book len (site ++ [1, idx]) idx)
  | .overflow => none

/-- Entries `idx`, `idx + 1`, … of a fill, up to the first index whose entry fails, and that index. -/
def fillEntries (f : Nat → Option FastEntry) : (fuel idx : Nat) → List FastEntry × Option Nat
  | 0, _ => ([], none)
  | fuel + 1, idx =>
    match f idx with
    | none => ([], some idx)
    | some e => (e :: (fillEntries f fuel (idx + 1)).1, (fillEntries f fuel (idx + 1)).2)

/-- How many entries of a table are of a kind (R165, R169). -/
def countKind (k : FastKind) (l : List FastEntry) : Nat := l.countP fun e => e.kind == k

/-- The end of a fill (R165, R169): if an entry failed the fill ends there (R161), and the entries it had written stay unspecified
(U16); else the kinds are counted, `STATUS.UNMATCHED` is set if one is unmatched, and the table is valid. -/
def State.finishFill (s : State) (c : CsId) (legacy : Bool) (filled : List FastEntry × Option Nat) : Body :=
  let k := s.codeset c
  match filled.2 with
  | some idx => .failed ⟨.invalidCodebook, idx⟩ (s.setCodeset c { k with fastbook := k.fastbook.spoil filled.1.length })
  | none =>
    .done { s.setCodeset c { k with
              fastbook := k.fastbook.rebuild filled.1
              valid := { k.valid with fastbook := true, fastbookLegacy := legacy } } with
      status := { s.status with unmatched := s.status.unmatched || decide (countKind .unmatched filled.1 > 0) }
      result0 := BitVec.ofNat 32 (countKind .complete filled.1)
      result1 := BitVec.ofNat 32 (countKind .marker filled.1)
      result2 := BitVec.ofNat 32 (countKind .unmatched filled.1) }

/-- The start of either fill (R165, R169, spec/10_state.md R48): the table is invalid, and its entries are unspecified (U1). -/
def State.startFill (s : State) (c : CsId) : State :=
  let k := s.codeset c
  s.setCodeset c { k with
    fastbook := k.fastbook.forget, valid := { k.valid with fastbook := false, fastbookLegacy := false } }

/-- The body of `FILL_SCAN_LUT` (R165). -/
def State.fillScanLut (s : State) (c : CsId) : Body :=
  let s := s.startFill c
  match s.validateRlv c [1, 0] with
  | some f => .failed f s
  | none =>
    s.finishFill c false
      (fillEntries (scanEntry s.params (s.rlvAt c) (s.codeset c).rlvLen.toNat [1, 1]) Config.fastbookDepth 0)

/-! ### Fast lookup table, legacy algorithm (R167 to R169) -/

/-- The number of leading zero bits of an `n`-bit value, `n` for 0. -/
def leadingZeros (n v : Nat) : Nat := ((List.range' 0 n).find? fun i => v.testBit (n - 1 - i)).getD n

/-- The first RLE entry of at most `N` bits, sizes in rising order, that leads the index (R167). -/
def legacyMatch (book : Book) (len : Nat) (site : Site) (idx : Nat) : Option (Nat × BookEntry) :=
  (List.range' 1 Config.windowSize).findSome? fun size =>
    (matchSize book len site idx Config.windowSize size).map (size, ·)

/-- `LegacyEntry(idx)` (R167). The rule names `RLE[j]` on several lines of one iteration and does not say how often it is read:
DEDUCED, once, and the record read serves the match, the isolated-zero test and the result; the loop for the markers, which
follows, reads it anew (log entry 14). -/
def legacyEntry (book : Book) (len : Nat) (site : Site) (idx : Nat) : FastEntry :=
  match legacyMatch book len (site ++ [0, idx]) idx with
  | some (size, e) =>
    if e.bits = 0 ∧ size = 1 ∧ e.count = 1 then
      .ofParts (leadingZeros Config.windowSize idx) 0 (leadingZeros Config.windowSize idx)
    else .ofParts e.count 0 size
  | none =>
    match (List.range' 0 len).find? fun j =>
        overflows (book (site ++ [1, idx, j]) j).bits (book (site ++ [1, idx, j]) j).size idx with
    | some j => .continuation j
    | none => .unmatched

/-- The body of `FILL_CODE_LUT` (R169). -/
def State.fillCodeLut (s : State) (c : CsId) : Body :=
  let s := s.startFill c
  match s.validateRle c [2, 0] with
  | some f => .failed f s
  | none =>
    s.finishFill c true
      (fillEntries (fun idx => some (legacyEntry (s.rleAt c) (s.codeset c).rlcLen.toNat [2, 1] idx)) Config.fastbookDepth 0)

/-! ### Signed-value table (R170 to R179) -/

/-- The magnitude `m` recorded for, clamped to 1023 (R170). -/
def cubicSlot (m : Nat) : Nat := min (cubicExpand m) 1023

/-- The first pass of `BuildCubic` (R170): the last writer wins. -/
def cubicMarks : List Nat :=
  (List.range' 1 255).foldl (fun t m => t.set (cubicSlot m) m) (List.replicate Config.cubicLength 0)

/-- The second pass of `BuildCubic` (R170): each gap takes the most recent entry that is not 0. -/
def forwardFill : (last : Nat) → List Nat → List Nat
  | _, [] => []
  | last, m :: rest => if m = 0 then last :: forwardFill last rest else m :: forwardFill m rest

/-- `BuildCubic()` (R170). -/
def State.buildCubic (s : State) : State :=
  { s with cubic := s.cubic.store ((forwardFill 0 cubicMarks).map (BitVec.ofNat 8)) }

/-- `Fold(idx)` (R172): the two's-complement value of a `valuebook` index. -/
def foldIndex (valueSize idx : Nat) : Int :=
  if idx ≥ 2 ^ (valueSize - 1) then -(2 ^ (valueSize - 1) : Int) + (idx % 2 ^ (valueSize - 1) : Nat) else idx

/-- Legacy companding (R175). -/
def compandLegacy (mag : Nat) : Nat := if mag < 40 then mag else 40 + (mag - 40 + 2) >>> 2

/-- `Compand_p(mag)` (R173 to R175). -/
def State.compand (s : State) (p : Policy) (mag : Nat) : Nat :=
  match p with
  | .notNeeded => mag
  | .cubic => (s.cubicAt (min mag 1024)).toNat
  | .legacy => compandLegacy mag

/-- What the 32-bit `codeword` field holds of a code (spec/10_state.md R59). R142 lets `VLCBOOK[0]` have 31 bits where `L = 32`, and
with `MAG_LEN = 1` a non-zero value's code is then 33 bits long; no rule says what is stored: DESIGN CHOICE, a free value (log
entry 23). -/
def codeField (code : Nat) : Word := if code < 2 ^ 32 then BitVec.ofNat 32 code else Config.wideCode code

/-- The sign append of R178 to a magnitude codeword. -/
def signAppend (p : Params) (v : Int) (e : BookEntry) : ValueEntry :=
  if v > 0 then ⟨codeField (e.bits <<< 2 ||| p.positiveCode.toNat), BitVec.ofNat 6 (e.size + 2)⟩
  else if v < 0 then ⟨codeField (e.bits <<< 2 ||| p.negativeCode.toNat), BitVec.ofNat 6 (e.size + 2)⟩
  else ⟨codeField e.bits, BitVec.ofNat 6 e.size⟩

/-- Entry `idx` of `VALUEBOOK[c]` under a policy (R177, R179). -/
def State.valueEntry (s : State) (c : CsId) (p : Policy) (idx : Nat) : ValueEntry :=
  let v := foldIndex s.params.valueSize idx
  let m := min (s.compand p v.natAbs) ((s.codeset c).magLen.toNat - 1)
  signAppend s.params v (s.vlcAt c [3, 1, idx] m)

/-- The start of `FILL_VLC_TABLE` (R179): the table is invalid, and its entries are unspecified (U1). -/
def State.startValues (s : State) (c : CsId) : State :=
  let k := s.codeset c
  s.setCodeset c { k with valuebook := k.valuebook.forget, valid := { k.valid with valuebook := false } }

/-- The body of `FILL_VLC_TABLE` (R179). -/
def State.fillVlcTable (s : State) (c : CsId) : Body :=
  let s := s.startValues c
  match (s.codeset c).csFlags.policy (s.codeset c).csFlags.toWord with
  | .error f => .failed f s
  | .ok p =>
    match s.validateVlc c [3, 0] with
    | some f => .failed f s
    | none =>
      let s := if p = .cubic then s.buildCubic else s
      let k := s.codeset c
      .done { s.setCodeset c { k with
                valuebook := k.valuebook.rebuild ((List.range' 0 (2 ^ s.params.valueSize)).map (s.valueEntry c p))
                valid := { k.valid with valuebook := true } } with
        result0 := BitVec.ofNat 32 (2 ^ s.params.valueSize) }

/-! ### Composite initialisation (R186, R187) -/

/-- The first two bodies of `INIT_CODEBOOKS` (R186). -/
def State.initLookup (s : State) (c : CsId) : Body :=
  (s.buildRunLength c).andThen fun s => if s.ctrl.lutLegacy then s.fillCodeLut c else s.fillScanLut c

/-- The third body of `INIT_CODEBOOKS`, and its end (R186). -/
def State.initValues (s : State) (c : CsId) : Body :=
  (s.fillVlcTable c).andThen fun s =>
    .done { s.setValid c { (s.codeset c).valid with cbReplaced := true } with result0 := 1 }

/-- The body of `INIT_CODEBOOKS` (R186). -/
def State.initCodebooks (s : State) (c : CsId) : Body :=
  if (s.codeset c).valid.cbReplaced then .done { s with result0 := 0 }
  else (s.initLookup c).andThen fun s => s.initValues c

/-! ### The commands -/

/-- `SORT_RUNLENGTH` (R143). -/
def execSortRunlength (cs : BitVec 2) (s : State) : Host.Outcome State Fault Refusal :=
  .next (s.onCodeset cs fun c => (s.sortRunLength c).finish)

/-- `BUILD_RUNLENGTH` (R150). -/
def execBuildRunlength (cs : BitVec 2) (s : State) : Host.Outcome State Fault Refusal :=
  .next (s.onCodeset cs fun c => (s.buildRunLength c).finish)

/-- `FILL_SCAN_LUT` (R165). -/
def execFillScanLut (cs : BitVec 2) (s : State) : Host.Outcome State Fault Refusal :=
  .next (s.onCodeset cs fun c => (s.fillScanLut c).finish)

/-- `FILL_CODE_LUT` (R169). -/
def execFillCodeLut (cs : BitVec 2) (s : State) : Host.Outcome State Fault Refusal :=
  .next (s.onCodeset cs fun c => (s.fillCodeLut c).finish)

/-- `FILL_VLC_TABLE` (R179). -/
def execFillVlcTable (cs : BitVec 2) (s : State) : Host.Outcome State Fault Refusal :=
  .next (s.onCodeset cs fun c => (s.fillVlcTable c).finish)

/-- `BUILD_CUBIC` (R185). -/
def execBuildCubic (s : State) : Host.Outcome State Fault Refusal :=
  .next s.buildCubic.complete

/-- `INIT_CODEBOOKS` (R186). -/
def execInitCodebooks (cs : BitVec 2) (s : State) : Host.Outcome State Fault Refusal :=
  .next (s.onCodeset cs fun c => (s.initCodebooks c).finish)

/-- `MATCH_PATTERN` (R159): `NOTFOUND` is a result, `RESULT3 = 1` (R157). -/
def State.matchCommand (s : State) (c : CsId) (width : Nat) : Body :=
  if width < 1 ∨ width > 32 then .failed ⟨.badOperand, width⟩ s
  else
    match s.validateRlv c [6, 0] with
    | some f => .failed f s
    | none =>
      match matchPattern s.params s.arg0.toNat width (s.rlvAt c) (s.codeset c).rlvLen.toNat [6, 1] with
      | some m =>
        .done { s with
          result0 := BitVec.ofNat 32 m.count
          result1 := BitVec.ofInt 32 m.value
          result2 := BitVec.ofNat 32 m.shift
          result3 := 0 }
      | none => .done { s with result0 := 0, result1 := 0, result2 := 0, result3 := 1 }

/-- `MATCH_PATTERN` (R159). -/
def execMatchPattern (cs : BitVec 2) (imm : BitVec 24) (s : State) : Host.Outcome State Fault Refusal :=
  .next (s.onCodeset cs fun c => (s.matchCommand c imm.toNat).finish)

end Sys2Proof.Machine
end

