-- ==== Sys2Proof/Machine/DecodeSteps.lean ====
section
/-!
DEFINITION. The decode commands (spec/43_decode.md): the fast-lookup step, the FSM step, the two runs, the FSM state set and
`NOP`. The read sites of step number `k` of a command begin with 7 and `k`.
-/

namespace Sys2Proof.Machine

/-! ### The steps (R250 to R254, R270) -/

/-- `BandEndCheck(c)` (R252): the state after the band-end code was consumed, or none where it is not there. -/
def State.bandEndCheck (s : State) (c : CsId) (site : Site) : Option State :=
  let k := s.codeset c
  if !s.ctrl.bandEndDetect || !k.valid.bandEnd then none
  else if s.bsPos.toNat + k.bandEndSize.toNat > s.bsLen.toNat then none
  else if s.peek site k.bandEndSize.toNat ≠ k.bandEndCode.toNat then none
  else some { s with bsPos := s.bsPos + k.bandEndSize, status := { s.status with bandEnd := true } }

/-- The outcomes of a successful step (R251) as `VLC_DECODE` numbers them in `RESULT3` (R255). -/
inductive StepKind where
  | fast | slow | bandEnd
  deriving DecidableEq, Repr

/-- `(kind, k, v, s)` of `VlcStep` (R253). -/
structure VlcStep where
  kind : StepKind
  count : Word
  value : Word
  shift : Word
  deriving DecidableEq, Repr

/-- The book a marker's table was built from, read at the time of the step (R254). -/
def State.slowMatch (s : State) (c : CsId) (site : Site) : Option MatchHit :=
  let k := s.codeset c
  let w := s.peek (site ++ [0]) 32
  if k.valid.fastbookLegacy then matchPattern s.params w 32 (s.rleAt c) k.rlcLen.toNat (site ++ [1])
  else matchPattern s.params w 32 (s.rlvAt c) k.rlvLen.toNat (site ++ [1])

/-- `SlowStep(c)` (R254): a negated value is taken modulo 2^32. -/
def State.slowStep (s : State) (c : CsId) (site : Site) : Except Failure (VlcStep × State) :=
  match s.slowMatch c site with
  | none => .error ⟨.decodeError, s.bsPos.toNat⟩
  | some m =>
    match s.consume m.shift with
    | .error f => .error f
    | .ok t => .ok (⟨.slow, BitVec.ofNat 32 m.count, BitVec.ofInt 32 m.value, BitVec.ofNat 32 m.shift⟩, t)

/-- `VlcStep(c)` (R253). A failed step has changed nothing (R251). -/
def State.vlcStep (s : State) (c : CsId) (site : Site) : Except Failure (VlcStep × State) :=
  match s.bandEndCheck c (site ++ [0]) with
  | some t => .ok (⟨.bandEnd, 0, 0, (s.codeset c).bandEndSize⟩, t)
  | none =>
    let e := s.fastbookAt c (s.peek (site ++ [1]) Config.windowSize)
    match e.kind with
    | .complete =>
      match s.consume e.shift.toNat with
      | .error f => .error f
      | .ok t => .ok (⟨.fast, e.count, e.value, e.shift.setWidth 32⟩, t)
    | .marker => s.slowStep c (site ++ [2])
    | .unmatched => .error ⟨.decodeError, s.bsPos.toNat⟩

/-- The FSM RAM index of the next lookahead in the current state (R270, spec/30_encoding.md R124). -/
def State.fsmIndex (s : State) (c : CsId) (site : Site) : Nat :=
  (s.codeset c).fsmState.toNat * 2 ^ s.params.indexSize + s.peek site s.params.indexSize

/-- `FsmStep(c)` (R270): no entry on a band-end step. -/
def State.fsmStep (s : State) (c : CsId) (site : Site) : Except Failure (Option FsmEntry × State) :=
  match s.bandEndCheck c (site ++ [0]) with
  | some t => .ok (none, t)
  | none =>
    let i := s.fsmIndex c (site ++ [1])
    let e := s.fsmAt c i
    if e.nextState.toNat ≥ (s.codeset c).fsmNumStates.toNat then .error ⟨.decodeError, i⟩
    else
      match s.consume (e.preSkip.toNat + e.postSkip.toNat) with
      | .error f => .error f
      | .ok t => .ok (some e, t.setCodeset c { t.codeset c with fsmState := e.nextState })

/-! ### Runs (R262, R275) -/

/-- One step of a run: the band-end code was found, or a record of two words was decoded. -/
abbrev RunStep := Except Failure (Option (Word × Word) × State)

/-- The loop of a run: `left` steps may still be made, `steps` have been. A failure ends the command with the steps completed
before it in `RESULT0` (R262, R275). -/
def runLoop (f : Nat → State → RunStep) : (left steps : Nat) → State → Body
  | 0, _, s => .done { s with result1 := 0 }
  | left + 1, steps, s =>
    match f steps s with
    | .error e => .failed e s
    | .ok (none, t) => .done { t with result1 := 1 }
    | .ok (some (w0, w1), t) =>
      runLoop f left (steps + 1) { t.emit w0 w1 with result0 := BitVec.ofNat 32 (steps + 1) }

/-- A step of `VLC_RUN`: the record is `count`, then `value` (R262, R263). -/
def vlcRunStep (c : CsId) (k : Nat) (s : State) : RunStep :=
  match s.vlcStep c [7, k] with
  | .error f => .error f
  | .ok (r, t) => if r.kind = .bandEnd then .ok (none, t) else .ok (some (r.count, r.value), t)

/-- A step of `FSM_RUN`: the record is the values word, then the state and skips word (R275, spec/90_conflicts.md C11). -/
def fsmRunStep (c : CsId) (k : Nat) (s : State) : RunStep :=
  match s.fsmStep c [7, k] with
  | .error f => .error f
  | .ok (none, t) => .ok (none, t)
  | .ok (some e, t) => .ok (some (e.valueWord, e.stateWord), t)

/-- The body of `VLC_RUN` (R262). -/
def State.vlcRun (s : State) (c : CsId) (n : Nat) : Body :=
  if !(s.codeset c).valid.fastbook then .failed ⟨.notInitialized, c.toNat⟩ s
  else runLoop (vlcRunStep c) n 0 { s with result0 := 0, result1 := 0 }

/-- The body of `FSM_RUN` (R275). -/
def State.fsmRun (s : State) (c : CsId) (n : Nat) : Body :=
  if !(s.codeset c).fsmFlags.initialized then .failed ⟨.notInitialized, c.toNat⟩ s
  else runLoop (fsmRunStep c) n 0 { s with result0 := 0, result1 := 0 }

/-! ### Single steps -/

/-- `RESULT3` of `VLC_DECODE` (R255). -/
def StepKind.toWord : StepKind → Word
  | .fast => 0
  | .slow => 1
  | .bandEnd => 2

/-- The body of `VLC_DECODE` (R255). -/
def State.vlcDecode (s : State) (c : CsId) : Body :=
  if !(s.codeset c).valid.fastbook then .failed ⟨.notInitialized, c.toNat⟩ s
  else
    match s.vlcStep c [7, 0] with
    | .error f => .failed f s
    | .ok (r, t) => .done { t with result0 := r.count, result1 := r.value, result2 := r.shift, result3 := r.kind.toWord }

/-- The body of `FSM_SET_STATE` (R265). -/
def State.fsmSetState (s : State) (c : CsId) (n : Nat) : Body :=
  let k := s.codeset c
  if !k.fsmFlags.initialized then .failed ⟨.notInitialized, c.toNat⟩ s
  else if n ≥ k.fsmNumStates.toNat then .failed ⟨.badOperand, n⟩ s
  else .done (s.setCodeset c { k with fsmState := BitVec.ofNat 16 n })

/-- The body of `FSM_STEP` (R271). -/
def State.fsmStepCommand (s : State) (c : CsId) : Body :=
  if !(s.codeset c).fsmFlags.initialized then .failed ⟨.notInitialized, c.toNat⟩ s
  else
    match s.fsmStep c [7, 0] with
    | .error f => .failed f s
    | .ok (none, t) => .done { t with result0 := 0, result1 := 0, result2 := 0, result3 := 2 }
    | .ok (some e, t) =>
      .done { t with
        result0 := e.value0.signExtend 32
        result1 := e.value1.signExtend 32
        result2 := e.stateWord
        result3 := 0 }

/-! ### The commands -/

/-- `VLC_DECODE` (R255). -/
def execVlcDecode (cs : BitVec 2) (s : State) : Host.Outcome State Fault Refusal :=
  .next (s.onCodeset cs fun c => (s.vlcDecode c).finish)

/-- `VLC_RUN` (R262). -/
def execVlcRun (cs : BitVec 2) (imm : BitVec 24) (s : State) : Host.Outcome State Fault Refusal :=
  .next (s.onCodeset cs fun c => (s.vlcRun c imm.toNat).finish)

/-- `FSM_SET_STATE` (R265). -/
def execFsmSetState (cs : BitVec 2) (imm : BitVec 24) (s : State) : Host.Outcome State Fault Refusal :=
  .next (s.onCodeset cs fun c => (s.fsmSetState c imm.toNat).finish)

/-- `FSM_STEP` (R271). -/
def execFsmStep (cs : BitVec 2) (s : State) : Host.Outcome State Fault Refusal :=
  .next (s.onCodeset cs fun c => (s.fsmStepCommand c).finish)

/-- `FSM_RUN` (R275). -/
def execFsmRun (cs : BitVec 2) (imm : BitVec 24) (s : State) : Host.Outcome State Fault Refusal :=
  .next (s.onCodeset cs fun c => (s.fsmRun c imm.toNat).finish)

/-- `NOP` (R280). -/
def execNop (s : State) : Host.Outcome State Fault Refusal := .next s.complete

end Sys2Proof.Machine
end

