-- ==== Sys2Proof/Machine/FsmTables.lean ====
section
/-!
DEFINITION. The FSM table commands (spec/41_fsm_tables.md): load, companding scale, band-end code, the composite
`INIT_DECODER_FSM` and `FREE_CODEBOOKS`. Read sites begin with 4 (load) and 5 (band end).
-/

namespace Sys2Proof.Machine

/-! ### Loading (R200 to R203) -/

/-- `ns` states do not fit: none, more than a 16-bit `next_state` names, or more entries than the RAM has (R202). -/
def badStateCount (p : Params) (ns : Nat) : Bool :=
  ns == 0 || ns > 65536 || ns * 2 ^ p.indexSize > p.fsmRamEntries

/-- The body of `LOAD_FSM` (R201): entries are copied unchecked (R203). -/
def State.loadFsm (s : State) (c : CsId) : Body :=
  let k := s.codeset c
  if k.fsmFlags.initialized || k.fsmNumStates ≠ 0 then .done { s with result0 := 0 }
  else
    let ns := s.srcRead [4, 0] k.fsmBase
    if badStateCount s.params ns.toNat then .failed ⟨.initFsm, ns.toNat⟩ s
    else
      .done { s.setCodeset c { k with
                fsm := k.fsm.store ((List.range' 0 (ns.toNat * 2 ^ s.params.indexSize)).map fun e => s.fsmArrayAt c [4, 1, e] e)
                fsmNumStates := ns
                fsmFlags := ⟨k.csFlags, false, true⟩
                fsmState := 0 } with
        result0 := ns }

/-! ### Companding scale (R204 to R210) -/

/-- The law a policy applies to a stored value (R204 to R206). Under `NOT_NEEDED` nothing is scaled. -/
def Policy.scale : Policy → Int → Int
  | .notNeeded, v => v
  | .cubic, v => scaleCubic v
  | .legacy, v => scaleLegacy v

/-- The scale changes the entry's `value0` (R204). -/
def FsmEntry.changes (p : Policy) (e : FsmEntry) : Bool := p.scale e.value0.toInt ≠ e.value0.toInt

/-- The scaled entry: `value0` is stored modulo 2^16 (R208), `value1` as loaded (R210). -/
def FsmEntry.scaled (p : Policy) (e : FsmEntry) : FsmEntry :=
  if e.changes p then { e with value0 := BitVec.ofInt 16 (p.scale e.value0.toInt) } else e

/-- The entries of the loaded table, `FSM[c][0 .. FSM_NUM_STATES * 2^K - 1]`. -/
def State.fsmList (s : State) (c : CsId) : List FsmEntry :=
  (List.range' 0 ((s.codeset c).fsmNumStates.toNat * 2 ^ s.params.indexSize)).map (s.fsmAt c)

/-- The body of `SCALE_FSM` (R204): the policy is the copy taken at load. -/
def State.scaleFsm (s : State) (c : CsId) : Body :=
  let k := s.codeset c
  if !k.fsmFlags.initialized then .failed ⟨.notInitialized, c.toNat⟩ s
  else if k.fsmFlags.compandingDone then .done { s with result0 := 0 }
  else
    match k.fsmFlags.policy.policy k.fsmFlags.toWord with
    | .error f => .failed f s
    | .ok .notNeeded => .done { s with result0 := 0 }
    | .ok p =>
      .done { s.setCodeset c { k with
                fsm := k.fsm.store ((s.fsmList c).map (FsmEntry.scaled p))
                fsmFlags := { k.fsmFlags with compandingDone := true } } with
        result0 := BitVec.ofNat 32 ((s.fsmList c).countP (FsmEntry.changes p)) }

/-! ### Band-end code (R212) -/

/-- The body of `EXTRACT_BAND_END` (R212): addresses wrap modulo 2^32. -/
def State.extractBandEnd (s : State) (c : CsId) : Body :=
  let s := s.setValid c { (s.codeset c).valid with bandEnd := false }
  let t := (s.codeset c).tagBase
  let n := s.srcRead [5, 0] t
  if n = 0 then .failed ⟨.invalidCodebook, 0⟩ s
  else
    let code := s.srcRead [5, 1] (t + (n - 1) * 2 + 1)
    let size := s.srcRead [5, 2] (t + (n - 1) * 2 + 2)
    if size.toNat < 1 || size.toNat > 32 || code.toNat ≥ 2 ^ size.toNat then .failed ⟨.invalidCodebook, n.toNat⟩ s
    else
      let k := s.codeset c
      .done { s.setCodeset c { k with bandEndCode := code, bandEndSize := size, valid := { k.valid with bandEnd := true } } with
        result0 := code
        result1 := size }

/-! ### Composite and release -/

/-- The body of `INIT_DECODER_FSM` (R213, R214). -/
def State.initDecoderFsm (s : State) (c : CsId) : Body :=
  (s.loadFsm c).andThen fun s =>
    (s.scaleFsm c).andThen fun s =>
      (s.extractBandEnd c).andThen fun s =>
        .done { s with result0 := (s.codeset c).fsmNumStates, result1 := (s.codeset c).bandEndSize }

/-- A codeset after its release (R217): no valid bit, no FSM status, unspecified tables, the descriptors kept. An entry that held no
defined value reads as before (R218, U1). -/
def Codeset.freed (k : Codeset) : Codeset :=
  { k with
    valid := TableValid.reset
    fsmFlags := FsmFlags.reset
    fsmNumStates := 0
    fsmState := 0
    bandEndCode := 0
    bandEndSize := 0
    newcodes := k.newcodes.forget
    fastbook := k.fastbook.forget
    valuebook := k.valuebook.forget
    fsm := k.fsm.forget }

/-! ### The commands -/

/-- `LOAD_FSM` (R201). -/
def execLoadFsm (cs : BitVec 2) (s : State) : Host.Outcome State Fault Refusal :=
  .next (s.onCodeset cs fun c => (s.loadFsm c).finish)

/-- `SCALE_FSM` (R204). -/
def execScaleFsm (cs : BitVec 2) (s : State) : Host.Outcome State Fault Refusal :=
  .next (s.onCodeset cs fun c => (s.scaleFsm c).finish)

/-- `EXTRACT_BAND_END` (R212). -/
def execExtractBandEnd (cs : BitVec 2) (s : State) : Host.Outcome State Fault Refusal :=
  .next (s.onCodeset cs fun c => (s.extractBandEnd c).finish)

/-- `INIT_DECODER_FSM` (R213). -/
def execInitDecoderFsm (cs : BitVec 2) (s : State) : Host.Outcome State Fault Refusal :=
  .next (s.onCodeset cs fun c => (s.initDecoderFsm c).finish)

/-- `FREE_CODEBOOKS` (R217, R218). -/
def execFreeCodebooks (cs : BitVec 2) (s : State) : Host.Outcome State Fault Refusal :=
  .next (s.onCodeset cs fun c => (s.setCodeset c (s.codeset c).freed).complete)

end Sys2Proof.Machine
end

