-- ==== Sys2Proof/Machine/Dispatch.lean ====
section
/-!
DEFINITION. The meaning of every command: one arm a constructor.
-/

namespace Sys2Proof.Machine

def exec (i : Instr) (s : State) : Host.Outcome State Fault Refusal :=
  match i with
  | .nop => Sys2Proof.Machine.execNop s
  | .initCodebooks cs => Sys2Proof.Machine.execInitCodebooks cs s
  | .sortRunlength cs => Sys2Proof.Machine.execSortRunlength cs s
  | .buildRunlength cs => Sys2Proof.Machine.execBuildRunlength cs s
  | .fillScanLut cs => Sys2Proof.Machine.execFillScanLut cs s
  | .fillCodeLut cs => Sys2Proof.Machine.execFillCodeLut cs s
  | .buildCubic => Sys2Proof.Machine.execBuildCubic s
  | .fillVlcTable cs => Sys2Proof.Machine.execFillVlcTable cs s
  | .loadFsm cs => Sys2Proof.Machine.execLoadFsm cs s
  | .scaleFsm cs => Sys2Proof.Machine.execScaleFsm cs s
  | .extractBandEnd cs => Sys2Proof.Machine.execExtractBandEnd cs s
  | .initDecoderFsm cs => Sys2Proof.Machine.execInitDecoderFsm cs s
  | .freeCodebooks cs => Sys2Proof.Machine.execFreeCodebooks cs s
  | .matchPattern cs imm => Sys2Proof.Machine.execMatchPattern cs imm s
  | .bsPeek imm => Sys2Proof.Machine.execBsPeek imm s
  | .bsGet imm => Sys2Proof.Machine.execBsGet imm s
  | .bsSkip imm => Sys2Proof.Machine.execBsSkip imm s
  | .vlcDecode cs => Sys2Proof.Machine.execVlcDecode cs s
  | .vlcRun cs imm => Sys2Proof.Machine.execVlcRun cs imm s
  | .fsmSetState cs imm => Sys2Proof.Machine.execFsmSetState cs imm s
  | .fsmStep cs => Sys2Proof.Machine.execFsmStep cs s
  | .fsmRun cs imm => Sys2Proof.Machine.execFsmRun cs imm s

end Sys2Proof.Machine
end

