-- ==== Sys2Proof/Machine/Engine.lean ====
section
/-!
DEFINITION. The command engine at work (spec/10_state.md R63, spec/60_exceptions.md R304 to R306): the completion of its running
command; the parts of it that other agents can see before the completion (spec/20_memory.md R93, spec/70_reset_and_hazards.md
R352, R354), one at a time, in the order of the command's pseudocode; and the abort of R344.
-/

namespace Sys2Proof.Machine

/-! ### The parts of a command (log entry 4) -/

/-- A run that gets as far as its loop (spec/43_decode.md R262, R275): one step of it, and how many it has. -/
structure Run where
  step : Nat → State → RunStep
  count : Nat

/-- The run that a command is, none for another command or for a run that fails with `NOT_INITIALIZED`. -/
def State.running (s : State) (i : Instr) : Option Run :=
  match i with
  | .vlcRun cs n =>
    (CsId.ofField cs).bind fun c => if (s.codeset c).valid.fastbook then some ⟨vlcRunStep c, n.toNat⟩ else none
  | .fsmRun cs n =>
    (CsId.ofField cs).bind fun c => if (s.codeset c).fsmFlags.initialized then some ⟨fsmRunStep c, n.toNat⟩ else none
  | _ => none

/-- Step `k` of a run, with the first word of its record, or with the band-end code. A step that fails is left to the completion,
which reports it. -/
def State.stageStep (s : State) (r : Run) (k : Nat) : State :=
  if r.count ≤ k then s
  else
    match r.step k { s with progress := .start } with
    | .error _ => s
    | .ok (none, t) => { t with result1 := 1, progress := .over }
    | .ok (some (w0, w1), t) => { t.outWrite t.outPtr w0 with progress := .record k w1 }

/-- The second word of the record of step `k` (spec/43_decode.md R262, R275). -/
def State.stageRecord (s : State) (k : Nat) (w1 : Word) : State :=
  { s.outWrite (s.outPtr + 1) w1 with
    outPtr := s.outPtr + 2
    result0 := BitVec.ofNat 32 (k + 1)
    progress := .steps (k + 1) }

/-- What a command that is no run does before it completes, up to where it has set the bits of `STATUS` that it sets (R311), and
where it then stands; none for a command that sets neither of the two. -/
def State.early (s : State) (i : Instr) : Option (Body × Progress) :=
  match i with
  | .fillScanLut cs => (CsId.ofField cs).map fun c => (s.fillScanLut c, .over)
  | .fillCodeLut cs => (CsId.ofField cs).map fun c => (s.fillCodeLut c, .over)
  | .initCodebooks cs =>
    (CsId.ofField cs).bind fun c => if (s.codeset c).valid.cbReplaced then none else some (s.initLookup c, .lookup)
  | .vlcDecode cs => (CsId.ofField cs).map fun c => (s.vlcDecode c, .over)
  | .fsmStep cs => (CsId.ofField cs).map fun c => (s.fsmStepCommand c, .over)
  | _ => none

/-- The next part of the running command `i`. Where there is none, or it fails, the completion is next. -/
def State.stage (s : State) (i : Instr) : State :=
  match s.progress with
  | .start =>
    match s.running i with
    | some r => { s with result0 := 0, result1 := 0, progress := .steps 0 }.stageStep r 0
    | none =>
      match s.early i with
      | some (.done t, p) => { t with progress := p }
      | _ => s
  | .steps k =>
    match s.running i with
    | some r => s.stageStep r k
    | none => s
  | .record k w1 => s.stageRecord k w1
  | .lookup | .over => s

/-- The steps of a run from step `k` on. -/
def State.resumeSteps (s : State) (i : Instr) (k : Nat) : Body :=
  match s.running i with
  | some r => runLoop r.step (r.count - k) k { s with progress := .start }
  | none => .done s

/-- The rest of the running command `i`, to its completion. -/
def State.resume (s : State) (i : Instr) : Body :=
  match s.progress with
  | .steps k => s.resumeSteps i k
  | .record k w1 => (s.stageRecord k w1).resumeSteps i (k + 1)
  | .lookup =>
    match i.codesetField.bind CsId.ofField with
    | some c => { s with progress := .start }.initValues c
    | none => .done s
  | .start | .over => .done s

/-! ### The engine acts -/

/-- The state in which the running command `w` completes (R304): all of it is carried out, or what is left of it. -/
def State.completed (s : State) (w : Word) : Host.Outcome State Fault Refusal :=
  match decode w with
  | .error .illegalCmd => .next (s.fail ⟨.illegalCmd, w.toNat⟩)
  | .error .badCodeset => .next (s.fail ⟨.badCodeset, w.toNat⟩)
  | .ok i => if s.progress = .start then exec i s else .next (s.resume i).finish

/-- The engine carries its running command out; an idle engine does nothing (R325), nor does one held in reset (R342). -/
def State.runEngine (s : State) : Host.Outcome State Fault Refusal :=
  match s.engine with
  | .idle => .next s
  | .busy w => if s.resetLine then .next s else s.completed w

/-- The engine carries out the next part of its running command, if it has one. -/
def State.runStage (s : State) : State :=
  match s.engine with
  | .idle => s
  | .busy w =>
    if s.resetLine then s
    else
      match decode w with
      | .error _ => s
      | .ok i => s.stage i

/-! ### The abort (spec/70_reset_and_hazards.md R344, U15) -/

/-- OUTMEM after a reset has aborted the command `i`: what the command had written stays; the words of the record it may have been
writing hold free values, "any value for OUTMEM words the aborted command may have been writing" (log entry 5). -/
def State.tornOutput (s : State) (i : Instr) : Memory :=
  match s.progress, (s.stage i).progress with
  | .record _ _, _ => (s.outWrite (s.outPtr + 1) (Config.abortWord s.fresh 1)).outmem
  | _, .record _ _ =>
    ((s.outWrite s.outPtr (Config.abortWord s.fresh 0)).outWrite (s.outPtr + 1) (Config.abortWord s.fresh 1)).outmem
  | _, _ => s.outmem

/-- What a reset leaves of the running command: the words of OUTMEM it had written (R344). -/
def State.abort (s : State) : State :=
  match s.engine with
  | .idle => s
  | .busy w =>
    match decode w with
    | .error _ => s
    | .ok i => { s with outmem := s.tornOutput i, fresh := s.fresh + 1 }

end Sys2Proof.Machine
end

