-- ==== Sys2Proof/Machine/HostPort.lean ====
section
/-!
DEFINITION. What the agents outside the engine can do (spec/00_scope.md R3): the register window, the reset input and the
accesses to the external memories; and one event of the schedule.
-/

namespace Sys2Proof.Machine

/-! ### The register map (spec/10_state.md R32, R49) -/

/-- The registers of a codeset's descriptor block, in the order of their offsets (R49). -/
inductive CsReg where
  | csFlags | magBase | magLen | rlcBase | rlcLen | rlvBase | rlvLen | tagBase | fsmBase | zeroBits | zeroSize
  | fsmFlags | fsmNumStates | fsmState | bandEndCode | bandEndSize
  deriving DecidableEq, Repr

/-- A register of the window. -/
inductive Reg where
  | id | params | ctrl | status | cmd | arg0 | result0 | result1 | result2 | result3 | errInfo | bsBase | bsLen | bsPos
  | outPtr | workLen | tblSel | tblIndex | tblData0 | tblData1 | tblData2 | tblData3
  | tableValid (c : CsId)
  | cs (c : CsId) (r : CsReg)
  /-- An offset that is not listed: it reads as 0 and ignores writes (R32). -/
  | unmapped
  deriving DecidableEq, Repr

/-- The register at word `i` of a descriptor block (R49). -/
def CsReg.ofIndex : Nat → CsReg
  | 0 => .csFlags
  | 1 => .magBase
  | 2 => .magLen
  | 3 => .rlcBase
  | 4 => .rlcLen
  | 5 => .rlvBase
  | 6 => .rlvLen
  | 7 => .tagBase
  | 8 => .fsmBase
  | 9 => .zeroBits
  | 10 => .zeroSize
  | 11 => .fsmFlags
  | 12 => .fsmNumStates
  | 13 => .fsmState
  | 14 => .bandEndCode
  | _ => .bandEndSize

/-- The register at an aligned byte offset of the window (R32). -/
def Reg.ofOffset (offset : Nat) : Reg :=
  if 0x100 ≤ offset ∧ offset < 0x140 then .cs .c0 (.ofIndex ((offset - 0x100) / 4))
  else if 0x140 ≤ offset ∧ offset < 0x180 then .cs .c1 (.ofIndex ((offset - 0x140) / 4))
  else if 0x180 ≤ offset ∧ offset < 0x1C0 then .cs .c2 (.ofIndex ((offset - 0x180) / 4))
  else
    match offset with
    | 0x000 => .id
    | 0x004 => .params
    | 0x008 => .ctrl
    | 0x00C => .status
    | 0x010 => .cmd
    | 0x014 => .arg0
    | 0x018 => .result0
    | 0x01C => .result1
    | 0x020 => .result2
    | 0x024 => .result3
    | 0x028 => .errInfo
    | 0x02C => .bsBase
    | 0x030 => .bsLen
    | 0x034 => .bsPos
    | 0x038 => .outPtr
    | 0x03C => .workLen
    | 0x040 => .tblSel
    | 0x044 => .tblIndex
    | 0x048 => .tblData0
    | 0x04C => .tblData1
    | 0x050 => .tblData2
    | 0x054 => .tblData3
    | 0x060 => .tableValid .c0
    | 0x064 => .tableValid .c1
    | 0x068 => .tableValid .c2
    | _ => .unmapped

/-! ### Reads -/

/-- A register of a descriptor block as it reads (R49 to R56). -/
def Codeset.readReg (k : Codeset) : CsReg → Word
  | .csFlags => k.csFlags.toWord
  | .magBase => k.magBase
  | .magLen => k.magLen
  | .rlcBase => k.rlcBase
  | .rlcLen => k.rlcLen
  | .rlvBase => k.rlvBase
  | .rlvLen => k.rlvLen
  | .tagBase => k.tagBase
  | .fsmBase => k.fsmBase
  | .zeroBits => k.zeroBits
  | .zeroSize => k.zeroSize
  | .fsmFlags => k.fsmFlags.toWord
  | .fsmNumStates => k.fsmNumStates
  | .fsmState => k.fsmState.setWidth 32
  | .bandEndCode => k.bandEndCode
  | .bandEndSize => k.bandEndSize

/-- A register as it reads while the engine is idle (R31 to R56). -/
def State.readReg (s : State) : Reg → Word
  | .id => 0x43464544
  | .params => paramsWord s.params
  | .ctrl => s.ctrl.toWord
  | .status => s.statusWord
  | .cmd => s.cmd
  | .arg0 => s.arg0
  | .result0 => s.result0
  | .result1 => s.result1
  | .result2 => s.result2
  | .result3 => s.result3
  | .errInfo => s.errInfo
  | .bsBase => s.bsBase
  | .bsLen => s.bsLen
  | .bsPos => s.bsPos
  | .outPtr => s.outPtr
  | .workLen => s.workLen
  | .tblSel => s.tblSel.setWidth 32
  | .tblIndex => s.tblIndex
  | .tblData0 => s.tblData0
  | .tblData1 => s.tblData1
  | .tblData2 => s.tblData2
  | .tblData3 => s.tblData3
  | .tableValid c => (s.codeset c).valid.toWord
  | .cs c r => (s.codeset c).readReg r
  | .unmapped => 0

/-- The runtime registers of a descriptor block, which a command may write. -/
def CsReg.commandWrites : CsReg → Bool
  | .fsmFlags | .fsmNumStates | .fsmState | .bandEndCode | .bandEndSize => true
  | _ => false

/-- The registers that read an unspecified value while BUSY (spec/70_reset_and_hazards.md R352). -/
def Reg.commandWrites : Reg → Bool
  | .result0 | .result1 | .result2 | .result3 | .errInfo | .bsPos | .outPtr | .workLen | .tableValid _ => true
  | .cs _ r => r.commandWrites
  | _ => false

/-- What a register reads as while a command runs: a free value where the command may write it (U4), else its current value
(R352). In `STATUS` that is what the command has set so far (log entry 4). -/
def State.readBusy (s : State) (r : Reg) : Word := if r.commandWrites then Config.busyRead s.fresh else s.readReg r

/-- A host read of a register: it changes nothing but what the port returns (R31). While the reset input is asserted it returns 0
(R342). -/
def State.hostRead (s : State) (r : Reg) : State :=
  if s.resetLine then { s with readData := 0 }
  else
    match s.engine with
    | .idle => { s with readData := s.readReg r }
    | .busy _ => { s with readData := s.readBusy r, fresh := s.fresh + 1 }

/-! ### The table window (spec/10_state.md R45 to R47) -/

/-- The codeset that `TBL_SEL.TCS` selects, none for 3. -/
def State.tblCodeset (s : State) : Option CsId := CsId.ofField (s.tblSel.extractLsb' 4 2)

/-- Four words of the window, from `TBL_DATA0`. -/
abbrev TblWords := Word × Word × Word × Word

def NewCode.window (e : NewCode) : TblWords := (e.bits, e.size.setWidth 32, e.count.setWidth 32, 0)
def FastEntry.window (e : FastEntry) : TblWords := (e.count, e.value, e.shift.setWidth 32, 0)
def ValueEntry.window (e : ValueEntry) : TblWords := (e.codeword, e.size.setWidth 32, 0, 0)
def FsmEntry.window (e : FsmEntry) : TblWords :=
  (e.nextState.setWidth 32, e.preSkip.setWidth 32, e.postSkip.setWidth 32, e.valueWord)
def WorkEntry.window (e : WorkEntry) : TblWords := (e.bits, e.size.setWidth 32, e.count, 0)

/-- Entry `i` of a table with a valid bit, unspecified while that bit is 0 (R47, U1). -/
def windowEntry {α : Type} (valid : Bool) (r : Ram α) (free : Nat → Nat → α) (i : Nat) : α :=
  if valid then r.entry free i else r.unspecified free i

/-- What `TBL_DATA0..3` are loaded with at a write of `TBL_INDEX` (R47). -/
def State.tblWords (s : State) (i : Nat) : TblWords :=
  match (s.tblSel.extractLsb' 0 4).toNat, s.tblCodeset with
  | 0, some c =>
    let k := s.codeset c
    if i < Config.newCodebookLength then (windowEntry k.valid.newcodes k.newcodes (freeNewcode c i) i).window else (0, 0, 0, 0)
  | 1, some c =>
    let k := s.codeset c
    if i < Config.fastbookDepth then (windowEntry k.valid.fastbook k.fastbook (freeFastbook c i) i).window else (0, 0, 0, 0)
  | 2, some c =>
    let k := s.codeset c
    if i < 2 ^ s.params.valueSize then (windowEntry k.valid.valuebook k.valuebook (freeValuebook c i) i).window
    else (0, 0, 0, 0)
  | 3, some c => if i < s.params.fsmRamEntries then (s.fsmAt c i).window else (0, 0, 0, 0)
  | 4, _ => if i < Config.cubicLength then ((s.cubicAt i).setWidth 32, 0, 0, 0) else (0, 0, 0, 0)
  | 5, _ => if i < s.params.rlcMaxEntries then (s.workAt i).window else (0, 0, 0, 0)
  | _, _ => (0, 0, 0, 0)

/-- A write of `TBL_INDEX` (R46). -/
def State.writeTblIndex (s : State) (v : Word) : State :=
  let w := s.tblWords v.toNat
  { s with tblIndex := v, tblData0 := w.1, tblData1 := w.2.1, tblData2 := w.2.2.1, tblData3 := w.2.2.2 }

/-! ### Reset (spec/70_reset_and_hazards.md R340 to R344) -/

/-- A codeset after a reset: its registers as in R340, its tables unspecified (R341). -/
def Codeset.resetRegs (k : Codeset) : Codeset :=
  { Codeset.reset with
    newcodes := k.newcodes.afterReset
    fastbook := k.fastbook.afterReset
    valuebook := k.valuebook.afterReset
    fsm := k.fsm.afterReset }

/-- The reset of R340: every register, the engine and the table RAMs. The external memories, and what is not CFED's (the schedule,
what the port returned, the counter of free values), stay; so do the instance constants and the reset input. -/
def State.resetBlock (s : State) : State :=
  { State.reset with
    params := s.params
    cs0 := s.cs0.resetRegs
    cs1 := s.cs1.resetRegs
    cs2 := s.cs2.resetRegs
    cubic := s.cubic.afterReset
    work := s.work.afterReset
    resetLine := s.resetLine
    srcmem := s.srcmem
    bsmem := s.bsmem
    outmem := s.outmem
    inputs := s.inputs
    readData := s.readData
    fresh := s.fresh }

/-- A reset, whether the engine is idle or busy (R342, R343, R344). -/
def State.blockReset (s : State) : State := s.abort.resetBlock

/-- The reset input changes its level: the registers take their reset values as long as it is asserted (R342). -/
def State.setResetLine (s : State) (asserted : Bool) : State :=
  if asserted then { s.blockReset with resetLine := true } else { s with resetLine := false }

/-! ### Writes -/

/-- A host write to a register of a descriptor block: the runtime registers are read-only (R49). -/
def Codeset.writeReg (k : Codeset) (r : CsReg) (v : Word) : Codeset :=
  match r with
  | .csFlags => { k with csFlags := .ofWord v }
  | .magBase => { k with magBase := v }
  | .magLen => { k with magLen := v }
  | .rlcBase => { k with rlcBase := v }
  | .rlcLen => { k with rlcLen := v }
  | .rlvBase => { k with rlvBase := v }
  | .rlvLen => { k with rlvLen := v }
  | .tagBase => { k with tagBase := v }
  | .fsmBase => { k with fsmBase := v }
  | .zeroBits => { k with zeroBits := v }
  | .zeroSize => { k with zeroSize := v }
  | .fsmFlags | .fsmNumStates | .fsmState | .bandEndCode | .bandEndSize => k

/-- The W1C bits of `STATUS` (R37): a 1 clears its bit, and a 1 to `ERR` also clears `ERRCODE` and `ERRINFO`. -/
def State.writeStatus (s : State) (v : Word) : State :=
  let s := if v.getLsbD 2 then s.clearError else s
  { s with status := { s.status with
      done := s.status.done && !v.getLsbD 1
      bandEnd := s.status.bandEnd && !v.getLsbD 3
      unmatched := s.status.unmatched && !v.getLsbD 4
      overrun := s.status.overrun && !v.getLsbD 5 } }

/-- A host write while the engine is idle (R31 to R56, R304, R343). -/
def State.writeIdle (s : State) (r : Reg) (v : Word) : State :=
  match r with
  | .ctrl => if v.getLsbD 31 then s.blockReset else { s with ctrl := .ofWord v }
  | .status => s.writeStatus v
  | .cmd => s.accept v
  | .arg0 => { s with arg0 := v }
  | .bsBase => { s with bsBase := v }
  | .bsLen => { s with bsLen := v }
  | .bsPos => { s with bsPos := v }
  | .outPtr => { s with outPtr := v }
  | .tblSel => { s with tblSel := v.extractLsb' 0 6 }
  | .tblIndex => s.writeTblIndex v
  | .cs c r => s.setCodeset c ((s.codeset c).writeReg r v)
  | .id | .params | .result0 | .result1 | .result2 | .result3 | .errInfo | .workLen | .tblData0 | .tblData1 | .tblData2
  | .tblData3 | .tableValid _ | .unmapped => s

/-- A host write while the engine is busy: only `CTRL.IRQ_EN` and `CTRL.SOFT_RESET` take effect, and `OVERRUN` is set but by a
soft reset (R343, R350, R351). -/
def State.writeBusy (s : State) (r : Reg) (v : Word) : State :=
  if r = .ctrl ∧ v.getLsbD 31 then s.blockReset
  else
    let s := { s with status := { s.status with overrun := true } }
    if r = .ctrl then { s with ctrl := { s.ctrl with irqEn := v.getLsbD 0 } } else s

/-- A host write to a register; ignored while the reset input is asserted (R342). -/
def State.hostWrite (s : State) (r : Reg) (v : Word) : State :=
  if s.resetLine then s else if s.engine.isBusy then s.writeBusy r v else s.writeIdle r v

/-! ### The external memories (spec/20_memory.md R80, R93) -/

/-- A write of a word of SRCMEM: it races with a running command (R93, R353). -/
def State.busSrcWrite (s : State) (a v : Word) : State :=
  { s with
    srcmem := s.srcmem.writeWord a.toNat v
    srcRaces := if s.engine.isBusy then (a.toNat, s.srcmem.readWord a.toNat) :: s.srcRaces else s.srcRaces }

/-- A write of a byte of BSMEM: it races with a running command (R93, R353). -/
def State.busBsWrite (s : State) (a : Word) (v : Byte) : State :=
  { s with
    bsmem := s.bsmem.write a.toNat v
    bsRaces := if s.engine.isBusy then (a.toNat, s.bsmem.read a.toNat) :: s.bsRaces else s.bsRaces }

/-- A read of a word of SRCMEM by another agent: it changes nothing but what the agent got. -/
def State.busSrcRead (s : State) (a : Word) : State := { s with readData := s.srcmem.readWord a.toNat }

/-- A read of a byte of BSMEM by another agent. -/
def State.busBsRead (s : State) (a : Word) : State := { s with readData := (s.bsmem.read a.toNat).setWidth 32 }

/-- A read of a word of OUTMEM by another agent: while a run goes on, the old word or, once the run has written it, the new one
(R93, R354). Which one is for the schedule to say (log entry 4). -/
def State.busOutRead (s : State) (a : Word) : State := { s with readData := s.outmem.readWord a.toNat }

/-! ### One event -/

/-- An access the window admits: an aligned 32-bit one (spec/20_memory.md R86). -/
def admitted (offset : BitVec 9) (size : AccessSize) : Bool := size == .word && offset.toNat % 4 == 0

/-- What one event does. -/
def State.perform (s : State) (e : Input) : Host.Outcome State Fault Refusal :=
  match e with
  | .write offset size v =>
    if admitted offset size then .next (s.hostWrite (.ofOffset offset.toNat) v) else .refused .hostAccess
  | .read offset size =>
    if admitted offset size then .next (s.hostRead (.ofOffset offset.toNat)) else .refused .hostAccess
  | .resetLine asserted => .next (s.setResetLine asserted)
  | .srcWrite a v => .next (s.busSrcWrite a v)
  | .bsWrite a v => .next (s.busBsWrite a v)
  | .outWrite a v => .next (s.outWrite a v)
  | .srcRead a => .next (s.busSrcRead a)
  | .bsRead a => .next (s.busBsRead a)
  | .outRead a => .next (s.busOutRead a)
  | .stage => .next s.runStage
  | .engine => s.runEngine

/-- One event of the schedule; where none is left, the engine goes on alone. -/
def State.advance (s : State) : Host.Outcome State Fault Refusal :=
  match s.inputs with
  | [] => s.runEngine
  | e :: rest => { s with inputs := rest }.perform e

/-- The state in which the host has just issued `w` (R304) and the engine is the next to act. -/
def State.issue (s : State) (w : Word) : State :=
  { s.accept w with inputs := .engine :: s.inputs, resetLine := false }

end Sys2Proof.Machine
end

