-- ==== Sys2Proof/Machine/Step.lean ====
section
/-!
DEFINITION. One step of the machine, and where its next command is placed.
-/

namespace Sys2Proof.Machine

/-- One step performs the next event of the schedule (spec/00_scope.md R3). A command takes two: the host's write to `CMD`, which
accepts it, and the engine's carrying it out to its completion (spec/60_exceptions.md R304 to R306). Events of other agents may
stand between the two, as many as the command lasts (spec/70_reset_and_hazards.md R357, log entry 6), and so may the parts of the
command that those agents can see (log entry 4). -/
def step (s : State) : Host.Outcome State Fault Refusal := s.advance

/-- CFED fetches nothing (spec/10_state.md R64): a command comes to the engine by a write to `CMD`. This is the state in which the
host has just written the command word and the engine acts next. -/
def State.withFetchWord (s : State) (nbits w : Nat) : State := s.issue (BitVec.ofNat 32 (w % 2 ^ nbits))

end Sys2Proof.Machine
end

