-- ==== Sys2Proof/Machine/HostProgram.lean ====
section
/-!
DEFINITION. The assembler syntax and the pseudo-instructions of host programs (spec/30_encoding.md R127, R128): how a line of text
stands for a command or a host statement, and which events of the schedule a statement is.
-/

namespace Sys2Proof.Machine

/-! ### Commands as text (R127) -/

/-- The mnemonic of a command (R114). -/
def mnemonic : Instr → String
  | .nop => "NOP"
  | .initCodebooks _ => "INIT_CODEBOOKS"
  | .sortRunlength _ => "SORT_RUNLENGTH"
  | .buildRunlength _ => "BUILD_RUNLENGTH"
  | .fillScanLut _ => "FILL_SCAN_LUT"
  | .fillCodeLut _ => "FILL_CODE_LUT"
  | .buildCubic => "BUILD_CUBIC"
  | .fillVlcTable _ => "FILL_VLC_TABLE"
  | .loadFsm _ => "LOAD_FSM"
  | .scaleFsm _ => "SCALE_FSM"
  | .extractBandEnd _ => "EXTRACT_BAND_END"
  | .initDecoderFsm _ => "INIT_DECODER_FSM"
  | .freeCodebooks _ => "FREE_CODEBOOKS"
  | .matchPattern _ _ => "MATCH_PATTERN"
  | .bsPeek _ => "BS_PEEK"
  | .bsGet _ => "BS_GET"
  | .bsSkip _ => "BS_SKIP"
  | .vlcDecode _ => "VLC_DECODE"
  | .vlcRun _ _ => "VLC_RUN"
  | .fsmSetState _ _ => "FSM_SET_STATE"
  | .fsmStep _ => "FSM_STEP"
  | .fsmRun _ _ => "FSM_RUN"

/-- The operands a mnemonic takes, which its format says (R112), and the command they make. -/
inductive Template where
  | plain (i : Instr)
  | codeset (f : BitVec 2 → Instr)
  | immediate (f : BitVec 24 → Instr)
  | both (f : BitVec 2 → BitVec 24 → Instr)

/-- The command of a template with the operands 0. -/
def Template.sample : Template → Instr
  | .plain i => i
  | .codeset f => f 0
  | .immediate f => f 0
  | .both f => f 0 0

/-- One template for each command (R114). -/
def templates : List Template :=
  [.plain .nop, .codeset .initCodebooks, .codeset .sortRunlength, .codeset .buildRunlength, .codeset .fillScanLut,
    .codeset .fillCodeLut, .plain .buildCubic, .codeset .fillVlcTable, .codeset .loadFsm, .codeset .scaleFsm,
    .codeset .extractBandEnd, .codeset .initDecoderFsm, .codeset .freeCodebooks, .both .matchPattern, .immediate .bsPeek,
    .immediate .bsGet, .immediate .bsSkip, .codeset .vlcDecode, .both .vlcRun, .both .fsmSetState, .codeset .fsmStep,
    .both .fsmRun]

/-- The value of a digit, decimal or hexadecimal. -/
def digitValue (ch : Char) : Option Nat :=
  if '0' ≤ ch ∧ ch ≤ '9' then some (ch.toNat - '0'.toNat)
  else if 'a' ≤ ch ∧ ch ≤ 'f' then some (ch.toNat - 'a'.toNat + 10)
  else if 'A' ≤ ch ∧ ch ≤ 'F' then some (ch.toNat - 'A'.toNat + 10)
  else none

/-- Digits of a base, the most significant first; none for no digit or a character that is none. -/
def parseDigits (base : Nat) : List Char → Option Nat
  | [] => none
  | ch :: rest =>
    (ch :: rest).foldl (fun acc d => acc.bind fun n => (digitValue d).bind fun v => if v < base then some (base * n + v) else none)
      (some 0)

/-- A decimal or `0x` hexadecimal number (R127). -/
def parseNumber : List Char → Option Nat
  | '0' :: 'x' :: rest => parseDigits 16 rest
  | l => parseDigits 10 l

/-- A number that fits `w` bits. -/
def parseBits (w : Nat) (l : List Char) : Option (BitVec w) :=
  (parseNumber l).bind fun n => if n < 2 ^ w then some (BitVec.ofNat w n) else none

/-- `cs<c>` (R127). -/
def parseCodeset : List Char → Option (BitVec 2)
  | 'c' :: 's' :: rest => parseBits 2 rest
  | _ => none

/-- A line without the blanks at its ends. -/
def trimBlanks (l : List Char) : List Char := ((l.dropWhile (· == ' ')).reverse.dropWhile (· == ' ')).reverse

/-- The operands of a line, which a comma separates (R127). -/
def operands : List Char → List (List Char)
  | [] => [[]]
  | ch :: rest =>
    if ch = ',' then [] :: operands rest
    else
      match operands rest with
      | [] => [[ch]]
      | o :: os => (ch :: o) :: os

/-- The first word of a line and the operands after it, each without its blanks; no operand for an empty rest. -/
def splitLine (l : List Char) : List Char × List (List Char) :=
  let l := trimBlanks l
  let rest := trimBlanks (l.dropWhile (· != ' '))
  (l.takeWhile (· != ' '), if rest.isEmpty then [] else (operands rest).map trimBlanks)

/-- The operands of a template, as the format of the mnemonic has them (R127). -/
def Template.parse (t : Template) (ops : List (List Char)) : Option Instr :=
  match t, ops with
  | .plain i, [] => some i
  | .codeset f, [c] => (parseCodeset c).map f
  | .immediate f, [n] => (parseBits 24 n).map f
  | .both f, [c, n] => (parseCodeset c).bind fun c => (parseBits 24 n).map (f c)
  | _, _ => none

/-- One command, one line (R127). -/
def parseCommand (l : List Char) : Option Instr :=
  let line := splitLine l
  (templates.find? fun t => (mnemonic t.sample).toList == line.1).bind fun t => t.parse line.2

/-! ### Registers by name (R127, spec/10_state.md R32, R49) -/

/-- The name of a descriptor register. -/
def CsReg.name : CsReg → String
  | .csFlags => "CS_FLAGS"
  | .magBase => "MAG_BASE"
  | .magLen => "MAG_LEN"
  | .rlcBase => "RLC_BASE"
  | .rlcLen => "RLC_LEN"
  | .rlvBase => "RLV_BASE"
  | .rlvLen => "RLV_LEN"
  | .tagBase => "TAG_BASE"
  | .fsmBase => "FSM_BASE"
  | .zeroBits => "ZERO_BITS"
  | .zeroSize => "ZERO_SIZE"
  | .fsmFlags => "FSM_FLAGS"
  | .fsmNumStates => "FSM_NUM_STATES"
  | .fsmState => "FSM_STATE"
  | .bandEndCode => "BAND_END_CODE"
  | .bandEndSize => "BAND_END_SIZE"

def CsId.name : CsId → String
  | .c0 => "0"
  | .c1 => "1"
  | .c2 => "2"

/-- The name of a register; an unmapped offset has none. -/
def Reg.name : Reg → String
  | .id => "ID"
  | .params => "PARAMS"
  | .ctrl => "CTRL"
  | .status => "STATUS"
  | .cmd => "CMD"
  | .arg0 => "ARG0"
  | .result0 => "RESULT0"
  | .result1 => "RESULT1"
  | .result2 => "RESULT2"
  | .result3 => "RESULT3"
  | .errInfo => "ERRINFO"
  | .bsBase => "BS_BASE"
  | .bsLen => "BS_LEN"
  | .bsPos => "BS_POS"
  | .outPtr => "OUT_PTR"
  | .workLen => "WORK_LEN"
  | .tblSel => "TBL_SEL"
  | .tblIndex => "TBL_INDEX"
  | .tblData0 => "TBL_DATA0"
  | .tblData1 => "TBL_DATA1"
  | .tblData2 => "TBL_DATA2"
  | .tblData3 => "TBL_DATA3"
  | .tableValid c => "TABLE_VALID" ++ c.name
  | .cs c r => "CS" ++ c.name ++ "." ++ r.name
  | .unmapped => ""

/-- The byte offsets of the window's words, in rising order. -/
def windowOffsets : List (BitVec 9) := (List.range' 0 128).map fun i => BitVec.ofNat 9 (4 * i)

/-- The offset of a register (R32, R49). -/
def Reg.offset (r : Reg) : BitVec 9 := (windowOffsets.find? fun o => Reg.ofOffset o.toNat == r).getD 0

/-- The register of a name. -/
def parseReg (l : List Char) : Option Reg :=
  (windowOffsets.find? fun o => (Reg.ofOffset o.toNat).name.toList == l && !l.isEmpty).map fun o => Reg.ofOffset o.toNat

/-! ### Statements and pseudo-instructions (R127, R128) -/

/-- A statement of a host program. `polls` is how many reads of `STATUS` see `BUSY = 1` before one sees 0, which the duration of
the command decides (spec/70_reset_and_hazards.md R357). -/
inductive Statement where
  | wr (r : Reg) (v : Word)
  | rd (r : Reg)
  | issue (i : Instr)
  | wait (polls : Nat)
  | exec (i : Instr) (polls : Nat)
  | clear
  | setbs (base len pos : Word)
  | tblrd (tid : BitVec 4) (c : BitVec 2) (i : Word)
  | init (c : BitVec 2) (polls1 polls2 : Nat)
  deriving DecidableEq, Repr

/-- `WR <register>, <value>`. -/
def writeEvent (r : Reg) (v : Word) : Input := .write r.offset .word v

/-- `RD <register>`. -/
def readEvent (r : Reg) : Input := .read r.offset .word

/-- `WAIT`: the polls that read `BUSY = 1`, the completion, and the poll that reads 0. -/
def waitEvents (polls : Nat) : List Input := List.replicate polls (readEvent .status) ++ [.engine, readEvent .status]

/-- `EXEC <command>`: `ISSUE`, then `WAIT`. -/
def execEvents (i : Instr) (polls : Nat) : List Input := writeEvent .cmd (encode i) :: waitEvents polls

/-- The events a statement is (R128). -/
def Statement.expand : Statement → List Input
  | .wr r v => [writeEvent r v]
  | .rd r => [readEvent r]
  | .issue i => [writeEvent .cmd (encode i)]
  | .wait polls => waitEvents polls
  | .exec i polls => execEvents i polls
  | .clear => [writeEvent .status 0x3E]
  | .setbs base len pos => [writeEvent .bsBase base, writeEvent .bsLen len, writeEvent .bsPos pos]
  | .tblrd tid c i =>
    [writeEvent .tblSel ((c ++ tid).setWidth 32), writeEvent .tblIndex i, readEvent .tblData0, readEvent .tblData1,
      readEvent .tblData2, readEvent .tblData3]
  | .init c polls1 polls2 => execEvents (.initCodebooks c) polls1 ++ execEvents (.initDecoderFsm c) polls2

/-- One statement, one line (R127, R128). A `WAIT` is read as the one whose first poll sees `BUSY = 0`. -/
def parseStatement (l : List Char) : Option Statement :=
  let line := splitLine l
  let rest := (trimBlanks l).dropWhile (· != ' ')
  if line.1 = "WR".toList then
    match line.2 with
    | [r, v] => (parseReg r).bind fun r => (parseBits 32 v).map (.wr r)
    | _ => none
  else if line.1 = "RD".toList then
    match line.2 with
    | [r] => (parseReg r).map .rd
    | _ => none
  else if line.1 = "ISSUE".toList then (parseCommand rest).map .issue
  else if line.1 = "WAIT".toList then (if line.2.isEmpty then some (.wait 0) else none)
  else if line.1 = "EXEC".toList then (parseCommand rest).map fun i => .exec i 0
  else if line.1 = "CLEAR".toList then (if line.2.isEmpty then some .clear else none)
  else if line.1 = "SETBS".toList then
    match line.2 with
    | [b, n, p] => (parseBits 32 b).bind fun b => (parseBits 32 n).bind fun n => (parseBits 32 p).map (.setbs b n)
    | _ => none
  else if line.1 = "TBLRD".toList then
    match line.2 with
    | [t, c, i] => (parseBits 4 t).bind fun t => (parseBits 2 c).bind fun c => (parseBits 32 i).map (.tblrd t c)
    | _ => none
  else if line.1 = "INIT".toList then
    match line.2 with
    | [c] => (parseBits 2 c).map fun c => .init c 0 0
    | _ => none
  else none

end Sys2Proof.Machine
end

