-- ==== Sys2Proof/Safety.lean ====
section
/-!
DEFINITION. The terms in which claims speak of runs: what the invariant of the machine is, what a host that keeps the rules of
spec/70_reset_and_hazards.md section 3 does, and the static data as plain memory contents.
-/

namespace Sys2Proof.Machine

/-! ### The invariant -/

/-- The FSM registers of a codeset (spec/43_decode.md R272, spec/41_fsm_tables.md R201, R202): a loaded table fits the RAM, its
entries were written and the current state is one of its states; where no table is loaded the registers are 0 and the RAM holds
nothing. -/
abbrev Codeset.FsmOk (p : Params) (k : Codeset) : Prop :=
  (k.fsmFlags.initialized = true →
    1 ≤ k.fsmNumStates.toNat ∧ k.fsmNumStates.toNat ≤ 65536 ∧ k.fsmNumStates.toNat * 2 ^ p.indexSize ≤ p.fsmRamEntries ∧
      k.fsmState.toNat < k.fsmNumStates.toNat ∧ k.fsmNumStates.toNat * 2 ^ p.indexSize ≤ k.fsm.cells.length) ∧
    (k.fsmFlags.initialized = false → k.fsmFlags = FsmFlags.reset ∧ k.fsmNumStates = 0 ∧ k.fsmState = 0 ∧ k.fsm.cells = [])

/-- The derived tables of a codeset (spec/10_state.md R48, R57 to R60, R65): no table is deeper than its RAM, a valid table is
complete, an invalid one holds nothing, and every composite codeword fits the bit budget (spec/40_table_generator.md R145). -/
abbrev Codeset.TablesOk (p : Params) (k : Codeset) : Prop :=
  k.newcodes.cells.length = (if k.valid.newcodes then Config.newCodebookLength else 0) ∧
    (∀ e ∈ k.newcodes.cells, e.size.toNat ≤ p.budget) ∧
    k.fastbook.cells.length = (if k.valid.fastbook then Config.fastbookDepth else 0) ∧
    (k.valid.fastbookLegacy = true → k.valid.fastbook = true) ∧
    k.valuebook.cells.length = (if k.valid.valuebook then 2 ^ p.valueSize else 0) ∧
    k.fsm.cells.length ≤ p.fsmRamEntries

/-- The cached band-end code is a code of 1 to 32 bits (spec/30_encoding.md R125). -/
abbrev Codeset.BandEndOk (k : Codeset) : Prop :=
  k.valid.bandEnd = true →
    1 ≤ k.bandEndSize.toNat ∧ k.bandEndSize.toNat ≤ 32 ∧ k.bandEndCode.toNat < 2 ^ k.bandEndSize.toNat

/-- The codeset holds no derived state (spec/41_fsm_tables.md R218): what a reset or a release leaves. -/
abbrev Codeset.Empty (k : Codeset) : Prop :=
  k.valid = TableValid.reset ∧ k.fsmFlags = FsmFlags.reset ∧ k.fsmNumStates = 0 ∧ k.fsmState = 0 ∧ k.bandEndCode = 0 ∧
    k.bandEndSize = 0 ∧ k.newcodes.cells = [] ∧ k.fastbook.cells = [] ∧ k.valuebook.cells = [] ∧ k.fsm.cells = []

abbrev Codeset.Ok (p : Params) (k : Codeset) : Prop := k.FsmOk p ∧ k.TablesOk p ∧ k.BandEndOk

/-- The error report (spec/10_state.md R37, R41): code and information are 0 while `ERR` is 0, and an error has a code. -/
abbrev State.ErrorOk (s : State) : Prop :=
  (s.status.err = false → s.status.errCode = .none ∧ s.errInfo = 0) ∧ (s.status.err = true → s.status.errCode ≠ .none)

/-- The engine (spec/10_state.md R63, spec/60_exceptions.md R304): a running command is the word in `CMD`, neither done nor failed,
and the block is not held in reset; nothing races with an idle engine, and it is not part of the way through a command. -/
abbrev State.EngineOk (s : State) : Prop :=
  (s.engine = .idle → s.srcRaces = [] ∧ s.bsRaces = [] ∧ s.progress = .start) ∧
    (s.engine.isBusy = true →
      s.engine = .busy s.cmd ∧ s.status.done = false ∧ s.status.err = false ∧ s.resetLine = false)

/-- The external memories are in their canonical form. -/
abbrev State.MemoriesOk (s : State) : Prop :=
  s.srcmem.wf Memory.wordSpace ∧ s.bsmem.wf Memory.byteSpace ∧ s.outmem.wf Memory.wordSpace

/-- The block-wide tables (spec/10_state.md R61, R62). -/
abbrev State.WorkOk (s : State) : Prop :=
  (s.cubic.cells.length = 0 ∨ s.cubic.cells.length = Config.cubicLength) ∧
    s.work.cells.length ≤ s.params.rlcMaxEntries ∧ s.workLen.toNat ≤ s.work.cells.length

/-- The invariant that every step keeps. -/
abbrev State.Inv (s : State) : Prop :=
  s.params.inRange ∧ s.MemoriesOk ∧ s.cs0.Ok s.params ∧ s.cs1.Ok s.params ∧ s.cs2.Ok s.params ∧ s.WorkOk ∧ s.ErrorOk ∧ s.EngineOk

/-! ### Rules a host keeps -/

/-- No other agent has written, during the running command, what it reads: the host keeps R353. -/
abbrev State.Quiet (s : State) : Prop := s.srcRaces = [] ∧ s.bsRaces = []

/-- The state a command finds right after its acceptance (R304): the error report is clear. -/
abbrev State.Accepted (s : State) : Prop :=
  s.status.done = false ∧ s.status.err = false ∧ s.status.errCode = .none ∧ s.errInfo = 0

/-! ### The static data as memory contents (spec/20_memory.md R82, R83) -/

/-- Word `a` of SRCMEM. -/
def State.srcWord (s : State) (a : Word) : Word := s.srcmem.readWord a.toNat

/-- RLE entry `j` of codeset `c`. -/
def State.rleEntry (s : State) (c : CsId) (j : Nat) : BookEntry :=
  let a := (s.codeset c).rlcBase + BitVec.ofNat 32 (3 * j)
  ⟨(s.srcWord a).toNat, (s.srcWord (a + 1)).toNat, (s.srcWord (a + 2)).toNat, 0⟩

/-- RLV entry `j` of codeset `c`. -/
def State.rlvEntry (s : State) (c : CsId) (j : Nat) : BookEntry :=
  let a := (s.codeset c).rlvBase + BitVec.ofNat 32 (4 * j)
  ⟨(s.srcWord a).toNat, (s.srcWord (a + 1)).toNat, (s.srcWord (a + 2)).toNat, (s.srcWord (a + 3)).toInt⟩

/-- Magnitude entry `m` of codeset `c`. -/
def State.vlcEntry (s : State) (c : CsId) (m : Nat) : BookEntry :=
  let a := (s.codeset c).magBase + BitVec.ofNat 32 (2 * m)
  ⟨(s.srcWord a).toNat, (s.srcWord (a + 1)).toNat, 0, 0⟩

/-- Flat entry `e` of the `FSMARRAY` of codeset `c`. -/
def State.fsmArrayEntry (s : State) (c : CsId) (e : Nat) : FsmEntry :=
  let a := (s.codeset c).fsmBase + BitVec.ofNat 32 (2 * e)
  FsmEntry.ofWords (s.srcWord (a + 1)) (s.srcWord (a + 2))

/-- The bit of the bitstream at `p` (spec/20_memory.md R84, spec/42_bitstream.md R233). -/
def State.streamBit (s : State) (p : Nat) : Bool :=
  p < s.bsLen.toNat && (s.bsmem.read (s.bsBase + BitVec.ofNat 32 (p / 8)).toNat).getLsbD (7 - p % 8)

/-- The `n` bits of the bitstream from `p` on, the first one most significant (spec/00_scope.md R11). -/
def State.streamBits (s : State) (p : Nat) : Nat → Nat
  | 0 => 0
  | n + 1 => 2 * s.streamBits p n + (s.streamBit (p + n)).toNat

/-- Every entry of the run-length book keeps the limits of R140. -/
abbrev State.RleValid (s : State) (c : CsId) : Prop :=
  ∀ j < (s.codeset c).rlcLen.toNat, (s.rleEntry c j).badRun = false

/-- Every entry of the run-value book keeps the limits of R141. -/
abbrev State.RlvValid (s : State) (c : CsId) : Prop :=
  ∀ j < (s.codeset c).rlvLen.toNat, (s.rlvEntry c j).badRunValue = false

/-- The magnitude book keeps the limits of R142. -/
abbrev State.VlcValid (s : State) (c : CsId) : Prop :=
  (s.codeset c).magLen ≠ 0 ∧
    ∀ m < (s.codeset c).magLen.toNat, (s.vlcEntry c m).badMagnitude s.params.budget m = false

/-- The counts of the run-length book are distinct (R143). -/
abbrev State.RleDistinct (s : State) (c : CsId) : Prop :=
  ∀ j < (s.codeset c).rlcLen.toNat, ∀ i < j, (s.rleEntry c i).count ≠ (s.rleEntry c j).count

/-- Some entry of the run-length book has count 1 (R143). -/
abbrev State.RleHasOne (s : State) (c : CsId) : Prop :=
  ∃ j < (s.codeset c).rlcLen.toNat, (s.rleEntry c j).count = 1

/-- The isolated-zero codeword is a codeword (R143). -/
abbrev Codeset.ZeroCodeOk (k : Codeset) : Prop :=
  1 ≤ k.zeroSize.toNat ∧ k.zeroSize.toNat ≤ 31 ∧ k.zeroBits.toNat < 2 ^ k.zeroSize.toNat

/-- How many entries `SORT_RUNLENGTH` needs in `WORK` (R143). -/
def State.runsNeeded (s : State) (c : CsId) : Nat :=
  if s.RleHasOne c then (s.codeset c).rlcLen.toNat else (s.codeset c).rlcLen.toNat + 1

/-- The static run-length data passes every check of `SORT_RUNLENGTH` (R143). -/
abbrev State.RunsReady (s : State) (c : CsId) : Prop :=
  s.RleValid c ∧ s.RleDistinct c ∧ s.runsNeeded c ≤ s.params.rlcMaxEntries ∧ (s.RleHasOne c ∨ (s.codeset c).ZeroCodeOk)

/-- The static run-value data passes every check of `FILL_SCAN_LUT`: a book of valid entries (R141) whose counts cannot overflow
(R161). -/
abbrev State.RlvReady (s : State) (c : CsId) : Prop :=
  s.RlvValid c ∧ ∀ j < (s.codeset c).rlvLen.toNat, 12 * (s.rlvEntry c j).count < 2 ^ 32

/-- The band-end code stands at `BS_POS` and is looked for (spec/43_decode.md R252). -/
abbrev State.BandEndAhead (s : State) (c : CsId) : Prop :=
  s.ctrl.bandEndDetect = true ∧ (s.codeset c).valid.bandEnd = true ∧
    s.bsPos.toNat + (s.codeset c).bandEndSize.toNat ≤ s.bsLen.toNat ∧
    s.streamBits s.bsPos.toNat (s.codeset c).bandEndSize.toNat = (s.codeset c).bandEndCode.toNat

/-! ### Command words (spec/30_encoding.md R112, R114) -/

/-- The opcode map: every listed opcode with its format. -/
def opcodeMap : List (Nat × Format) :=
  [(0x00, .N), (0x01, .C), (0x02, .C), (0x03, .C), (0x04, .C), (0x05, .C), (0x06, .N), (0x07, .C), (0x08, .C), (0x09, .C),
    (0x0A, .C), (0x0B, .C), (0x0C, .C), (0x0D, .CI), (0x10, .I), (0x11, .I), (0x12, .I), (0x18, .C), (0x19, .CI), (0x1A, .CI),
    (0x1B, .C), (0x1C, .CI)]

/-- A reserved field of the format is not 0 in `w`. -/
def reservedSet (f : Format) (w : Word) : Bool :=
  match f with
  | .N => csField w != 0 || immField w != 0
  | .C => immField w != 0
  | .I => csField w != 0
  | .CI => false

/-- The format carries a codeset. -/
abbrev hasCodeset (f : Format) : Prop := f = .C ∨ f = .CI

/-! ### Books (spec/40_table_generator.md R155 to R163) -/

/-- Entry `j` of a book is `size` bits long and its codeword is the leading bits of the `width`-bit window `w`. -/
abbrev Leads (b : Nat → BookEntry) (w width size j : Nat) : Prop :=
  (b j).size = size ∧ w / 2 ^ (width - size) = (b j).bits

/-- Entry `j`, of `size` bits, is the first that leads the window: sizes in rising order, then book order (R158). -/
abbrev FirstLead (b : Nat → BookEntry) (len w width size j : Nat) : Prop :=
  1 ≤ size ∧ size ≤ min width 31 ∧ j < len ∧ Leads b w width size j ∧ (∀ i < j, ¬ Leads b w width size i) ∧
    ∀ z < size, 1 ≤ z → ∀ i < len, ¬ Leads b w width z i

/-- No entry leads the window. -/
abbrev NoLead (b : Nat → BookEntry) (len w width : Nat) : Prop :=
  ∀ z < min width 31 + 1, 1 ≤ z → ∀ i < len, ¬ Leads b w width z i

/-- The codewords of a book are 1 to 31 bits long, and no one is a prefix of another (R119). -/
abbrev PrefixFree (b : Nat → BookEntry) (len : Nat) : Prop :=
  (∀ j < len, 1 ≤ (b j).size ∧ (b j).size ≤ 31 ∧ (b j).bits < 2 ^ (b j).size) ∧
    ∀ i < len, ∀ j < len, i ≠ j → (b i).size ≤ (b j).size → (b j).bits / 2 ^ ((b j).size - (b i).size) ≠ (b i).bits

/-- A transmitted codeword (R120): entry `j`, with the sign code of a negative or a positive value. -/
structure Sent where
  j : Nat
  negative : Bool
  deriving DecidableEq, Repr

/-- Its length (R120). -/
def Sent.length (b : Nat → BookEntry) (t : Sent) : Nat := if (b t.j).value = 0 then (b t.j).size else (b t.j).size + 2

/-- Its bits, the first one most significant (R120). -/
def Sent.code (p : Params) (b : Nat → BookEntry) (t : Sent) : Nat :=
  if (b t.j).value = 0 then (b t.j).bits
  else 4 * (b t.j).bits + (if t.negative then p.negativeCode else p.positiveCode).toNat

/-- The value it stands for. -/
def Sent.value (b : Nat → BookEntry) (t : Sent) : Int := if t.negative then -(b t.j).value else (b t.j).value

/-- The bitstream holds the transmitted codewords `l` from position `p` on, one after the other. -/
def State.Holds (s : State) (b : Nat → BookEntry) : (p : Nat) → (l : List Sent) → Prop
  | _, [] => True
  | p, t :: rest => s.streamBits p (t.length b) = t.code s.params b ∧ s.Holds b (p + t.length b) rest

/-- `n` is a 12-bit index that agrees with the transmitted codeword as far as both go: one is a prefix of the other (R166). -/
abbrev Sent.compatible (p : Params) (b : Nat → BookEntry) (t : Sent) (idx : Nat) : Prop :=
  if t.length b ≤ 12 then idx / 2 ^ (12 - t.length b) = t.code p b else t.code p b / 2 ^ (t.length b - 12) = idx

/-- The loop of `ScanEntry` (R160) as a relation: from `rem` bits left, `cnt` positions and `sh` bits so far, to its result. -/
inductive ScanRun (p : Params) (b : Nat → BookEntry) (len idx : Nat) : (rem cnt sh : Nat) → (result : Nat × Int × Nat) → Prop where
  | exhausted (cnt sh : Nat) : ScanRun p b len idx 0 cnt sh (cnt, 0, sh)
  | notFound (rem cnt sh : Nat) (h : matchPattern p (idx % 2 ^ rem) rem (fun _ => b) len [] = none) :
      ScanRun p b len idx rem cnt sh (cnt, 0, sh)
  | value (rem cnt sh : Nat) (m : MatchHit) (hr : 0 < rem)
      (h : matchPattern p (idx % 2 ^ rem) rem (fun _ => b) len [] = some m) (hv : m.value ≠ 0) :
      ScanRun p b len idx rem cnt sh (cnt + m.count, m.value, sh + m.shift)
  | zeroRun (rem cnt sh : Nat) (m : MatchHit) (r : Nat × Int × Nat) (hr : 0 < rem)
      (h : matchPattern p (idx % 2 ^ rem) rem (fun _ => b) len [] = some m) (hv : m.value = 0)
      (rest : ScanRun p b len idx (rem - m.shift) (cnt + m.count) (sh + m.shift) r) : ScanRun p b len idx rem cnt sh r

/-! ### Composite codewords (spec/30_encoding.md R121) -/

/-- The concatenation of codewords, the first one most significant (spec/00_scope.md R12). -/
def concatCodes : List WorkEntry → Nat
  | [] => 0
  | e :: rest => e.bits.toNat * 2 ^ (rest.map fun x => x.size.toNat).sum + concatCodes rest

/-- The codewords a composition takes (spec/40_table_generator.md R146, R147): from the first class to the last, each as often as
both the length still to cover and the budget still free allow. -/
def greedyParts (budget : Nat) : (work : List WorkEntry) → (remaining size : Nat) → List WorkEntry
  | [], _, _ => []
  | e :: rest, remaining, size =>
    let n := min (remaining / e.count.toNat) ((budget - size) / e.size.toNat)
    List.replicate n e ++ greedyParts budget rest (remaining - n * e.count.toNat) (size + n * e.size.toNat)

/-! ### Companding (spec/40_table_generator.md R170 to R175) -/

/-- `CUBIC[i]`: the largest `m` of 1 to 255 whose cubic magnitude is at most `i`, 0 if none is. Magnitudes rise strictly, so it is
how many are at most `i`. -/
def cubicIndex (i : Nat) : Nat := (List.range' 1 255).countP fun m => m + 768 * m ^ 3 / 2 ^ 24 ≤ i

/-- The whole `CUBIC` table. -/
def cubicTable : List (BitVec 8) := (List.range 1025).map fun i => BitVec.ofNat 8 (cubicIndex i)

/-- The companded magnitude under each policy. -/
def companded : Policy → Nat → Nat
  | .notNeeded, m => m
  | .cubic, m => cubicIndex (min m 1024)
  | .legacy, m => if m < 40 then m else 40 + (m - 40 + 2) / 4

/-- The flags select a policy the block has (R171). -/
abbrev CompandFlags.Selects (f : CompandFlags) (p : Policy) : Prop :=
  match p with
  | .notNeeded => f.notNeeded = true ∧ f.cubic = false
  | .cubic => f.notNeeded = false ∧ f.cubic = true
  | .legacy => f.notNeeded = false ∧ f.cubic = false ∧ f.more = false

end Sys2Proof.Machine
end

