-- ==== Sys2Proof/Certificates/Slice0/Obligations.lean ====
section
/-!
DEFINITION. The statements for the provers. Each docstring names the rule of spec/ it formalises. `State.complete` and `State.fail`
are what R305 and R306 write; `CompletionAndFailure` says so field by field.
-/

open Sys2Proof Sys2Proof.Machine

/-! ### Command words -/

/-- R114: the command word of a command decodes to that command, with every operand at every value the encoding admits. -/
def Obligations.EncodeDecodeRoundTrip : Prop := ∀ i : Instr, i.wellFormed = true → decode (encode i) = .ok i

/-- R118: the verdict on any 32-bit word, in the order of the rule; a word that is decoded is the command word of a command that
names a codeset. -/
def Obligations.DecodeFollowsThePriority : Prop :=
  ∀ w : Word,
    match opcodeMap.lookup (opField w).toNat with
    | none => decode w = .error .illegalCmd
    | some f =>
      if reservedSet f w then decode w = .error .illegalCmd
      else if hasCodeset f ∧ csField w = 3 then decode w = .error .badCodeset
      else ∃ i, decode w = .ok i ∧ i.wellFormed = true ∧ encode i = w

/-- R114: for each of the 22 rows a word that the spec writes out, with the command it gives it (the examples of R186, R213, R217,
R234, R235, R236, R255, R262, R265, R271, R275 and R280; for the other rows spec/95_test_vectors.md: V-SORT-1, V-SORT-3, V-SCAN,
V-LEGACY, V-CUBIC, the vector of `FILL_VLC_TABLE`, V-FSM-LOAD, V-SCALE-5, V-BANDEND and V-MATCH-1). -/
def Obligations.SampleCommandWords : Prop :=
  decode 0x00000000 = .ok .nop ∧ decode 0x04000000 = .ok (.initCodebooks 0) ∧ decode 0x08000000 = .ok (.sortRunlength 0) ∧
    decode 0x0C000000 = .ok (.buildRunlength 0) ∧ decode 0x10000000 = .ok (.fillScanLut 0) ∧
    decode 0x14000000 = .ok (.fillCodeLut 0) ∧ decode 0x18000000 = .ok .buildCubic ∧
    decode 0x1C000000 = .ok (.fillVlcTable 0) ∧ decode 0x20000000 = .ok (.loadFsm 0) ∧ decode 0x26000000 = .ok (.scaleFsm 2) ∧
    decode 0x28000000 = .ok (.extractBandEnd 0) ∧ decode 0x2D000000 = .ok (.initDecoderFsm 1) ∧
    decode 0x30000000 = .ok (.freeCodebooks 0) ∧ decode 0x34000004 = .ok (.matchPattern 0 4) ∧ decode 0x40000004 = .ok (.bsPeek 4) ∧ decode 0x4400000C = .ok (.bsGet 12) ∧
    decode 0x48000005 = .ok (.bsSkip 5) ∧ decode 0x60000000 = .ok (.vlcDecode 0) ∧ decode 0x64000003 = .ok (.vlcRun 0 3) ∧
    decode 0x68000001 = .ok (.fsmSetState 0 1) ∧ decode 0x6C000000 = .ok (.fsmStep 0) ∧ decode 0x70000002 = .ok (.fsmRun 0 2)

/-! ### The engine -/

/-- R304: a step in which the engine acts is `exec` of the command that the running word decodes to, no part of which was carried out
before. The events left in the schedule are the model's own (log entry 6); `withFetchWord` places a command where the next step
runs it (log entry 7). -/
def Obligations.StepRunsDecodedCommand : Prop :=
  ∀ (s : State) (w : Word) (i : Instr), decode w = .ok i →
    (s.engine = .busy w → s.progress = .start → s.resetLine = false →
      (∀ rest, s.inputs = .engine :: rest → step s = exec i { s with inputs := rest }) ∧ (s.inputs = [] → step s = exec i s)) ∧
      step (s.withFetchWord 32 w.toNat) = exec i { s.accept w with resetLine := false }

/-- R115, R116, R302: a word with a reserved opcode or a non-zero reserved field fails with `ILLEGAL_CMD`, one with codeset 3 with
`BAD_CODESET`, and there is no other effect: `ERRINFO` is the command word (R301). -/
def Obligations.RefusedWordsFail : Prop :=
  ∀ (s : State) (w : Word) (rest : List Input), s.engine = .busy w → s.resetLine = false → s.inputs = .engine :: rest →
    let failed (code : ErrCode) : State := { s with
      inputs := rest
      engine := .idle
      status := { s.status with errCode := code, err := true, done := true }
      errInfo := w
      srcRaces := []
      bsRaces := []
      progress := .start }
    (opcodeMap.lookup (opField w).toNat = none → step s = .next (failed .illegalCmd)) ∧
      ∀ f, opcodeMap.lookup (opField w).toNat = some f →
        (reservedSet f w → step s = .next (failed .illegalCmd)) ∧
          (¬ reservedSet f w → hasCodeset f → csField w = 3 → step s = .next (failed .badCodeset))

/-- R304: a write of a word to `CMD` while the engine is idle is accepted. `fresh`, the counter of free values, the lists of racing
writes and `progress` are the model's own (log entry 11). -/
def Obligations.CommandAcceptance : Prop :=
  ∀ (s : State) (w : Word) (rest : List Input), s.engine = .idle → s.resetLine = false →
    s.inputs = .write 0x010 .word w :: rest →
    step s = .next { s with
      inputs := rest
      cmd := w
      status := { s.status with done := false, err := false, errCode := .none }
      errInfo := 0
      engine := .busy w
      fresh := s.fresh + 1
      srcRaces := []
      bsRaces := []
      progress := .start }

/-- R301, R305, R306, R315: what `complete` and `fail` write, as `STATUS`, `ERRINFO` and the interrupt output then read, and that they
write nothing else; the numbers of the error codes. The interrupt is asserted by a completion where `IRQ_EN` is 1, and deasserted
by an acceptance and by a W1C write of `DONE`. -/
def Obligations.CompletionAndFailure : Prop :=
  (∀ (s : State) (f : Failure),
    s.complete = { s with
        engine := .idle, status := { s.status with done := true }, srcRaces := [], bsRaces := [], progress := .start } ∧
      s.fail f = { s with
        engine := .idle
        status := { s.status with errCode := f.code, err := true, done := true }
        errInfo := BitVec.ofNat 32 f.info
        srcRaces := []
        bsRaces := []
        progress := .start } ∧
      s.complete.statusWord.getLsbD 0 = false ∧ s.complete.statusWord.getLsbD 1 = true ∧
      (s.fail f).statusWord.getLsbD 0 = false ∧ (s.fail f).statusWord.getLsbD 1 = true ∧
      (s.fail f).statusWord.getLsbD 2 = true ∧ (s.fail f).statusWord.extractLsb' 8 8 = f.code.toByte ∧
      (s.fail f).errInfo.toNat = f.info % 2 ^ 32 ∧
      s.complete.irq = s.ctrl.irqEn ∧ (s.fail f).irq = s.ctrl.irqEn ∧
      (∀ w, (s.accept w).irq = false) ∧ ∀ v : Word, v.getLsbD 1 = true → (s.writeStatus v).irq = false) ∧
    ErrCode.none.toByte = 0x00 ∧ ErrCode.invalidCodebook.toByte = 0x01 ∧ ErrCode.outOfMemory.toByte = 0x02 ∧
    ErrCode.initFsm.toByte = 0x03 ∧ ErrCode.illegalCmd.toByte = 0x05 ∧ ErrCode.badCodeset.toByte = 0x06 ∧
    ErrCode.notInitialized.toByte = 0x07 ∧ ErrCode.bitstreamUnderrun.toByte = 0x08 ∧ ErrCode.decodeError.toByte = 0x09 ∧
    ErrCode.unsupported.toByte = 0x0B ∧ ErrCode.badFlags.toByte = 0x0C ∧ ErrCode.badOperand.toByte = 0x0D

/-- R305, R306, R310: every command ends, with the engine idle and `DONE` set; after an acceptance it has either failed, with a code,
or left the error report clear (R41). `NOP` does nothing else (R280). R93, R357: what a command has carried out before its
completion, for other agents to see, leaves the engine busy with it and does not change where it ends. That those parts are
events of their own is the model's choice (log entry 4). -/
def Obligations.EveryCommandCompletes : Prop :=
  (∀ (i : Instr) (s : State), ∃ t, exec i s = .next t ∧ t.engine = .idle ∧ t.status.done = true ∧ t.Quiet ∧ t.progress = .start ∧
    (s.Accepted →
      t.status.err = false ∧ t.status.errCode = .none ∧ t.errInfo = 0 ∨ t.status.err = true ∧ t.status.errCode ≠ .none)) ∧
    (∀ s : State, exec .nop s = .next { s with
      engine := .idle, status := { s.status with done := true }, srcRaces := [], bsRaces := [], progress := .start }) ∧
    (∀ (s : State) (w : Word), s.engine = .busy w → s.resetLine = false →
      ∃ t, s.runEngine = .next t ∧ t.engine = .idle ∧ t.status.done = true) ∧
    ∀ s : State, s.runStage.engine = s.engine ∧ s.runStage.runEngine = s.runEngine

/-- R311: `BAND_END`, `UNMATCHED` and `OVERRUN` stay 1 until the host clears them with a W1C write, or a reset does. So they do between
two reads of `STATUS` during one command. That the reset input clears them at its assertion is the model's choice: R342 gives the
registers' values at its deassertion (log entry 17, DEDUCED). -/
def Obligations.StickyStatusBits : Prop :=
  ∀ s t : State, step s = .next t →
    let cleared (bit : Nat) : Prop :=
      (∃ o v rest, s.inputs = .write o .word v :: rest ∧
        (Reg.ofOffset o.toNat = .status ∧ v.getLsbD bit = true ∨ Reg.ofOffset o.toNat = .ctrl ∧ v.getLsbD 31 = true)) ∨
        ∃ rest, s.inputs = .resetLine true :: rest
    (s.status.bandEnd = true → t.status.bandEnd = false → cleared 3) ∧
      (s.status.unmatched = true → t.status.unmatched = false → cleared 4) ∧
      (s.status.overrun = true → t.status.overrun = false → cleared 5)

/-- R35, R38, R39, R42, R45 to R47, R51, R81, R352: what no command writes. -/
def Obligations.CommandFrame : Prop :=
  ∀ (i : Instr) (s t : State), exec i s = .next t →
    t.params = s.params ∧ t.ctrl = s.ctrl ∧ t.status.overrun = s.status.overrun ∧ t.cmd = s.cmd ∧ t.arg0 = s.arg0 ∧
      t.bsBase = s.bsBase ∧ t.bsLen = s.bsLen ∧ t.tblSel = s.tblSel ∧ t.tblIndex = s.tblIndex ∧ t.tblData0 = s.tblData0 ∧
      t.tblData1 = s.tblData1 ∧ t.tblData2 = s.tblData2 ∧ t.tblData3 = s.tblData3 ∧ t.resetLine = s.resetLine ∧
      (∀ a, t.srcmem.read a = s.srcmem.read a) ∧ (∀ a, t.bsmem.read a = s.bsmem.read a) ∧ t.inputs = s.inputs ∧
      ∀ c, (t.codeset c).csFlags = (s.codeset c).csFlags ∧ (t.codeset c).magBase = (s.codeset c).magBase ∧
        (t.codeset c).magLen = (s.codeset c).magLen ∧ (t.codeset c).rlcBase = (s.codeset c).rlcBase ∧
        (t.codeset c).rlcLen = (s.codeset c).rlcLen ∧ (t.codeset c).rlvBase = (s.codeset c).rlvBase ∧
        (t.codeset c).rlvLen = (s.codeset c).rlvLen ∧ (t.codeset c).tagBase = (s.codeset c).tagBase ∧
        (t.codeset c).fsmBase = (s.codeset c).fsmBase ∧ (t.codeset c).zeroBits = (s.codeset c).zeroBits ∧
        (t.codeset c).zeroSize = (s.codeset c).zeroSize

/-- R16, R57 to R62: a command changes the registers and tables of the codeset it names only, and each table only if it is one of
the commands that write it. -/
def Obligations.TablesWrittenOnlyByTheirCommands : Prop :=
  ∀ (i : Instr) (s t : State), exec i s = .next t →
    (∀ c, i.codesetField.bind CsId.ofField ≠ some c → t.codeset c = s.codeset c) ∧
      (∀ c, (∀ cs, i ≠ .buildRunlength cs ∧ i ≠ .initCodebooks cs ∧ i ≠ .freeCodebooks cs) →
        (t.codeset c).newcodes = (s.codeset c).newcodes) ∧
      (∀ c, (∀ cs, i ≠ .fillScanLut cs ∧ i ≠ .fillCodeLut cs ∧ i ≠ .initCodebooks cs ∧ i ≠ .freeCodebooks cs) →
        (t.codeset c).fastbook = (s.codeset c).fastbook) ∧
      (∀ c, (∀ cs, i ≠ .fillVlcTable cs ∧ i ≠ .initCodebooks cs ∧ i ≠ .freeCodebooks cs) →
        (t.codeset c).valuebook = (s.codeset c).valuebook) ∧
      (∀ c, (∀ cs, i ≠ .loadFsm cs ∧ i ≠ .scaleFsm cs ∧ i ≠ .initDecoderFsm cs ∧ i ≠ .freeCodebooks cs) →
        (t.codeset c).fsm = (s.codeset c).fsm) ∧
      ((∀ cs, i ≠ .fillVlcTable cs ∧ i ≠ .initCodebooks cs) → i ≠ .buildCubic → t.cubic = s.cubic) ∧
      ((∀ cs, i ≠ .sortRunlength cs ∧ i ≠ .buildRunlength cs ∧ i ≠ .initCodebooks cs) →
        t.work = s.work ∧ t.workLen = s.workLen)

/-- R85, R262, R275: only the two runs write OUTMEM and `OUT_PTR`; a run writes the two words of each of its `r` records from
`OUT_PTR` on, modulo 2^32, and leaves every other byte. R93, R354: a word of OUTMEM that another agent reads after the engine has
carried out a part of a run is the old word, or the one that the run leaves. -/
def Obligations.OnlyRunsWriteOutput : Prop :=
  (∀ (i : Instr) (s t : State), exec i s = .next t →
    ((∀ cs n, i ≠ .vlcRun cs n ∧ i ≠ .fsmRun cs n) →
      t.outPtr = s.outPtr ∧ ∀ a, t.outmem.read a = s.outmem.read a) ∧
      ∀ cs n, i = .vlcRun cs n ∨ i = .fsmRun cs n →
        ∃ r, r ≤ n.toNat ∧ t.outPtr = s.outPtr + BitVec.ofNat 32 (2 * r) ∧
          (t.result0 = BitVec.ofNat 32 r ∨ r = 0 ∧ t.result0 = s.result0) ∧
          ∀ a, (∀ k < 2 * r, a / 4 ≠ (s.outPtr + BitVec.ofNat 32 k).toNat) → t.outmem.read a = s.outmem.read a) ∧
    ∀ s t : State, s.runEngine = .next t →
      ∀ a : Word, s.runStage.outmem.readWord a.toNat = s.outmem.readWord a.toNat ∨
        s.runStage.outmem.readWord a.toNat = t.outmem.readWord a.toNat

/-- R42, R232: a command moves `BS_POS` only forward and never past `BS_LEN`, and only a command that consumes bits moves it. -/
def Obligations.PositionMovesOnlyByConsume : Prop :=
  ∀ (i : Instr) (s t : State), exec i s = .next t →
    (t.bsPos = s.bsPos ∨ s.bsPos.toNat ≤ t.bsPos.toNat ∧ t.bsPos.toNat ≤ s.bsLen.toNat) ∧
      ((∀ cs n, i ≠ .bsGet n ∧ i ≠ .bsSkip n ∧ i ≠ .vlcDecode cs ∧ i ≠ .vlcRun cs n ∧ i ≠ .fsmStep cs ∧ i ≠ .fsmRun cs n) →
        t.bsPos = s.bsPos)

/-! ### The bit-shift unit -/

/-- R231, R233: the bits a peek returns are those of the bitstream, 0 at and beyond `BS_LEN`, the first one most significant. -/
def Obligations.PeekReadsTheStream : Prop :=
  ∀ s : State, s.Quiet → ∀ (site : Site) (n : Nat),
    s.bitAt site n = s.streamBit n ∧ s.peek site n = s.streamBits s.bsPos.toNat n ∧ s.peek site n < 2 ^ n

/-- R234: `BS_PEEK n` puts the next `n` bits into `RESULT0`, and fails with `BAD_OPERAND` for `n > 32`. -/
def Obligations.BsPeekResult : Prop :=
  ∀ (s : State) (n : BitVec 24), s.Quiet →
    (n.toNat ≤ 32 →
      exec (.bsPeek n) s = .next { s with result0 := BitVec.ofNat 32 (s.streamBits s.bsPos.toNat n.toNat) }.complete) ∧
      (32 < n.toNat → exec (.bsPeek n) s = .next (s.fail ⟨.badOperand, n.toNat⟩))

/-- R235, R236: `BS_GET n` reads and consumes `n` bits, `BS_SKIP n` consumes them; each fails with `BITSTREAM_UNDERRUN` where fewer
remain, and `BS_GET` with `BAD_OPERAND` for `n > 32`. -/
def Obligations.BsGetAndSkipResult : Prop :=
  ∀ (s : State) (n : BitVec 24), s.Quiet →
    (n.toNat ≤ 32 → s.bsPos.toNat + n.toNat ≤ s.bsLen.toNat →
      exec (.bsGet n) s = .next { s with
        bsPos := s.bsPos + n.setWidth 32
        result0 := BitVec.ofNat 32 (s.streamBits s.bsPos.toNat n.toNat) }.complete) ∧
      (32 < n.toNat → exec (.bsGet n) s = .next (s.fail ⟨.badOperand, n.toNat⟩)) ∧
      (n.toNat ≤ 32 → s.bsLen.toNat < s.bsPos.toNat + n.toNat →
        exec (.bsGet n) s = .next (s.fail ⟨.bitstreamUnderrun, n.toNat⟩)) ∧
      (s.bsPos.toNat + n.toNat ≤ s.bsLen.toNat →
        exec (.bsSkip n) s = .next { s with bsPos := s.bsPos + n.setWidth 32 }.complete) ∧
      (s.bsLen.toNat < s.bsPos.toNat + n.toNat → exec (.bsSkip n) s = .next (s.fail ⟨.bitstreamUnderrun, n.toNat⟩))

/-! ### Run-length codes -/

/-- R143, R144: a run-length book that passes the checks is copied, with the isolated zero if it has no count-1 entry, and sorted by
decreasing count. -/
def Obligations.SortRunlengthResult : Prop :=
  ∀ (s : State) (cs : BitVec 2) (c : CsId), CsId.ofField cs = some c → s.Quiet → s.RunsReady c →
    ∃ l : List WorkEntry,
      exec (.sortRunlength cs) s = .next { s with
        work := s.work.store l
        workLen := BitVec.ofNat 32 l.length
        result0 := BitVec.ofNat 32 l.length }.complete ∧
      l.length = s.runsNeeded c ∧
      l.Perm ((List.range (s.codeset c).rlcLen.toNat).map (fun j => (s.rleEntry c j).toWork) ++
        if s.RleHasOne c then [] else [⟨(s.codeset c).zeroBits, (s.codeset c).zeroSize.setWidth 6, 1⟩]) ∧
      l.Pairwise (fun a b => b.count.toNat < a.count.toNat) ∧ l.getLast?.map (·.count) = some 1

/-- R140, R143, R303: the failures of `SORT_RUNLENGTH`, in the order of its checks; each leaves everything but the error report. -/
def Obligations.SortRunlengthFailures : Prop :=
  ∀ (s : State) (cs : BitVec 2) (c : CsId), CsId.ofField cs = some c → s.Quiet →
    let n := (s.codeset c).rlcLen.toNat
    (∀ j < n, (s.rleEntry c j).badRun = true → (∀ i < j, (s.rleEntry c i).badRun = false) →
      exec (.sortRunlength cs) s = .next (s.fail ⟨.invalidCodebook, j⟩)) ∧
      (s.RleValid c → s.params.rlcMaxEntries < s.runsNeeded c →
        exec (.sortRunlength cs) s = .next (s.fail ⟨.outOfMemory, s.runsNeeded c⟩)) ∧
      (s.RleValid c → s.runsNeeded c ≤ s.params.rlcMaxEntries → ¬ s.RleHasOne c → ¬ (s.codeset c).ZeroCodeOk →
        exec (.sortRunlength cs) s = .next (s.fail ⟨.invalidCodebook, n⟩)) ∧
      (s.RleValid c → s.runsNeeded c ≤ s.params.rlcMaxEntries → s.RleHasOne c ∨ (s.codeset c).ZeroCodeOk →
        ∀ j < n, (∃ i < j, (s.rleEntry c i).count = (s.rleEntry c j).count) →
          (∀ k < j, ∀ i < k, (s.rleEntry c i).count ≠ (s.rleEntry c k).count) →
          exec (.sortRunlength cs) s = .next (s.fail ⟨.invalidCodebook, j⟩))

/-- R150: `BUILD_RUNLENGTH` leaves what `SORT_RUNLENGTH` leaves, and in `NEWCODES` the composition of every run length over the
sorted classes; where the sort fails, `NEWCODES_V` is cleared, the table is unspecified (log entry 2), and nothing else but the
error report changes. -/
def Obligations.BuildRunlengthResult : Prop :=
  ∀ (s : State) (cs : BitVec 2) (c : CsId), CsId.ofField cs = some c → s.Quiet → s.params.inRange →
    (s.RunsReady c →
      ∃ u, exec (.sortRunlength cs) s = .next u ∧
        exec (.buildRunlength cs) s = .next { u.setCodeset c { s.codeset c with
            newcodes := (s.codeset c).newcodes.rebuild
              ((List.range 3072).map (compose (s.params.longSize - 1) (u.work.cells.take u.workLen.toNat)))
            valid := { (s.codeset c).valid with newcodes := true } } with
          result0 := u.workLen }) ∧
      ∀ f : Failure, exec (.sortRunlength cs) s = .next (s.fail f) → ¬ s.RunsReady c →
        exec (.buildRunlength cs) s =
          .next ((s.setCodeset c { s.codeset c with
            newcodes := (s.codeset c).newcodes.forget, valid := { (s.codeset c).valid with newcodes := false } }).fail f)

/-- R145 to R149, R151: the composition of a run length takes the classes of `WORK` from the first, the largest, to the last, each as
often as the length still to cover and the budget still free allow; its codeword is the concatenation of theirs, within the
budget; the stored count is the sum of their counts, and it is the run length itself unless the codeword of the last, count-1,
class does not fit. -/
def Obligations.ComposeCoversItsParts : Prop :=
  ∀ (budget : Nat) (work : List WorkEntry) (r : Nat), budget ≤ 31 → r < 3072 →
    (∀ e ∈ work, 1 ≤ e.count.toNat ∧ 1 ≤ e.size.toNat ∧ e.size.toNat ≤ 31 ∧ e.bits.toNat < 2 ^ e.size.toNat) →
    let parts := greedyParts budget work r 0
    (∀ e ∈ parts, e ∈ work) ∧
      (compose budget work r).bits.toNat = concatCodes parts ∧
      (compose budget work r).size.toNat = (parts.map fun e => e.size.toNat).sum ∧
      (compose budget work r).count.toNat = (parts.map fun e => e.count.toNat).sum ∧
      (compose budget work r).size.toNat ≤ budget ∧
      (compose budget work r).count.toNat ≤ r ∧
      ∀ e, work.getLast? = some e → e.count.toNat = 1 → (compose budget work r).count.toNat < r →
        budget < (compose budget work r).size.toNat + e.size.toNat

/-! ### Bit-pattern matching -/

/-- R155 to R158: what `Match` answers on any book, by the first entry that leads the window. -/
def Obligations.MatchFindsTheFirstLead : Prop :=
  ∀ (p : Params) (word width : Nat) (b : Nat → BookEntry) (len : Nat) (site : Site),
    let w := word % 2 ^ width
    (NoLead b len w width → matchPattern p word width (fun _ => b) len site = none) ∧
      ∀ size j, FirstLead b len w width size j →
        matchPattern p word width (fun _ => b) len site =
          if (b j).value = 0 then some ⟨(b j).count, 0, size⟩
          else if width < size + 2 then none
          else if w / 2 ^ (width - size - 2) % 4 = p.negativeCode.toNat then some ⟨(b j).count, -(b j).value, size + 2⟩
          else some ⟨(b j).count, (b j).value, size + 2⟩

/-- R159: `MATCH_PATTERN` reports what `Match` answers for the low `width` bits of `ARG0`; `NOTFOUND` is a result. -/
def Obligations.MatchPatternResult : Prop :=
  ∀ (s : State) (cs : BitVec 2) (c : CsId) (n : BitVec 24), CsId.ofField cs = some c → s.Quiet →
    let w := s.arg0.toNat % 2 ^ n.toNat
    let len := (s.codeset c).rlvLen.toNat
    (1 ≤ n.toNat → n.toNat ≤ 32 → s.RlvValid c →
      (∀ m, matchPattern s.params w n.toNat (fun _ => s.rlvEntry c) len [] = some m →
        exec (.matchPattern cs n) s = .next { s with
          result0 := BitVec.ofNat 32 m.count
          result1 := BitVec.ofInt 32 m.value
          result2 := BitVec.ofNat 32 m.shift
          result3 := 0 }.complete) ∧
        (matchPattern s.params w n.toNat (fun _ => s.rlvEntry c) len [] = none →
          exec (.matchPattern cs n) s = .next { s with result0 := 0, result1 := 0, result2 := 0, result3 := 1 }.complete)) ∧
      (n.toNat < 1 ∨ 32 < n.toNat → exec (.matchPattern cs n) s = .next (s.fail ⟨.badOperand, n.toNat⟩)) ∧
      (1 ≤ n.toNat → n.toNat ≤ 32 →
        ∀ j < len, (s.rlvEntry c j).badRunValue = true → (∀ i < j, (s.rlvEntry c i).badRunValue = false) →
          exec (.matchPattern cs n) s = .next (s.fail ⟨.invalidCodebook, j⟩))

/-! ### Fast lookup tables -/

/-- R165: `FILL_SCAN_LUT` stores the scan entry of each of the 4096 indices, counts the kinds, and reports an unmatched one, where each
index has an entry; each has one where twelve times every count is below 2^32 (R161), and `ScanEntryFollowsTheLoop` says when
else. -/
def Obligations.FillScanLutResult : Prop :=
  ∀ (s : State) (cs : BitVec 2) (c : CsId), CsId.ofField cs = some c → s.Quiet →
    let entry (idx : Nat) : Option FastEntry :=
      scanEntry s.params (fun _ => s.rlvEntry c) (s.codeset c).rlvLen.toNat [] idx
    (s.RlvReady c → ∀ idx < 4096, (entry idx).isSome = true) ∧
      (s.RlvValid c → (∀ idx < 4096, (entry idx).isSome = true) →
        ∃ l : List FastEntry, l.length = 4096 ∧ (∀ idx < 4096, l[idx]? = entry idx) ∧
          exec (.fillScanLut cs) s = .next { s.setCodeset c { s.codeset c with
              fastbook := (s.codeset c).fastbook.rebuild l
              valid := { (s.codeset c).valid with fastbook := true, fastbookLegacy := false } } with
            status := { s.status with unmatched := s.status.unmatched || decide (0 < countKind .unmatched l) }
            result0 := BitVec.ofNat 32 (countKind .complete l)
            result1 := BitVec.ofNat 32 (countKind .marker l)
            result2 := BitVec.ofNat 32 (countKind .unmatched l) }.complete)

/-- R123, R160 to R164, R168: a scan entry is what the loop of R160 gives, or, where the loop consumes nothing, the marker of the
first entry that has a combination longer than 12 bits beginning with the index, or unmatched; there is none where the count of
the loop exceeds 2^32 - 1. What the marker holds of an index of 2^31 or more is free (log entry 24). -/
def Obligations.ScanEntryFollowsTheLoop : Prop :=
  ∀ (p : Params) (b : Nat → BookEntry) (len idx : Nat), idx < 4096 →
    (∀ j < len, 1 ≤ (b j).size ∧ 1 ≤ (b j).count ∧ (b j).bits < 2 ^ (b j).size) →
    ∃ cnt v sh, ScanRun p b len idx 12 0 0 (cnt, v, sh) ∧ sh ≤ 12 ∧
      (2 ^ 32 ≤ cnt → scanEntry p (fun _ => b) len [] idx = none) ∧
      (cnt < 2 ^ 32 → 0 < sh → 1 ≤ cnt ∧
        scanEntry p (fun _ => b) len [] idx = some ⟨BitVec.ofNat 32 cnt, BitVec.ofInt 32 v, BitVec.ofNat 6 sh⟩) ∧
      (sh = 0 → cnt = 0 ∧
        (∀ j < len, (b j).marks p idx = true → (∀ i < j, (b i).marks p idx = false) →
          ∃ v, (j < 2 ^ 31 → v = BitVec.ofNat 32 j) ∧ scanEntry p (fun _ => b) len [] idx = some ⟨0, v, 12⟩) ∧
          ((∀ j < len, (b j).marks p idx = false) → scanEntry p (fun _ => b) len [] idx = some ⟨0, 0, 0⟩))

/-- R166, with the premise that the book is prefix-free, which the rule does not state and needs (NOTES.md): if every index agrees
with some transmitted codeword, no scan entry is unmatched. -/
def Obligations.ScanCoverage : Prop :=
  ∀ (p : Params) (b : Nat → BookEntry) (len : Nat), PrefixFree b len →
    (∀ j < len, 1 ≤ (b j).count ∧ 12 * (b j).count < 2 ^ 32) →
    (∀ idx < 4096, ∃ t : Sent, t.j < len ∧ t.compatible p b idx) →
    ∀ idx < 4096, ∃ e, scanEntry p (fun _ => b) len [] idx = some e ∧ e.kind ≠ .unmatched

/-- R169: `FILL_CODE_LUT` stores the legacy entry of each of the 4096 indices, counts the kinds, and reports an unmatched one. -/
def Obligations.FillCodeLutResult : Prop :=
  ∀ (s : State) (cs : BitVec 2) (c : CsId), CsId.ofField cs = some c → s.Quiet → s.RleValid c →
    let l := (List.range 4096).map (legacyEntry (fun _ => s.rleEntry c) (s.codeset c).rlcLen.toNat [])
    exec (.fillCodeLut cs) s = .next { s.setCodeset c { s.codeset c with
        fastbook := (s.codeset c).fastbook.rebuild l
        valid := { (s.codeset c).valid with fastbook := true, fastbookLegacy := true } } with
      status := { s.status with unmatched := s.status.unmatched || decide (0 < countKind .unmatched l) }
      result0 := BitVec.ofNat 32 (countKind .complete l)
      result1 := BitVec.ofNat 32 (countKind .marker l)
      result2 := BitVec.ofNat 32 (countKind .unmatched l) }.complete

/-- R167, R168: the legacy entry of an index. What a marker holds of an index of 2^31 or more is free (log entry 24). -/
def Obligations.LegacyEntryIsTheFirstLead : Prop :=
  ∀ (b : Nat → BookEntry) (len idx : Nat) (site : Site), idx < 4096 →
    (∀ size j, FirstLead b len idx 12 size j →
      ((b j).bits = 0 ∧ size = 1 ∧ (b j).count = 1 →
        ∃ z ≤ 12, idx < 2 ^ (12 - z) ∧ (z < 12 → 2 ^ (11 - z) ≤ idx) ∧
          legacyEntry (fun _ => b) len site idx = ⟨BitVec.ofNat 32 z, 0, BitVec.ofNat 6 z⟩) ∧
        (¬ ((b j).bits = 0 ∧ size = 1 ∧ (b j).count = 1) →
          legacyEntry (fun _ => b) len site idx = ⟨BitVec.ofNat 32 (b j).count, 0, BitVec.ofNat 6 size⟩)) ∧
      (NoLead b len idx 12 →
        (∀ j < len, 12 < (b j).size → (b j).bits / 2 ^ ((b j).size - 12) = idx →
          (∀ i < j, 12 < (b i).size → (b i).bits / 2 ^ ((b i).size - 12) ≠ idx) →
          ∃ v, (j < 2 ^ 31 → v = BitVec.ofNat 32 j) ∧ legacyEntry (fun _ => b) len site idx = ⟨0, v, 12⟩) ∧
          ((∀ j < len, 12 < (b j).size → (b j).bits / 2 ^ ((b j).size - 12) ≠ idx) →
            legacyEntry (fun _ => b) len site idx = ⟨0, 0, 0⟩))

/-- R140, R141, R161, R165, R169, R307: a bad entry ends either fill with its index, after the valid bits were cleared; a count that
overflows ends the scan fill with the index of its table entry. The table is invalid then, and unspecified (log entry 2). -/
def Obligations.FillFailures : Prop :=
  ∀ (s : State) (cs : BitVec 2) (c : CsId), CsId.ofField cs = some c → s.Quiet →
    let started (written : Nat) := s.setCodeset c { s.codeset c with
      fastbook := (s.codeset c).fastbook.forget.spoil written
      valid := { (s.codeset c).valid with fastbook := false, fastbookLegacy := false } }
    let entry (idx : Nat) : Option FastEntry :=
      scanEntry s.params (fun _ => s.rlvEntry c) (s.codeset c).rlvLen.toNat [] idx
    (∀ j < (s.codeset c).rlvLen.toNat, (s.rlvEntry c j).badRunValue = true → (∀ i < j, (s.rlvEntry c i).badRunValue = false) →
      exec (.fillScanLut cs) s = .next ((started 0).fail ⟨.invalidCodebook, j⟩)) ∧
      (s.RlvValid c → ∀ idx < 4096, entry idx = none → (∀ i < idx, (entry i).isSome = true) →
        exec (.fillScanLut cs) s = .next ((started idx).fail ⟨.invalidCodebook, idx⟩)) ∧
      (∀ j < (s.codeset c).rlcLen.toNat, (s.rleEntry c j).badRun = true → (∀ i < j, (s.rleEntry c i).badRun = false) →
        exec (.fillCodeLut cs) s = .next ((started 0).fail ⟨.invalidCodebook, j⟩))

/-! ### Signed values -/

/-- R170, R185: `BUILD_CUBIC` writes the table whose entry `i` is the largest magnitude of 1 to 255 whose cubic image is at most `i`,
or 0; it does not depend on the state. -/
def Obligations.BuildCubicResult : Prop :=
  ∀ s : State, exec .buildCubic s = .next { s with cubic := s.cubic.store cubicTable }.complete

/-- R172 to R179: `FILL_VLC_TABLE` stores, for each index, the magnitude codeword of its companded and clamped magnitude, with the
sign code of its sign. The value of an index is its two's-complement reading in `S` bits. What the 32-bit field holds of a code
of 33 bits, which the rules admit for `L = 32` and `MAG_LEN = 1`, is the model's free value (log entry 23). -/
def Obligations.FillVlcTableResult : Prop :=
  ∀ (s : State) (cs : BitVec 2) (c : CsId) (p : Policy), CsId.ofField cs = some c → s.Quiet → s.params.inRange →
    s.VlcValid c → (s.codeset c).csFlags.Selects p →
    let field (n : Nat) : Word := if n < 2 ^ 32 then BitVec.ofNat 32 n else Config.wideCode n
    let code (idx : Nat) : ValueEntry :=
      let v := (BitVec.ofNat s.params.valueSize idx).toInt
      let e := s.vlcEntry c (min (companded p v.natAbs) ((s.codeset c).magLen.toNat - 1))
      if v = 0 then ⟨field e.bits, BitVec.ofNat 6 e.size⟩
      else
        ⟨field (4 * e.bits + (if v < 0 then s.params.negativeCode else s.params.positiveCode).toNat),
          BitVec.ofNat 6 (e.size + 2)⟩
    exec (.fillVlcTable cs) s = .next { s.setCodeset c { s.codeset c with
        valuebook := (s.codeset c).valuebook.rebuild ((List.range (2 ^ s.params.valueSize)).map code)
        valid := { (s.codeset c).valid with valuebook := true } } with
      cubic := if p = Policy.cubic then s.cubic.store cubicTable else s.cubic
      result0 := BitVec.ofNat 32 (2 ^ s.params.valueSize) }.complete

/-- R142, R171, R176, R179: the failures of `FILL_VLC_TABLE`, in the order of its checks, after `VALUEBOOK_V` was cleared; the table is
unspecified then (log entry 2). -/
def Obligations.FillVlcTableFailures : Prop :=
  ∀ (s : State) (cs : BitVec 2) (c : CsId), CsId.ofField cs = some c → s.Quiet →
    let started := s.setCodeset c { s.codeset c with
      valuebook := (s.codeset c).valuebook.forget, valid := { (s.codeset c).valid with valuebook := false } }
    let flags := (s.codeset c).csFlags
    (flags.notNeeded = true → flags.cubic = true →
      exec (.fillVlcTable cs) s = .next (started.fail ⟨.badFlags, flags.toWord.toNat⟩)) ∧
      (flags.notNeeded = false → flags.cubic = false → flags.more = true →
        exec (.fillVlcTable cs) s = .next (started.fail ⟨.unsupported, flags.toWord.toNat⟩)) ∧
      ∀ p, flags.Selects p →
        ((s.codeset c).magLen = 0 → exec (.fillVlcTable cs) s = .next (started.fail ⟨.invalidCodebook, 0xFFFFFFFF⟩)) ∧
          ∀ m < (s.codeset c).magLen.toNat, (s.vlcEntry c m).badMagnitude s.params.budget m = true →
            (∀ k < m, (s.vlcEntry c k).badMagnitude s.params.budget k = false) →
            exec (.fillVlcTable cs) s = .next (started.fail ⟨.invalidCodebook, m⟩)

/-! ### Composite initialisation -/

/-- R186: `INIT_CODEBOOKS` on a codeset not yet built is the three build commands one after the other, and ends with the failure of the
first that fails. -/
def Obligations.InitCodebooksIsTheThreeBuilds : Prop :=
  ∀ (s t1 t2 t3 : State) (cs : BitVec 2) (c : CsId), CsId.ofField cs = some c → s.Quiet → s.status.err = false →
    (s.codeset c).valid.cbReplaced = false →
    exec (.buildRunlength cs) s = .next t1 →
    exec (if s.ctrl.lutLegacy then .fillCodeLut cs else .fillScanLut cs) t1 = .next t2 →
    exec (.fillVlcTable cs) t2 = .next t3 →
    (t1.status.err = true → exec (.initCodebooks cs) s = .next t1) ∧
      (t1.status.err = false → t2.status.err = true → exec (.initCodebooks cs) s = .next t2) ∧
      (t1.status.err = false → t2.status.err = false → t3.status.err = true → exec (.initCodebooks cs) s = .next t3) ∧
      (t1.status.err = false → t2.status.err = false → t3.status.err = false →
        exec (.initCodebooks cs) s = .next { t3.setCodeset c { t3.codeset c with
          valid := { (t3.codeset c).valid with cbReplaced := true } } with result0 := 1 })

/-- R186, R187: with valid static data `INIT_CODEBOOKS` succeeds and every derived codebook table is valid; on a codeset already
built it does nothing but report 0. -/
def Obligations.InitCodebooksCompletes : Prop :=
  ∀ (s : State) (cs : BitVec 2) (c : CsId), CsId.ofField cs = some c →
    ((s.codeset c).valid.cbReplaced = true → exec (.initCodebooks cs) s = .next { s with result0 := 0 }.complete) ∧
      ((s.codeset c).valid.cbReplaced = false → s.Quiet → s.status.err = false → s.params.inRange → s.RunsReady c →
        (if s.ctrl.lutLegacy then True else s.RlvReady c) → s.VlcValid c → (∃ p, (s.codeset c).csFlags.Selects p) →
        ∃ t, exec (.initCodebooks cs) s = .next t ∧ t.status.err = false ∧ t.result0 = 1 ∧
          (t.codeset c).valid = ⟨true, true, s.ctrl.lutLegacy, true, true, (s.codeset c).valid.bandEnd⟩)

/-! ### FSM tables -/

/-- R201 to R203: `LOAD_FSM` copies the static entries unchecked, does nothing on a loaded table, and fails where the state count does
not fit. -/
def Obligations.LoadFsmResult : Prop :=
  ∀ (s : State) (cs : BitVec 2) (c : CsId), CsId.ofField cs = some c → s.Quiet →
    let k := s.codeset c
    let ns := s.srcWord k.fsmBase
    let fits : Prop := 1 ≤ ns.toNat ∧ ns.toNat ≤ 65536 ∧ ns.toNat * 2 ^ s.params.indexSize ≤ s.params.fsmRamEntries
    (k.fsmFlags.initialized = true ∨ k.fsmNumStates ≠ 0 → exec (.loadFsm cs) s = .next { s with result0 := 0 }.complete) ∧
      (k.fsmFlags.initialized = false → k.fsmNumStates = 0 → fits →
        exec (.loadFsm cs) s = .next { s.setCodeset c { k with
            fsm := k.fsm.store ((List.range (ns.toNat * 2 ^ s.params.indexSize)).map (s.fsmArrayEntry c))
            fsmNumStates := ns
            fsmFlags := { policy := k.csFlags, compandingDone := false, initialized := true }
            fsmState := 0 } with
          result0 := ns }.complete) ∧
      (k.fsmFlags.initialized = false → k.fsmNumStates = 0 → ¬ fits →
        exec (.loadFsm cs) s = .next (s.fail ⟨.initFsm, ns.toNat⟩))

/-- R204, R207, R209, R210: `SCALE_FSM` applies the law of the policy copied at load to `value0` of every loaded entry, once. -/
def Obligations.ScaleFsmResult : Prop :=
  ∀ (s : State) (cs : BitVec 2) (c : CsId), CsId.ofField cs = some c →
    let k := s.codeset c
    let flags := k.fsmFlags.policy
    let n := k.fsmNumStates.toNat * 2 ^ s.params.indexSize
    (k.fsmFlags.initialized = false → exec (.scaleFsm cs) s = .next (s.fail ⟨.notInitialized, c.toNat⟩)) ∧
      (k.fsmFlags.initialized = true → k.fsmFlags.compandingDone = true ∨ flags.Selects .notNeeded →
        exec (.scaleFsm cs) s = .next { s with result0 := 0 }.complete) ∧
      (k.fsmFlags.initialized = true → k.fsmFlags.compandingDone = false →
        (flags.notNeeded = true → flags.cubic = true →
          exec (.scaleFsm cs) s = .next (s.fail ⟨.badFlags, k.fsmFlags.toWord.toNat⟩)) ∧
          (flags.notNeeded = false → flags.cubic = false → flags.more = true →
            exec (.scaleFsm cs) s = .next (s.fail ⟨.unsupported, k.fsmFlags.toWord.toNat⟩)) ∧
          ∀ p, p ≠ .notNeeded → flags.Selects p → n ≤ k.fsm.cells.length →
            let law : Int → Int := if p = Policy.cubic then scaleCubic else scaleLegacy
            exec (.scaleFsm cs) s = .next { s.setCodeset c { k with
                fsm := { k.fsm with
                  cells := ((k.fsm.cells.take n).map fun e : FsmEntry => { e with value0 := BitVec.ofInt 16 (law e.value0.toInt) }) ++
                    k.fsm.cells.drop n }
                fsmFlags := { k.fsmFlags with compandingDone := true } } with
              result0 := BitVec.ofNat 32 ((k.fsm.cells.take n).countP fun e : FsmEntry => law e.value0.toInt ≠ e.value0.toInt) }.complete)

/-- R209, R211: a `SCALE_FSM` that follows a successful one changes nothing but `RESULT0`. -/
def Obligations.ScaleFsmOnce : Prop :=
  ∀ (s t : State) (cs : BitVec 2), s.status.err = false → exec (.scaleFsm cs) s = .next t → t.status.err = false →
    exec (.scaleFsm cs) t = .next { t with result0 := 0 }

/-- R205, R206, R208: the two scaling laws, and where their results leave the 16-bit range. The bounds -1095 and 1095 and the values at
-8222 and -8223 are inferences that the spec marks as its own: "[derived: from this rule, `768*263^3/2^24 = 832.7`]" and "[derived:
from rule R206 and `00_scope.md` rule R10]". -/
def Obligations.ScaleLaws : Prop :=
  (∀ v : Int, v.natAbs < 264 →
    (scaleCubic v).natAbs = v.natAbs + 768 * v.natAbs ^ 3 / 2 ^ 24 ∧ (0 ≤ scaleCubic v ↔ 0 ≤ v) ∧
      -1095 ≤ scaleCubic v ∧ scaleCubic v ≤ 1095) ∧
    (∀ v : Int, 264 ≤ v.natAbs → scaleCubic v = v) ∧
    (∀ v : Int, 40 ≤ v → v < 264 → scaleLegacy v = (v - 40) * 4 + 40) ∧
    (∀ v : Int, v ≤ -40 → scaleLegacy v = -((-v - 40) * 4 + 40)) ∧
    (∀ v : Int, -40 < v → ¬ (40 ≤ v ∧ v < 264) → scaleLegacy v = v) ∧
    (∀ v : Int, -32768 ≤ v → v ≤ 32767 →
      (-32768 ≤ scaleCubic v ∧ scaleCubic v ≤ 32767) ∧
        (¬ (-32768 ≤ scaleLegacy v ∧ scaleLegacy v ≤ 32767) ↔ v ≤ -8223)) ∧
    scaleLegacy (-8222) = -32768 ∧ scaleLegacy (-8223) = -32772 ∧ (BitVec.ofInt 16 (scaleLegacy (-8223))).toInt = 32764

/-- R212: `EXTRACT_BAND_END` caches the code of the last tag entry, and fails for an empty table or a code of no 1 to 32 bits, with
`BAND_END_V` cleared. -/
def Obligations.ExtractBandEndResult : Prop :=
  ∀ (s : State) (cs : BitVec 2) (c : CsId), CsId.ofField cs = some c → s.Quiet →
    let k := s.codeset c
    let n := s.srcWord k.tagBase
    let code := s.srcWord (k.tagBase + (n - 1) * 2 + 1)
    let size := s.srcWord (k.tagBase + (n - 1) * 2 + 2)
    let good : Prop := 1 ≤ size.toNat ∧ size.toNat ≤ 32 ∧ code.toNat < 2 ^ size.toNat
    let started := s.setCodeset c { k with valid := { k.valid with bandEnd := false } }
    (n ≠ 0 → good →
      exec (.extractBandEnd cs) s = .next { s.setCodeset c { k with
          bandEndCode := code, bandEndSize := size, valid := { k.valid with bandEnd := true } } with
        result0 := code, result1 := size }.complete) ∧
      (n = 0 → exec (.extractBandEnd cs) s = .next (started.fail ⟨.invalidCodebook, 0⟩)) ∧
      (n ≠ 0 → ¬ good → exec (.extractBandEnd cs) s = .next (started.fail ⟨.invalidCodebook, n.toNat⟩))

/-- R213, R214: `INIT_DECODER_FSM` is the load, the scale and the band-end extraction one after the other, and ends with the failure of
the first that fails, with what the others did. -/
def Obligations.InitDecoderFsmIsTheThreeSteps : Prop :=
  ∀ (s t1 t2 t3 : State) (cs : BitVec 2) (c : CsId), CsId.ofField cs = some c → s.Quiet → s.status.err = false →
    exec (.loadFsm cs) s = .next t1 → exec (.scaleFsm cs) t1 = .next t2 → exec (.extractBandEnd cs) t2 = .next t3 →
    (t1.status.err = true → exec (.initDecoderFsm cs) s = .next t1) ∧
      (t1.status.err = false → t2.status.err = true → exec (.initDecoderFsm cs) s = .next t2) ∧
      (t1.status.err = false → t2.status.err = false → t3.status.err = true → exec (.initDecoderFsm cs) s = .next t3) ∧
      (t1.status.err = false → t2.status.err = false → t3.status.err = false →
        exec (.initDecoderFsm cs) s = .next { t3 with
          result0 := (t3.codeset c).fsmNumStates, result1 := (t3.codeset c).bandEndSize })

/-- R213: with static data that fits, `INIT_DECODER_FSM` on an unloaded codeset succeeds; the table is loaded, its state is 0 and the
band-end code is valid. -/
def Obligations.InitDecoderFsmCompletes : Prop :=
  ∀ (s : State) (cs : BitVec 2) (c : CsId) (p : Policy), CsId.ofField cs = some c → s.Quiet → s.status.err = false →
    let k := s.codeset c
    let ns := s.srcWord k.fsmBase
    let n := s.srcWord k.tagBase
    let code := s.srcWord (k.tagBase + (n - 1) * 2 + 1)
    let size := s.srcWord (k.tagBase + (n - 1) * 2 + 2)
    k.fsmFlags.initialized = false → k.fsmNumStates = 0 → k.csFlags.Selects p →
    1 ≤ ns.toNat → ns.toNat ≤ 65536 → ns.toNat * 2 ^ s.params.indexSize ≤ s.params.fsmRamEntries →
    n ≠ 0 → 1 ≤ size.toNat → size.toNat ≤ 32 → code.toNat < 2 ^ size.toNat →
    ∃ t, exec (.initDecoderFsm cs) s = .next t ∧ t.status.err = false ∧ t.result0 = ns ∧ t.result1 = size ∧
      (t.codeset c).fsmFlags = { policy := k.csFlags, compandingDone := p ≠ .notNeeded, initialized := true } ∧
      (t.codeset c).fsmNumStates = ns ∧ (t.codeset c).fsmState = 0 ∧ (t.codeset c).bandEndCode = code ∧
      (t.codeset c).bandEndSize = size ∧ (t.codeset c).valid = { k.valid with bandEnd := true } ∧
      (p = .notNeeded → ∀ e < ns.toNat * 2 ^ s.params.indexSize, t.fsmAt c e = s.fsmArrayEntry c e)

/-- R217, R218: `FREE_CODEBOOKS` clears the valid bits, the FSM status and the band-end code of the codeset and keeps its descriptors;
it never fails. What its four tables held is unspecified afterwards, and a table entry that held no defined value reads as before
(log entry 2); on a codeset that holds no derived state the command changes nothing. -/
def Obligations.FreeCodebooksResult : Prop :=
  ∀ (s : State) (cs : BitVec 2) (c : CsId), CsId.ofField cs = some c →
    (∃ k : Codeset, exec (.freeCodebooks cs) s = .next (s.setCodeset c k).complete ∧
      k = { s.codeset c with
        valid := ⟨false, false, false, false, false, false⟩
        fsmFlags := ⟨⟨false, false, false⟩, false, false⟩
        fsmNumStates := 0
        fsmState := 0
        bandEndCode := 0
        bandEndSize := 0
        newcodes := k.newcodes
        fastbook := k.fastbook
        valuebook := k.valuebook
        fsm := k.fsm } ∧
      k.valid.toWord = 0 ∧ k.fsmFlags.toWord = 0 ∧
      k.newcodes.cells = [] ∧ k.fastbook.cells = [] ∧ k.valuebook.cells = [] ∧ k.fsm.cells = [] ∧
      (∀ i, (s.codeset c).newcodes.cells.length ≤ i → k.newcodes.entry (freeNewcode c i) i = s.newcodeAt c i) ∧
      (∀ i, (s.codeset c).fastbook.cells.length ≤ i → k.fastbook.entry (freeFastbook c i) i = s.fastbookAt c i) ∧
      (∀ i, (s.codeset c).valuebook.cells.length ≤ i → k.valuebook.entry (freeValuebook c i) i = s.valuebookAt c i) ∧
      ∀ i, (s.codeset c).fsm.cells.length ≤ i → k.fsm.entry (freeFsm c i) i = s.fsmAt c i) ∧
      ((s.codeset c).Empty → exec (.freeCodebooks cs) s = .next s.complete)

/-! ### Decoding -/

/-- R252 to R255: one fast-lookup decode step: the band-end code, a complete entry, or a codeword found after a marker. -/
def Obligations.VlcDecodeResult : Prop :=
  ∀ (s : State) (cs : BitVec 2) (c : CsId), CsId.ofField cs = some c → s.Quiet → (s.codeset c).valid.fastbook = true →
    let e := s.fastbookAt c (s.streamBits s.bsPos.toNat 12)
    let book : Nat → BookEntry := if (s.codeset c).valid.fastbookLegacy then s.rleEntry c else s.rlvEntry c
    let len := if (s.codeset c).valid.fastbookLegacy then (s.codeset c).rlcLen.toNat else (s.codeset c).rlvLen.toNat
    (s.BandEndAhead c →
      exec (.vlcDecode cs) s = .next { s with
        bsPos := s.bsPos + (s.codeset c).bandEndSize
        status := { s.status with bandEnd := true }
        result0 := 0
        result1 := 0
        result2 := (s.codeset c).bandEndSize
        result3 := 2 }.complete) ∧
      (¬ s.BandEndAhead c → e.kind = .complete → s.bsPos.toNat + e.shift.toNat ≤ s.bsLen.toNat →
        exec (.vlcDecode cs) s = .next { s with
          bsPos := s.bsPos + e.shift.setWidth 32
          result0 := e.count
          result1 := e.value
          result2 := e.shift.setWidth 32
          result3 := 0 }.complete) ∧
      (¬ s.BandEndAhead c → e.kind = .marker →
        ∀ m, matchPattern s.params (s.streamBits s.bsPos.toNat 32) 32 (fun _ => book) len [] = some m →
          s.bsPos.toNat + m.shift ≤ s.bsLen.toNat →
          exec (.vlcDecode cs) s = .next { s with
            bsPos := s.bsPos + BitVec.ofNat 32 m.shift
            result0 := BitVec.ofNat 32 m.count
            result1 := BitVec.ofInt 32 m.value
            result2 := BitVec.ofNat 32 m.shift
            result3 := 1 }.complete)

/-- R250, R251, R253, R254: the failures of a fast-lookup decode step; each leaves everything but the error report. -/
def Obligations.VlcDecodeFailures : Prop :=
  ∀ (s : State) (cs : BitVec 2) (c : CsId), CsId.ofField cs = some c → s.Quiet →
    let e := s.fastbookAt c (s.streamBits s.bsPos.toNat 12)
    let book : Nat → BookEntry := if (s.codeset c).valid.fastbookLegacy then s.rleEntry c else s.rlvEntry c
    let len := if (s.codeset c).valid.fastbookLegacy then (s.codeset c).rlcLen.toNat else (s.codeset c).rlvLen.toNat
    ((s.codeset c).valid.fastbook = false → exec (.vlcDecode cs) s = .next (s.fail ⟨.notInitialized, c.toNat⟩)) ∧
      ((s.codeset c).valid.fastbook = true → ¬ s.BandEndAhead c →
        (e.kind = .unmatched → exec (.vlcDecode cs) s = .next (s.fail ⟨.decodeError, s.bsPos.toNat⟩)) ∧
          (e.kind = .complete → s.bsLen.toNat < s.bsPos.toNat + e.shift.toNat →
            exec (.vlcDecode cs) s = .next (s.fail ⟨.bitstreamUnderrun, e.shift.toNat⟩)) ∧
          (e.kind = .marker →
            (matchPattern s.params (s.streamBits s.bsPos.toNat 32) 32 (fun _ => book) len [] = none →
              exec (.vlcDecode cs) s = .next (s.fail ⟨.decodeError, s.bsPos.toNat⟩)) ∧
              ∀ m, matchPattern s.params (s.streamBits s.bsPos.toNat 32) 32 (fun _ => book) len [] = some m →
                s.bsLen.toNat < s.bsPos.toNat + m.shift →
                exec (.vlcDecode cs) s = .next (s.fail ⟨.bitstreamUnderrun, m.shift⟩)))

/-- R262: with a table of complete entries of at most `m` bits each, and bits enough, a `VLC_RUN` makes all its steps. -/
def Obligations.VlcRunCompletes : Prop :=
  ∀ (s : State) (cs : BitVec 2) (c : CsId) (n : BitVec 24) (m : Nat), CsId.ofField cs = some c → s.Quiet →
    (s.codeset c).valid.fastbook = true → s.ctrl.bandEndDetect = false →
    (∀ idx < 4096, (s.fastbookAt c idx).kind = .complete ∧ (s.fastbookAt c idx).shift.toNat ≤ m) →
    s.bsPos.toNat + n.toNat * m ≤ s.bsLen.toNat →
    ∃ t, exec (.vlcRun cs n) s = .next t ∧ t.status = { s.status with done := true } ∧ t.result0 = n.setWidth 32 ∧
      t.result1 = 0 ∧ t.result2 = s.result2 ∧ t.result3 = s.result3 ∧ t.errInfo = s.errInfo ∧
      t.outPtr = s.outPtr + BitVec.ofNat 32 (2 * n.toNat) ∧ t.bsPos.toNat ≤ s.bsPos.toNat + n.toNat * m

/-- R250, R262, R263: a `VLC_RUN` is commands `VLC_DECODE` one after the other, and record `j` is the `RESULT0` and `RESULT1` of the
`j`-th. After `k` of them that decoded a codeword each, the run ends: where it was to make no more; where the next one finds the
band-end code; where the next one fails, with its error and what the others did. Without a table it fails at once. -/
def Obligations.VlcRunIsRepeatedDecode : Prop :=
  ∀ (s : State) (cs : BitVec 2) (c : CsId) (n : BitVec 24) (d : Nat → State) (k : Nat), CsId.ofField cs = some c → s.Quiet →
    s.status.err = false → s.outmem.Pairwise (fun x y => x.1 < y.1) →
    ((s.codeset c).valid.fastbook = false → exec (.vlcRun cs n) s = .next (s.fail ⟨.notInitialized, c.toNat⟩)) ∧
      ((s.codeset c).valid.fastbook = true → d 0 = s → k ≤ n.toNat →
        (∀ j < k, exec (.vlcDecode cs) (d j) = .next (d (j + 1)) ∧ (d (j + 1)).status.err = false ∧
          (d (j + 1)).result3 ≠ 2) →
        let ends (t : State) (stopped : Word) (pos : Word) : Prop :=
          exec (.vlcRun cs n) s = .next t ∧ t.result0 = BitVec.ofNat 32 k ∧ t.result1 = stopped ∧ t.bsPos = pos ∧
            t.outPtr = s.outPtr + BitVec.ofNat 32 (2 * k) ∧
            ∀ j < k,
              t.outmem.readWord (s.outPtr + BitVec.ofNat 32 (2 * j)).toNat = (d (j + 1)).result0 ∧
                t.outmem.readWord (s.outPtr + BitVec.ofNat 32 (2 * j + 1)).toNat = (d (j + 1)).result1
        (k = n.toNat → ∃ t, ends t 0 (d k).bsPos ∧ t.status = { s.status with done := true }) ∧
          ∀ u, k < n.toNat → exec (.vlcDecode cs) (d k) = .next u →
            (u.status.err = false → u.result3 = 2 →
              ∃ t, ends t 1 u.bsPos ∧ t.status = { s.status with done := true, bandEnd := true }) ∧
              (u.status.err = true →
                ∃ t, ends t 0 (d k).bsPos ∧ t.errInfo = u.errInfo ∧
                  t.status = { s.status with done := true, err := true, errCode := u.status.errCode }))

/-- R256: with the scan table of a prefix-free book, over a stream that holds transmitted codewords and nothing else, a successful
`VLC_DECODE` consumes one or more whole codewords; its count is the sum of theirs and its value that of the last. -/
def Obligations.DecodesWholeCodewords : Prop :=
  ∀ (s t : State) (cs : BitVec 2) (c : CsId) (l : List Sent), CsId.ofField cs = some c → s.Quiet →
    s.status.err = false → s.params.positiveCode ≠ s.params.negativeCode →
    (s.codeset c).valid.fastbook = true → (s.codeset c).valid.fastbookLegacy = false → s.ctrl.bandEndDetect = false →
    PrefixFree (s.rlvEntry c) (s.codeset c).rlvLen.toNat → s.RlvReady c →
    (∀ idx < 4096, scanEntry s.params (fun _ => s.rlvEntry c) (s.codeset c).rlvLen.toNat [] idx = some (s.fastbookAt c idx)) →
    (∀ x ∈ l, x.j < (s.codeset c).rlvLen.toNat) → s.Holds (s.rlvEntry c) s.bsPos.toNat l →
    s.bsPos.toNat + (l.map (Sent.length (s.rlvEntry c))).sum = s.bsLen.toNat →
    exec (.vlcDecode cs) s = .next t → t.status.err = false →
    ∃ m last, 0 < m ∧ l[m - 1]? = some last ∧
      t.bsPos.toNat = s.bsPos.toNat + ((l.take m).map (Sent.length (s.rlvEntry c))).sum ∧
      t.result0.toNat = ((l.take m).map fun x => (s.rlvEntry c x.j).count).sum ∧
      t.result1 = BitVec.ofInt 32 (last.value (s.rlvEntry c))

/-- R265: `FSM_SET_STATE` sets the state, and fails without a table or for a state the table does not have. -/
def Obligations.FsmSetStateResult : Prop :=
  ∀ (s : State) (cs : BitVec 2) (c : CsId) (n : BitVec 24), CsId.ofField cs = some c →
    let k := s.codeset c
    (k.fsmFlags.initialized = false → exec (.fsmSetState cs n) s = .next (s.fail ⟨.notInitialized, c.toNat⟩)) ∧
      (k.fsmFlags.initialized = true → k.fsmNumStates.toNat ≤ n.toNat →
        exec (.fsmSetState cs n) s = .next (s.fail ⟨.badOperand, n.toNat⟩)) ∧
      (k.fsmFlags.initialized = true → n.toNat < k.fsmNumStates.toNat →
        exec (.fsmSetState cs n) s = .next (s.setCodeset c { k with fsmState := n.setWidth 16 }).complete)

/-- R250 to R252, R270, R271: one FSM decode step, its results, and its failures, which leave everything but the error report. -/
def Obligations.FsmStepResult : Prop :=
  ∀ (s : State) (cs : BitVec 2) (c : CsId), CsId.ofField cs = some c → s.Quiet →
    let k := s.codeset c
    let i := k.fsmState.toNat * 2 ^ s.params.indexSize + s.streamBits s.bsPos.toNat s.params.indexSize
    let e := s.fsmAt c i
    let skips := e.preSkip.toNat + e.postSkip.toNat
    (k.fsmFlags.initialized = false → exec (.fsmStep cs) s = .next (s.fail ⟨.notInitialized, c.toNat⟩)) ∧
      (k.fsmFlags.initialized = true → s.BandEndAhead c →
        exec (.fsmStep cs) s = .next { s with
          bsPos := s.bsPos + k.bandEndSize
          status := { s.status with bandEnd := true }
          result0 := 0
          result1 := 0
          result2 := 0
          result3 := 2 }.complete) ∧
      (k.fsmFlags.initialized = true → ¬ s.BandEndAhead c →
        (k.fsmNumStates.toNat ≤ e.nextState.toNat → exec (.fsmStep cs) s = .next (s.fail ⟨.decodeError, i⟩)) ∧
          (e.nextState.toNat < k.fsmNumStates.toNat → s.bsLen.toNat < s.bsPos.toNat + skips →
            exec (.fsmStep cs) s = .next (s.fail ⟨.bitstreamUnderrun, skips⟩)) ∧
          (e.nextState.toNat < k.fsmNumStates.toNat → s.bsPos.toNat + skips ≤ s.bsLen.toNat →
            exec (.fsmStep cs) s = .next { s.setCodeset c { k with fsmState := e.nextState } with
              bsPos := s.bsPos + BitVec.ofNat 32 skips
              result0 := e.value0.signExtend 32
              result1 := e.value1.signExtend 32
              result2 := BitVec.ofNat 32 (e.nextState.toNat + 2 ^ 16 * e.preSkip.toNat + 2 ^ 24 * e.postSkip.toNat)
              result3 := 0 }.complete))

/-- R275: with entries whose next states exist and whose skips are at most `m` bits, and bits enough, an `FSM_RUN` makes all its
steps and its state stays one of the table's. -/
def Obligations.FsmRunCompletes : Prop :=
  ∀ (s : State) (cs : BitVec 2) (c : CsId) (n : BitVec 24) (m : Nat), CsId.ofField cs = some c → s.Quiet →
    let k := s.codeset c
    k.fsmFlags.initialized = true → s.ctrl.bandEndDetect = false → k.fsmState.toNat < k.fsmNumStates.toNat →
    (∀ i < k.fsmNumStates.toNat * 2 ^ s.params.indexSize, (s.fsmAt c i).nextState.toNat < k.fsmNumStates.toNat ∧
      (s.fsmAt c i).preSkip.toNat + (s.fsmAt c i).postSkip.toNat ≤ m) →
    s.bsPos.toNat + n.toNat * m ≤ s.bsLen.toNat →
    ∃ t, exec (.fsmRun cs n) s = .next t ∧ t.status = { s.status with done := true } ∧ t.result0 = n.setWidth 32 ∧
      t.result1 = 0 ∧ t.result2 = s.result2 ∧ t.result3 = s.result3 ∧ t.errInfo = s.errInfo ∧
      t.outPtr = s.outPtr + BitVec.ofNat 32 (2 * n.toNat) ∧ t.bsPos.toNat ≤ s.bsPos.toNat + n.toNat * m ∧
      (t.codeset c).fsmState.toNat < k.fsmNumStates.toNat ∧
      t.codeset c = { k with fsmState := (t.codeset c).fsmState }

/-- R250, R275: an `FSM_RUN` is commands `FSM_STEP` one after the other, and record `j` is the values word and the state word of the
`j`-th. After `k` of them that made a step each, the run ends: where it was to make no more; where the next one finds the band-end
code; where the next one fails, with its error and what the others did. Without a table it fails at once. -/
def Obligations.FsmRunIsRepeatedStep : Prop :=
  ∀ (s : State) (cs : BitVec 2) (c : CsId) (n : BitVec 24) (d : Nat → State) (k : Nat), CsId.ofField cs = some c → s.Quiet →
    s.status.err = false → s.outmem.Pairwise (fun x y => x.1 < y.1) →
    ((s.codeset c).fsmFlags.initialized = false → exec (.fsmRun cs n) s = .next (s.fail ⟨.notInitialized, c.toNat⟩)) ∧
      ((s.codeset c).fsmFlags.initialized = true → d 0 = s → k ≤ n.toNat →
        (∀ j < k, exec (.fsmStep cs) (d j) = .next (d (j + 1)) ∧ (d (j + 1)).status.err = false ∧
          (d (j + 1)).result3 ≠ 2) →
        let ends (t : State) (stopped : Word) (pos : Word) : Prop :=
          exec (.fsmRun cs n) s = .next t ∧ t.result0 = BitVec.ofNat 32 k ∧ t.result1 = stopped ∧ t.bsPos = pos ∧
            (∀ x, t.codeset x = (d k).codeset x) ∧ t.outPtr = s.outPtr + BitVec.ofNat 32 (2 * k) ∧
            ∀ j < k,
              t.outmem.readWord (s.outPtr + BitVec.ofNat 32 (2 * j)).toNat =
                  (d (j + 1)).result1.extractLsb' 0 16 ++ (d (j + 1)).result0.extractLsb' 0 16 ∧
                t.outmem.readWord (s.outPtr + BitVec.ofNat 32 (2 * j + 1)).toNat = (d (j + 1)).result2
        (k = n.toNat → ∃ t, ends t 0 (d k).bsPos ∧ t.status = { s.status with done := true }) ∧
          ∀ u, k < n.toNat → exec (.fsmStep cs) (d k) = .next u →
            (u.status.err = false → u.result3 = 2 →
              ∃ t, ends t 1 u.bsPos ∧ t.status = { s.status with done := true, bandEnd := true }) ∧
              (u.status.err = true →
                ∃ t, ends t 0 (d k).bsPos ∧ t.errInfo = u.errInfo ∧
                  t.status = { s.status with done := true, err := true, errCode := u.status.errCode }))

/-! ### The host's port -/

/-- R33, R340: what every register reads right after reset, the interrupt and the engine; the model's choice for `PARAMS` is
a free instance (log entry 1). -/
def Obligations.ResetRegisters : Prop :=
  (∀ r, State.reset.readReg r =
    match r with
    | .id => 0x43464544
    | .params => paramsWord Config.params
    | _ => 0) ∧
    State.reset.irq = false ∧ State.reset.engine = .idle

/-- R341, R343, R344: a write to `CTRL` with bit 31 set resets every register at once, idle or busy; it leaves SRCMEM and BSMEM, and
OUTMEM where no run was going on, whatever part of a command of another kind was done, and after the band end of one (a record is
half written in runs only). An aborted run leaves every word it has written, and every byte outside the two words of the record it
may have been writing, at `OUT_PTR`; those may hold any value (log entry 5). -/
def Obligations.SoftReset : Prop :=
  ∀ (s : State) (v : Word) (rest : List Input), s.resetLine = false → v.getLsbD 31 = true →
    s.inputs = .write 0x008 .word v :: rest →
    ∃ t, step s = .next t ∧ (∀ r, r ≠ .params → t.readReg r = State.reset.readReg r) ∧ t.params = s.params ∧
      t.engine = .idle ∧ t.irq = false ∧ t.srcmem = s.srcmem ∧ t.bsmem = s.bsmem ∧ t.inputs = rest ∧
      (s.engine = .idle → t.outmem = s.outmem) ∧
      (∀ w, s.engine = .busy w → (∀ k w1, s.progress ≠ .record k w1) →
        s.progress = .over ∨ (∀ cs n, decode w ≠ .ok (.vlcRun cs n) ∧ decode w ≠ .ok (.fsmRun cs n)) →
        t.outmem = s.outmem) ∧
      (∀ a, a / 4 ≠ s.outPtr.toNat → a / 4 ≠ (s.outPtr + 1).toNat → t.outmem.read a = s.outmem.read a) ∧
      ∀ k w1, s.progress = .record k w1 → ∀ a, a / 4 ≠ (s.outPtr + 1).toNat → t.outmem.read a = s.outmem.read a

/-- R341, R342, R344: while the reset input is asserted a host write changes nothing and a host read returns 0; asserting it resets
every register and its release leaves them so. OUTMEM stays where no run was going on, whatever part of a command of another kind
was done, and after the band end of one; else it stays but for the two words of the record that an aborted run may have been
writing, and where the first of them was written, but for the second (log entry 5). -/
def Obligations.HardwareReset : Prop :=
  (∀ (s : State) (o : BitVec 9) (v : Word) (rest : List Input), s.resetLine = true → o.toNat % 4 = 0 →
    (s.inputs = .write o .word v :: rest → step s = .next { s with inputs := rest }) ∧
      (s.inputs = .read o .word :: rest → step s = .next { s with inputs := rest, readData := 0 })) ∧
    ∀ (s : State) (rest : List Input), s.inputs = .resetLine true :: .resetLine false :: rest →
      ∃ t u, step s = .next t ∧ step t = .next u ∧ u.resetLine = false ∧ u.inputs = rest ∧ u.engine = .idle ∧
        (∀ r, r ≠ .params → u.readReg r = State.reset.readReg r) ∧ u.params = s.params ∧ u.srcmem = s.srcmem ∧
        u.bsmem = s.bsmem ∧ (s.engine = .idle → u.outmem = s.outmem) ∧
        (∀ w, s.engine = .busy w → (∀ k w1, s.progress ≠ .record k w1) →
          s.progress = .over ∨ (∀ cs n, decode w ≠ .ok (.vlcRun cs n) ∧ decode w ≠ .ok (.fsmRun cs n)) →
          u.outmem = s.outmem) ∧
        (∀ a, a / 4 ≠ s.outPtr.toNat → a / 4 ≠ (s.outPtr + 1).toNat → u.outmem.read a = s.outmem.read a) ∧
        ∀ k w1, s.progress = .record k w1 → ∀ a, a / 4 ≠ (s.outPtr + 1).toNat → u.outmem.read a = s.outmem.read a

/-- R350, R351: a host write while a command runs sets `OVERRUN`; only `CTRL.IRQ_EN` takes the written bit, and a soft reset is
performed. -/
def Obligations.WritesWhileBusy : Prop :=
  ∀ (s : State) (w : Word) (o : BitVec 9) (v : Word) (rest : List Input), s.engine = .busy w → s.resetLine = false →
    o.toNat % 4 = 0 → s.inputs = .write o .word v :: rest →
    (o = 0x008 → v.getLsbD 31 = false →
      step s = .next { s with
        inputs := rest
        status := { s.status with overrun := true }
        ctrl := { s.ctrl with irqEn := v.getLsbD 0 } }) ∧
      (o = 0x008 → v.getLsbD 31 = true → ∃ t, step s = .next t ∧ t.engine = .idle ∧ t.status = Status.reset) ∧
      (o ≠ 0x008 → step s = .next { s with inputs := rest, status := { s.status with overrun := true } })

/-- R31, R32, R35, R37, R45, R46, R49, R50: host writes while idle: read-write registers take the written bits they define and read
back so, read-only registers and unmapped offsets stay, and a W1C write clears the bits written as 1, `ERR` with its code and
information. A write changes the register written and no other, but for the window of `TBL_INDEX` and the `ERRINFO` of a W1C
write; no table, no memory and nothing of the engine. Each register stands at its offset, and a step in which the host writes a
word at an aligned offset is that write of the register there. -/
def Obligations.RegisterWritesWhileIdle : Prop :=
  let blockMap : List (Nat × CsReg) :=
    [(0x00, .csFlags), (0x04, .magBase), (0x08, .magLen), (0x0C, .rlcBase), (0x10, .rlcLen), (0x14, .rlvBase), (0x18, .rlvLen),
      (0x1C, .tagBase), (0x20, .fsmBase), (0x24, .zeroBits), (0x28, .zeroSize), (0x2C, .fsmFlags), (0x30, .fsmNumStates),
      (0x34, .fsmState), (0x38, .bandEndCode), (0x3C, .bandEndSize)]
  let globalMap : List (Nat × Reg) :=
    [(0x000, .id), (0x004, .params), (0x008, .ctrl), (0x00C, .status), (0x010, .cmd), (0x014, .arg0), (0x018, .result0),
      (0x01C, .result1), (0x020, .result2), (0x024, .result3), (0x028, .errInfo), (0x02C, .bsBase), (0x030, .bsLen),
      (0x034, .bsPos), (0x038, .outPtr), (0x03C, .workLen), (0x040, .tblSel), (0x044, .tblIndex), (0x048, .tblData0),
      (0x04C, .tblData1), (0x050, .tblData2), (0x054, .tblData3), (0x060, .tableValid .c0), (0x064, .tableValid .c1),
      (0x068, .tableValid .c2)]
  let inBlock (base : Nat) (c : CsId) : List (Nat × Reg) := blockMap.map fun x => (base + x.1, .cs c x.2)
  let registerMap : List (Nat × Reg) := globalMap ++ inBlock 0x100 .c0 ++ inBlock 0x140 .c1 ++ inBlock 0x180 .c2
  (∀ x ∈ registerMap, Reg.ofOffset x.1 = x.2) ∧
    (∀ o, o < 0x200 → o % 4 = 0 → (∀ x ∈ registerMap, x.1 ≠ o) → Reg.ofOffset o = .unmapped) ∧
    (∀ (s : State) (o : BitVec 9) (v : Word) (rest : List Input), o.toNat % 4 = 0 → s.inputs = .write o .word v :: rest →
      step s = .next ({ s with inputs := rest }.hostWrite (.ofOffset o.toNat) v)) ∧
    ∀ (s : State) (v : Word), s.engine = .idle → s.resetLine = false →
      (∀ r ∈ [Reg.arg0, .bsBase, .bsLen, .bsPos, .outPtr, .tblIndex], (s.hostWrite r v).readReg r = v) ∧
        (s.hostWrite .tblSel v).readReg .tblSel = v &&& 0x3F ∧
        (v.getLsbD 31 = false → (s.hostWrite .ctrl v).readReg .ctrl = v &&& 7) ∧
        (∀ c, (s.hostWrite (.cs c .csFlags) v).readReg (.cs c .csFlags) = v &&& 7 ∧
          (∀ k ∈ [CsReg.magBase, .magLen, .rlcBase, .rlcLen, .rlvBase, .rlvLen, .tagBase, .fsmBase, .zeroBits, .zeroSize],
            (s.hostWrite (.cs c k) v).readReg (.cs c k) = v) ∧
          ∀ k ∈ [CsReg.fsmFlags, .fsmNumStates, .fsmState, .bandEndCode, .bandEndSize], s.hostWrite (.cs c k) v = s) ∧
        (∀ r ∈ [Reg.id, .params, .result0, .result1, .result2, .result3, .errInfo, .workLen, .tblData0, .tblData1, .tblData2,
          .tblData3, .tableValid .c0, .tableValid .c1, .tableValid .c2, .unmapped], s.hostWrite r v = s) ∧
        (s.hostWrite .status v).status =
          { done := s.status.done && !v.getLsbD 1
            err := s.status.err && !v.getLsbD 2
            bandEnd := s.status.bandEnd && !v.getLsbD 3
            unmatched := s.status.unmatched && !v.getLsbD 4
            overrun := s.status.overrun && !v.getLsbD 5
            errCode := if v.getLsbD 2 then .none else s.status.errCode } ∧
        (s.hostWrite .status v).errInfo = (if v.getLsbD 2 then 0 else s.errInfo) ∧
        ∀ r, r ≠ .cmd → (r = .ctrl → v.getLsbD 31 = false) →
          let t := s.hostWrite r v
          (∀ q, q ≠ r → (r = .tblIndex → q ∉ [Reg.tblData0, .tblData1, .tblData2, .tblData3]) → (r = .status → q ≠ .errInfo) →
            t.readReg q = s.readReg q) ∧
            t.engine = .idle ∧ t.srcmem = s.srcmem ∧ t.bsmem = s.bsmem ∧ t.outmem = s.outmem ∧ t.inputs = s.inputs ∧
            t.cubic = s.cubic ∧ t.work = s.work ∧
            ∀ c, (t.codeset c).newcodes = (s.codeset c).newcodes ∧ (t.codeset c).fastbook = (s.codeset c).fastbook ∧
              (t.codeset c).valuebook = (s.codeset c).valuebook ∧ (t.codeset c).fsm = (s.codeset c).fsm

/-- R31, R86, R352: a host read changes nothing but what the port returns (`readData` and the counter of free values are the model's
own). While a command runs, the registers that it may write read an unspecified value, of which nothing is said; every other one
reads its current value, `STATUS` with `BUSY` 1. An access that is not an aligned 32-bit one is refused. -/
def Obligations.HostReadsAndRefusals : Prop :=
  ∀ (s : State) (o : BitVec 9) (z : AccessSize) (v : Word) (rest : List Input),
    (s.inputs = .read o .word :: rest → o.toNat % 4 = 0 →
      ∃ t, step s = .next t ∧ t = { s with inputs := rest, readData := t.readData, fresh := t.fresh } ∧
        (s.engine = .idle → s.resetLine = false → t.readData = s.readReg (.ofOffset o.toNat)) ∧
        ∀ w, s.engine = .busy w → s.resetLine = false →
          (Reg.ofOffset o.toNat ∈ [Reg.id, .params, .ctrl, .cmd, .arg0, .bsBase, .bsLen, .tblSel, .tblIndex, .tblData0, .tblData1,
              .tblData2, .tblData3, .status, .unmapped] ∨
            (∃ c, ∃ k ∈ [CsReg.csFlags, .magBase, .magLen, .rlcBase, .rlcLen, .rlvBase, .rlvLen, .tagBase, .fsmBase, .zeroBits,
              .zeroSize], Reg.ofOffset o.toNat = .cs c k) → t.readData = s.readReg (.ofOffset o.toNat)) ∧
            (Reg.ofOffset o.toNat = .status → t.readData = s.statusWord ∧ t.readData.getLsbD 0 = true)) ∧
      (z ≠ .word ∨ o.toNat % 4 ≠ 0 →
        (s.inputs = .read o z :: rest → step s = .refused .hostAccess) ∧
          (s.inputs = .write o z v :: rest → step s = .refused .hostAccess))

/-- R46, R47: a write of `TBL_INDEX` loads the selected entry of a valid table into `TBL_DATA0..3`, and zeros where there is none. -/
def Obligations.TableWindow : Prop :=
  ∀ (s : State) (i : Word) (cs : BitVec 2) (c : CsId), s.engine = .idle → s.resetLine = false →
    let words (t : State) : TblWords := (t.tblData0, t.tblData1, t.tblData2, t.tblData3)
    let loaded (tid : BitVec 4) : TblWords := words ({ s with tblSel := cs ++ tid }.hostWrite .tblIndex i)
    (CsId.ofField cs = some c →
      (i.toNat < 3072 → (s.codeset c).valid.newcodes = true →
        loaded 0 = ((s.newcodeAt c i.toNat).bits, (s.newcodeAt c i.toNat).size.setWidth 32,
          (s.newcodeAt c i.toNat).count.setWidth 32, 0)) ∧
        (i.toNat < 4096 → (s.codeset c).valid.fastbook = true →
          loaded 1 = ((s.fastbookAt c i.toNat).count, (s.fastbookAt c i.toNat).value,
            (s.fastbookAt c i.toNat).shift.setWidth 32, 0)) ∧
        (i.toNat < 2 ^ s.params.valueSize → (s.codeset c).valid.valuebook = true →
          loaded 2 = ((s.valuebookAt c i.toNat).codeword, (s.valuebookAt c i.toNat).size.setWidth 32, 0, 0)) ∧
        (i.toNat < s.params.fsmRamEntries →
          loaded 3 = ((s.fsmAt c i.toNat).nextState.setWidth 32, (s.fsmAt c i.toNat).preSkip.setWidth 32,
            (s.fsmAt c i.toNat).postSkip.setWidth 32, (s.fsmAt c i.toNat).value1 ++ (s.fsmAt c i.toNat).value0))) ∧
      (i.toNat < 1025 → loaded 4 = ((s.cubicAt i.toNat).setWidth 32, 0, 0, 0)) ∧
      (i.toNat < s.params.rlcMaxEntries →
        loaded 5 = ((s.workAt i.toNat).bits, (s.workAt i.toNat).size.setWidth 32, (s.workAt i.toNat).count, 0)) ∧
      (∀ tid : BitVec 4, 6 ≤ tid.toNat → loaded tid = (0, 0, 0, 0)) ∧
      (cs = 3 → ∀ tid : BitVec 4, tid.toNat ≤ 3 → loaded tid = (0, 0, 0, 0)) ∧
      (3072 ≤ i.toNat → loaded 0 = (0, 0, 0, 0)) ∧ (4096 ≤ i.toNat → loaded 1 = (0, 0, 0, 0)) ∧
      (2 ^ s.params.valueSize ≤ i.toNat → loaded 2 = (0, 0, 0, 0)) ∧
      (s.params.fsmRamEntries ≤ i.toNat → loaded 3 = (0, 0, 0, 0)) ∧ (1025 ≤ i.toNat → loaded 4 = (0, 0, 0, 0)) ∧
      (s.params.rlcMaxEntries ≤ i.toNat → loaded 5 = (0, 0, 0, 0)) ∧
      ∀ v : Word, words (s.hostWrite .tblSel v) = words s

/-- R93, R353: a read by the running command sees the current value or one that a racing write replaced, and the current one where no
write raced. A write by another agent changes the word or the byte at once; while a command runs, the value it replaced is
recorded as one that the command may still see, and while none runs nothing is recorded. R3, R93: a read by another agent returns
the current word or byte and changes nothing. A write of OUTMEM by another agent changes that word at once and nothing else,
whether a command runs or not (log entry 19, DEDUCED). The lists and the free choice are the model's (log entry 3, DEDUCED). -/
def Obligations.RacingReadsSeeOldOrNew : Prop :=
  ∀ (s : State) (site : Site) (a : Word),
    (s.srcRead site a = s.srcWord a ∨ (a.toNat, s.srcRead site a) ∈ s.srcRaces) ∧
      (s.bsReadByte site a = s.bsmem.read a.toNat ∨ (a.toNat, s.bsReadByte site a) ∈ s.bsRaces) ∧
      ((∀ r ∈ s.srcRaces, r.1 ≠ a.toNat) → s.srcRead site a = s.srcWord a) ∧
      ((∀ r ∈ s.bsRaces, r.1 ≠ a.toNat) → s.bsReadByte site a = s.bsmem.read a.toNat) ∧
      (∀ (v : Word) (rest : List Input), s.inputs = .srcWrite a v :: rest →
        ∃ t, step s = .next t ∧
          t = { s with inputs := rest, srcmem := s.srcmem.writeWord a.toNat v, srcRaces := t.srcRaces } ∧
          (s.engine = .idle → t.srcRaces = s.srcRaces) ∧
          (∀ w, s.engine = .busy w → t.srcRaces = (a.toNat, s.srcWord a) :: s.srcRaces) ∧
          (s.srcmem.Pairwise (fun x y => x.1 < y.1) → t.srcWord a = v) ∧ ∀ b, b ≠ a → t.srcWord b = s.srcWord b) ∧
      (∀ (v : Byte) (rest : List Input), s.inputs = .bsWrite a v :: rest →
        ∃ t, step s = .next t ∧ t = { s with inputs := rest, bsmem := s.bsmem.write a.toNat v, bsRaces := t.bsRaces } ∧
          (s.engine = .idle → t.bsRaces = s.bsRaces) ∧
          (∀ w, s.engine = .busy w → t.bsRaces = (a.toNat, s.bsmem.read a.toNat) :: s.bsRaces) ∧
          (s.bsmem.Pairwise (fun x y => x.1 < y.1) → t.bsmem.read a.toNat = v) ∧
          ∀ b, b ≠ a.toNat → t.bsmem.read b = s.bsmem.read b) ∧
      (∀ (v : Word) (rest : List Input), s.inputs = .outWrite a v :: rest →
        ∃ t, step s = .next t ∧ t = { s with inputs := rest, outmem := t.outmem } ∧
          (s.outmem.Pairwise (fun x y => x.1 < y.1) → t.outmem.readWord a.toNat = v) ∧
          ∀ b, b / 4 ≠ a.toNat → t.outmem.read b = s.outmem.read b) ∧
      ∀ rest : List Input,
        (s.inputs = .srcRead a :: rest → step s = .next { s with inputs := rest, readData := s.srcWord a }) ∧
          (s.inputs = .bsRead a :: rest →
            step s = .next { s with inputs := rest, readData := (s.bsmem.read a.toNat).setWidth 32 }) ∧
          (s.inputs = .outRead a :: rest →
            step s = .next { s with inputs := rest, readData := s.outmem.readWord a.toNat })

/-! ### The invariant -/

/-- R340, R341: the invariant holds right after reset. -/
def Obligations.InvAtReset : Prop := State.reset.Inv

/-- R41, R48, R63, R65, R125, R145, R202, R272: every step keeps the invariant. -/
def Obligations.StepKeepsInv : Prop := ∀ s t : State, s.Inv → step s = .next t → t.Inv
end

