-- ==== Sys2Proof/Laws/State.lean ====
section
/-!
SUPPORT. What each state update of Machine/Ops.lean leaves in each field: one lemma per field per update.
-/

namespace Sys2Proof.Machine

variable (s : State)

/-! ### `State.setCodeset` -/

@[simp] theorem State.setCodeset_params (c : CsId) (v : Codeset) : (s.setCodeset c v).params = s.params := by cases c <;> rfl
@[simp] theorem State.setCodeset_engine (c : CsId) (v : Codeset) : (s.setCodeset c v).engine = s.engine := by cases c <;> rfl
@[simp] theorem State.setCodeset_ctrl (c : CsId) (v : Codeset) : (s.setCodeset c v).ctrl = s.ctrl := by cases c <;> rfl
@[simp] theorem State.setCodeset_status (c : CsId) (v : Codeset) : (s.setCodeset c v).status = s.status := by cases c <;> rfl
@[simp] theorem State.setCodeset_cmd (c : CsId) (v : Codeset) : (s.setCodeset c v).cmd = s.cmd := by cases c <;> rfl
@[simp] theorem State.setCodeset_arg0 (c : CsId) (v : Codeset) : (s.setCodeset c v).arg0 = s.arg0 := by cases c <;> rfl
@[simp] theorem State.setCodeset_result0 (c : CsId) (v : Codeset) : (s.setCodeset c v).result0 = s.result0 := by cases c <;> rfl
@[simp] theorem State.setCodeset_result1 (c : CsId) (v : Codeset) : (s.setCodeset c v).result1 = s.result1 := by cases c <;> rfl
@[simp] theorem State.setCodeset_result2 (c : CsId) (v : Codeset) : (s.setCodeset c v).result2 = s.result2 := by cases c <;> rfl
@[simp] theorem State.setCodeset_result3 (c : CsId) (v : Codeset) : (s.setCodeset c v).result3 = s.result3 := by cases c <;> rfl
@[simp] theorem State.setCodeset_errInfo (c : CsId) (v : Codeset) : (s.setCodeset c v).errInfo = s.errInfo := by cases c <;> rfl
@[simp] theorem State.setCodeset_bsBase (c : CsId) (v : Codeset) : (s.setCodeset c v).bsBase = s.bsBase := by cases c <;> rfl
@[simp] theorem State.setCodeset_bsLen (c : CsId) (v : Codeset) : (s.setCodeset c v).bsLen = s.bsLen := by cases c <;> rfl
@[simp] theorem State.setCodeset_bsPos (c : CsId) (v : Codeset) : (s.setCodeset c v).bsPos = s.bsPos := by cases c <;> rfl
@[simp] theorem State.setCodeset_outPtr (c : CsId) (v : Codeset) : (s.setCodeset c v).outPtr = s.outPtr := by cases c <;> rfl
@[simp] theorem State.setCodeset_workLen (c : CsId) (v : Codeset) : (s.setCodeset c v).workLen = s.workLen := by cases c <;> rfl
@[simp] theorem State.setCodeset_tblSel (c : CsId) (v : Codeset) : (s.setCodeset c v).tblSel = s.tblSel := by cases c <;> rfl
@[simp] theorem State.setCodeset_tblIndex (c : CsId) (v : Codeset) :
    (s.setCodeset c v).tblIndex = s.tblIndex := by cases c <;> rfl
@[simp] theorem State.setCodeset_tblData0 (c : CsId) (v : Codeset) :
    (s.setCodeset c v).tblData0 = s.tblData0 := by cases c <;> rfl
@[simp] theorem State.setCodeset_tblData1 (c : CsId) (v : Codeset) :
    (s.setCodeset c v).tblData1 = s.tblData1 := by cases c <;> rfl
@[simp] theorem State.setCodeset_tblData2 (c : CsId) (v : Codeset) :
    (s.setCodeset c v).tblData2 = s.tblData2 := by cases c <;> rfl
@[simp] theorem State.setCodeset_tblData3 (c : CsId) (v : Codeset) :
    (s.setCodeset c v).tblData3 = s.tblData3 := by cases c <;> rfl
@[simp] theorem State.setCodeset_cubic (c : CsId) (v : Codeset) : (s.setCodeset c v).cubic = s.cubic := by cases c <;> rfl
@[simp] theorem State.setCodeset_work (c : CsId) (v : Codeset) : (s.setCodeset c v).work = s.work := by cases c <;> rfl
@[simp] theorem State.setCodeset_resetLine (c : CsId) (v : Codeset) :
    (s.setCodeset c v).resetLine = s.resetLine := by cases c <;> rfl
@[simp] theorem State.setCodeset_srcmem (c : CsId) (v : Codeset) : (s.setCodeset c v).srcmem = s.srcmem := by cases c <;> rfl
@[simp] theorem State.setCodeset_bsmem (c : CsId) (v : Codeset) : (s.setCodeset c v).bsmem = s.bsmem := by cases c <;> rfl
@[simp] theorem State.setCodeset_outmem (c : CsId) (v : Codeset) : (s.setCodeset c v).outmem = s.outmem := by cases c <;> rfl
@[simp] theorem State.setCodeset_inputs (c : CsId) (v : Codeset) : (s.setCodeset c v).inputs = s.inputs := by cases c <;> rfl
@[simp] theorem State.setCodeset_readData (c : CsId) (v : Codeset) :
    (s.setCodeset c v).readData = s.readData := by cases c <;> rfl
@[simp] theorem State.setCodeset_fresh (c : CsId) (v : Codeset) : (s.setCodeset c v).fresh = s.fresh := by cases c <;> rfl
@[simp] theorem State.setCodeset_srcRaces (c : CsId) (v : Codeset) :
    (s.setCodeset c v).srcRaces = s.srcRaces := by cases c <;> rfl
@[simp] theorem State.setCodeset_bsRaces (c : CsId) (v : Codeset) : (s.setCodeset c v).bsRaces = s.bsRaces := by cases c <;> rfl
@[simp] theorem State.setCodeset_progress (c : CsId) (v : Codeset) :
    (s.setCodeset c v).progress = s.progress := by cases c <;> rfl

/-! ### `State.release` -/

@[simp] theorem State.release_params : (s.release).params = s.params := rfl
@[simp] theorem State.release_engine : (s.release).engine = .idle := rfl
@[simp] theorem State.release_ctrl : (s.release).ctrl = s.ctrl := rfl
@[simp] theorem State.release_status : (s.release).status = s.status := rfl
@[simp] theorem State.release_cmd : (s.release).cmd = s.cmd := rfl
@[simp] theorem State.release_arg0 : (s.release).arg0 = s.arg0 := rfl
@[simp] theorem State.release_result0 : (s.release).result0 = s.result0 := rfl
@[simp] theorem State.release_result1 : (s.release).result1 = s.result1 := rfl
@[simp] theorem State.release_result2 : (s.release).result2 = s.result2 := rfl
@[simp] theorem State.release_result3 : (s.release).result3 = s.result3 := rfl
@[simp] theorem State.release_errInfo : (s.release).errInfo = s.errInfo := rfl
@[simp] theorem State.release_bsBase : (s.release).bsBase = s.bsBase := rfl
@[simp] theorem State.release_bsLen : (s.release).bsLen = s.bsLen := rfl
@[simp] theorem State.release_bsPos : (s.release).bsPos = s.bsPos := rfl
@[simp] theorem State.release_outPtr : (s.release).outPtr = s.outPtr := rfl
@[simp] theorem State.release_workLen : (s.release).workLen = s.workLen := rfl
@[simp] theorem State.release_tblSel : (s.release).tblSel = s.tblSel := rfl
@[simp] theorem State.release_tblIndex : (s.release).tblIndex = s.tblIndex := rfl
@[simp] theorem State.release_tblData0 : (s.release).tblData0 = s.tblData0 := rfl
@[simp] theorem State.release_tblData1 : (s.release).tblData1 = s.tblData1 := rfl
@[simp] theorem State.release_tblData2 : (s.release).tblData2 = s.tblData2 := rfl
@[simp] theorem State.release_tblData3 : (s.release).tblData3 = s.tblData3 := rfl
@[simp] theorem State.release_cs0 : (s.release).cs0 = s.cs0 := rfl
@[simp] theorem State.release_cs1 : (s.release).cs1 = s.cs1 := rfl
@[simp] theorem State.release_cs2 : (s.release).cs2 = s.cs2 := rfl
@[simp] theorem State.release_cubic : (s.release).cubic = s.cubic := rfl
@[simp] theorem State.release_work : (s.release).work = s.work := rfl
@[simp] theorem State.release_resetLine : (s.release).resetLine = s.resetLine := rfl
@[simp] theorem State.release_srcmem : (s.release).srcmem = s.srcmem := rfl
@[simp] theorem State.release_bsmem : (s.release).bsmem = s.bsmem := rfl
@[simp] theorem State.release_outmem : (s.release).outmem = s.outmem := rfl
@[simp] theorem State.release_inputs : (s.release).inputs = s.inputs := rfl
@[simp] theorem State.release_readData : (s.release).readData = s.readData := rfl
@[simp] theorem State.release_fresh : (s.release).fresh = s.fresh := rfl
@[simp] theorem State.release_srcRaces : (s.release).srcRaces = [] := rfl
@[simp] theorem State.release_bsRaces : (s.release).bsRaces = [] := rfl
@[simp] theorem State.release_progress : (s.release).progress = .start := rfl

/-! ### `State.complete` -/

@[simp] theorem State.complete_params : (s.complete).params = s.params := rfl
@[simp] theorem State.complete_engine : (s.complete).engine = .idle := rfl
@[simp] theorem State.complete_ctrl : (s.complete).ctrl = s.ctrl := rfl
@[simp] theorem State.complete_status : (s.complete).status = { s.status with done := true } := rfl
@[simp] theorem State.complete_cmd : (s.complete).cmd = s.cmd := rfl
@[simp] theorem State.complete_arg0 : (s.complete).arg0 = s.arg0 := rfl
@[simp] theorem State.complete_result0 : (s.complete).result0 = s.result0 := rfl
@[simp] theorem State.complete_result1 : (s.complete).result1 = s.result1 := rfl
@[simp] theorem State.complete_result2 : (s.complete).result2 = s.result2 := rfl
@[simp] theorem State.complete_result3 : (s.complete).result3 = s.result3 := rfl
@[simp] theorem State.complete_errInfo : (s.complete).errInfo = s.errInfo := rfl
@[simp] theorem State.complete_bsBase : (s.complete).bsBase = s.bsBase := rfl
@[simp] theorem State.complete_bsLen : (s.complete).bsLen = s.bsLen := rfl
@[simp] theorem State.complete_bsPos : (s.complete).bsPos = s.bsPos := rfl
@[simp] theorem State.complete_outPtr : (s.complete).outPtr = s.outPtr := rfl
@[simp] theorem State.complete_workLen : (s.complete).workLen = s.workLen := rfl
@[simp] theorem State.complete_tblSel : (s.complete).tblSel = s.tblSel := rfl
@[simp] theorem State.complete_tblIndex : (s.complete).tblIndex = s.tblIndex := rfl
@[simp] theorem State.complete_tblData0 : (s.complete).tblData0 = s.tblData0 := rfl
@[simp] theorem State.complete_tblData1 : (s.complete).tblData1 = s.tblData1 := rfl
@[simp] theorem State.complete_tblData2 : (s.complete).tblData2 = s.tblData2 := rfl
@[simp] theorem State.complete_tblData3 : (s.complete).tblData3 = s.tblData3 := rfl
@[simp] theorem State.complete_cs0 : (s.complete).cs0 = s.cs0 := rfl
@[simp] theorem State.complete_cs1 : (s.complete).cs1 = s.cs1 := rfl
@[simp] theorem State.complete_cs2 : (s.complete).cs2 = s.cs2 := rfl
@[simp] theorem State.complete_cubic : (s.complete).cubic = s.cubic := rfl
@[simp] theorem State.complete_work : (s.complete).work = s.work := rfl
@[simp] theorem State.complete_resetLine : (s.complete).resetLine = s.resetLine := rfl
@[simp] theorem State.complete_srcmem : (s.complete).srcmem = s.srcmem := rfl
@[simp] theorem State.complete_bsmem : (s.complete).bsmem = s.bsmem := rfl
@[simp] theorem State.complete_outmem : (s.complete).outmem = s.outmem := rfl
@[simp] theorem State.complete_inputs : (s.complete).inputs = s.inputs := rfl
@[simp] theorem State.complete_readData : (s.complete).readData = s.readData := rfl
@[simp] theorem State.complete_fresh : (s.complete).fresh = s.fresh := rfl
@[simp] theorem State.complete_srcRaces : (s.complete).srcRaces = [] := rfl
@[simp] theorem State.complete_bsRaces : (s.complete).bsRaces = [] := rfl
@[simp] theorem State.complete_progress : (s.complete).progress = .start := rfl

/-! ### `State.fail` -/

@[simp] theorem State.fail_params (f : Failure) : (s.fail f).params = s.params := rfl
@[simp] theorem State.fail_engine (f : Failure) : (s.fail f).engine = .idle := rfl
@[simp] theorem State.fail_ctrl (f : Failure) : (s.fail f).ctrl = s.ctrl := rfl
@[simp] theorem State.fail_status (f : Failure) :
    (s.fail f).status = { s.status with errCode := f.code, err := true, done := true } := rfl
@[simp] theorem State.fail_cmd (f : Failure) : (s.fail f).cmd = s.cmd := rfl
@[simp] theorem State.fail_arg0 (f : Failure) : (s.fail f).arg0 = s.arg0 := rfl
@[simp] theorem State.fail_result0 (f : Failure) : (s.fail f).result0 = s.result0 := rfl
@[simp] theorem State.fail_result1 (f : Failure) : (s.fail f).result1 = s.result1 := rfl
@[simp] theorem State.fail_result2 (f : Failure) : (s.fail f).result2 = s.result2 := rfl
@[simp] theorem State.fail_result3 (f : Failure) : (s.fail f).result3 = s.result3 := rfl
@[simp] theorem State.fail_errInfo (f : Failure) : (s.fail f).errInfo = BitVec.ofNat 32 f.info := rfl
@[simp] theorem State.fail_bsBase (f : Failure) : (s.fail f).bsBase = s.bsBase := rfl
@[simp] theorem State.fail_bsLen (f : Failure) : (s.fail f).bsLen = s.bsLen := rfl
@[simp] theorem State.fail_bsPos (f : Failure) : (s.fail f).bsPos = s.bsPos := rfl
@[simp] theorem State.fail_outPtr (f : Failure) : (s.fail f).outPtr = s.outPtr := rfl
@[simp] theorem State.fail_workLen (f : Failure) : (s.fail f).workLen = s.workLen := rfl
@[simp] theorem State.fail_tblSel (f : Failure) : (s.fail f).tblSel = s.tblSel := rfl
@[simp] theorem State.fail_tblIndex (f : Failure) : (s.fail f).tblIndex = s.tblIndex := rfl
@[simp] theorem State.fail_tblData0 (f : Failure) : (s.fail f).tblData0 = s.tblData0 := rfl
@[simp] theorem State.fail_tblData1 (f : Failure) : (s.fail f).tblData1 = s.tblData1 := rfl
@[simp] theorem State.fail_tblData2 (f : Failure) : (s.fail f).tblData2 = s.tblData2 := rfl
@[simp] theorem State.fail_tblData3 (f : Failure) : (s.fail f).tblData3 = s.tblData3 := rfl
@[simp] theorem State.fail_cs0 (f : Failure) : (s.fail f).cs0 = s.cs0 := rfl
@[simp] theorem State.fail_cs1 (f : Failure) : (s.fail f).cs1 = s.cs1 := rfl
@[simp] theorem State.fail_cs2 (f : Failure) : (s.fail f).cs2 = s.cs2 := rfl
@[simp] theorem State.fail_cubic (f : Failure) : (s.fail f).cubic = s.cubic := rfl
@[simp] theorem State.fail_work (f : Failure) : (s.fail f).work = s.work := rfl
@[simp] theorem State.fail_resetLine (f : Failure) : (s.fail f).resetLine = s.resetLine := rfl
@[simp] theorem State.fail_srcmem (f : Failure) : (s.fail f).srcmem = s.srcmem := rfl
@[simp] theorem State.fail_bsmem (f : Failure) : (s.fail f).bsmem = s.bsmem := rfl
@[simp] theorem State.fail_outmem (f : Failure) : (s.fail f).outmem = s.outmem := rfl
@[simp] theorem State.fail_inputs (f : Failure) : (s.fail f).inputs = s.inputs := rfl
@[simp] theorem State.fail_readData (f : Failure) : (s.fail f).readData = s.readData := rfl
@[simp] theorem State.fail_fresh (f : Failure) : (s.fail f).fresh = s.fresh := rfl
@[simp] theorem State.fail_srcRaces (f : Failure) : (s.fail f).srcRaces = [] := rfl
@[simp] theorem State.fail_bsRaces (f : Failure) : (s.fail f).bsRaces = [] := rfl
@[simp] theorem State.fail_progress (f : Failure) : (s.fail f).progress = .start := rfl

/-! ### `State.accept` -/

@[simp] theorem State.accept_params (w : Word) : (s.accept w).params = s.params := rfl
@[simp] theorem State.accept_engine (w : Word) : (s.accept w).engine = .busy w := rfl
@[simp] theorem State.accept_ctrl (w : Word) : (s.accept w).ctrl = s.ctrl := rfl
@[simp] theorem State.accept_status (w : Word) :
    (s.accept w).status = { s.status with done := false, err := false, errCode := .none } := rfl
@[simp] theorem State.accept_cmd (w : Word) : (s.accept w).cmd = w := rfl
@[simp] theorem State.accept_arg0 (w : Word) : (s.accept w).arg0 = s.arg0 := rfl
@[simp] theorem State.accept_result0 (w : Word) : (s.accept w).result0 = s.result0 := rfl
@[simp] theorem State.accept_result1 (w : Word) : (s.accept w).result1 = s.result1 := rfl
@[simp] theorem State.accept_result2 (w : Word) : (s.accept w).result2 = s.result2 := rfl
@[simp] theorem State.accept_result3 (w : Word) : (s.accept w).result3 = s.result3 := rfl
@[simp] theorem State.accept_errInfo (w : Word) : (s.accept w).errInfo = 0 := rfl
@[simp] theorem State.accept_bsBase (w : Word) : (s.accept w).bsBase = s.bsBase := rfl
@[simp] theorem State.accept_bsLen (w : Word) : (s.accept w).bsLen = s.bsLen := rfl
@[simp] theorem State.accept_bsPos (w : Word) : (s.accept w).bsPos = s.bsPos := rfl
@[simp] theorem State.accept_outPtr (w : Word) : (s.accept w).outPtr = s.outPtr := rfl
@[simp] theorem State.accept_workLen (w : Word) : (s.accept w).workLen = s.workLen := rfl
@[simp] theorem State.accept_tblSel (w : Word) : (s.accept w).tblSel = s.tblSel := rfl
@[simp] theorem State.accept_tblIndex (w : Word) : (s.accept w).tblIndex = s.tblIndex := rfl
@[simp] theorem State.accept_tblData0 (w : Word) : (s.accept w).tblData0 = s.tblData0 := rfl
@[simp] theorem State.accept_tblData1 (w : Word) : (s.accept w).tblData1 = s.tblData1 := rfl
@[simp] theorem State.accept_tblData2 (w : Word) : (s.accept w).tblData2 = s.tblData2 := rfl
@[simp] theorem State.accept_tblData3 (w : Word) : (s.accept w).tblData3 = s.tblData3 := rfl
@[simp] theorem State.accept_cs0 (w : Word) : (s.accept w).cs0 = s.cs0 := rfl
@[simp] theorem State.accept_cs1 (w : Word) : (s.accept w).cs1 = s.cs1 := rfl
@[simp] theorem State.accept_cs2 (w : Word) : (s.accept w).cs2 = s.cs2 := rfl
@[simp] theorem State.accept_cubic (w : Word) : (s.accept w).cubic = s.cubic := rfl
@[simp] theorem State.accept_work (w : Word) : (s.accept w).work = s.work := rfl
@[simp] theorem State.accept_resetLine (w : Word) : (s.accept w).resetLine = s.resetLine := rfl
@[simp] theorem State.accept_srcmem (w : Word) : (s.accept w).srcmem = s.srcmem := rfl
@[simp] theorem State.accept_bsmem (w : Word) : (s.accept w).bsmem = s.bsmem := rfl
@[simp] theorem State.accept_outmem (w : Word) : (s.accept w).outmem = s.outmem := rfl
@[simp] theorem State.accept_inputs (w : Word) : (s.accept w).inputs = s.inputs := rfl
@[simp] theorem State.accept_readData (w : Word) : (s.accept w).readData = s.readData := rfl
@[simp] theorem State.accept_fresh (w : Word) : (s.accept w).fresh = s.fresh + 1 := rfl
@[simp] theorem State.accept_srcRaces (w : Word) : (s.accept w).srcRaces = [] := rfl
@[simp] theorem State.accept_bsRaces (w : Word) : (s.accept w).bsRaces = [] := rfl
@[simp] theorem State.accept_progress (w : Word) : (s.accept w).progress = .start := rfl

/-! ### `State.clearError` -/

@[simp] theorem State.clearError_params : (s.clearError).params = s.params := rfl
@[simp] theorem State.clearError_engine : (s.clearError).engine = s.engine := rfl
@[simp] theorem State.clearError_ctrl : (s.clearError).ctrl = s.ctrl := rfl
@[simp] theorem State.clearError_status : (s.clearError).status = { s.status with err := false, errCode := .none } := rfl
@[simp] theorem State.clearError_cmd : (s.clearError).cmd = s.cmd := rfl
@[simp] theorem State.clearError_arg0 : (s.clearError).arg0 = s.arg0 := rfl
@[simp] theorem State.clearError_result0 : (s.clearError).result0 = s.result0 := rfl
@[simp] theorem State.clearError_result1 : (s.clearError).result1 = s.result1 := rfl
@[simp] theorem State.clearError_result2 : (s.clearError).result2 = s.result2 := rfl
@[simp] theorem State.clearError_result3 : (s.clearError).result3 = s.result3 := rfl
@[simp] theorem State.clearError_errInfo : (s.clearError).errInfo = 0 := rfl
@[simp] theorem State.clearError_bsBase : (s.clearError).bsBase = s.bsBase := rfl
@[simp] theorem State.clearError_bsLen : (s.clearError).bsLen = s.bsLen := rfl
@[simp] theorem State.clearError_bsPos : (s.clearError).bsPos = s.bsPos := rfl
@[simp] theorem State.clearError_outPtr : (s.clearError).outPtr = s.outPtr := rfl
@[simp] theorem State.clearError_workLen : (s.clearError).workLen = s.workLen := rfl
@[simp] theorem State.clearError_tblSel : (s.clearError).tblSel = s.tblSel := rfl
@[simp] theorem State.clearError_tblIndex : (s.clearError).tblIndex = s.tblIndex := rfl
@[simp] theorem State.clearError_tblData0 : (s.clearError).tblData0 = s.tblData0 := rfl
@[simp] theorem State.clearError_tblData1 : (s.clearError).tblData1 = s.tblData1 := rfl
@[simp] theorem State.clearError_tblData2 : (s.clearError).tblData2 = s.tblData2 := rfl
@[simp] theorem State.clearError_tblData3 : (s.clearError).tblData3 = s.tblData3 := rfl
@[simp] theorem State.clearError_cs0 : (s.clearError).cs0 = s.cs0 := rfl
@[simp] theorem State.clearError_cs1 : (s.clearError).cs1 = s.cs1 := rfl
@[simp] theorem State.clearError_cs2 : (s.clearError).cs2 = s.cs2 := rfl
@[simp] theorem State.clearError_cubic : (s.clearError).cubic = s.cubic := rfl
@[simp] theorem State.clearError_work : (s.clearError).work = s.work := rfl
@[simp] theorem State.clearError_resetLine : (s.clearError).resetLine = s.resetLine := rfl
@[simp] theorem State.clearError_srcmem : (s.clearError).srcmem = s.srcmem := rfl
@[simp] theorem State.clearError_bsmem : (s.clearError).bsmem = s.bsmem := rfl
@[simp] theorem State.clearError_outmem : (s.clearError).outmem = s.outmem := rfl
@[simp] theorem State.clearError_inputs : (s.clearError).inputs = s.inputs := rfl
@[simp] theorem State.clearError_readData : (s.clearError).readData = s.readData := rfl
@[simp] theorem State.clearError_fresh : (s.clearError).fresh = s.fresh := rfl
@[simp] theorem State.clearError_srcRaces : (s.clearError).srcRaces = s.srcRaces := rfl
@[simp] theorem State.clearError_bsRaces : (s.clearError).bsRaces = s.bsRaces := rfl
@[simp] theorem State.clearError_progress : (s.clearError).progress = s.progress := rfl

/-! ### `State.outWrite` -/

@[simp] theorem State.outWrite_params (a v : Word) : (s.outWrite a v).params = s.params := rfl
@[simp] theorem State.outWrite_engine (a v : Word) : (s.outWrite a v).engine = s.engine := rfl
@[simp] theorem State.outWrite_ctrl (a v : Word) : (s.outWrite a v).ctrl = s.ctrl := rfl
@[simp] theorem State.outWrite_status (a v : Word) : (s.outWrite a v).status = s.status := rfl
@[simp] theorem State.outWrite_cmd (a v : Word) : (s.outWrite a v).cmd = s.cmd := rfl
@[simp] theorem State.outWrite_arg0 (a v : Word) : (s.outWrite a v).arg0 = s.arg0 := rfl
@[simp] theorem State.outWrite_result0 (a v : Word) : (s.outWrite a v).result0 = s.result0 := rfl
@[simp] theorem State.outWrite_result1 (a v : Word) : (s.outWrite a v).result1 = s.result1 := rfl
@[simp] theorem State.outWrite_result2 (a v : Word) : (s.outWrite a v).result2 = s.result2 := rfl
@[simp] theorem State.outWrite_result3 (a v : Word) : (s.outWrite a v).result3 = s.result3 := rfl
@[simp] theorem State.outWrite_errInfo (a v : Word) : (s.outWrite a v).errInfo = s.errInfo := rfl
@[simp] theorem State.outWrite_bsBase (a v : Word) : (s.outWrite a v).bsBase = s.bsBase := rfl
@[simp] theorem State.outWrite_bsLen (a v : Word) : (s.outWrite a v).bsLen = s.bsLen := rfl
@[simp] theorem State.outWrite_bsPos (a v : Word) : (s.outWrite a v).bsPos = s.bsPos := rfl
@[simp] theorem State.outWrite_outPtr (a v : Word) : (s.outWrite a v).outPtr = s.outPtr := rfl
@[simp] theorem State.outWrite_workLen (a v : Word) : (s.outWrite a v).workLen = s.workLen := rfl
@[simp] theorem State.outWrite_tblSel (a v : Word) : (s.outWrite a v).tblSel = s.tblSel := rfl
@[simp] theorem State.outWrite_tblIndex (a v : Word) : (s.outWrite a v).tblIndex = s.tblIndex := rfl
@[simp] theorem State.outWrite_tblData0 (a v : Word) : (s.outWrite a v).tblData0 = s.tblData0 := rfl
@[simp] theorem State.outWrite_tblData1 (a v : Word) : (s.outWrite a v).tblData1 = s.tblData1 := rfl
@[simp] theorem State.outWrite_tblData2 (a v : Word) : (s.outWrite a v).tblData2 = s.tblData2 := rfl
@[simp] theorem State.outWrite_tblData3 (a v : Word) : (s.outWrite a v).tblData3 = s.tblData3 := rfl
@[simp] theorem State.outWrite_cs0 (a v : Word) : (s.outWrite a v).cs0 = s.cs0 := rfl
@[simp] theorem State.outWrite_cs1 (a v : Word) : (s.outWrite a v).cs1 = s.cs1 := rfl
@[simp] theorem State.outWrite_cs2 (a v : Word) : (s.outWrite a v).cs2 = s.cs2 := rfl
@[simp] theorem State.outWrite_cubic (a v : Word) : (s.outWrite a v).cubic = s.cubic := rfl
@[simp] theorem State.outWrite_work (a v : Word) : (s.outWrite a v).work = s.work := rfl
@[simp] theorem State.outWrite_resetLine (a v : Word) : (s.outWrite a v).resetLine = s.resetLine := rfl
@[simp] theorem State.outWrite_srcmem (a v : Word) : (s.outWrite a v).srcmem = s.srcmem := rfl
@[simp] theorem State.outWrite_bsmem (a v : Word) : (s.outWrite a v).bsmem = s.bsmem := rfl
@[simp] theorem State.outWrite_outmem (a v : Word) : (s.outWrite a v).outmem = s.outmem.writeWord a.toNat v := rfl
@[simp] theorem State.outWrite_inputs (a v : Word) : (s.outWrite a v).inputs = s.inputs := rfl
@[simp] theorem State.outWrite_readData (a v : Word) : (s.outWrite a v).readData = s.readData := rfl
@[simp] theorem State.outWrite_fresh (a v : Word) : (s.outWrite a v).fresh = s.fresh := rfl
@[simp] theorem State.outWrite_srcRaces (a v : Word) : (s.outWrite a v).srcRaces = s.srcRaces := rfl
@[simp] theorem State.outWrite_bsRaces (a v : Word) : (s.outWrite a v).bsRaces = s.bsRaces := rfl
@[simp] theorem State.outWrite_progress (a v : Word) : (s.outWrite a v).progress = s.progress := rfl

/-! ### `State.emit` -/

@[simp] theorem State.emit_params (w0 w1 : Word) : (s.emit w0 w1).params = s.params := rfl
@[simp] theorem State.emit_engine (w0 w1 : Word) : (s.emit w0 w1).engine = s.engine := rfl
@[simp] theorem State.emit_ctrl (w0 w1 : Word) : (s.emit w0 w1).ctrl = s.ctrl := rfl
@[simp] theorem State.emit_status (w0 w1 : Word) : (s.emit w0 w1).status = s.status := rfl
@[simp] theorem State.emit_cmd (w0 w1 : Word) : (s.emit w0 w1).cmd = s.cmd := rfl
@[simp] theorem State.emit_arg0 (w0 w1 : Word) : (s.emit w0 w1).arg0 = s.arg0 := rfl
@[simp] theorem State.emit_result0 (w0 w1 : Word) : (s.emit w0 w1).result0 = s.result0 := rfl
@[simp] theorem State.emit_result1 (w0 w1 : Word) : (s.emit w0 w1).result1 = s.result1 := rfl
@[simp] theorem State.emit_result2 (w0 w1 : Word) : (s.emit w0 w1).result2 = s.result2 := rfl
@[simp] theorem State.emit_result3 (w0 w1 : Word) : (s.emit w0 w1).result3 = s.result3 := rfl
@[simp] theorem State.emit_errInfo (w0 w1 : Word) : (s.emit w0 w1).errInfo = s.errInfo := rfl
@[simp] theorem State.emit_bsBase (w0 w1 : Word) : (s.emit w0 w1).bsBase = s.bsBase := rfl
@[simp] theorem State.emit_bsLen (w0 w1 : Word) : (s.emit w0 w1).bsLen = s.bsLen := rfl
@[simp] theorem State.emit_bsPos (w0 w1 : Word) : (s.emit w0 w1).bsPos = s.bsPos := rfl
@[simp] theorem State.emit_outPtr (w0 w1 : Word) : (s.emit w0 w1).outPtr = s.outPtr + 2 := rfl
@[simp] theorem State.emit_workLen (w0 w1 : Word) : (s.emit w0 w1).workLen = s.workLen := rfl
@[simp] theorem State.emit_tblSel (w0 w1 : Word) : (s.emit w0 w1).tblSel = s.tblSel := rfl
@[simp] theorem State.emit_tblIndex (w0 w1 : Word) : (s.emit w0 w1).tblIndex = s.tblIndex := rfl
@[simp] theorem State.emit_tblData0 (w0 w1 : Word) : (s.emit w0 w1).tblData0 = s.tblData0 := rfl
@[simp] theorem State.emit_tblData1 (w0 w1 : Word) : (s.emit w0 w1).tblData1 = s.tblData1 := rfl
@[simp] theorem State.emit_tblData2 (w0 w1 : Word) : (s.emit w0 w1).tblData2 = s.tblData2 := rfl
@[simp] theorem State.emit_tblData3 (w0 w1 : Word) : (s.emit w0 w1).tblData3 = s.tblData3 := rfl
@[simp] theorem State.emit_cs0 (w0 w1 : Word) : (s.emit w0 w1).cs0 = s.cs0 := rfl
@[simp] theorem State.emit_cs1 (w0 w1 : Word) : (s.emit w0 w1).cs1 = s.cs1 := rfl
@[simp] theorem State.emit_cs2 (w0 w1 : Word) : (s.emit w0 w1).cs2 = s.cs2 := rfl
@[simp] theorem State.emit_cubic (w0 w1 : Word) : (s.emit w0 w1).cubic = s.cubic := rfl
@[simp] theorem State.emit_work (w0 w1 : Word) : (s.emit w0 w1).work = s.work := rfl
@[simp] theorem State.emit_resetLine (w0 w1 : Word) : (s.emit w0 w1).resetLine = s.resetLine := rfl
@[simp] theorem State.emit_srcmem (w0 w1 : Word) : (s.emit w0 w1).srcmem = s.srcmem := rfl
@[simp] theorem State.emit_bsmem (w0 w1 : Word) : (s.emit w0 w1).bsmem = s.bsmem := rfl
@[simp] theorem State.emit_outmem (w0 w1 : Word) :
    (s.emit w0 w1).outmem = (s.outmem.writeWord s.outPtr.toNat w0).writeWord (s.outPtr + 1).toNat w1 := rfl
@[simp] theorem State.emit_inputs (w0 w1 : Word) : (s.emit w0 w1).inputs = s.inputs := rfl
@[simp] theorem State.emit_readData (w0 w1 : Word) : (s.emit w0 w1).readData = s.readData := rfl
@[simp] theorem State.emit_fresh (w0 w1 : Word) : (s.emit w0 w1).fresh = s.fresh := rfl
@[simp] theorem State.emit_srcRaces (w0 w1 : Word) : (s.emit w0 w1).srcRaces = s.srcRaces := rfl
@[simp] theorem State.emit_bsRaces (w0 w1 : Word) : (s.emit w0 w1).bsRaces = s.bsRaces := rfl
@[simp] theorem State.emit_progress (w0 w1 : Word) : (s.emit w0 w1).progress = s.progress := rfl

/-! ### Codesets -/

@[simp] theorem State.codeset_setCodeset_same (c : CsId) (v : Codeset) : (s.setCodeset c v).codeset c = v := by cases c <;> rfl

@[simp] theorem State.codeset_setCodeset_of_ne {c d : CsId} (v : Codeset) (h : d ≠ c) :
    (s.setCodeset c v).codeset d = s.codeset d := by
  cases c <;> cases d <;> first | rfl | exact absurd rfl h

@[simp] theorem State.setCodeset_codeset (c : CsId) : s.setCodeset c (s.codeset c) = s := by cases c <;> rfl

@[simp] theorem State.setCodeset_setCodeset (c : CsId) (v w : Codeset) :
    (s.setCodeset c v).setCodeset c w = s.setCodeset c w := by cases c <;> rfl

theorem State.setValid_eq (c : CsId) (v : TableValid) :
    s.setValid c v = s.setCodeset c { s.codeset c with valid := v } := rfl

@[simp] theorem State.release_codeset (c : CsId) : (s.release).codeset c = s.codeset c := by cases c <;> rfl
@[simp] theorem State.complete_codeset (c : CsId) : (s.complete).codeset c = s.codeset c := by cases c <;> rfl
@[simp] theorem State.fail_codeset (f : Failure) (c : CsId) : (s.fail f).codeset c = s.codeset c := by cases c <;> rfl
@[simp] theorem State.accept_codeset (w : Word) (c : CsId) : (s.accept w).codeset c = s.codeset c := by cases c <;> rfl
@[simp] theorem State.clearError_codeset (c : CsId) : (s.clearError).codeset c = s.codeset c := by cases c <;> rfl
@[simp] theorem State.outWrite_codeset (a v : Word) (c : CsId) : (s.outWrite a v).codeset c = s.codeset c := by cases c <;> rfl
@[simp] theorem State.emit_codeset (w0 w1 : Word) (c : CsId) : (s.emit w0 w1).codeset c = s.codeset c := by cases c <;> rfl

end Sys2Proof.Machine
end

