-- ==== Sys2Proof/Laws/Ops.lean ====
section
/-!
SUPPORT. What the shared operations of Machine/Ops.lean and Machine/Operands.lean can do, once each: table RAMs, racing reads, the
bit-shift unit, the codeset field, the ends of a command body and the validations.
-/

namespace Sys2Proof.Machine

/-! ### Table RAMs -/

section Ram
variable {α : Type} (r : Ram α) (new : List α) (n : Nat) (free : Nat → Nat → α) {i : Nat}

@[simp] theorem Ram.store_generation : (r.store new).generation = r.generation := rfl
@[simp] theorem Ram.store_versions : (r.store new).versions = r.versions := rfl
@[simp] theorem Ram.spoil_generation : (r.spoil n).generation = r.generation := rfl
@[simp] theorem Ram.spoil_cells : (r.spoil n).cells = r.cells := rfl
@[simp] theorem Ram.forget_generation : r.forget.generation = r.generation := rfl
@[simp] theorem Ram.forget_cells : r.forget.cells = [] := rfl
@[simp] theorem Ram.afterReset_cells : r.afterReset.cells = [] := rfl
@[simp] theorem Ram.rebuild_cells : (r.rebuild new).cells = new := by simp [Ram.rebuild, Ram.store]

/-- A table that holds nothing forgets nothing. -/
theorem Ram.forget_of_empty (h : r.cells = []) : r.forget = r := by
  cases r; cases h; rfl

@[simp] theorem Ram.forget_forget : r.forget.forget = r.forget := r.forget.forget_of_empty rfl
@[simp] theorem Ram.forget_rebuild : r.forget.rebuild new = r.rebuild new := by simp [Ram.rebuild]

/-- The version of an entry rises with each time it is spoilt, and else stays. -/
theorem getD_bumpFirst (n : Nat) (vs : List Nat) (i : Nat) :
    (bumpFirst n vs)[i]?.getD 0 = vs[i]?.getD 0 + if i < n then 1 else 0 := by
  induction n generalizing vs i with
  | zero => rfl
  | succ n ih => cases vs <;> cases i <;> simp [bumpFirst, ih]

/-- An entry that held no defined value reads as before. -/
theorem Ram.forget_entry_of_ge (h : r.cells.length ≤ i) : r.forget.entry free i = r.entry free i := by
  simp [Ram.entry, Ram.unspecified, Ram.forget, Ram.spoil, getD_bumpFirst, Nat.not_lt.2 h]

theorem Ram.store_entry_of_lt (h : i < new.length) : (r.store new).entry free i = new[i] := by
  simp only [Ram.store, Ram.entry, List.getElem?_append_left h, List.getElem?_eq_getElem h, Option.getD_some]

theorem Ram.rebuild_entry_of_lt (h : i < new.length) : (r.rebuild new).entry free i = new[i] :=
  r.forget.store_entry_of_lt new free h

/-- A command that writes the first entries leaves the later ones. -/
theorem Ram.store_entry_of_ge (h : new.length ≤ i) : (r.store new).entry free i = r.entry free i := by
  simp only [Ram.store, Ram.entry, Ram.unspecified, List.getElem?_append_right h, List.getElem?_drop]
  congr 2
  omega

theorem Ram.length_store : (r.store new).cells.length = max new.length r.cells.length := by
  simp [Ram.store]; omega

end Ram

/-! ### Racing reads -/

@[simp] theorem racePick_nil {α : Type} (fresh : Nat) (site : Site) (a : Nat) (v : α) : racePick fresh site a v [] = v := rfl

theorem State.srcRead_of_quiet {s : State} (h : s.Quiet) (site : Site) (a : Word) :
    s.srcRead site a = s.srcWord a := by simp [State.srcRead, State.srcWord, h.1]

theorem State.bsReadByte_of_quiet {s : State} (h : s.Quiet) (site : Site) (a : Word) :
    s.bsReadByte site a = s.bsmem.read a.toNat := by simp [State.bsReadByte, h.2]

theorem State.rleAt_of_quiet {s : State} (h : s.Quiet) (c : CsId) (site : Site) (j : Nat) :
    s.rleAt c site j = s.rleEntry c j := by
  simp only [State.rleAt, State.rleEntry, State.srcRead_of_quiet h]

theorem State.rlvAt_of_quiet {s : State} (h : s.Quiet) (c : CsId) (site : Site) (j : Nat) :
    s.rlvAt c site j = s.rlvEntry c j := by
  simp only [State.rlvAt, State.rlvEntry, State.srcRead_of_quiet h]

theorem State.vlcAt_of_quiet {s : State} (h : s.Quiet) (c : CsId) (site : Site) (m : Nat) :
    s.vlcAt c site m = s.vlcEntry c m := by
  simp only [State.vlcAt, State.vlcEntry, State.srcRead_of_quiet h]

theorem State.fsmArrayAt_of_quiet {s : State} (h : s.Quiet) (c : CsId) (site : Site) (e : Nat) :
    s.fsmArrayAt c site e = s.fsmArrayEntry c e := by
  simp only [State.fsmArrayAt, State.fsmArrayEntry, State.srcRead_of_quiet h]

/-! ### The bit-shift unit -/

theorem State.peek_zero (s : State) (site : Site) : s.peek site 0 = 0 := rfl

theorem State.peek_succ (s : State) (site : Site) (n : Nat) :
    s.peek site (n + 1) = 2 * s.peek site n + (s.bitAt (site ++ [n]) (s.bsPos.toNat + n)).toNat := by
  simp [State.peek, List.range'_concat]

theorem State.peek_lt (s : State) (site : Site) (n : Nat) : s.peek site n < 2 ^ n := by
  induction n with
  | zero => simp [State.peek_zero]
  | succ n ih =>
    rw [State.peek_succ]
    have := Bool.toNat_lt (s.bitAt (site ++ [n]) (s.bsPos.toNat + n))
    omega

/-- `Consume` succeeds where the bits remain, and moves the position only. -/
theorem State.consume_ok_iff (s t : State) (n : Nat) :
    s.consume n = .ok t ↔ s.bsPos.toNat + n ≤ s.bsLen.toNat ∧ t = { s with bsPos := s.bsPos + BitVec.ofNat 32 n } := by
  unfold State.consume
  split <;> rename_i h
  · simp only [reduceCtorEq, false_iff, not_and]; omega
  · simp only [Except.ok.injEq, eq_comm (b := t)]
    exact ⟨fun ht => ⟨by omega, ht⟩, fun ht => ht.2⟩

/-- `Consume` fails where the bits do not remain. -/
theorem State.consume_error_iff (s : State) (f : Failure) (n : Nat) :
    s.consume n = .error f ↔ s.bsLen.toNat < s.bsPos.toNat + n ∧ f = ⟨.bitstreamUnderrun, n⟩ := by
  unfold State.consume
  split <;> rename_i h
  · simp only [Except.error.injEq, eq_comm (b := f)]
    exact ⟨fun ht => ⟨by omega, ht⟩, fun ht => ht.2⟩
  · simp only [reduceCtorEq, false_iff, not_and]; omega

/-- A successful `Consume` does not wrap. -/
theorem State.consume_bsPos {s t : State} {n : Nat} (h : s.consume n = .ok t) : t.bsPos.toNat = s.bsPos.toNat + n := by
  obtain ⟨hle, rfl⟩ := (s.consume_ok_iff t n).1 h
  have := s.bsLen.isLt
  simp only [BitVec.toNat_add, BitVec.toNat_ofNat]
  omega

/-! ### The codeset field -/

theorem CsId.ofField_eq_none_iff (cs : BitVec 2) : CsId.ofField cs = none ↔ cs = 3#2 := by revert cs; decide

theorem CsId.toNat_of_ofField {cs : BitVec 2} {c : CsId} (h : CsId.ofField cs = some c) : c.toNat = cs.toNat := by
  revert cs c; decide

theorem State.onCodeset_some {cs : BitVec 2} {c : CsId} (h : CsId.ofField cs = some c) (s : State) (k : CsId → State) :
    s.onCodeset cs k = k c := by simp [State.onCodeset, h]

theorem State.onCodeset_none {cs : BitVec 2} (h : CsId.ofField cs = none) (s : State) (k : CsId → State) :
    s.onCodeset cs k = s.fail ⟨.badCodeset, s.cmd.toNat⟩ := by simp [State.onCodeset, h]

/-- A command with a codeset field fails for 3, or runs for the codeset named. -/
theorem State.onCodeset_cases (s : State) (cs : BitVec 2) (k : CsId → State) :
    s.onCodeset cs k = s.fail ⟨.badCodeset, s.cmd.toNat⟩ ∧ cs = 3#2 ∨
      ∃ c, CsId.ofField cs = some c ∧ s.onCodeset cs k = k c := by
  cases h : CsId.ofField cs with
  | none => exact .inl ⟨State.onCodeset_none h s k, (CsId.ofField_eq_none_iff cs).1 h⟩
  | some c => exact .inr ⟨c, rfl, State.onCodeset_some h s k⟩

/-! ### Command bodies -/

@[simp] theorem Body.finish_done (s : State) : (Body.done s).finish = s.complete := rfl
@[simp] theorem Body.finish_failed (f : Failure) (s : State) : (Body.failed f s).finish = s.fail f := rfl
@[simp] theorem Body.done_andThen (s : State) (k : State → Body) : (Body.done s).andThen k = k s := rfl
@[simp] theorem Body.failed_andThen (f : Failure) (s : State) (k : State → Body) :
    (Body.failed f s).andThen k = .failed f s := rfl

/-- A sequence is done where both parts are. -/
theorem Body.andThen_done_iff (b : Body) (k : State → Body) (t : State) :
    b.andThen k = .done t ↔ ∃ u, b = .done u ∧ k u = .done t := by cases b <;> simp [Body.andThen]

/-- A sequence fails where a part does. -/
theorem Body.andThen_failed_iff (b : Body) (k : State → Body) (f : Failure) (t : State) :
    b.andThen k = .failed f t ↔ b = .failed f t ∨ ∃ u, b = .done u ∧ k u = .failed f t := by
  cases b <;> simp [Body.andThen]

/-! ### Validation -/

theorem firstBad_eq_none_iff (n : Nat) (bad : Nat → Bool) : firstBad n bad = none ↔ ∀ j < n, bad j = false := by
  simp [firstBad, List.find?_eq_none]

/-- The first bad entry is bad, and none before it is. -/
theorem firstBad_eq_some_iff (n : Nat) (bad : Nat → Bool) (j : Nat) :
    firstBad n bad = some j ↔ j < n ∧ bad j = true ∧ ∀ i < j, bad i = false := by
  simp [firstBad, List.find?_range'_eq_some]
  tauto

theorem State.validateRle_of_valid {s : State} {c : CsId} (hq : s.Quiet) (h : s.RleValid c) (site : Site) :
    s.validateRle c site = none := by
  simp only [State.validateRle, Option.map_eq_none_iff, firstBad_eq_none_iff, State.rleAt_of_quiet hq]
  exact h

theorem State.validateRlv_of_valid {s : State} {c : CsId} (hq : s.Quiet) (h : s.RlvValid c) (site : Site) :
    s.validateRlv c site = none := by
  simp only [State.validateRlv, Option.map_eq_none_iff, firstBad_eq_none_iff, State.rlvAt_of_quiet hq]
  exact h

theorem State.validateVlc_of_valid {s : State} {c : CsId} (hq : s.Quiet) (h : s.VlcValid c) (site : Site) :
    s.validateVlc c site = none := by
  simp only [State.validateVlc, if_neg h.1, Option.map_eq_none_iff, firstBad_eq_none_iff, State.vlcAt_of_quiet hq]
  exact h.2

/-- A validation that fails names the first entry that breaks a limit. -/
theorem State.validateRle_of_bad {s : State} {c : CsId} (hq : s.Quiet) {j : Nat} (hj : j < (s.codeset c).rlcLen.toNat)
    (hb : (s.rleEntry c j).badRun = true) (hf : ∀ i < j, (s.rleEntry c i).badRun = false) (site : Site) :
    s.validateRle c site = some ⟨.invalidCodebook, j⟩ := by
  simp only [State.validateRle, State.rleAt_of_quiet hq]
  rw [(firstBad_eq_some_iff _ _ j).2 ⟨hj, hb, hf⟩]
  rfl

theorem State.validateRlv_of_bad {s : State} {c : CsId} (hq : s.Quiet) {j : Nat} (hj : j < (s.codeset c).rlvLen.toNat)
    (hb : (s.rlvEntry c j).badRunValue = true) (hf : ∀ i < j, (s.rlvEntry c i).badRunValue = false) (site : Site) :
    s.validateRlv c site = some ⟨.invalidCodebook, j⟩ := by
  simp only [State.validateRlv, State.rlvAt_of_quiet hq]
  rw [(firstBad_eq_some_iff _ _ j).2 ⟨hj, hb, hf⟩]
  rfl

/-- A validation answers nothing or an `INVALID_CODEBOOK`. -/
theorem State.validateRle_code {s : State} {c : CsId} {site : Site} {f : Failure} (h : s.validateRle c site = some f) :
    f.code = .invalidCodebook := by
  simp only [State.validateRle, Option.map_eq_some_iff] at h
  obtain ⟨j, -, rfl⟩ := h
  rfl

theorem State.validateRlv_code {s : State} {c : CsId} {site : Site} {f : Failure} (h : s.validateRlv c site = some f) :
    f.code = .invalidCodebook := by
  simp only [State.validateRlv, Option.map_eq_some_iff] at h
  obtain ⟨j, -, rfl⟩ := h
  rfl

theorem State.validateVlc_code {s : State} {c : CsId} {site : Site} {f : Failure} (h : s.validateVlc c site = some f) :
    f.code = .invalidCodebook := by
  simp only [State.validateVlc] at h
  split at h
  · cases h; rfl
  · simp only [Option.map_eq_some_iff] at h
    obtain ⟨j, -, rfl⟩ := h
    rfl

end Sys2Proof.Machine
end

