-- ==== Sys2Proof/Laws/DecodeSteps.lean ====
section
/-!
SUPPORT. What a decode step and a run can do, once each, and the induction over the steps of a run.
-/

namespace Sys2Proof.Machine

/-- The band-end code is not there and nothing changes, or it is consumed and reported. -/
theorem State.bandEndCheck_cases (s : State) (c : CsId) (site : Site) :
    s.bandEndCheck c site = none ∨
      s.ctrl.bandEndDetect = true ∧ (s.codeset c).valid.bandEnd = true ∧
        s.bsPos.toNat + (s.codeset c).bandEndSize.toNat ≤ s.bsLen.toNat ∧
        s.peek site (s.codeset c).bandEndSize.toNat = (s.codeset c).bandEndCode.toNat ∧
        s.bandEndCheck c site = some { s with
          bsPos := s.bsPos + (s.codeset c).bandEndSize
          status := { s.status with bandEnd := true } } := by
  unfold State.bandEndCheck
  dsimp only
  split
  · exact .inl rfl
  · rename_i h1
    split
    · exact .inl rfl
    · rename_i h2
      split
      · exact .inl rfl
      · rename_i h3
        simp only [Bool.or_eq_true, Bool.not_eq_true', not_or, Bool.not_eq_false] at h1
        exact .inr ⟨h1.1, h1.2, by omega, not_not.1 h3, rfl⟩

theorem State.bandEndCheck_of_disabled {s : State} (h : s.ctrl.bandEndDetect = false) (c : CsId) (site : Site) :
    s.bandEndCheck c site = none := by simp [State.bandEndCheck, h]

/-- A successful step of `VLC_DECODE` consumes its codeword, or the band-end code, and changes nothing else. -/
theorem State.vlcStep_cases (s : State) (c : CsId) (site : Site) :
    (∃ f, s.vlcStep c site = .error f ∧ (f.code = .decodeError ∨ f.code = .bitstreamUnderrun)) ∨
      (∃ t, s.bandEndCheck c (site ++ [0]) = some t ∧
        s.vlcStep c site = .ok (⟨.bandEnd, 0, 0, (s.codeset c).bandEndSize⟩, t)) ∨
      ∃ r n, s.bandEndCheck c (site ++ [0]) = none ∧ r.kind ≠ .bandEnd ∧ s.bsPos.toNat + n ≤ s.bsLen.toNat ∧
        s.vlcStep c site = .ok (r, { s with bsPos := s.bsPos + BitVec.ofNat 32 n }) := by
  unfold State.vlcStep
  split
  · rename_i t ht
    exact .inr (.inl ⟨t, ht, rfl⟩)
  · rename_i hn
    dsimp only
    split
    · split
      · rename_i f hf
        exact .inl ⟨f, rfl, .inr (by rw [((s.consume_error_iff f _).1 hf).2])⟩
      · rename_i t ht
        obtain ⟨hle, rfl⟩ := (s.consume_ok_iff t _).1 ht
        exact .inr (.inr ⟨_, _, hn, by simp, hle, rfl⟩)
    · unfold State.slowStep
      split
      · exact .inl ⟨_, rfl, .inl rfl⟩
      · split
        · rename_i f hf
          exact .inl ⟨f, rfl, .inr (by rw [((s.consume_error_iff f _).1 hf).2])⟩
        · rename_i t ht
          obtain ⟨hle, rfl⟩ := (s.consume_ok_iff t _).1 ht
          exact .inr (.inr ⟨_, _, hn, by simp, hle, rfl⟩)
    · exact .inl ⟨_, rfl, .inl rfl⟩

/-- A successful step of `FSM_STEP` consumes the entry's skips and moves to its next state, or consumes the band-end code. -/
theorem State.fsmStep_cases (s : State) (c : CsId) (site : Site) :
    (∃ f, s.fsmStep c site = .error f ∧ (f.code = .decodeError ∨ f.code = .bitstreamUnderrun)) ∨
      (∃ t, s.bandEndCheck c (site ++ [0]) = some t ∧ s.fsmStep c site = .ok (none, t)) ∨
      ∃ e, e = s.fsmAt c (s.fsmIndex c (site ++ [1])) ∧ s.bandEndCheck c (site ++ [0]) = none ∧
        e.nextState.toNat < (s.codeset c).fsmNumStates.toNat ∧
        s.bsPos.toNat + (e.preSkip.toNat + e.postSkip.toNat) ≤ s.bsLen.toNat ∧
        s.fsmStep c site =
          .ok (some e, ({ s with bsPos := s.bsPos + BitVec.ofNat 32 (e.preSkip.toNat + e.postSkip.toNat) }).setCodeset c
            { s.codeset c with fsmState := e.nextState }) := by
  unfold State.fsmStep
  split
  · rename_i t ht
    exact .inr (.inl ⟨t, ht, rfl⟩)
  · rename_i hn
    dsimp only
    split
    · exact .inl ⟨_, rfl, .inl rfl⟩
    · rename_i hlt
      split
      · rename_i f hf
        exact .inl ⟨f, rfl, .inr (by rw [((s.consume_error_iff f _).1 hf).2])⟩
      · rename_i t ht
        obtain ⟨hle, rfl⟩ := (s.consume_ok_iff t _).1 ht
        refine .inr (.inr ⟨_, rfl, hn, by omega, hle, ?_⟩)
        cases c <;> rfl

/-- The state in which a body ends. -/
def Body.state : Body → State
  | .done s => s
  | .failed _ s => s

/-- What every step of a run keeps, a run keeps: `P` holds of the state before each step, and `Q` follows where the run ends. -/
theorem runLoop_induct {f : Nat → State → RunStep} {P Q : State → Prop} (hfail : ∀ s, P s → Q s)
    (hend : ∀ s, P s → Q { s with result1 := 0 })
    (hband : ∀ k s t, P s → f k s = .ok (none, t) → Q { t with result1 := 1 })
    (hstep : ∀ k s w0 w1 t, P s → f k s = .ok (some (w0, w1), t) →
      P { t.emit w0 w1 with result0 := BitVec.ofNat 32 (k + 1) })
    (left steps : Nat) (s : State) (h : P s) : Q (runLoop f left steps s).state := by
  induction left generalizing steps s with
  | zero => exact hend s h
  | succ n ih =>
    unfold runLoop
    split
    · exact hfail s h
    · rename_i t ht
      exact hband steps s t h ht
    · rename_i w0 w1 t ht
      exact ih _ _ (hstep steps s w0 w1 t h ht)

/-- A run fails only as one of its steps does. -/
theorem runLoop_failed {f : Nat → State → RunStep} {left steps : Nat} {s t : State} {e : Failure}
    (h : runLoop f left steps s = .failed e t) : ∃ k, f k t = .error e := by
  induction left generalizing steps s with
  | zero => cases h
  | succ n ih =>
    unfold runLoop at h
    split at h
    · rename_i e' he
      cases h
      exact ⟨steps, he⟩
    · cases h
    · exact ih h

end Sys2Proof.Machine
end

