-- ==== Sys2Proof/Laws/TableGen.lean ====
section
/-!
SUPPORT. What the bodies of the table generator commands can do, once each: how each ends, and with which state.
-/

namespace Sys2Proof.Machine

/-! ### Run-length code table -/

theorem sortRuns_perm (l : List WorkEntry) : (sortRuns l).Perm l := List.perm_insertionSort _ l

theorem length_sortRuns (l : List WorkEntry) : (sortRuns l).length = l.length := (sortRuns_perm l).length_eq

/-- The sorted classes do not rise in count. -/
theorem sortRuns_pairwise (l : List WorkEntry) : (sortRuns l).Pairwise fun a b => b.count.toNat ≤ a.count.toNat :=
  List.pairwise_insertionSort (fun a b : WorkEntry => b.count.toNat ≤ a.count.toNat) l

theorem State.length_copiedRuns (s : State) (c : CsId) (hasOne : Bool) :
    (s.copiedRuns c hasOne).length = if hasOne then (s.codeset c).rlcLen.toNat else (s.codeset c).rlcLen.toNat + 1 := by
  cases hasOne <;> simp [State.copiedRuns]

/-- `SORT_RUNLENGTH` fails and leaves the state, or passes every check and writes `WORK`, `WORK_LEN` and `RESULT0`. -/
theorem State.sortRunLength_cases (s : State) (c : CsId) :
    (∃ f, s.sortRunLength c = .failed f s ∧ (f.code = .invalidCodebook ∨ f.code = .outOfMemory)) ∨
      s.validateRle c [0, 0] = none ∧ (s.copiedRuns c (s.hasCountOne c)).length ≤ s.params.rlcMaxEntries ∧
        (s.hasCountOne c = true ∨ (s.codeset c).badZeroCode = false) ∧ s.firstDuplicate c = none ∧
        s.sortRunLength c = .done { s with
          work := s.work.store (sortRuns (s.copiedRuns c (s.hasCountOne c)))
          workLen := BitVec.ofNat 32 (s.copiedRuns c (s.hasCountOne c)).length
          result0 := BitVec.ofNat 32 (s.copiedRuns c (s.hasCountOne c)).length } := by
  unfold State.sortRunLength
  rw [State.length_copiedRuns]
  split
  · rename_i f hf
    exact .inl ⟨f, rfl, .inl (State.validateRle_code hf)⟩
  · rename_i hv
    dsimp only
    generalize (if s.hasCountOne c = true then (s.codeset c).rlcLen.toNat else (s.codeset c).rlcLen.toNat + 1) = need
    by_cases hn : need > s.params.rlcMaxEntries
    · exact .inl ⟨⟨.outOfMemory, need⟩, if_pos hn, .inr rfl⟩
    · rw [if_neg hn]
      by_cases hz : (!s.hasCountOne c && (s.codeset c).badZeroCode) = true
      · exact .inl ⟨⟨.invalidCodebook, _⟩, if_pos hz, .inl rfl⟩
      · rw [if_neg hz]
        cases hd : s.firstDuplicate c with
        | some j => exact .inl ⟨⟨.invalidCodebook, j⟩, rfl, .inl rfl⟩
        | none =>
          refine .inr ⟨hv, by omega, ?_, rfl, rfl⟩
          cases h1 : s.hasCountOne c <;> simp_all

theorem composition_nil (budget r : Nat) : composition budget [] r = ⟨0, 0, r⟩ := rfl

/-- Of a class that the checks of R140 admit, the repetitions are the quotient. -/
theorem repetitions_of_pos {count : Nat} (h : 0 < count) (remaining : Nat) :
    repetitions remaining count = remaining / count := if_neg (by omega)

/-- No composition exceeds the budget. -/
theorem Composite.size_append (budget : Nat) (e : WorkEntry) (reps : Nat) (a : Composite) (h : a.size ≤ budget) :
    (Composite.append budget e reps a).size ≤ budget := by
  induction reps generalizing a with
  | zero => exact h
  | succ n ih =>
    rw [Composite.append]
    split
    · exact h
    · exact ih _ (by dsimp only; omega)

theorem Composite.size_visit (budget : Nat) (e : WorkEntry) (a : Composite) (h : a.size ≤ budget) :
    (a.visit budget e).size ≤ budget := by
  unfold Composite.visit
  split
  · exact Composite.size_append budget e _ a h
  · exact h

theorem size_composition (budget : Nat) (work : List WorkEntry) (r : Nat) : (composition budget work r).size ≤ budget := by
  suffices h : ∀ a : Composite, a.size ≤ budget → (work.foldl (Composite.visit budget) a).size ≤ budget from
    h _ (Nat.zero_le _)
  induction work with
  | nil => exact fun a h => h
  | cons e rest ih => exact fun a h => ih _ (Composite.size_visit budget e a h)

/-- `BUILD_RUNLENGTH` fails as `SORT_RUNLENGTH` does, with `NEWCODES_V` cleared, or builds the table over the `WORK` it sorted. -/
theorem State.buildRunLength_cases (s : State) (c : CsId) :
    let s0 := s.startRunLength c
    (∃ f, s.buildRunLength c = .failed f s0 ∧ s0.sortRunLength c = .failed f s0) ∨
      ∃ t, s0.sortRunLength c = .done t ∧
        s.buildRunLength c = .done { t.setCodeset c { t.codeset c with
              newcodes := (t.codeset c).newcodes.rebuild
                ((List.range' 0 Config.newCodebookLength).map (compose t.params.budget t.workList))
              valid := { (t.codeset c).valid with newcodes := true } } with
            result0 := t.workLen } := by
  intro s0
  have hb : s.buildRunLength c = (s0.sortRunLength c).andThen fun t =>
      .done { t.setCodeset c { t.codeset c with
            newcodes := (t.codeset c).newcodes.rebuild
              ((List.range' 0 Config.newCodebookLength).map (compose t.params.budget t.workList))
            valid := { (t.codeset c).valid with newcodes := true } } with
          result0 := t.workLen } := rfl
  rcases s0.sortRunLength_cases c with ⟨f, hf, -⟩ | ⟨-, -, -, -, hd⟩
  · exact .inl ⟨f, by rw [hb, hf]; rfl, hf⟩
  · exact .inr ⟨_, hd, by rw [hb, hd]; rfl⟩

/-! ### Fast lookup tables -/

/-- A fill that no entry ends stores one entry for each index. -/
theorem fillEntries_of_none {f : Nat → Option FastEntry} {fuel idx : Nat} (h : (fillEntries f fuel idx).2 = none) :
    (fillEntries f fuel idx).1.length = fuel ∧
      ∀ i < fuel, (fillEntries f fuel idx).1[i]? = f (idx + i) ∧ (f (idx + i)).isSome = true := by
  induction fuel generalizing idx with
  | zero => exact ⟨rfl, by omega⟩
  | succ n ih =>
    unfold fillEntries at h ⊢
    cases hf : f idx with
    | none => simp [hf] at h
    | some e =>
      simp only [hf] at h
      obtain ⟨hl, hg⟩ := ih h
      refine ⟨by simp [hl], fun i hi => ?_⟩
      cases i with
      | zero => simp [hf]
      | succ j =>
        have := hg j (by omega)
        rw [show idx + 1 + j = idx + (j + 1) by omega] at this
        simpa using this

/-- A fill never stores more entries than indices. -/
theorem length_fillEntries_le (f : Nat → Option FastEntry) (fuel idx : Nat) :
    (fillEntries f fuel idx).1.length ≤ fuel := by
  induction fuel generalizing idx with
  | zero => exact Nat.le_refl _
  | succ n ih =>
    unfold fillEntries
    cases f idx with
    | none => exact Nat.zero_le _
    | some e => exact Nat.succ_le_succ (ih (idx + 1))

/-- A fill whose entries all exist ends with none. -/
theorem fillEntries_none_of_isSome {f : Nat → Option FastEntry} {fuel idx : Nat}
    (h : ∀ i < fuel, (f (idx + i)).isSome = true) : (fillEntries f fuel idx).2 = none := by
  induction fuel generalizing idx with
  | zero => rfl
  | succ n ih =>
    unfold fillEntries
    have h0 := h 0 (by omega)
    rw [Nat.add_zero] at h0
    cases hf : f idx with
    | none => simp [hf] at h0
    | some e =>
      refine ih fun i hi => ?_
      have := h (i + 1) (by omega)
      rwa [show idx + 1 + i = idx + (i + 1) by omega]

/-- A failed fill names the first index without an entry. -/
theorem fillEntries_some_iff {f : Nat → Option FastEntry} {fuel idx k : Nat} :
    (fillEntries f fuel idx).2 = some k ↔ idx ≤ k ∧ k < idx + fuel ∧ f k = none ∧ ∀ i, idx ≤ i → i < k → f i ≠ none := by
  induction fuel generalizing idx with
  | zero => simp [fillEntries]; omega
  | succ n ih =>
    unfold fillEntries
    cases hf : f idx with
    | none =>
      simp only [Option.some.injEq]
      constructor
      · rintro rfl
        exact ⟨Nat.le_refl _, by omega, hf, by omega⟩
      · rintro ⟨h1, -, -, h4⟩
        by_contra hne
        exact h4 idx (Nat.le_refl _) (by omega) hf
    | some e =>
      simp only [ih]
      constructor
      · rintro ⟨h1, h2, h3, h4⟩
        refine ⟨by omega, by omega, h3, fun i hi hik => ?_⟩
        rcases Nat.eq_or_lt_of_le hi with rfl | hi
        · simp [hf]
        · exact h4 i hi hik
      · rintro ⟨h1, h2, h3, h4⟩
        have : idx ≠ k := by rintro rfl; simp [hf] at h3
        exact ⟨by omega, by omega, h3, fun i hi hik => h4 i (by omega) hik⟩

/-- A fill that fails at an index has written the entries before it. -/
theorem length_fillEntries_of_some {f : Nat → Option FastEntry} {fuel idx k : Nat} (h : (fillEntries f fuel idx).2 = some k) :
    (fillEntries f fuel idx).1.length = k - idx := by
  induction fuel generalizing idx with
  | zero => cases h
  | succ n ih =>
    unfold fillEntries at h ⊢
    cases hf : f idx with
    | none =>
      simp only [hf, Option.some.injEq] at h
      simp [h]
    | some e =>
      simp only [hf] at h ⊢
      have := (fillEntries_some_iff.1 h).1
      simp only [List.length_cons, ih h]
      omega

/-- The end of a fill: a failure with the entries before it stored, or the whole table with its counts. -/
theorem State.finishFill_cases (s : State) (c : CsId) (legacy : Bool) (l : List FastEntry) (k : Option Nat) :
    (∃ idx, k = some idx ∧ s.finishFill c legacy (l, k) = .failed ⟨.invalidCodebook, idx⟩
        (s.setCodeset c { s.codeset c with fastbook := (s.codeset c).fastbook.spoil l.length })) ∨
      k = none ∧ s.finishFill c legacy (l, k) =
        .done { s.setCodeset c { s.codeset c with
              fastbook := (s.codeset c).fastbook.rebuild l
              valid := { (s.codeset c).valid with fastbook := true, fastbookLegacy := legacy } } with
            status := { s.status with unmatched := s.status.unmatched || decide (countKind .unmatched l > 0) }
            result0 := BitVec.ofNat 32 (countKind .complete l)
            result1 := BitVec.ofNat 32 (countKind .marker l)
            result2 := BitVec.ofNat 32 (countKind .unmatched l) } := by
  cases k with
  | none => exact .inr ⟨rfl, rfl⟩
  | some idx => exact .inl ⟨idx, rfl, rfl⟩

/-- The kinds partition a table. -/
theorem countKind_add (l : List FastEntry) :
    countKind .complete l + countKind .marker l + countKind .unmatched l = l.length := by
  induction l with
  | nil => rfl
  | cons e rest ih =>
    simp only [countKind, List.countP_cons, List.length_cons] at ih ⊢
    cases e.kind <;> simp <;> omega

/-- `FILL_SCAN_LUT` fails on a bad book, or ends as its fill does. -/
theorem State.fillScanLut_cases (s : State) (c : CsId) :
    (∃ f, s.fillScanLut c = .failed f (s.startFill c) ∧ f.code = .invalidCodebook) ∨
      (s.startFill c).validateRlv c [1, 0] = none ∧
        s.fillScanLut c = (s.startFill c).finishFill c false
          (fillEntries (scanEntry s.params ((s.startFill c).rlvAt c) ((s.startFill c).codeset c).rlvLen.toNat [1, 1])
            Config.fastbookDepth 0) := by
  have hp : (s.startFill c).params = s.params := by simp [State.startFill]
  unfold State.fillScanLut
  dsimp only
  split
  · rename_i f hf
    exact .inl ⟨f, rfl, State.validateRlv_code hf⟩
  · rename_i hv
    exact .inr ⟨hv, by rw [hp]⟩

/-- `FILL_CODE_LUT` fails on a bad book, or fills the whole table. -/
theorem State.fillCodeLut_cases (s : State) (c : CsId) :
    (∃ f, s.fillCodeLut c = .failed f (s.startFill c) ∧ f.code = .invalidCodebook) ∨
      (s.startFill c).validateRle c [2, 0] = none ∧
        s.fillCodeLut c = (s.startFill c).finishFill c true
          (fillEntries
            (fun idx => some (legacyEntry ((s.startFill c).rleAt c) ((s.startFill c).codeset c).rlcLen.toNat [2, 1] idx))
            Config.fastbookDepth 0) := by
  unfold State.fillCodeLut
  dsimp only
  split
  · rename_i f hf
    exact .inl ⟨f, rfl, State.validateRle_code hf⟩
  · rename_i hv
    exact .inr ⟨hv, rfl⟩

/-! ### Signed-value table -/

theorem length_forwardFill (last : Nat) (l : List Nat) : (forwardFill last l).length = l.length := by
  induction l generalizing last with
  | nil => rfl
  | cons m rest ih => rw [forwardFill]; split <;> simp [ih]

theorem length_cubicMarks : cubicMarks.length = Config.cubicLength := by
  suffices h : ∀ (l t : List Nat), (l.foldl (fun t m => t.set (cubicSlot m) m) t).length = t.length by
    rw [cubicMarks, h, List.length_replicate]
  intro l
  induction l with
  | nil => exact fun t => rfl
  | cons m rest ih => intro t; rw [List.foldl_cons, ih, List.length_set]

/-! ### `State.buildCubic` -/

section BuildCubic
variable (s : State)

@[simp] theorem State.buildCubic_params : s.buildCubic.params = s.params := by simp only [State.buildCubic]
@[simp] theorem State.buildCubic_engine : s.buildCubic.engine = s.engine := by simp only [State.buildCubic]
@[simp] theorem State.buildCubic_ctrl : s.buildCubic.ctrl = s.ctrl := by simp only [State.buildCubic]
@[simp] theorem State.buildCubic_status : s.buildCubic.status = s.status := by simp only [State.buildCubic]
@[simp] theorem State.buildCubic_cmd : s.buildCubic.cmd = s.cmd := by simp only [State.buildCubic]
@[simp] theorem State.buildCubic_arg0 : s.buildCubic.arg0 = s.arg0 := by simp only [State.buildCubic]
@[simp] theorem State.buildCubic_result0 : s.buildCubic.result0 = s.result0 := by simp only [State.buildCubic]
@[simp] theorem State.buildCubic_result1 : s.buildCubic.result1 = s.result1 := by simp only [State.buildCubic]
@[simp] theorem State.buildCubic_result2 : s.buildCubic.result2 = s.result2 := by simp only [State.buildCubic]
@[simp] theorem State.buildCubic_result3 : s.buildCubic.result3 = s.result3 := by simp only [State.buildCubic]
@[simp] theorem State.buildCubic_errInfo : s.buildCubic.errInfo = s.errInfo := by simp only [State.buildCubic]
@[simp] theorem State.buildCubic_bsBase : s.buildCubic.bsBase = s.bsBase := by simp only [State.buildCubic]
@[simp] theorem State.buildCubic_bsLen : s.buildCubic.bsLen = s.bsLen := by simp only [State.buildCubic]
@[simp] theorem State.buildCubic_bsPos : s.buildCubic.bsPos = s.bsPos := by simp only [State.buildCubic]
@[simp] theorem State.buildCubic_outPtr : s.buildCubic.outPtr = s.outPtr := by simp only [State.buildCubic]
@[simp] theorem State.buildCubic_workLen : s.buildCubic.workLen = s.workLen := by simp only [State.buildCubic]
@[simp] theorem State.buildCubic_tblSel : s.buildCubic.tblSel = s.tblSel := by simp only [State.buildCubic]
@[simp] theorem State.buildCubic_tblIndex : s.buildCubic.tblIndex = s.tblIndex := by simp only [State.buildCubic]
@[simp] theorem State.buildCubic_tblData0 : s.buildCubic.tblData0 = s.tblData0 := by simp only [State.buildCubic]
@[simp] theorem State.buildCubic_tblData1 : s.buildCubic.tblData1 = s.tblData1 := by simp only [State.buildCubic]
@[simp] theorem State.buildCubic_tblData2 : s.buildCubic.tblData2 = s.tblData2 := by simp only [State.buildCubic]
@[simp] theorem State.buildCubic_tblData3 : s.buildCubic.tblData3 = s.tblData3 := by simp only [State.buildCubic]
@[simp] theorem State.buildCubic_cs0 : s.buildCubic.cs0 = s.cs0 := by simp only [State.buildCubic]
@[simp] theorem State.buildCubic_cs1 : s.buildCubic.cs1 = s.cs1 := by simp only [State.buildCubic]
@[simp] theorem State.buildCubic_cs2 : s.buildCubic.cs2 = s.cs2 := by simp only [State.buildCubic]
@[simp] theorem State.buildCubic_work : s.buildCubic.work = s.work := by simp only [State.buildCubic]
@[simp] theorem State.buildCubic_resetLine : s.buildCubic.resetLine = s.resetLine := by simp only [State.buildCubic]
@[simp] theorem State.buildCubic_srcmem : s.buildCubic.srcmem = s.srcmem := by simp only [State.buildCubic]
@[simp] theorem State.buildCubic_bsmem : s.buildCubic.bsmem = s.bsmem := by simp only [State.buildCubic]
@[simp] theorem State.buildCubic_outmem : s.buildCubic.outmem = s.outmem := by simp only [State.buildCubic]
@[simp] theorem State.buildCubic_inputs : s.buildCubic.inputs = s.inputs := by simp only [State.buildCubic]
@[simp] theorem State.buildCubic_readData : s.buildCubic.readData = s.readData := by simp only [State.buildCubic]
@[simp] theorem State.buildCubic_fresh : s.buildCubic.fresh = s.fresh := by simp only [State.buildCubic]
@[simp] theorem State.buildCubic_srcRaces : s.buildCubic.srcRaces = s.srcRaces := by simp only [State.buildCubic]
@[simp] theorem State.buildCubic_bsRaces : s.buildCubic.bsRaces = s.bsRaces := by simp only [State.buildCubic]

@[simp] theorem State.buildCubic_cubic :
    s.buildCubic.cubic = s.cubic.store ((forwardFill 0 cubicMarks).map (BitVec.ofNat 8)) := by simp only [State.buildCubic]

@[simp] theorem State.buildCubic_codeset (c : CsId) : s.buildCubic.codeset c = s.codeset c := by
  cases c <;> simp only [State.codeset, State.buildCubic]

end BuildCubic

/-- A policy is selected, or the flags fail with `BAD_FLAGS` or `UNSUPPORTED`. -/
theorem CompandFlags.policy_error {f : CompandFlags} {info : Word} {e : Failure} (h : f.policy info = .error e) :
    e.info = info.toNat ∧ (e.code = .badFlags ∧ f.notNeeded = true ∧ f.cubic = true ∨
      e.code = .unsupported ∧ f.notNeeded = false ∧ f.cubic = false ∧ f.more = true) := by
  obtain ⟨n, c, m⟩ := f
  cases n <;> cases c <;> cases m <;> simp [CompandFlags.policy] at h <;> subst h <;> simp

/-- `FILL_VLC_TABLE` fails with `VALUEBOOK_V` cleared, or builds the table under its policy. -/
theorem State.fillVlcTable_cases (s : State) (c : CsId) :
    let s0 := s.startValues c
    (∃ f, s.fillVlcTable c = .failed f s0 ∧ f.code ≠ .none) ∨
      ∃ p, (s.codeset c).csFlags.policy (s.codeset c).csFlags.toWord = .ok p ∧ s0.validateVlc c [3, 0] = none ∧
        let s1 := if p = .cubic then s0.buildCubic else s0
        s.fillVlcTable c = .done { s1.setCodeset c { s1.codeset c with
              valuebook := (s1.codeset c).valuebook.rebuild ((List.range' 0 (2 ^ s1.params.valueSize)).map (s1.valueEntry c p))
              valid := { (s1.codeset c).valid with valuebook := true } } with
            result0 := BitVec.ofNat 32 (2 ^ s1.params.valueSize) } := by
  intro s0
  have hc : (s0.codeset c).csFlags = (s.codeset c).csFlags := by simp [s0, State.startValues]
  have hb : s.fillVlcTable c =
      match (s0.codeset c).csFlags.policy (s0.codeset c).csFlags.toWord with
      | .error f => .failed f s0
      | .ok p =>
        match s0.validateVlc c [3, 0] with
        | some f => .failed f s0
        | none =>
          let s1 := if p = .cubic then s0.buildCubic else s0
          .done { s1.setCodeset c { s1.codeset c with
                valuebook := (s1.codeset c).valuebook.rebuild ((List.range' 0 (2 ^ s1.params.valueSize)).map (s1.valueEntry c p))
                valid := { (s1.codeset c).valid with valuebook := true } } with
              result0 := BitVec.ofNat 32 (2 ^ s1.params.valueSize) } := rfl
  rw [hb, hc]
  cases hp : (s.codeset c).csFlags.policy (s.codeset c).csFlags.toWord with
  | error f =>
    refine .inl ⟨f, rfl, ?_⟩
    rcases (CompandFlags.policy_error hp).2 with ⟨h, -⟩ | ⟨h, -⟩ <;> simp [h]
  | ok p =>
    dsimp only
    cases hv : s0.validateVlc c [3, 0] with
    | some f => exact .inl ⟨f, rfl, by simp [State.validateVlc_code hv]⟩
    | none => exact .inr ⟨p, rfl, rfl, rfl⟩

/-- A code that fits its field is stored as it is. -/
theorem codeField_of_lt {code : Nat} (h : code < 2 ^ 32) : codeField code = BitVec.ofNat 32 code := if_pos h

/-! ### Pattern matching -/

/-- An entry that `Match` finds at one size: an entry of the book, of that size, that leads the window. -/
theorem matchSize_some {book : Book} {len : Nat} {site : Site} {w width size : Nat} {e : BookEntry}
    (h : matchSize book len site w width size = some e) :
    ∃ j < len, e = book (site ++ [size, j]) j ∧ e.size = size ∧ w / 2 ^ (width - size) = e.bits := by
  unfold matchSize at h
  obtain ⟨j, hj, rfl⟩ := Option.map_eq_some_iff.1 h
  have hp := List.find?_some hj
  have hm := List.mem_of_find?_eq_some hj
  simp only [List.mem_range'_1, BookEntry.leads, Bool.and_eq_true, beq_iff_eq, Nat.shiftRight_eq_div_pow] at hp hm
  exact ⟨j, by omega, rfl, hp.1, hp.2⟩

/-- What `signedHit` reports: the entry's count, and a shift of its codeword or of codeword and sign code. -/
theorem signedHit_some {p : Params} {w width size : Nat} {e : BookEntry} {m : MatchHit} (h : signedHit p w width size e = some m) :
    m.count = e.count ∧ (e.value = 0 ∧ m.value = 0 ∧ m.shift = size ∨
      e.value ≠ 0 ∧ (m.value = e.value ∨ m.value = -e.value) ∧ m.shift = size + 2 ∧ size + 2 ≤ width) := by
  unfold signedHit at h
  split at h
  · rename_i h0
    cases h
    exact ⟨rfl, .inl ⟨h0, rfl, rfl⟩⟩
  · rename_i h0
    split at h
    · cases h
    · rename_i hw
      split at h <;> cases h
      · exact ⟨rfl, .inr ⟨h0, .inr rfl, rfl, by omega⟩⟩
      · exact ⟨rfl, .inr ⟨h0, .inl rfl, rfl, by omega⟩⟩

/-- A match comes from an entry of the book; it consumes at least one bit and at most the window. -/
theorem matchPattern_some {p : Params} {word width len : Nat} {book : Book} {site : Site} {m : MatchHit}
    (h : matchPattern p word width book len site = some m) :
    ∃ j < len, ∃ at' e, e = book at' j ∧ m.count = e.count ∧ 1 ≤ e.size ∧ e.size ≤ 31 ∧ e.size ≤ m.shift ∧ m.shift ≤ width ∧
      (m.value = 0 ↔ e.value = 0) := by
  unfold matchPattern at h
  dsimp only at h
  split at h
  · cases h
  · rename_i size e hf
    obtain ⟨z, hz, hs⟩ := List.exists_of_findSome?_eq_some hf
    obtain ⟨e', he', heq⟩ := Option.map_eq_some_iff.1 hs
    cases heq
    obtain ⟨j, hj, rfl, hsz, -⟩ := matchSize_some he'
    obtain ⟨hc, hv⟩ := signedHit_some h
    rw [List.mem_range'_1] at hz
    refine ⟨j, hj, _, _, rfl, hc, ?_, ?_, ?_, ?_, ?_⟩
    · omega
    · omega
    · omega
    · omega
    · rcases hv with ⟨a, b, -⟩ | ⟨a, b, -⟩
      · simp [a, b]
      · rcases b with b | b <;> simp [a, b]

/-- No count overflows where twelve times each count fits 32 bits: every scan entry is built (R161). -/
theorem scanLoop_ne_overflow {p : Params} {book : Book} {len idx B : Nat} {site : Site}
    (hB : ∀ site j, j < len → (book site j).count ≤ B) (h12 : 12 * B < 2 ^ 32) :
    ∀ fuel rem cnt sh, rem ≤ 12 → cnt ≤ (12 - rem) * B → scanLoop p book len site idx fuel rem cnt sh ≠ .overflow := by
  intro fuel
  induction fuel with
  | zero => intro rem cnt sh _ _; unfold scanLoop; split <;> simp
  | succ n ih =>
    intro rem cnt sh hr hc
    unfold scanLoop
    by_cases h0 : rem = 0
    · rw [if_pos h0]; split <;> simp
    · rw [if_neg h0]
      cases hm : matchPattern p (idx % 2 ^ rem) rem book len (site ++ [rem]) with
      | none => dsimp only; split <;> simp
      | some m =>
        obtain ⟨j, hj, at', e, rfl, hcount, h1, -, h2, h3, -⟩ := matchPattern_some hm
        have hb := hB at' j hj
        have hmul : (12 - rem) * B + B ≤ (12 - (rem - m.shift)) * B := by
          have : 12 - rem + 1 ≤ 12 - (rem - m.shift) := by omega
          calc (12 - rem) * B + B = (12 - rem + 1) * B := by ring
            _ ≤ _ := Nat.mul_le_mul_right _ this
        have hle : (12 - (rem - m.shift)) * B ≤ 12 * B := Nat.mul_le_mul_right _ (by omega)
        dsimp only
        rw [if_neg (by omega)]
        split
        · simp
        · exact ih _ _ _ (by omega) (by omega)

/-- An index that the `value` field of a marker can hold is stored as it is. -/
theorem indexField_of_lt {j : Nat} (h : j < 2 ^ 31) : indexField j = BitVec.ofNat 32 j := if_pos h

/-- A marker is told by its count and its shift, whatever its value field holds. -/
@[simp] theorem FastEntry.continuation_kind (j : Nat) : (FastEntry.continuation j).kind = .marker := rfl

/-- A book whose counts, twelve times each, fit 32 bits has a scan entry for every index. -/
theorem scanEntry_isSome {p : Params} {book : Book} {len idx B : Nat} {site : Site}
    (hB : ∀ site j, j < len → (book site j).count ≤ B) (h12 : 12 * B < 2 ^ 32) : (scanEntry p book len site idx).isSome := by
  have h := scanLoop_ne_overflow (p := p) (site := site ++ [0, idx]) (idx := idx) hB h12 12 12 0 0 (by omega) (by omega)
  unfold scanEntry
  split
  · rfl
  · rfl
  · rename_i h'; exact absurd h' h

/-- `MATCH_PATTERN` fails and leaves the state, or reports what `Match` found. -/
theorem State.matchCommand_cases (s : State) (c : CsId) (width : Nat) :
    (∃ f, s.matchCommand c width = .failed f s ∧ (f.code = .badOperand ∨ f.code = .invalidCodebook)) ∨
      1 ≤ width ∧ width ≤ 32 ∧ s.validateRlv c [6, 0] = none ∧
        ((∃ m, matchPattern s.params s.arg0.toNat width (s.rlvAt c) (s.codeset c).rlvLen.toNat [6, 1] = some m ∧
            s.matchCommand c width = .done { s with
              result0 := BitVec.ofNat 32 m.count
              result1 := BitVec.ofInt 32 m.value
              result2 := BitVec.ofNat 32 m.shift
              result3 := 0 }) ∨
          matchPattern s.params s.arg0.toNat width (s.rlvAt c) (s.codeset c).rlvLen.toNat [6, 1] = none ∧
            s.matchCommand c width = .done { s with result0 := 0, result1 := 0, result2 := 0, result3 := 1 }) := by
  unfold State.matchCommand
  split
  · exact .inl ⟨_, rfl, .inl rfl⟩
  · rename_i hw
    cases hv : s.validateRlv c [6, 0] with
    | some f => exact .inl ⟨f, rfl, .inr (State.validateRlv_code hv)⟩
    | none =>
      refine .inr ⟨by omega, by omega, rfl, ?_⟩
      dsimp only
      cases hm : matchPattern s.params s.arg0.toNat width (s.rlvAt c) (s.codeset c).rlvLen.toNat [6, 1] with
      | some m => exact .inl ⟨m, rfl, rfl⟩
      | none => exact .inr ⟨rfl, rfl⟩

end Sys2Proof.Machine
end

