-- ==== Sys2Proof/Laws/Engine.lean ====
section
/-!
SUPPORT. What the parts of a command that are carried out before its completion can do, once each, and that they do not change the
rest of it.
-/

namespace Sys2Proof.Machine

/-! ### Runs -/

/-- A run is a `VLC_RUN` over a valid table or an `FSM_RUN` over a loaded one. -/
theorem State.running_cases {s : State} {i : Instr} {r : Run} (h : s.running i = some r) :
    (∃ cs n c, i = .vlcRun cs n ∧ CsId.ofField cs = some c ∧ (s.codeset c).valid.fastbook = true ∧
        r = ⟨vlcRunStep c, n.toNat⟩) ∨
      ∃ cs n c, i = .fsmRun cs n ∧ CsId.ofField cs = some c ∧ (s.codeset c).fsmFlags.initialized = true ∧
        r = ⟨fsmRunStep c, n.toNat⟩ := by
  unfold State.running at h
  split at h
  · obtain ⟨c, hc, h⟩ := Option.bind_eq_some_iff.1 h
    split at h
    · cases h; exact .inl ⟨_, _, c, rfl, hc, by assumption, rfl⟩
    · cases h
  · obtain ⟨c, hc, h⟩ := Option.bind_eq_some_iff.1 h
    split at h
    · cases h; exact .inr ⟨_, _, c, rfl, hc, by assumption, rfl⟩
    · cases h
  · cases h

/-- Which run a command is depends on the valid bits and the FSM flags only. -/
theorem State.running_congr {s t : State} (i : Instr)
    (h : ∀ c, (t.codeset c).valid = (s.codeset c).valid ∧ (t.codeset c).fsmFlags = (s.codeset c).fsmFlags) :
    t.running i = s.running i := by
  unfold State.running
  split <;> simp only [h]

/-- A step of `VLC_RUN` moves the position, and may set `BAND_END`. -/
theorem vlcRunStep_ok {c : CsId} {k : Nat} {s t : State} {o : Option (Word × Word)} (h : vlcRunStep c k s = .ok (o, t)) :
    ∃ p b, t = { s with bsPos := p, status := { s.status with bandEnd := s.status.bandEnd || b } } := by
  unfold vlcRunStep at h
  rcases s.vlcStep_cases c [7, k] with ⟨f, hf, -⟩ | ⟨u, hu, hf⟩ | ⟨r, n, -, -, -, hf⟩ <;> rw [hf] at h
  · cases h
  · rcases s.bandEndCheck_cases c ([7, k] ++ [0]) with hn | ⟨-, -, -, -, hs⟩
    · rw [hn] at hu; cases hu
    · rw [hs] at hu; cases hu
      simp only [if_pos, Except.ok.injEq, Prod.mk.injEq] at h
      exact ⟨_, true, by rw [← h.2, Bool.or_true]⟩
  · dsimp only at h
    split at h <;> cases h <;> exact ⟨s.bsPos + BitVec.ofNat 32 n, false, by simp⟩

/-- A step of `FSM_RUN` moves the position and the state, and may set `BAND_END`. -/
theorem fsmRunStep_ok {c : CsId} {k : Nat} {s t : State} {o : Option (Word × Word)} (h : fsmRunStep c k s = .ok (o, t)) :
    ∃ p b x, t = ({ s with bsPos := p, status := { s.status with bandEnd := s.status.bandEnd || b } }).setCodeset c
      { s.codeset c with fsmState := x } := by
  unfold fsmRunStep at h
  rcases s.fsmStep_cases c [7, k] with ⟨f, hf, -⟩ | ⟨u, hu, hf⟩ | ⟨e, -, -, -, -, hf⟩ <;> rw [hf] at h
  · cases h
  · rcases s.bandEndCheck_cases c ([7, k] ++ [0]) with hn | ⟨-, -, -, -, hs⟩
    · rw [hn] at hu; cases hu
    · rw [hs] at hu; cases hu; cases h
      exact ⟨s.bsPos + (s.codeset c).bandEndSize, true, (s.codeset c).fsmState,
        by cases c <;> simp [State.setCodeset, State.codeset]⟩
  · cases h
    exact ⟨s.bsPos + BitVec.ofNat 32 (e.preSkip.toNat + e.postSkip.toNat), false, e.nextState, by simp⟩

/-- What a step of a run leaves, whichever run it is. -/
theorem State.running_step {s t u : State} {i : Instr} {r : Run} {k : Nat} {o : Option (Word × Word)}
    (h : s.running i = some r) (hs : r.step k u = .ok (o, t)) :
    ∃ c p b x, t = ({ u with bsPos := p, status := { u.status with bandEnd := u.status.bandEnd || b } }).setCodeset c
      { u.codeset c with fsmState := x } := by
  rcases State.running_cases h with ⟨cs, n, c, rfl, -, -, rfl⟩ | ⟨cs, n, c, rfl, -, -, rfl⟩
  · obtain ⟨p, b, rfl⟩ := vlcRunStep_ok hs
    exact ⟨c, p, b, (u.codeset c).fsmState, by cases c <;> rfl⟩
  · obtain ⟨p, b, x, rfl⟩ := fsmRunStep_ok hs
    exact ⟨c, p, b, x, rfl⟩

/-! ### One part of a command -/

/-- The state before a step of a run: the results are cleared before the first one. -/
def State.atStep (s : State) : State :=
  match s.progress with
  | .start => { s with result0 := 0, result1 := 0, progress := .start }
  | _ => { s with progress := .start }

/-- How many steps of a run were made. -/
def Progress.made : Progress → Nat
  | .steps k => k
  | _ => 0

/-- Which commands do something before their completion that is no step of a run, and where they then stand. -/
theorem State.early_cases {s : State} {i : Instr} {b : Body} {p : Progress} (h : s.early i = some (b, p)) :
    ∃ cs c, CsId.ofField cs = some c ∧
      (i = .fillScanLut cs ∧ b = s.fillScanLut c ∧ p = .over ∨ i = .fillCodeLut cs ∧ b = s.fillCodeLut c ∧ p = .over ∨
        i = .initCodebooks cs ∧ (s.codeset c).valid.cbReplaced = false ∧ b = s.initLookup c ∧ p = .lookup ∨
        i = .vlcDecode cs ∧ b = s.vlcDecode c ∧ p = .over ∨ i = .fsmStep cs ∧ b = s.fsmStepCommand c ∧ p = .over) := by
  unfold State.early at h
  split at h
  · rename_i cs
    cases hc : CsId.ofField cs <;> rw [hc] at h <;>
      simp only [Option.map_none, Option.map_some, Option.some.injEq, Prod.mk.injEq, reduceCtorEq] at h
    exact ⟨cs, _, hc, .inl ⟨rfl, h.1.symm, h.2.symm⟩⟩
  · rename_i cs
    cases hc : CsId.ofField cs <;> rw [hc] at h <;>
      simp only [Option.map_none, Option.map_some, Option.some.injEq, Prod.mk.injEq, reduceCtorEq] at h
    exact ⟨cs, _, hc, .inr (.inl ⟨rfl, h.1.symm, h.2.symm⟩)⟩
  · rename_i cs
    obtain ⟨c, hc, h⟩ := Option.bind_eq_some_iff.1 h
    split at h
    · cases h
    · rename_i hv
      simp only [Option.some.injEq, Prod.mk.injEq] at h
      exact ⟨cs, c, hc, .inr (.inr (.inl ⟨rfl, by simpa using hv, h.1.symm, h.2.symm⟩))⟩
  · rename_i cs
    cases hc : CsId.ofField cs <;> rw [hc] at h <;>
      simp only [Option.map_none, Option.map_some, Option.some.injEq, Prod.mk.injEq, reduceCtorEq] at h
    exact ⟨cs, _, hc, .inr (.inr (.inr (.inl ⟨rfl, h.1.symm, h.2.symm⟩)))⟩
  · rename_i cs
    cases hc : CsId.ofField cs <;> rw [hc] at h <;>
      simp only [Option.map_none, Option.map_some, Option.some.injEq, Prod.mk.injEq, reduceCtorEq] at h
    exact ⟨cs, _, hc, .inr (.inr (.inr (.inr ⟨rfl, h.1.symm, h.2.symm⟩)))⟩
  · cases h

/-- A part of a command is nothing; the clearing of the results; the last step of a run, which finds the band-end code; a step with
the first word of its record; the second word; or the first bodies of another command. -/
theorem State.stage_cases (s : State) (i : Instr) :
    s.stage i = s ∨
      (s.progress = .start ∧ s.stage i = { s with result0 := 0, result1 := 0, progress := .steps 0 }) ∨
      (∃ r t, s.running i = some r ∧ (s.progress = .start ∨ s.progress = .steps s.progress.made) ∧
        s.progress.made < r.count ∧ r.step s.progress.made s.atStep = .ok (none, t) ∧
        s.stage i = { t with result1 := 1, progress := .over }) ∨
      (∃ r t w0 w1, s.running i = some r ∧ (s.progress = .start ∨ s.progress = .steps s.progress.made) ∧
        s.progress.made < r.count ∧ r.step s.progress.made s.atStep = .ok (some (w0, w1), t) ∧
        s.stage i = { t.outWrite t.outPtr w0 with progress := .record s.progress.made w1 }) ∨
      (∃ k w1, s.progress = .record k w1 ∧ s.stage i = s.stageRecord k w1) ∨
      ∃ t p, s.progress = .start ∧ s.running i = none ∧ s.early i = some (.done t, p) ∧
        s.stage i = { t with progress := p } := by
  unfold State.stage
  split
  · rename_i hp
    split
    · rename_i r hr
      unfold State.stageStep
      split
      · exact .inr (.inl ⟨hp, rfl⟩)
      · rename_i hc
        have he : ({ s with result0 := 0, result1 := 0, progress := .steps 0 } : State).progress = .steps 0 := rfl
        have ha : s.atStep = { s with result0 := 0, result1 := 0, progress := .start } := by simp [State.atStep, hp]
        have hm : s.progress.made = 0 := by simp [Progress.made, hp]
        rw [ha, hm]
        split
        · exact .inr (.inl ⟨hp, rfl⟩)
        · rename_i t ht
          exact .inr (.inr (.inl ⟨r, t, hr, .inl hp, by omega, ht, rfl⟩))
        · rename_i w0 w1 t ht
          exact .inr (.inr (.inr (.inl ⟨r, t, w0, w1, hr, .inl hp, by omega, ht, rfl⟩)))
    · rename_i hr
      split
      · rename_i t p he
        exact .inr (.inr (.inr (.inr (.inr ⟨t, p, hp, hr, he, rfl⟩))))
      · exact .inl rfl
  · rename_i k hp
    split
    · rename_i r hr
      have ha : s.atStep = { s with progress := .start } := by simp [State.atStep, hp]
      have hm : s.progress.made = k := by simp [Progress.made, hp]
      rw [ha, hm]
      unfold State.stageStep
      split
      · exact .inl rfl
      · rename_i hc
        split
        · exact .inl rfl
        · rename_i t ht
          exact .inr (.inr (.inl ⟨r, t, hr, .inr hp, by omega, ht, rfl⟩))
        · rename_i w0 w1 t ht
          exact .inr (.inr (.inr (.inl ⟨r, t, w0, w1, hr, .inr hp, by omega, ht, rfl⟩)))
    · exact .inl rfl
  · rename_i k w1 hp
    exact .inr (.inr (.inr (.inr (.inl ⟨k, w1, hp, rfl⟩))))
  · exact .inl rfl
  · exact .inl rfl

end Sys2Proof.Machine
end

