-- ==== Sys2Proof/Laws/FsmTables.lean ====
section
/-!
SUPPORT. What the bodies of the FSM table commands can do, once each: how each ends, and with which state.
-/

namespace Sys2Proof.Machine

/-- The limits of a table that fits (R202). -/
theorem badStateCount_eq_false_iff (p : Params) (ns : Nat) :
    badStateCount p ns = false ↔ 1 ≤ ns ∧ ns ≤ 65536 ∧ ns * 2 ^ p.indexSize ≤ p.fsmRamEntries := by
  simp [badStateCount]
  omega

/-- `LOAD_FSM` does nothing for a loaded table, fails for a bad state count, or loads. -/
theorem State.loadFsm_cases (s : State) (c : CsId) :
    let k := s.codeset c
    let ns := s.srcRead [4, 0] k.fsmBase
    (k.fsmFlags.initialized = true ∨ k.fsmNumStates ≠ 0) ∧ s.loadFsm c = .done { s with result0 := 0 } ∨
      (k.fsmFlags.initialized = false ∧ k.fsmNumStates = 0) ∧
        (badStateCount s.params ns.toNat = true ∧ s.loadFsm c = .failed ⟨.initFsm, ns.toNat⟩ s ∨
          badStateCount s.params ns.toNat = false ∧
            s.loadFsm c = .done { s.setCodeset c { k with
                  fsm := k.fsm.store
                    ((List.range' 0 (ns.toNat * 2 ^ s.params.indexSize)).map fun e => s.fsmArrayAt c [4, 1, e] e)
                  fsmNumStates := ns
                  fsmFlags := ⟨k.csFlags, false, true⟩
                  fsmState := 0 } with
                result0 := ns }) := by
  intro k ns
  unfold State.loadFsm
  dsimp only
  split
  · rename_i h
    exact .inl ⟨by simpa using h, rfl⟩
  · rename_i h
    refine .inr ⟨by simpa using h, ?_⟩
    split
    · rename_i hb
      exact .inl ⟨hb, rfl⟩
    · rename_i hb
      exact .inr ⟨by simpa using hb, rfl⟩

/-- Scaling keeps every field but `value0`. -/
theorem FsmEntry.scaled_eq (p : Policy) (e : FsmEntry) :
    e.scaled p = { e with value0 := BitVec.ofInt 16 (p.scale e.value0.toInt) } := by
  unfold FsmEntry.scaled FsmEntry.changes
  split
  · rfl
  · rename_i h
    have h' : p.scale e.value0.toInt = e.value0.toInt := by simpa using h
    rw [h', BitVec.ofInt_toInt]

theorem State.length_fsmList (s : State) (c : CsId) :
    (s.fsmList c).length = (s.codeset c).fsmNumStates.toNat * 2 ^ s.params.indexSize := by simp [State.fsmList]

/-- `SCALE_FSM` fails and leaves the state, does nothing, or scales the loaded table and latches `COMPANDING_DONE`. -/
theorem State.scaleFsm_cases (s : State) (c : CsId) :
    let k := s.codeset c
    (∃ f, s.scaleFsm c = .failed f s ∧ f.code ≠ .none) ∨
      k.fsmFlags.initialized = true ∧
        (s.scaleFsm c = .done { s with result0 := 0 } ∨
          k.fsmFlags.compandingDone = false ∧ ∃ p, k.fsmFlags.policy.policy k.fsmFlags.toWord = .ok p ∧ p ≠ .notNeeded ∧
            s.scaleFsm c = .done { s.setCodeset c { k with
                  fsm := k.fsm.store ((s.fsmList c).map (FsmEntry.scaled p))
                  fsmFlags := { k.fsmFlags with compandingDone := true } } with
                result0 := BitVec.ofNat 32 ((s.fsmList c).countP (FsmEntry.changes p)) }) := by
  intro k
  unfold State.scaleFsm
  dsimp only
  by_cases hi : k.fsmFlags.initialized = true
  · rw [if_neg (by simp [k] at hi; simp [hi])]
    split
    · exact .inr ⟨hi, .inl rfl⟩
    · rename_i hd
      split
      · rename_i f hf
        refine .inl ⟨f, rfl, ?_⟩
        intro hc
        revert hf
        unfold CompandFlags.policy
        split
        · rintro ⟨⟩; cases hc
        · split
          · rintro ⟨⟩
          · split
            · rintro ⟨⟩
            · split
              · rintro ⟨⟩; cases hc
              · rintro ⟨⟩
      · exact .inr ⟨hi, .inl rfl⟩
      · rename_i p hne hp
        exact .inr ⟨hi, .inr ⟨by simpa [k] using hd, p, hp, hne, rfl⟩⟩
  · rw [if_pos (by simp [k] at hi; simp [hi])]
    exact .inl ⟨_, rfl, by simp⟩

/-- `EXTRACT_BAND_END` fails with `BAND_END_V` cleared, or caches the code of the last tag entry. -/
theorem State.extractBandEnd_cases (s : State) (c : CsId) :
    let s0 := s.setValid c { (s.codeset c).valid with bandEnd := false }
    let n := s0.srcRead [5, 0] (s.codeset c).tagBase
    let code := s0.srcRead [5, 1] ((s.codeset c).tagBase + (n - 1) * 2 + 1)
    let size := s0.srcRead [5, 2] ((s.codeset c).tagBase + (n - 1) * 2 + 2)
    (∃ f, s.extractBandEnd c = .failed f s0 ∧ f.code = .invalidCodebook) ∨
      n ≠ 0 ∧ 1 ≤ size.toNat ∧ size.toNat ≤ 32 ∧ code.toNat < 2 ^ size.toNat ∧
        s.extractBandEnd c = .done { s0.setCodeset c { s0.codeset c with
              bandEndCode := code, bandEndSize := size, valid := { (s0.codeset c).valid with bandEnd := true } } with
            result0 := code
            result1 := size } := by
  intro s0 n code size
  have ht : (s0.codeset c).tagBase = (s.codeset c).tagBase := by simp [s0, State.setValid_eq]
  have hb : s.extractBandEnd c =
      if s0.srcRead [5, 0] (s0.codeset c).tagBase = 0 then .failed ⟨.invalidCodebook, 0⟩ s0
      else if size.toNat < 1 || size.toNat > 32 || code.toNat ≥ 2 ^ size.toNat then .failed ⟨.invalidCodebook, n.toNat⟩ s0
      else .done { s0.setCodeset c { s0.codeset c with
              bandEndCode := code, bandEndSize := size, valid := { (s0.codeset c).valid with bandEnd := true } } with
            result0 := code
            result1 := size } := by
    simp only [State.extractBandEnd, size, code, n, ← ht, s0]
  rw [hb, ht]
  split
  · exact .inl ⟨_, rfl, rfl⟩
  · rename_i hn
    split
    · exact .inl ⟨_, rfl, rfl⟩
    · rename_i hs
      simp only [Bool.or_eq_true, decide_eq_true_eq, not_or] at hs
      exact .inr ⟨hn, by omega, by omega, by omega, rfl⟩

end Sys2Proof.Machine
end

