-- ==== Sys2Proof/Laws/Memory.lean ====
section
/-!
SUPPORT. The laws of memories: every write keeps the canonical form, a read after a write to the same place gives the value
written, and a write leaves every other place alone.
-/

namespace Sys2Proof.Machine

/-! ### Bytes -/

theorem Memory.read_of_lt {m : Memory} {a : Nat} (h : ∀ c ∈ m, a < c.1) : Memory.read m a = Memory.unlisted := by
  induction m with
  | nil => rfl
  | cons c rest ih =>
    rw [Memory.read, if_neg (Nat.ne_of_gt (h c (by simp)))]
    exact ih fun d hd => h d (by simp [hd])

/-- Where a written memory's cells come from. -/
theorem Memory.mem_write {m : Memory} {a : Nat} {v : Byte} {c : Host.Cell} (h : c ∈ m.write a v) :
    c ∈ m ∨ c = (a, v) ∧ v ≠ Memory.unlisted := by
  induction m with
  | nil => simp only [Memory.write] at h; split at h <;> simp_all
  | cons d rest ih =>
    simp only [Memory.write] at h
    split at h
    · rcases List.mem_cons.1 h with rfl | h
      · simp
      · rcases ih h with h | h
        · simp [h]
        · exact .inr h
    · split at h
      · split at h
        · simp [h]
        · rcases List.mem_cons.1 h with rfl | h <;> simp_all
      · split at h
        · exact .inl h
        · rcases List.mem_cons.1 h with rfl | h <;> simp_all

theorem Memory.wf_nil (limit : Nat) : Memory.wf limit [] := ⟨List.Pairwise.nil, by simp⟩

/-- A write keeps the addresses in order. -/
theorem Memory.pairwise_write {m : Memory} (h : m.Pairwise fun c d => c.1 < d.1) (a : Nat) (v : Byte) :
    (m.write a v).Pairwise fun c d => c.1 < d.1 := by
  induction m with
  | nil => simp only [Memory.write]; split <;> simp
  | cons d rest ih =>
    rw [List.pairwise_cons] at h
    simp only [Memory.write]
    split
    · refine List.pairwise_cons.2 ⟨fun c hc => ?_, ih h.2⟩
      rcases Memory.mem_write hc with hc | ⟨rfl, -⟩
      · exact h.1 c hc
      · assumption
    · split
      · split
        · exact h.2
        · rename_i hd _
          exact List.pairwise_cons.2 ⟨fun c hc => hd ▸ h.1 c hc, h.2⟩
      · split
        · exact List.pairwise_cons.2 h
        · refine List.pairwise_cons.2 ⟨fun c hc => ?_, List.pairwise_cons.2 h⟩
          have hlt : a < d.1 := by omega
          rcases List.mem_cons.1 hc with rfl | hc
          · exact hlt
          · exact hlt.trans (h.1 c hc)

/-- A write of a byte within the space keeps the canonical form. -/
theorem Memory.wf_write {limit : Nat} {m : Memory} {a : Nat} {v : Byte} (h : m.wf limit) (ha : a < limit) :
    (m.write a v).wf limit := by
  refine ⟨Memory.pairwise_write h.1 a v, fun c hc => ?_⟩
  rcases Memory.mem_write hc with hc | ⟨rfl, hv⟩
  · exact h.2 c hc
  · exact ⟨ha, hv⟩

/-- A read after a write to the same address gives the byte written, in a memory in order. -/
theorem Memory.read_write_same {m : Memory} (h : m.Pairwise fun c d => c.1 < d.1) (a : Nat) (v : Byte) :
    (m.write a v).read a = v := by
  induction m with
  | nil => simp only [Memory.write]; split <;> simp_all [Memory.read]
  | cons d rest ih =>
    rw [List.pairwise_cons] at h
    simp only [Memory.write]
    split
    · rw [Memory.read, if_neg (by omega)]; exact ih h.2
    · split
      · split
        · rename_i hd hv
          rw [Memory.read_of_lt fun c hc => hd ▸ h.1 c hc, hv]
        · simp [Memory.read]
      · split
        · rename_i hv
          rw [Memory.read_of_lt, hv]
          intro c hc
          rcases List.mem_cons.1 hc with rfl | hc
          · omega
          · have := h.1 c hc; omega
        · simp [Memory.read]

/-- A write leaves every other address alone. -/
theorem Memory.read_write_of_ne (m : Memory) {a b : Nat} (v : Byte) (h : b ≠ a) : (m.write a v).read b = m.read b := by
  induction m with
  | nil => simp only [Memory.write]; split <;> simp [Memory.read, h.symm]
  | cons d rest ih =>
    simp only [Memory.write]
    split
    · simp only [Memory.read, ih]
    · split
      · rename_i hd
        have : d.1 ≠ b := by omega
        split <;> simp [Memory.read, this, h.symm]
      · split <;> simp [Memory.read, h.symm]

/-! ### Words -/

/-- A write of a word within the space keeps the canonical form. -/
theorem Memory.wf_writeWord {m : Memory} (h : m.wf Memory.wordSpace) (a : Nat) (v : Word) (ha : a < 2 ^ 32) :
    (m.writeWord a v).wf Memory.wordSpace := by
  have hs : Memory.wordSpace = 17179869184 := rfl
  unfold Memory.writeWord
  exact Memory.wf_write (Memory.wf_write (Memory.wf_write (Memory.wf_write h (by omega)) (by omega)) (by omega)) (by omega)

/-- A write of a word leaves every byte outside its four alone. -/
theorem Memory.read_writeWord_of_ne (m : Memory) {a b : Nat} (v : Word) (h : b / 4 ≠ a) :
    (m.writeWord a v).read b = m.read b := by
  unfold Memory.writeWord
  rw [Memory.read_write_of_ne _ _ (by omega), Memory.read_write_of_ne _ _ (by omega),
    Memory.read_write_of_ne _ _ (by omega), Memory.read_write_of_ne _ _ (by omega)]

/-- A write of a word leaves every other word alone. -/
theorem Memory.readWord_writeWord_of_ne (m : Memory) {a b : Nat} (v : Word) (h : b ≠ a) :
    (m.writeWord a v).readWord b = m.readWord b := by
  unfold Memory.readWord
  rw [Memory.read_writeWord_of_ne _ _ (by omega), Memory.read_writeWord_of_ne _ _ (by omega),
    Memory.read_writeWord_of_ne _ _ (by omega), Memory.read_writeWord_of_ne _ _ (by omega)]

/-- A read after a write of the same word gives the word written, in a memory in order. -/
theorem Memory.readWord_writeWord_same {m : Memory} (h : m.Pairwise fun c d => c.1 < d.1) (a : Nat) (v : Word) :
    (m.writeWord a v).readWord a = v := by
  have h0 := Memory.pairwise_write h (4 * a) (v.extractLsb' 0 8)
  have h1 := Memory.pairwise_write h0 (4 * a + 1) (v.extractLsb' 8 8)
  have h2 := Memory.pairwise_write h1 (4 * a + 2) (v.extractLsb' 16 8)
  unfold Memory.readWord Memory.writeWord
  rw [Memory.read_write_same h2, Memory.read_write_of_ne _ _ (by omega), Memory.read_write_same h1,
    Memory.read_write_of_ne _ _ (by omega), Memory.read_write_of_ne _ _ (by omega), Memory.read_write_same h0,
    Memory.read_write_of_ne _ _ (by omega), Memory.read_write_of_ne _ _ (by omega), Memory.read_write_of_ne _ _ (by omega),
    Memory.read_write_same h]
  refine BitVec.eq_of_getLsbD_eq fun i hi => ?_
  simp only [BitVec.getLsbD_append, BitVec.getLsbD_extractLsb']
  split
  · simp_all
  · split
    · simp_all [show 8 + (i - 8) = i by omega, show i - 8 < 8 by omega]
    · split
      · simp_all [show 16 + (i - 16) = i by omega, show i - 8 - 8 = i - 16 by omega]
      · simp_all [show 24 + (i - 24) = i by omega, show i - 8 - 8 - 8 = i - 24 by omega]
        omega

end Sys2Proof.Machine
end

