-- ==== Sys2Proof/Laws/PerInstr.lean ====
section
/-!
SUPPORT. Statements made of each command as syntax: which bits its command word has.
-/

/-- The command word carries the codeset of the command in its codeset field, 0 where the command has none (spec/30_encoding.md
R111, R112). -/
def Sys2Proof.Laws.CodesetField.Statement (i : Sys2Proof.Instr) : Prop :=
  Sys2Proof.csField (Sys2Proof.encode i) = i.codesetField.getD 0

namespace Sys2Proof

theorem opField_commandWord (op : BitVec 6) (cs : BitVec 2) (imm : BitVec 24) : opField (commandWord op cs imm) = op := by
  refine BitVec.eq_of_getLsbD_eq fun i hi => ?_
  simp only [opField, commandWord, BitVec.getLsbD_extractLsb', BitVec.getLsbD_append, decide_eq_true hi, Bool.true_and]
  rw [if_neg (by omega), if_neg (by omega)]
  congr 1
  omega

theorem csField_commandWord (op : BitVec 6) (cs : BitVec 2) (imm : BitVec 24) : csField (commandWord op cs imm) = cs := by
  refine BitVec.eq_of_getLsbD_eq fun i hi => ?_
  simp only [csField, commandWord, BitVec.getLsbD_extractLsb', BitVec.getLsbD_append, decide_eq_true hi, Bool.true_and]
  rw [if_neg (by omega), if_pos (by omega)]
  congr 1
  omega

theorem immField_commandWord (op : BitVec 6) (cs : BitVec 2) (imm : BitVec 24) : immField (commandWord op cs imm) = imm := by
  refine BitVec.eq_of_getLsbD_eq fun i hi => ?_
  simp only [immField, commandWord, BitVec.getLsbD_extractLsb', BitVec.getLsbD_append, decide_eq_true hi, Bool.true_and]
  rw [if_pos (by omega)]
  congr 1
  omega

end Sys2Proof

namespace Sys2Proof.Laws.CodesetField

theorem nop : Statement (.nop) := csField_commandWord _ _ _
theorem initCodebooks (cs : BitVec 2) : Statement (.initCodebooks cs) := csField_commandWord _ _ _
theorem sortRunlength (cs : BitVec 2) : Statement (.sortRunlength cs) := csField_commandWord _ _ _
theorem buildRunlength (cs : BitVec 2) : Statement (.buildRunlength cs) := csField_commandWord _ _ _
theorem fillScanLut (cs : BitVec 2) : Statement (.fillScanLut cs) := csField_commandWord _ _ _
theorem fillCodeLut (cs : BitVec 2) : Statement (.fillCodeLut cs) := csField_commandWord _ _ _
theorem buildCubic : Statement (.buildCubic) := csField_commandWord _ _ _
theorem fillVlcTable (cs : BitVec 2) : Statement (.fillVlcTable cs) := csField_commandWord _ _ _
theorem loadFsm (cs : BitVec 2) : Statement (.loadFsm cs) := csField_commandWord _ _ _
theorem scaleFsm (cs : BitVec 2) : Statement (.scaleFsm cs) := csField_commandWord _ _ _
theorem extractBandEnd (cs : BitVec 2) : Statement (.extractBandEnd cs) := csField_commandWord _ _ _
theorem initDecoderFsm (cs : BitVec 2) : Statement (.initDecoderFsm cs) := csField_commandWord _ _ _
theorem freeCodebooks (cs : BitVec 2) : Statement (.freeCodebooks cs) := csField_commandWord _ _ _
theorem matchPattern (cs : BitVec 2) (imm : BitVec 24) : Statement (.matchPattern cs imm) := csField_commandWord _ _ _
theorem bsPeek (imm : BitVec 24) : Statement (.bsPeek imm) := csField_commandWord _ _ _
theorem bsGet (imm : BitVec 24) : Statement (.bsGet imm) := csField_commandWord _ _ _
theorem bsSkip (imm : BitVec 24) : Statement (.bsSkip imm) := csField_commandWord _ _ _
theorem vlcDecode (cs : BitVec 2) : Statement (.vlcDecode cs) := csField_commandWord _ _ _
theorem vlcRun (cs : BitVec 2) (imm : BitVec 24) : Statement (.vlcRun cs imm) := csField_commandWord _ _ _
theorem fsmSetState (cs : BitVec 2) (imm : BitVec 24) : Statement (.fsmSetState cs imm) := csField_commandWord _ _ _
theorem fsmStep (cs : BitVec 2) : Statement (.fsmStep cs) := csField_commandWord _ _ _
theorem fsmRun (cs : BitVec 2) (imm : BitVec 24) : Statement (.fsmRun cs imm) := csField_commandWord _ _ _

end Sys2Proof.Laws.CodesetField
end

