-- ==== Sys2Proof/Tests/Slice0.lean ====
section
/-!
SUPPORT. Tests: the check of well-formedness, a hand-written word for every command, one or two steps of each command on the vectors of
spec/95_test_vectors.md (the source of each expected value is named beside it), and for every obligation with hypotheses a concrete
state and operands that meet them.
-/

namespace Sys2Proof.Tests

set_option Elab.async false

open Sys2Proof.Machine

/-! ### Well-formedness: codeset 3 is refused in every command that has a codeset (R302) -/

theorem test_wellFormed_refuses_codeset_three :
    [Instr.initCodebooks 3, .sortRunlength 3, .buildRunlength 3, .fillScanLut 3, .fillCodeLut 3, .fillVlcTable 3, .loadFsm 3,
      .scaleFsm 3, .extractBandEnd 3, .initDecoderFsm 3, .freeCodebooks 3, .matchPattern 3 4, .vlcDecode 3, .vlcRun 3 1,
      .fsmSetState 3 0, .fsmStep 3, .fsmRun 3 1].all (fun i => !i.wellFormed) = true := by decide

theorem test_wellFormed_admits_codesets_and_plain_commands :
    [Instr.initCodebooks 0, .vlcRun 2 0xFFFFFF, .fsmStep 1, .nop, .buildCubic, .bsPeek 0xFFFFFF].all Instr.wellFormed = true := by
  decide

/-! ### Command words, written bit by bit as op(6), cs(2), imm(24) from R111 and R114 -/

theorem test_decode_nop : decode 0b000000_00_000000000000000000000000 = .ok .nop := by decide
theorem test_decode_initCodebooks : decode 0b000001_01_000000000000000000000000 = .ok (.initCodebooks 1) := by decide
theorem test_decode_sortRunlength : decode 0b000010_10_000000000000000000000000 = .ok (.sortRunlength 2) := by decide
theorem test_decode_buildRunlength : decode 0b000011_00_000000000000000000000000 = .ok (.buildRunlength 0) := by decide
theorem test_decode_fillScanLut : decode 0b000100_01_000000000000000000000000 = .ok (.fillScanLut 1) := by decide
theorem test_decode_fillCodeLut : decode 0b000101_10_000000000000000000000000 = .ok (.fillCodeLut 2) := by decide
theorem test_decode_buildCubic : decode 0b000110_00_000000000000000000000000 = .ok .buildCubic := by decide
theorem test_decode_fillVlcTable : decode 0b000111_01_000000000000000000000000 = .ok (.fillVlcTable 1) := by decide
theorem test_decode_loadFsm : decode 0b001000_10_000000000000000000000000 = .ok (.loadFsm 2) := by decide
theorem test_decode_scaleFsm : decode 0b001001_00_000000000000000000000000 = .ok (.scaleFsm 0) := by decide
theorem test_decode_extractBandEnd : decode 0b001010_01_000000000000000000000000 = .ok (.extractBandEnd 1) := by decide
theorem test_decode_initDecoderFsm : decode 0b001011_10_000000000000000000000000 = .ok (.initDecoderFsm 2) := by decide
theorem test_decode_freeCodebooks : decode 0b001100_00_000000000000000000000000 = .ok (.freeCodebooks 0) := by decide
theorem test_decode_matchPattern : decode 0b001101_01_000000000000000000001100 = .ok (.matchPattern 1 12) := by decide
theorem test_decode_bsPeek : decode 0b010000_00_000000000000000000100000 = .ok (.bsPeek 32) := by decide
theorem test_decode_bsGet : decode 0b010001_00_000000000000000000000111 = .ok (.bsGet 7) := by decide
theorem test_decode_bsSkip : decode 0b010010_00_111111111111111111111111 = .ok (.bsSkip 0xFFFFFF) := by decide
theorem test_decode_vlcDecode : decode 0b011000_10_000000000000000000000000 = .ok (.vlcDecode 2) := by decide
theorem test_decode_vlcRun : decode 0b011001_01_100000000000000000000001 = .ok (.vlcRun 1 0x800001) := by decide
theorem test_decode_fsmSetState : decode 0b011010_00_000000001000000000000000 = .ok (.fsmSetState 0 0x8000) := by decide
theorem test_decode_fsmStep : decode 0b011011_01_000000000000000000000000 = .ok (.fsmStep 1) := by decide
theorem test_decode_fsmRun : decode 0b011100_10_000000000000000000000011 = .ok (.fsmRun 2 3) := by decide

/-! ### The reference instance and start state S0 of spec/95_test_vectors.md section 1 -/

/-- Words from word address `a` on. -/
def words (a : Nat) (l : List Word) (m : Memory) : Memory := (l.zipIdx).foldl (fun m w => m.writeWord (a + w.2) w.1) m

/-- Bytes from address `a` on. -/
def bytes (a : Nat) (l : List Byte) (m : Memory) : Memory := (l.zipIdx).foldl (fun m b => m.write (a + b.2) b.1) m

/-- The books of section 1.2, each at its place. -/
def bookRlv : Memory :=
  words 0x100 [0x0, 1, 1, 0, 0x2, 2, 1, 1, 0x6, 3, 1, 2, 0xE, 4, 4, 0, 0x1E, 5, 1, 3, 0x3E, 6, 16, 0, 0x7E, 7, 1, 4, 0xFE, 8, 1, 5,
    0x1FE, 9, 1, 6, 0x3FE, 10, 1, 7, 0x7FE, 11, 1, 8, 0xFFE, 12, 1, 9, 0x1FFE, 13, 1000, 0, 0x1FFF, 13, 1, 10] []
def bookRle : Memory :=
  words 0x200 [0x0, 1, 1, 0x2, 2, 2, 0x6, 3, 4, 0xE, 4, 8, 0x1E, 5, 16, 0x1F00, 13, 100, 0x7E, 7, 32, 0x7F, 7, 64] []
def bookMag : Memory := words 0x300 [0, 1, 2, 2, 6, 3, 0xE, 4, 0x1E, 5, 0x3E, 6, 0x7E, 7, 0x7F, 7] []
def tagTable : Memory := words 0x400 [2, 5, 3, 0x3FF, 10] []
def fsmArray (m : Memory) : Memory :=
  words 0x500 [2, 0x02000000, 0, 0x01010001, 0xFFFD0064, 0x02000001, 0xFFFB0005, 0x00020000, 0x0007FFF9, 0x01010000, 0x00020001,
    0x02000000, 0xFFFEFFFF, 0x00020001, 0x0000012C, 0x00000002, 0] m

/-- The descriptors of section 1.3. -/
def described (k : Codeset) : Codeset :=
  { k with
    magBase := 0x300
    magLen := 8
    rlcBase := 0x200
    rlcLen := 8
    rlvBase := 0x100
    rlvLen := 14
    tagBase := 0x400
    fsmBase := 0x500 }

/-- S0 of section 1.3, in the reference instance of section 1.1, with the books in question in SRCMEM. -/
def start (m : Memory) : State :=
  { State.reset with params := Config.referenceParams, srcmem := m, cs0 := described Codeset.reset }

/-- The state after the command word `w` was issued and carried out. -/
def after (w : Nat) (s : State) : State :=
  match step (s.withFetchWord 32 w) with
  | .next t => t
  | .fault _ => s
  | .refused _ => s

/-- The state with a bitstream of `n` bits and an output pointer. -/
def streaming (l : List Byte) (n : Word) (s : State) : State :=
  { s with bsmem := bytes 0x1000 l [], bsBase := 0x1000, bsLen := n, outPtr := 0x2000 }

/-- What a command reports: `STATUS`, `ERRINFO` and the four results. -/
def report (s : State) : Word × Word × List Word := (s.statusWord, s.errInfo, [s.result0, s.result1, s.result2, s.result3])

/-! ### Errors of command words (section 3.1) -/

theorem test_reserved_opcode : report (after 0x38000000 (start [])) = (0x506, 0x38000000, [0, 0, 0, 0]) := by decide +kernel
theorem test_codeset_three : report (after 0x37000004 (start [])) = (0x606, 0x37000004, [0, 0, 0, 0]) := by decide +kernel

/-! ### One or two steps of each command -/

/-- Section 3.14: `NOP` completes. -/
theorem test_nop : report (after 0x00000000 (start [])) = (2, 0, [0, 0, 0, 0]) := by decide +kernel

/-- Section 3.2: B-RLE sorted. -/
theorem test_sortRunlength :
    report (after 0x08000000 (start bookRle)) = (2, 0, [8, 0, 0, 0]) ∧
      (after 0x08000000 (start bookRle)).work.cells.map (fun e => (e.bits.toNat, e.size.toNat, e.count.toNat)) =
        [(0x1F00, 13, 100), (0x7F, 7, 64), (0x7E, 7, 32), (0x1E, 5, 16), (0xE, 4, 8), (6, 3, 4), (2, 2, 2), (0, 1, 1)] := by
  decide +kernel

/-- W-1 of section 2. -/
theorem test_buildRunlength :
    let t := after 0x0C000000 { start [] with
      srcmem := words 0x900 [1, 1, 1, 1, 2, 2] []
      cs0 := { (start []).cs0 with rlcBase := 0x900, rlcLen := 2, zeroSize := 1 } }
    t.result0 = 2 ∧ t.workLen = 2 ∧ t.newcodeAt .c0 0 = ⟨0, 0, 0⟩ ∧ t.newcodeAt .c0 3 = ⟨0b011, 3, 3⟩ ∧
      t.newcodeAt .c0 33 = ⟨0x2AAAAAAB, 31, 31⟩ := by decide +kernel

/-- Section 3.2, the composition of 164 and of 3071 from B-RLE. -/
theorem test_buildRunlength_long :
    let t := after 0x0C000000 (start bookRle)
    t.newcodeAt .c0 164 = ⟨0xF807F, 20, 164⟩ ∧ t.newcodeAt .c0 3071 = ⟨0x7C03E01E, 31, 216⟩ := by decide +kernel

/-- Section 3.3: `1011` is the value 1 with the negative sign code. -/
theorem test_matchPattern :
    report (after 0x34000004 { start bookRlv with arg0 := 0b1011 }) = (2, 0, [1, 0xFFFFFFFF, 4, 0]) ∧
      report (after 0x34000003 { start bookRlv with arg0 := 5 }) = (2, 0, [0, 0, 0, 1]) := by decide +kernel

/-- Section 3.4: an entry that ends in a value, one of zero runs and a marker. -/
theorem test_scanEntry :
    let entry := scanEntry (start bookRlv).params ((start bookRlv).rlvAt .c0) 14 []
    entry 0x5A0 = some ⟨2, BitVec.ofInt 32 (-1), 5⟩ ∧ entry 0x3FF = some ⟨2, 0, 2⟩ ∧ entry 0xFFD = some ⟨0, 10, 12⟩ := by
  decide +kernel

/-- Section 3.4: a count whose twelvefold does not fit 32 bits ends the fill at the first index; the table is not valid. -/
theorem test_fillScanLut :
    let t := after 0x10000000 { start (words 0x100 [0, 1, 0x40000000, 0] []) with
      cs0 := { (start []).cs0 with rlvLen := 1, valid := { TableValid.reset with fastbook := true } } }
    report t = (0x106, 0, [0, 0, 0, 0]) ∧ t.cs0.valid.fastbook = false := by decide +kernel

/-- Section 3.5: the legacy table of B-RLE, with the run of isolated zeros and a marker. -/
theorem test_fillCodeLut :
    let t := after 0x14000000 (start bookRle)
    t.fastbookAt .c0 0x100 = ⟨3, 0, 3⟩ ∧ t.fastbookAt .c0 0xFC1 = ⟨32, 0, 7⟩ ∧ t.fastbookAt .c0 0xF80 = ⟨0, 5, 12⟩ := by
  decide +kernel

/-- Section 3.6. -/
theorem test_buildCubic :
    let t := after 0x18000000 (start [])
    t.cubicAt 145 = 100 := by decide +kernel

/-- Section 3.7: `S = 4`, no companding; magnitude 7 is -7 and 7, and -8 is clamped to it. -/
theorem test_fillVlcTable :
    let t := after 0x1C000000 { start bookMag with
      params := { (start bookMag).params with valueSize := 4 }
      cs0 := { (start bookMag).cs0 with csFlags := ⟨true, false, false⟩ } }
    t.result0 = 16 ∧ t.valuebookAt .c0 0 = ⟨0, 1⟩ ∧ t.valuebookAt .c0 1 = ⟨0b1010, 4⟩ ∧ t.valuebookAt .c0 8 = ⟨0b111111111, 9⟩ := by
  decide +kernel

/-- Section 3.8: an invalid run-length book (here one of zeros) ends the composite command with its entry. -/
theorem test_initCodebooks :
    report (after 0x04000000 { start [] with cs0 := { (start []).cs0 with rlcLen := 1 } }) = (0x106, 0, [0, 0, 0, 0]) := by decide +kernel

/-- Section 3.9: B-FSM loaded. -/
theorem test_loadFsm :
    let t := after 0x20000000 (start (fsmArray []))
    report t = (2, 0, [2, 0, 0, 0]) ∧ t.fsmAt .c0 1 = ⟨1, 1, 1, 100, BitVec.ofInt 16 (-3)⟩ ∧ t.fsmAt .c0 7 = ⟨2, 0, 0, 0, 0⟩ := by
  decide +kernel

/-- W-2 of section 2: the legacy law scales 100 to 280, and only once. -/
theorem test_scaleFsm :
    let t := after 0x24000000 (after 0x20000000 (start (fsmArray [])))
    t.result0 = 1 ∧ (t.fsmAt .c0 1).value0 = 280 ∧ report (after 0x24000000 t) = (2, 0, [0, 0, 0, 0]) := by decide +kernel

/-- Section 3.9: the band-end code of B-TAG. -/
theorem test_extractBandEnd : report (after 0x28000000 (start tagTable)) = (2, 0, [0x3FF, 10, 0, 0]) := by decide +kernel

/-- Section 3.9: the composite command reports the state count and the band-end size. -/
theorem test_initDecoderFsm : report (after 0x2C000000 (start (fsmArray tagTable))) = (2, 0, [2, 10, 0, 0]) := by decide +kernel

/-- Section 3.9: after the release the FSM is not initialised, and the descriptors stay. -/
theorem test_freeCodebooks :
    let t := after 0x30000000 (after 0x2C000000 (start (fsmArray tagTable)))
    t.cs0.valid.toWord = 0 ∧ t.cs0.fsmFlags.toWord = 0 ∧ t.cs0.fsmBase = 0x500 ∧ (after 0x6C000000 t).statusWord = 0x706 := by
  decide +kernel

/-- Section 3.10: the stream A5 3C. -/
theorem test_bsPeek : report (after 0x40000004 (streaming [0xA5, 0x3C] 16 (start []))) = (2, 0, [0xA, 0, 0, 0]) := by decide +kernel
theorem test_bsGet :
    let t := after 0x4400000C (streaming [0xA5, 0x3C] 16 (start []))
    report t = (2, 0, [0xA53, 0, 0, 0]) ∧ t.bsPos = 12 := by decide +kernel
theorem test_bsSkip :
    report (after 0x48000005 { streaming [0xA5, 0x3C] 16 (start []) with bsPos := 12 }) = (0x806, 5, [0, 0, 0, 0]) := by decide +kernel

/-- Section 3.11, the legacy table: `110` is a run of 4, and the marker of entry 5 is followed by its codeword of 13 bits. -/
theorem test_vlcDecode :
    let t := after 0x14000000 (start bookRle)
    report (after 0x60000000 (streaming [0xC0, 0x00] 16 { t with status := Status.reset, result1 := 0, result2 := 0 })) =
        (2, 0, [4, 0, 3, 0]) ∧
      report (after 0x60000000 (streaming [0xF8, 0x00] 16 { t with status := Status.reset })) = (2, 0, [100, 0, 13, 1]) := by
  decide +kernel

/-- Section 3.12: stream 6C in state 0: entry 1. -/
theorem test_fsmStep :
    let t := after 0x6C000000 (streaming [0x6C] 8 (after 0x20000000 (start (fsmArray []))))
    report t = (2, 0, [100, 0xFFFFFFFD, 0x01010001, 0]) ∧ t.cs0.fsmState = 1 ∧ t.bsPos = 2 := by decide +kernel

/-- Section 3.12: a state the table does not have (V-FSM-8), and no table at all (V-FSM-9). -/
theorem test_fsmSetState :
    let t := after 0x20000000 (start (fsmArray []))
    (after 0x68000002 t).statusWord = 0xD06 ∧ (after 0x68000001 t).cs0.fsmState = 1 ∧
      report (after 0x6A000000 (start [])) = (0x706, 2, [0, 0, 0, 0]) := by decide +kernel

/-- P-3 of section 4: two records of the stream 6C from the scaled table. -/
theorem test_fsmRun :
    let t := after 0x70000002 (streaming [0x6C] 8 (after 0x24000000 (after 0x20000000 (start (fsmArray [])))))
    report t = (2, 0, [2, 0, 0, 0]) ∧ t.outPtr = 0x2004 ∧ t.bsPos = 4 ∧ t.outmem.readWord 0x2000 = 0xFFFD0118 ∧
      t.outmem.readWord 0x2001 = 0x01010001 ∧ t.outmem.readWord 0x2003 = 0x00020001 := by decide +kernel

/-- By hand from R262 and B-RLE: `1110 10 1111100000000 0…` on the legacy table gives runs of 8, 2 and, after its marker, 100. -/
theorem test_vlcRun :
    let t := after 0x64000003 (streaming [0b11101011, 0b11100000, 0b00000000] 24 (after 0x14000000 (start bookRle)))
    t.result0 = 3 ∧ t.bsPos = 19 ∧ t.outPtr = 0x2006 ∧ t.outmem.readWord 0x2000 = 8 ∧ t.outmem.readWord 0x2002 = 2 ∧
      t.outmem.readWord 0x2004 = 100 ∧ t.outmem.readWord 0x2005 = 0 := by decide +kernel

/-! ### The parts of a command (R262; spec/20_memory.md R93, spec/60_exceptions.md R311) -/

/-- By hand from R262: the first part of the run of `test_vlcRun` stores the count of its first record, the second its value and the
next step's place; two more store the second record. -/
theorem test_stage_vlcRun :
    let s := streaming [0b11101011, 0b11100000, 0b00000000] 24 (after 0x14000000 (start bookRle))
    let u := ({ s with engine := .busy 0x64000003 }).runStage
    u.outmem.readWord 0x2000 = 8 ∧ u.outPtr = 0x2000 ∧ u.bsPos = 4 ∧ u.runStage.outPtr = 0x2002 ∧ u.runStage.result0 = 1 ∧
      u.runStage.runStage.runStage.outmem.readWord 0x2002 = 2 := by decide +kernel

/-- By hand from R252 and R311: a decode that meets the band-end code sets `BAND_END` while the command still runs. -/
theorem test_stage_bandEnd :
    let s : State := { streaming [0x80] 8 (start []) with
      ctrl := ⟨false, true, false⟩
      engine := .busy 0x60000000
      cs0 := { (start []).cs0 with
        bandEndSize := 1, bandEndCode := 1, valid := { TableValid.reset with fastbook := true, bandEnd := true } } }
    s.runStage.statusWord = 9 ∧ s.runStage.engine = .busy 0x60000000 := by decide +kernel

/-! ### What the statements assume can be met: for each obligation with hypotheses, states and operands that meet them, at the
boundaries of its clauses -/

/-- The state in which a command ends. -/
def ends (i : Instr) (s : State) : State :=
  match exec i s with
  | .next t => t
  | .fault _ => s
  | .refused _ => s

theorem exec_ends (i : Instr) (s : State) : exec i s = .next (ends i s) := by cases i <;> rfl

/-- A small instance state: books of one or two entries, a tag table and an FSM of one state. -/
def small : State :=
  { start (words 0x100 [0, 1, 1, 0, 1, 1, 1, 5] (words 0x200 [0, 1, 1] (words 0x300 [0, 1] (words 0x400 [1, 1, 1]
      (words 0x500 [1, 0x01000000, 0, 0x01000000, 0, 0x01000000, 0, 0x01000000, 0x00020064] []))))) with
    cs0 := { described Codeset.reset with magLen := 1, rlcLen := 1, rlvLen := 2 } }

/-- `small` with the run-length book `l`, three words an entry. -/
def withRuns (l : List Word) : State :=
  { small with srcmem := words 0x200 l [], cs0 := { small.cs0 with rlcLen := BitVec.ofNat 32 (l.length / 3) } }

/-- `small` with codeset 0 changed. -/
def withCs (k : Codeset) : State := { small with cs0 := k }

/-- `small` with the companding flags of codeset 0. -/
def withFlags (f : CompandFlags) : State := withCs { small.cs0 with csFlags := f }

/-- `small` with a run-length decode table of the entries `l`, and a bitstream of zeros of `n` bits. -/
def withTable (l : List FastEntry) (n : Word) : State :=
  { withCs { small.cs0 with fastbook := ⟨0, [], l⟩, valid := { TableValid.reset with fastbook := true } } with bsLen := n }

/-- `small` with an initialised FSM of `n` states, its first entries `l`, and a bitstream of zeros of 8 bits. -/
def withFsm (n : Word) (l : List FsmEntry) : State :=
  { withCs { small.cs0 with fsm := ⟨0, [], l⟩, fsmNumStates := n, fsmFlags := ⟨CompandFlags.reset, false, true⟩ } with bsLen := 8 }

theorem test_EncodeDecodeRoundTrip_applies : (Instr.vlcRun 2 0xFFFFFF).wellFormed = true ∧ Instr.nop.wellFormed = true := by decide

theorem test_DecodeFollowsThePriority_applies :
    opcodeMap.lookup (opField 0x38000000).toNat = none ∧
      opcodeMap.lookup (opField 0x07000001).toNat = some .C ∧ reservedSet .C 0x07000001 = true ∧
      reservedSet .C 0x07000000 = false ∧ hasCodeset .C ∧ csField 0x07000000 = 3 ∧
      opcodeMap.lookup (opField 0x72FFFFFF).toNat = some .CI ∧ reservedSet .CI 0x72FFFFFF = false ∧ csField 0x72FFFFFF ≠ 3 := by
  decide

theorem test_StepRunsDecodedCommand_applies :
    decode 0x48000000 = .ok (.bsSkip 0) ∧ small.progress = .start ∧
      { small with engine := .busy 0x48000000, inputs := [.engine] }.resetLine = false ∧
      { small with engine := .busy 0x48000000 }.inputs = [] := by decide +kernel

theorem test_RefusedWordsFail_applies :
    let s (w : Word) : State := { small with engine := .busy w, inputs := [.engine] }
    (s 0x38000000).engine = .busy 0x38000000 ∧ (s 0x38000000).resetLine = false ∧ (s 0x38000000).inputs = .engine :: [] ∧
      opcodeMap.lookup (opField 0x38000000).toNat = none ∧
      opcodeMap.lookup (opField 0x01000000).toNat = some .N ∧ reservedSet .N 0x01000000 = true ∧
      opcodeMap.lookup (opField 0x37000004).toNat = some .CI ∧ ¬ reservedSet .CI 0x37000004 ∧ hasCodeset .CI ∧
      csField 0x37000004 = 3 := by decide +kernel

theorem test_CommandAcceptance_applies :
    { small with inputs := [.write 0x010 .word 0xFFFFFFFF] }.engine = .idle ∧ small.resetLine = false := by decide +kernel

theorem test_CompletionAndFailure_applies :
    (2#32).getLsbD 1 = true ∧ { small with ctrl := ⟨true, false, false⟩ }.complete.irq = true := by decide +kernel

/-- An accepted command's state, and a running command no part, or some part, of which was carried out before its completion: all
the steps of a run, one and a half of them, the lookup tables of an `INIT_CODEBOOKS`, and all of a `VLC_DECODE`. -/
theorem test_EveryCommandCompletes_applies :
    let busy (s : State) (w : Word) : State := { s with engine := .busy w }
    let run := busy (withTable [⟨1, 7, 4⟩] 8) 0x64000002
    (small.accept 0x48000000).Accepted ∧ run.engine = .busy 0x64000002 ∧ run.resetLine = false ∧
      run.runStage.runStage.runStage.progress = .record 1 7 ∧ run.runStage.runStage.runStage.runStage.progress = .steps 2 ∧
      (busy { small with ctrl := ⟨false, false, true⟩ } 0x04000000).runStage.progress = .lookup ∧
      (busy (withTable [⟨1, 7, 4⟩] 8) 0x60000000).runStage.progress = .over := by decide +kernel

/-- A W1C write, a write of `CTRL` bit 31, and the assertion of the reset input clear a sticky bit. -/
theorem test_StickyStatusBits_applies :
    let set : State := { small with status := { Status.reset with bandEnd := true, unmatched := true, overrun := true } }
    (∃ t, step { set with inputs := [.write 0x00C .word 0x38] } = .next t ∧ t.status.bandEnd = false ∧ t.status.unmatched = false ∧
      t.status.overrun = false) ∧
      (∃ t, step { set with inputs := [.write 0x008 .word 0x80000000] } = .next t ∧ t.status.bandEnd = false ∧
        t.status.unmatched = false ∧ t.status.overrun = false) ∧
      ∃ t, step { set with inputs := [.resetLine true] } = .next t ∧ t.status.bandEnd = false := by
  exact ⟨⟨_, rfl, by decide +kernel⟩, ⟨_, rfl, by decide +kernel⟩, ⟨_, rfl, by decide +kernel⟩⟩

/-- The statements about every command that ends in a next state: `CommandFrame`, `TablesWrittenOnlyByTheirCommands`,
`OnlyRunsWriteOutput` and `PositionMovesOnlyByConsume`. -/
theorem test_frames_apply :
    (∃ t, exec (.bsGet 3) { small with bsLen := 3 } = .next t ∧ t.bsPos = 3) ∧
      (∃ t, exec (.loadFsm 2) small = .next t) ∧
      ∃ t, exec (.vlcRun 0 2) (withTable [⟨1, 7, 4⟩] 8) = .next t ∧ t.outPtr = 4 ∧ t.result0 = 2 :=
  ⟨⟨_, exec_ends _ _, by decide +kernel⟩, ⟨_, exec_ends _ _⟩, ⟨_, exec_ends _ _, by decide +kernel⟩⟩

/-- The last clause of `OnlyRunsWriteOutput`: a word that is new after the first part of a run, and one that is still old. -/
theorem test_OnlyRunsWriteOutput_applies :
    let run : State := { withTable [⟨1, 7, 4⟩] 8 with engine := .busy 0x64000002 }
    (∃ t, run.runEngine = .next t) ∧ run.outmem.readWord 0 = 0 ∧ run.runStage.outmem.readWord 0 = 1 ∧
      run.runStage.outmem.readWord 1 = 0 ∧ (ends (.vlcRun 0 2) run).outmem.readWord 1 = 7 :=
  ⟨⟨_, rfl⟩, by decide +kernel, by decide +kernel, by decide +kernel, by decide +kernel⟩

theorem test_PeekReadsTheStream_applies : (streaming [0xA5] 8 small).Quiet := by decide +kernel

theorem test_bit_commands_apply :
    let s (n : Word) : State := { small with bsLen := n }
    (s 0).Quiet ∧ (32#24).toNat ≤ 32 ∧ 32 < (33#24).toNat ∧ (s 32).bsPos.toNat + (32#24).toNat ≤ (s 32).bsLen.toNat ∧
      (s 31).bsLen.toNat < (s 31).bsPos.toNat + (32#24).toNat ∧ (s 0).bsPos.toNat + (0#24).toNat ≤ (s 0).bsLen.toNat ∧
      (s 0).bsLen.toNat < (s 0).bsPos.toNat + (1#24).toNat := by decide +kernel

/-- With a count-1 entry, and without one but with an isolated-zero codeword, to the last entry of `WORK`. -/
theorem test_SortRunlengthResult_applies :
    CsId.ofField 0 = some .c0 ∧ small.Quiet ∧ small.RunsReady .c0 ∧
      { withCs { small.cs0 with rlcLen := 0, zeroSize := 1 } with params := { Config.referenceParams with rlcMaxEntries := 1 } }.RunsReady .c0 := by
  decide +kernel

theorem test_SortRunlengthFailures_applies :
    let two := withRuns [0, 1, 2, 0, 32, 4]
    let many : State := { withRuns [0, 1, 2] with params := { Config.referenceParams with rlcMaxEntries := 1 } }
    let twice := withRuns [0, 1, 1, 1, 1, 1]
    (two.Quiet ∧ (two.rleEntry .c0 1).badRun = true ∧ ∀ i < 1, (two.rleEntry .c0 i).badRun = false) ∧
      (many.RleValid .c0 ∧ many.params.rlcMaxEntries < many.runsNeeded .c0) ∧
      ((withRuns [0, 1, 2]).RleValid .c0 ∧ (withRuns [0, 1, 2]).runsNeeded .c0 ≤ 64 ∧ ¬ (withRuns [0, 1, 2]).RleHasOne .c0 ∧
        ¬ ((withRuns [0, 1, 2]).codeset .c0).ZeroCodeOk) ∧
      (twice.RleValid .c0 ∧ twice.runsNeeded .c0 ≤ 64 ∧ twice.RleHasOne .c0 ∧
        (∃ i < 1, (twice.rleEntry .c0 i).count = (twice.rleEntry .c0 1).count) ∧
        ∀ k < 1, ∀ i < k, (twice.rleEntry .c0 i).count ≠ (twice.rleEntry .c0 k).count) := by decide +kernel

theorem test_BuildRunlengthResult_applies :
    small.Quiet ∧ small.params.inRange ∧ small.RunsReady .c0 ∧
      exec (.sortRunlength 0) (withRuns [0, 0, 1]) = .next ((withRuns [0, 0, 1]).fail ⟨.invalidCodebook, 0⟩) ∧
      ¬ (withRuns [0, 0, 1]).RunsReady .c0 := by
  refine ⟨by decide +kernel, by decide +kernel, by decide +kernel, ?_, by decide +kernel⟩
  rw [exec_ends]
  exact congrArg _ (by decide +kernel)

/-- The last clause too: with a budget of 2 bits a run of 3 is covered only to 2. -/
theorem test_ComposeCoversItsParts_applies :
    let work : List WorkEntry := [⟨0, 1, 1⟩]
    (∀ e ∈ work, 1 ≤ e.count.toNat ∧ 1 ≤ e.size.toNat ∧ e.size.toNat ≤ 31 ∧ e.bits.toNat < 2 ^ e.size.toNat) ∧
      work.getLast? = some ⟨0, 1, 1⟩ ∧ (compose 2 work 3).count.toNat < 3 := by decide +kernel

/-- A book with a value 0 of one bit and a value 5 of two bits. -/
def pair : Nat → BookEntry := fun j => if j = 0 then ⟨0, 1, 1, 0⟩ else ⟨2, 2, 1, 5⟩

theorem test_MatchFindsTheFirstLead_applies :
    NoLead pair 2 3 2 ∧ FirstLead pair 2 0 1 1 0 ∧ FirstLead pair 2 2 2 2 1 ∧ FirstLead pair 2 11 4 2 1 ∧
      FirstLead pair 2 10 4 2 1 :=
  ⟨by decide, by decide, by decide, by decide, by decide⟩

theorem test_MatchPatternResult_applies :
    let found (n : Nat) : Option MatchHit := matchPattern small.params 0 n (fun _ => small.rlvEntry .c0) 2 []
    let bad : State := { small with srcmem := words 0x100 [0, 1, 1, 0, 0, 1, 1, 0x80000000] [] }
    small.Quiet ∧ small.RlvValid .c0 ∧ found 1 = some ⟨1, 0, 1⟩ ∧ found 32 = some ⟨1, 0, 1⟩ ∧
      matchPattern small.params 1 1 (fun _ => small.rlvEntry .c0) 2 [] = none ∧ (0#24).toNat < 1 ∧ 32 < (33#24).toNat ∧
      (bad.rlvEntry .c0 1).badRunValue = true ∧ ∀ i < 1, (bad.rlvEntry .c0 i).badRunValue = false := by decide +kernel

theorem test_FillScanLutResult_applies :
    small.Quiet ∧ small.RlvReady .c0 ∧ small.RlvValid .c0 ∧
      ∀ idx < 4096, (scanEntry small.params (fun _ => small.rlvEntry .c0) 2 [] idx).isSome = true := by
  refine ⟨by decide +kernel, by decide +kernel, by decide +kernel, fun idx _ => ?_⟩
  have hc : ∀ (site : Site) j, j < 2 → ((fun _ : Site => small.rlvEntry .c0) site j).count ≤ 1 := by
    intro site
    show ∀ j, j < 2 → (small.rlvEntry .c0 j).count ≤ 1
    decide +kernel
  exact scanEntry_isSome hc (by decide)

/-- A book of 1 and 13 bits: index 0 decodes, 4095 is marked for entry 1, and without entry 1 nothing marks it. -/
def long : Nat → BookEntry := fun j => if j = 0 then ⟨0, 1, 1, 0⟩ else ⟨0x1FFF, 13, 357913941, 0⟩

/-- A book of one bit whose count overflows on twelve zeros, and on no less: 12 * 357913942 is 2^32 + 8. -/
def bulky : Nat → BookEntry := fun _ => ⟨0, 1, 357913942, 0⟩

theorem test_ScanEntryFollowsTheLoop_applies :
    (∀ j < 2, 1 ≤ (long j).size ∧ 1 ≤ (long j).count ∧ (long j).bits < 2 ^ (long j).size) ∧
      (1 ≤ (bulky 0).size ∧ 1 ≤ (bulky 0).count ∧ (bulky 0).bits < 2 ^ (bulky 0).size) ∧
      scanEntry Config.referenceParams (fun _ => bulky) 1 [] 0 = none ∧ scanEntry Config.referenceParams (fun _ => long) 2 [] 0 ≠ none ∧
      (long 1).marks Config.referenceParams 4095 = true ∧ (∀ i < 1, (long i).marks Config.referenceParams 4095 = false) ∧
      ∀ j < 1, (long j).marks Config.referenceParams 4095 = false := by decide +kernel

/-- The two codewords of one bit. -/
def bits1 : Nat → BookEntry := fun j => ⟨j, 1, 1, 0⟩

theorem test_ScanCoverage_applies :
    PrefixFree bits1 2 ∧ (∀ j < 2, 1 ≤ (bits1 j).count ∧ 12 * (bits1 j).count < 2 ^ 32) ∧
      ∀ idx < 4096, ∃ t : Sent, t.j < 2 ∧ t.compatible Config.referenceParams bits1 idx := by
  refine ⟨by decide, by decide, fun idx h => ⟨⟨idx / 2 ^ 11, false⟩, ?_, ?_⟩⟩
  · show idx / 2 ^ 11 < 2
    omega
  · simp [Sent.compatible, Sent.length, Sent.code, bits1]

theorem test_FillCodeLutResult_applies : small.Quiet ∧ small.RleValid .c0 := by decide +kernel

theorem test_LegacyEntryIsTheFirstLead_applies :
    FirstLead long 2 0 12 1 0 ∧ FirstLead long 2 2047 12 1 0 ∧ FirstLead pair 2 2048 12 2 1 ∧ NoLead long 2 4095 12 ∧
      12 < (long 1).size ∧ (long 1).bits / 2 ^ ((long 1).size - 12) = 4095 ∧ NoLead long 2 2048 12 ∧
      (long 1).bits / 2 ^ ((long 1).size - 12) ≠ 2048 :=
  ⟨by decide +kernel, by decide +kernel, by decide +kernel, by decide +kernel, by decide +kernel, by decide +kernel,
    by decide +kernel, by decide +kernel⟩

/-- A book whose only codeword of 13 bits stands at index 2^31, which the value field of a marker cannot hold. -/
def far : Nat → BookEntry := fun j => if j = 2 ^ 31 then ⟨0x1FFF, 13, 1, 0⟩ else ⟨0, 1, 1, 0⟩

theorem test_wide_index_applies :
    far (2 ^ 31) = ⟨0x1FFF, 13, 1, 0⟩ ∧ (far (2 ^ 31)).marks Config.referenceParams 4095 = true ∧
      ∀ i < 2 ^ 31, (far i).size = 1 ∧ (far i).marks Config.referenceParams 4095 = false :=
  ⟨if_pos rfl, by decide +kernel, fun i h => by
    have e : far i = ⟨0, 1, 1, 0⟩ := if_neg (by omega)
    rw [e]
    decide +kernel⟩

theorem test_FillFailures_applies :
    let bad : State := { small with srcmem := words 0x100 [0, 1, 1, 0, 0, 1, 1, 0x80000000] [] }
    let wide : State := { small with srcmem := words 0x100 [0, 1, 0x40000000, 0] [], cs0 := { small.cs0 with rlvLen := 1 } }
    bad.Quiet ∧ (bad.rlvEntry .c0 1).badRunValue = true ∧ (∀ i < 1, (bad.rlvEntry .c0 i).badRunValue = false) ∧
      (bad.rleEntry .c0 0).badRun = true ∧ wide.Quiet ∧ wide.RlvValid .c0 ∧
      scanEntry wide.params (fun _ => wide.rlvEntry .c0) 1 [] 0 = none ∧
      ∀ i < 0, (scanEntry wide.params (fun _ => wide.rlvEntry .c0) 1 [] i).isSome = true := by decide +kernel

/-- One magnitude, of a codeword of 31 ones under `L = 32`, too: its code with a sign is 33 bits long. -/
theorem test_FillVlcTableResult_applies :
    let wide : State := { small with
      params := { Config.referenceParams with longSize := 32, positiveCode := 2, negativeCode := 3 }
      srcmem := words 0x300 [0x7FFFFFFF, 31] [] }
    small.Quiet ∧ small.params.inRange ∧ small.VlcValid .c0 ∧ (small.codeset .c0).csFlags.Selects .legacy ∧
      wide.params.inRange ∧ wide.VlcValid .c0 ∧ wide.cs0.csFlags.Selects .legacy ∧
      2 ^ 32 ≤ 4 * (wide.vlcEntry .c0 0).bits + wide.params.positiveCode.toNat ∧
      (withFlags ⟨true, false, true⟩).VlcValid .c0 ∧ ((withFlags ⟨true, false, true⟩).codeset .c0).csFlags.Selects .notNeeded ∧
      (withFlags ⟨false, true, true⟩).VlcValid .c0 ∧ ((withFlags ⟨false, true, true⟩).codeset .c0).csFlags.Selects .cubic := by
  decide +kernel

theorem test_FillVlcTableFailures_applies :
    (⟨true, true, false⟩ : CompandFlags).notNeeded = true ∧ (⟨false, false, true⟩ : CompandFlags).more = true ∧
      (withFlags ⟨true, true, false⟩).Quiet ∧ (withCs { small.cs0 with magLen := 0 }).cs0.csFlags.Selects .legacy ∧
      ((withCs { small.cs0 with magLen := 2 }).vlcEntry .c0 1).badMagnitude 31 1 = true ∧
      ∀ k < 1, ((withCs { small.cs0 with magLen := 2 }).vlcEntry .c0 k).badMagnitude 31 k = false := by decide +kernel

/-- An `INIT_CODEBOOKS` that fails in each of its three bodies, and one that succeeds (legacy fill, `S = 2`). -/
theorem test_InitCodebooksIsTheThreeBuilds_applies :
    let s : State := { small with params := { Config.referenceParams with valueSize := 2 }, ctrl := ⟨false, false, true⟩ }
    let t1 (s : State) := ends (.buildRunlength 0) s
    let t2 (s : State) := ends (.fillCodeLut 0) (t1 s)
    let t3 (s : State) := ends (.fillVlcTable 0) (t2 s)
    let noScan : State := { small with srcmem := words 0x200 [0, 1, 1] [] }
    s.Quiet ∧ s.status.err = false ∧ s.cs0.valid.cbReplaced = false ∧ s.ctrl.lutLegacy = true ∧
      (t1 (withRuns [0, 0, 1])).status.err = true ∧
      (t1 noScan).status.err = false ∧ (ends (.fillScanLut 0) (t1 noScan)).status.err = true ∧
      (t1 s).status.err = false ∧ (t2 s).status.err = false ∧ (t3 s).status.err = false ∧
      (t3 { s with cs0 := { s.cs0 with magLen := 0 } }).status.err = true := by decide +kernel

theorem test_InitCodebooksCompletes_applies :
    let legacy : State := { small with ctrl := ⟨false, false, true⟩ }
    (withCs { small.cs0 with valid := { TableValid.reset with cbReplaced := true } }).cs0.valid.cbReplaced = true ∧
      small.cs0.valid.cbReplaced = false ∧ small.Quiet ∧ small.status.err = false ∧ small.params.inRange ∧ small.RunsReady .c0 ∧
      small.RlvReady .c0 ∧ small.VlcValid .c0 ∧ (small.codeset .c0).csFlags.Selects .legacy ∧
      legacy.RunsReady .c0 ∧ legacy.VlcValid .c0 ∧ legacy.ctrl.lutLegacy = true := by decide +kernel

/-- The largest state count that fits 64 entries of 4 a state, one more, and none. -/
theorem test_LoadFsmResult_applies :
    let counted (n : Word) : State := { small with srcmem := words 0x500 [n] [] }
    let count (n : Word) : Word := (counted n).srcWord (counted n).cs0.fsmBase
    small.Quiet ∧ small.cs0.fsmFlags.initialized = false ∧ small.cs0.fsmNumStates = 0 ∧ count 1 = 1 ∧ count 16 = 16 ∧
      (16#32).toNat * 2 ^ small.params.indexSize ≤ small.params.fsmRamEntries ∧
      ¬ (17#32).toNat * 2 ^ small.params.indexSize ≤ small.params.fsmRamEntries ∧ ¬ 1 ≤ (count 0).toNat ∧
      (withFsm 1 []).cs0.fsmFlags.initialized = true := by decide +kernel

theorem test_ScaleFsmResult_applies :
    let loaded (f : CompandFlags) (done : Bool) : Codeset :=
      { small.cs0 with fsm := ⟨0, [], List.replicate 4 ⟨0, 0, 1, 100, 0⟩⟩, fsmNumStates := 1, fsmFlags := ⟨f, done, true⟩ }
    small.cs0.fsmFlags.initialized = false ∧ (loaded CompandFlags.reset true).fsmFlags.compandingDone = true ∧
      (loaded ⟨true, false, false⟩ false).fsmFlags.policy.Selects .notNeeded ∧
      (loaded ⟨true, true, false⟩ false).fsmFlags.policy.cubic = true ∧ (loaded ⟨false, false, true⟩ false).fsmFlags.policy.more = true ∧
      (loaded ⟨false, true, false⟩ false).fsmFlags.policy.Selects .cubic ∧
      (loaded ⟨false, false, false⟩ false).fsmFlags.policy.Selects .legacy ∧
      (loaded ⟨false, false, false⟩ false).fsmNumStates.toNat * 2 ^ small.params.indexSize ≤
        (loaded ⟨false, false, false⟩ false).fsm.cells.length := by decide +kernel

theorem test_ScaleFsmOnce_applies :
    let s := withFsm 1 (List.replicate 4 ⟨0, 0, 1, 100, 0⟩)
    s.status.err = false ∧ exec (.scaleFsm 0) s = .next (ends (.scaleFsm 0) s) ∧ (ends (.scaleFsm 0) s).status.err = false :=
  ⟨by decide +kernel, exec_ends _ _, by decide +kernel⟩

/-- A value at each bound of the clauses of `ScaleLaws`. -/
theorem test_ScaleLaws_applies :
    (-263 : Int).natAbs < 264 ∧ 264 ≤ (264 : Int).natAbs ∧ (40 : Int) ≤ 263 ∧ (-40 : Int) ≤ -40 ∧ ¬ ((40 : Int) ≤ 39 ∧ (39 : Int) < 264) := by
  decide

theorem test_FreeCodebooksResult_applies :
    CsId.ofField 0 = some .c0 ∧ small.cs0.Empty ∧ ¬ (withTable [⟨1, 7, 4⟩] 8).cs0.Empty ∧
      (withTable [⟨1, 7, 4⟩] 8).cs0.fastbook.cells.length ≤ 1 := by decide +kernel

theorem test_ExtractBandEndResult_applies :
    let tagged (l : List Word) : State := { small with srcmem := words 0x400 l [] }
    let word (l : List Word) (i : Word) : Word := (tagged l).srcWord (0x400 + i)
    small.Quiet ∧ small.cs0.tagBase = 0x400 ∧ word [1, 1, 1] 0 ≠ 0 ∧ (word [1, 1, 1] 1).toNat < 2 ^ (word [1, 1, 1] 2).toNat ∧
      (word [1, 0xFFFFFFFF, 32] 1).toNat < 2 ^ (word [1, 0xFFFFFFFF, 32] 2).toNat ∧ (word [1, 0xFFFFFFFF, 32] 2).toNat ≤ 32 ∧
      word [0] 0 = 0 ∧ ¬ (word [1, 2, 1] 1).toNat < 2 ^ (word [1, 2, 1] 2).toNat ∧ ¬ (word [1, 0, 33] 2).toNat ≤ 32 := by
  decide +kernel

/-- An `INIT_DECODER_FSM` that fails in each of its three bodies, and one that succeeds. -/
theorem test_InitDecoderFsmIsTheThreeSteps_applies :
    let t1 (s : State) := ends (.loadFsm 0) s
    let t2 (s : State) := ends (.scaleFsm 0) (t1 s)
    let t3 (s : State) := ends (.extractBandEnd 0) (t2 s)
    small.Quiet ∧ small.status.err = false ∧ (t1 { small with srcmem := [] }).status.err = true ∧
      (t1 (withFlags ⟨true, true, false⟩)).status.err = false ∧ (t2 (withFlags ⟨true, true, false⟩)).status.err = true ∧
      (t3 (withCs { small.cs0 with tagBase := 0x800 })).status.err = true ∧
      (t2 (withCs { small.cs0 with tagBase := 0x800 })).status.err = false ∧
      (t1 small).status.err = false ∧ (t2 small).status.err = false ∧ (t3 small).status.err = false := by decide +kernel

theorem test_InitDecoderFsmCompletes_applies :
    small.Quiet ∧ small.status.err = false ∧ small.cs0.fsmFlags.initialized = false ∧ small.cs0.fsmNumStates = 0 ∧
      small.cs0.csFlags.Selects .legacy ∧ (withFlags ⟨true, false, false⟩).cs0.csFlags.Selects .notNeeded ∧
      (withFlags ⟨false, true, false⟩).cs0.csFlags.Selects .cubic ∧ small.srcWord small.cs0.fsmBase = 1 ∧
      1 * 2 ^ small.params.indexSize ≤ small.params.fsmRamEntries ∧ small.srcWord small.cs0.tagBase = 1 ∧
      small.srcWord (small.cs0.tagBase + (1 - 1) * 2 + 2) = 1 ∧
      (small.srcWord (small.cs0.tagBase + (1 - 1) * 2 + 1)).toNat < 2 ^ 1 := by decide +kernel

/-- A band-end code of one bit, 0, at the start of a stream of zeros. -/
def atBandEnd (s : State) : State :=
  { s with
    ctrl := ⟨false, true, false⟩
    cs0 := { s.cs0 with bandEndSize := 1, valid := { s.cs0.valid with bandEnd := true } } }

theorem test_VlcDecodeResult_applies :
    let complete := withTable [⟨1, 7, 4⟩] 4
    let marker := withTable [⟨0, 0, 12⟩] 1
    complete.Quiet ∧ complete.cs0.valid.fastbook = true ∧ (atBandEnd complete).BandEndAhead .c0 ∧ ¬ complete.BandEndAhead .c0 ∧
      complete.streamBits 0 12 = 0 ∧ (complete.fastbookAt .c0 0).kind = .complete ∧
      complete.bsPos.toNat + (complete.fastbookAt .c0 0).shift.toNat ≤ complete.bsLen.toNat ∧
      (marker.fastbookAt .c0 0).kind = .marker ∧
      matchPattern marker.params (marker.streamBits 0 32) 32 (fun _ => marker.rlvEntry .c0) 2 [] = some ⟨1, 0, 1⟩ ∧
      marker.bsPos.toNat + 1 ≤ marker.bsLen.toNat := by decide +kernel

theorem test_VlcDecodeFailures_applies :
    let complete := withTable [⟨1, 7, 4⟩] 3
    let marker := withTable [⟨0, 0, 12⟩] 0
    let empty : State := { marker with cs0 := { marker.cs0 with rlvLen := 0 } }
    small.Quiet ∧ small.cs0.valid.fastbook = false ∧ ((withTable [⟨0, 0, 0⟩] 8).fastbookAt .c0 0).kind = .unmatched ∧
      ¬ complete.BandEndAhead .c0 ∧ complete.bsLen.toNat < complete.bsPos.toNat + (complete.fastbookAt .c0 0).shift.toNat ∧
      matchPattern empty.params (empty.streamBits 0 32) 32 (fun _ => empty.rlvEntry .c0) 0 [] = none ∧
      matchPattern marker.params (marker.streamBits 0 32) 32 (fun _ => marker.rlvEntry .c0) 2 [] = some ⟨1, 0, 1⟩ ∧
      marker.bsLen.toNat < marker.bsPos.toNat + 1 := by decide +kernel

theorem test_VlcRunCompletes_applies :
    let s := withTable (List.replicate 4096 ⟨1, 7, 4⟩) 8
    s.Quiet ∧ s.cs0.valid.fastbook = true ∧ s.ctrl.bandEndDetect = false ∧
      (∀ idx < 4096, (s.fastbookAt .c0 idx).kind = .complete ∧ (s.fastbookAt .c0 idx).shift.toNat ≤ 4) ∧
      s.bsPos.toNat + (2#24).toNat * 4 ≤ s.bsLen.toNat := by
  refine ⟨by decide +kernel, by decide +kernel, by decide +kernel, fun idx h => ?_, by decide +kernel⟩
  have he : (withTable (List.replicate 4096 ⟨1, 7, 4⟩) 8).fastbookAt .c0 idx = ⟨1, 7, 4⟩ := by
    show ((List.replicate 4096 _)[idx]?).getD _ = _
    rw [List.getElem?_replicate, if_pos h]
    rfl
  rw [he]
  decide

/-- `n` times the command `i`. -/
def repeated (i : Instr) (s : State) : Nat → State
  | 0 => s
  | n + 1 => ends i (repeated i s n)

/-- The band-end code is the bit 1, and the stream is four bits 0 and it. -/
def beforeBandEnd (s : State) : State :=
  { s with
    ctrl := ⟨false, true, false⟩
    bsmem := [(0, 0x08)]
    bsLen := 8
    cs0 := { s.cs0 with bandEndSize := 1, bandEndCode := 1, valid := { s.cs0.valid with bandEnd := true } } }

/-- A run that makes both of its steps, or none; one whose second step finds the band-end code; one whose second step fails; and one
without a table. -/
theorem test_VlcRunIsRepeatedDecode_applies :
    let whole := withTable [⟨1, 7, 4⟩] 8
    let banded := beforeBandEnd (withTable (List.replicate 129 ⟨1, 7, 4⟩) 8)
    let short := withTable [⟨1, 7, 4⟩] 4
    let d (s : State) := repeated (.vlcDecode 0) s
    (∀ s ∈ [whole, banded, short], s.Quiet ∧ s.status.err = false ∧ s.outmem.Pairwise (fun x y => x.1 < y.1) ∧
      s.cs0.valid.fastbook = true) ∧
      small.cs0.valid.fastbook = false ∧ (0#24).toNat = 0 ∧
      (∀ s n, exec (.vlcDecode 0) (d s n) = .next (d s (n + 1))) ∧
      (∀ j < 2, (d whole (j + 1)).status.err = false ∧ (d whole (j + 1)).result3 ≠ 2) ∧
      ((d banded 1).status.err = false ∧ (d banded 1).result3 ≠ 2 ∧ (d banded 2).status.err = false ∧ (d banded 2).result3 = 2) ∧
      (d short 1).status.err = false ∧ (d short 1).result3 ≠ 2 ∧ (d short 2).status.err = true :=
  ⟨by decide +kernel, by decide +kernel, rfl, fun _ _ => exec_ends _ _, by decide +kernel, by decide +kernel, by decide +kernel,
    by decide +kernel, by decide +kernel⟩

/-- The first `n` entries of the scan table of the book of `small`, and a stream of its codeword `0` twice. -/
def scannedTo (n : Nat) : State :=
  withTable ((List.range n).map fun idx =>
    (scanEntry small.params (fun _ => small.rlvEntry .c0) 2 [] idx).getD FastEntry.unmatched) 2

/-- The whole table. -/
def scanned : State := scannedTo 4096

theorem scannedTo_fastbookAt (n idx : Nat) (h : idx < n) :
    (scannedTo n).fastbookAt .c0 idx =
      (scanEntry small.params (fun _ => small.rlvEntry .c0) 2 [] idx).getD FastEntry.unmatched := by
  simp [State.fastbookAt, State.codeset, scannedTo, withTable, withCs, Ram.entry, h]

theorem test_DecodesWholeCodewords_applies :
    let l : List Sent := [⟨0, false⟩, ⟨0, true⟩]
    scanned.Quiet ∧ scanned.status.err = false ∧ scanned.params.positiveCode ≠ scanned.params.negativeCode ∧
      scanned.cs0.valid.fastbook = true ∧ scanned.cs0.valid.fastbookLegacy = false ∧ scanned.ctrl.bandEndDetect = false ∧
      PrefixFree (scanned.rlvEntry .c0) 2 ∧ scanned.RlvReady .c0 ∧
      (∀ idx < 4096, scanEntry scanned.params (fun _ => scanned.rlvEntry .c0) 2 [] idx = some (scanned.fastbookAt .c0 idx)) ∧
      (∀ x ∈ l, x.j < 2) ∧ scanned.Holds (scanned.rlvEntry .c0) scanned.bsPos.toNat l ∧
      scanned.bsPos.toNat + (l.map (Sent.length (scanned.rlvEntry .c0))).sum = scanned.bsLen.toNat := by
  refine ⟨by decide +kernel, by decide +kernel, by decide +kernel, by decide +kernel, by decide +kernel, by decide +kernel,
    by decide +kernel, by decide +kernel, fun idx h => ?_, by decide, ⟨by decide +kernel, by decide +kernel, trivial⟩, by decide +kernel⟩
  have hc : ∀ (site : Site) j, j < 2 → ((fun _ : Site => scanned.rlvEntry .c0) site j).count ≤ 1 := by
    intro site
    show ∀ j, j < 2 → (scanned.rlvEntry .c0 j).count ≤ 1
    decide +kernel
  have hs : (scanEntry scanned.params (fun _ => scanned.rlvEntry .c0) 2 [] idx).isSome := scanEntry_isSome hc (by decide)
  obtain ⟨e, he⟩ := Option.isSome_iff_exists.1 hs
  have he' : scanEntry small.params (fun _ => small.rlvEntry .c0) 2 [] idx = some e := he
  rw [he, show scanned = scannedTo 4096 from rfl, scannedTo_fastbookAt 4096 idx h, he']
  rfl

theorem test_FsmSetStateResult_applies :
    CsId.ofField 2 = some .c2 ∧ small.cs2.fsmFlags.initialized = false ∧ (withFsm 2 []).cs0.fsmFlags.initialized = true ∧
      (withFsm 2 []).cs0.fsmNumStates.toNat ≤ (2#24).toNat ∧ (1#24).toNat < (withFsm 2 []).cs0.fsmNumStates.toNat := by
  decide +kernel

theorem test_FsmStepResult_applies :
    let good := withFsm 1 [⟨0, 4, 4, 1, 2⟩]
    let lost := withFsm 1 [⟨1, 0, 0, 0, 0⟩]
    good.Quiet ∧ small.cs0.fsmFlags.initialized = false ∧ (atBandEnd good).BandEndAhead .c0 ∧ ¬ good.BandEndAhead .c0 ∧
      good.cs0.fsmState.toNat * 2 ^ good.params.indexSize + good.streamBits 0 good.params.indexSize = 0 ∧
      lost.cs0.fsmNumStates.toNat ≤ (lost.fsmAt .c0 0).nextState.toNat ∧
      (good.fsmAt .c0 0).nextState.toNat < good.cs0.fsmNumStates.toNat ∧
      good.bsPos.toNat + ((good.fsmAt .c0 0).preSkip.toNat + (good.fsmAt .c0 0).postSkip.toNat) ≤ good.bsLen.toNat ∧
      { good with bsLen := 7 }.bsLen.toNat <
        good.bsPos.toNat + ((good.fsmAt .c0 0).preSkip.toNat + (good.fsmAt .c0 0).postSkip.toNat) := by decide +kernel

theorem test_FsmRunCompletes_applies :
    let s := withFsm 1 (List.replicate 4 ⟨0, 2, 2, 1, 2⟩)
    s.Quiet ∧ s.cs0.fsmFlags.initialized = true ∧ s.ctrl.bandEndDetect = false ∧ s.cs0.fsmState.toNat < s.cs0.fsmNumStates.toNat ∧
      (∀ i < s.cs0.fsmNumStates.toNat * 2 ^ s.params.indexSize, (s.fsmAt .c0 i).nextState.toNat < s.cs0.fsmNumStates.toNat ∧
        (s.fsmAt .c0 i).preSkip.toNat + (s.fsmAt .c0 i).postSkip.toNat ≤ 4) ∧
      s.bsPos.toNat + (2#24).toNat * 4 ≤ s.bsLen.toNat := by decide +kernel

/-- The same of `FSM_RUN`. -/
theorem test_FsmRunIsRepeatedStep_applies :
    let whole := withFsm 1 [⟨0, 2, 2, 1, 2⟩]
    let banded := beforeBandEnd whole
    let short : State := { whole with bsLen := 4 }
    let d (s : State) := repeated (.fsmStep 0) s
    (∀ s ∈ [whole, banded, short], s.Quiet ∧ s.status.err = false ∧ s.outmem.Pairwise (fun x y => x.1 < y.1) ∧
      s.cs0.fsmFlags.initialized = true) ∧
      small.cs0.fsmFlags.initialized = false ∧ (0#24).toNat = 0 ∧
      (∀ s n, exec (.fsmStep 0) (d s n) = .next (d s (n + 1))) ∧
      (∀ j < 2, (d whole (j + 1)).status.err = false ∧ (d whole (j + 1)).result3 ≠ 2) ∧
      ((d banded 1).status.err = false ∧ (d banded 1).result3 ≠ 2 ∧ (d banded 2).status.err = false ∧ (d banded 2).result3 = 2) ∧
      (d short 1).status.err = false ∧ (d short 1).result3 ≠ 2 ∧ (d short 2).status.err = true :=
  ⟨by decide +kernel, by decide +kernel, rfl, fun _ _ => exec_ends _ _, by decide +kernel, by decide +kernel, by decide +kernel,
    by decide +kernel, by decide +kernel⟩

/-- A reset of an idle engine, of commands that are no runs, before any part, after the lookup table of an `INIT_CODEBOOKS` and
after the last part of a `FILL_SCAN_LUT`, of a run before its first step, of one between the two words of a record, and of one
after its band end. -/
theorem test_resets_apply :
    let reset (e : Engine) (p : Progress) : State :=
      { small with engine := e, progress := p, inputs := [.write 0x008 .word 0x80000000] }
    (∀ s ∈ [reset .idle .start, reset (.busy 0x48000000) .start, reset (.busy 0x04000000) .lookup, reset (.busy 0x10000000) .over,
      reset (.busy 0x64000001) .start, reset (.busy 0x64000001) (.record 0 7), reset (.busy 0x64000001) .over],
      s.resetLine = false ∧ s.inputs = [.write 0x008 .word 0x80000000]) ∧
      decode 0x04000000 = .ok (.initCodebooks 0) ∧ decode 0x10000000 = .ok (.fillScanLut 0) ∧
      (reset (.busy 0x64000001) .over).progress = .over ∧ (reset (.busy 0x04000000) .lookup).progress = .lookup ∧
      (0x80000000#32).getLsbD 31 = true ∧ decode 0x48000000 = .ok (.bsSkip 0) ∧ decode 0x64000001 = .ok (.vlcRun 0 1) ∧
      4 / 4 ≠ small.outPtr.toNat ∧ 8 / 4 ≠ small.outPtr.toNat ∧ 8 / 4 ≠ (small.outPtr + 1).toNat ∧
      { small with resetLine := true, inputs := [.write 0x1FC .word 1] }.resetLine = true ∧ (0x1FC#9).toNat % 4 = 0 ∧
      { small with resetLine := true, inputs := [.read 0x000 .word] }.resetLine = true ∧
      { small with inputs := [.resetLine true, .resetLine false] }.inputs = .resetLine true :: .resetLine false :: [] := by
  decide +kernel

theorem test_WritesWhileBusy_applies :
    let s (o : BitVec 9) (v : Word) : State := { small with engine := .busy 0, inputs := [.write o .word v] }
    (s 0x008 1).engine = .busy 0 ∧ (s 0x008 1).resetLine = false ∧ (1#32).getLsbD 31 = false ∧
      (0x80000000#32).getLsbD 31 = true ∧ (0x010#9) ≠ 0x008 ∧ (0x010#9).toNat % 4 = 0 := by decide +kernel

theorem test_window_statements_apply :
    small.engine = .idle ∧ small.resetLine = false ∧ { small with inputs := [.write 0x1FC .word 7] }.inputs = .write 0x1FC .word 7 :: [] ∧
      (0x1FC#9).toNat % 4 = 0 ∧ (3#32).getLsbD 31 = false ∧ (0x0FC : Nat) < 0x200 ∧ 0x0FC % 4 = 0 ∧
      Reg.ofOffset 0x1BC = .cs .c2 .bandEndSize ∧ Reg.ofOffset 0x0FC = .unmapped ∧
      { small with inputs := [.read 0x1FC .word] }.inputs = .read 0x1FC .word :: [] ∧
      (AccessSize.half ≠ .word) ∧ (0x002#9).toNat % 4 ≠ 0 := by decide +kernel

/-- Reads while a command runs: `STATUS`, a register that keeps its value and one that the command may write. -/
theorem test_HostReadsAndRefusals_applies :
    let s (o : BitVec 9) : State := { small with engine := .busy 0, inputs := [.read o .word] }
    (∀ o ∈ [0x00C, 0x104, 0x018], (s o).engine = .busy 0 ∧ (s o).resetLine = false ∧ o.toNat % 4 = 0) ∧
      Reg.ofOffset (0x00C#9).toNat = .status ∧ Reg.ofOffset (0x104#9).toNat = .cs .c0 .magBase ∧
      Reg.ofOffset (0x018#9).toNat = .result0 := by decide +kernel

/-- The last and the first refused index of each table, and a table with its valid bit. -/
theorem test_TableWindow_applies :
    (3071#32).toNat < 3072 ∧ 3072 ≤ (3072#32).toNat ∧ (4095#32).toNat < 4096 ∧ (1023#32).toNat < 2 ^ small.params.valueSize ∧
      2 ^ small.params.valueSize ≤ (1024#32).toNat ∧ (63#32).toNat < small.params.fsmRamEntries ∧
      small.params.fsmRamEntries ≤ (64#32).toNat ∧ (1024#32).toNat < 1025 ∧ (63#32).toNat < small.params.rlcMaxEntries ∧
      (withTable [] 0).cs0.valid.fastbook = true ∧ 6 ≤ (6#4).toNat := by decide +kernel

/-- A SRCMEM word and a BSMEM byte that another agent has overwritten, and an address that none has; and the accesses of other
agents, to the first and the last address, while a command runs and while none does. -/
theorem test_RacingReadsSeeOldOrNew_applies :
    let raced : State := { small with srcRaces := [(0x100, 7)], bsRaces := [(5, 9)] }
    let event (e : Engine) (i : Input) : State := { small with engine := e, inputs := [i] }
    (∀ r ∈ raced.srcRaces, r.1 ≠ (0x101#32).toNat) ∧ (∀ r ∈ raced.bsRaces, r.1 ≠ (4#32).toNat) ∧
      (∀ e ∈ [Engine.idle, .busy 0], ∀ i ∈ [Input.srcWrite 0 1, .srcWrite 0xFFFFFFFF 0, .bsWrite 0xFFFFFFFF 1, .srcRead 0x100,
        .bsRead 0xFFFFFFFF, .outRead 0, .outWrite 0 1, .outWrite 0xFFFFFFFF 1], (event e i).engine = e ∧ (event e i).inputs = i :: []) ∧
      small.srcmem.Pairwise (fun x y => x.1 < y.1) ∧ small.bsmem.Pairwise (fun x y => x.1 < y.1) ∧
      small.outmem.Pairwise (fun x y => x.1 < y.1) ∧ 0 / 4 ≠ (0xFFFFFFFF#32).toNat ∧ (0x101#32) ≠ 0x100 := by
  decide +kernel

/-- A state of the invariant with a loaded FSM, a band-end code, a sorted `WORK` and an error, in which a command is about to run. -/
theorem test_StepKeepsInv_applies :
    let s := ends (.loadFsm 2) (ends (.extractBandEnd 0) (ends (.sortRunlength 0) (ends (.loadFsm 0) small)))
    s.Inv ∧ { s with engine := .busy 0x6C000000, cmd := 0x6C000000, status := Status.reset, errInfo := 0, progress := .record 3 1 }.Inv ∧
      s.status.err = true ∧ s.cs0.fsmFlags.initialized = true ∧ (s.withFetchWord 32 0x6C000000).Inv ∧
      ∃ t, step (s.withFetchWord 32 0x6C000000) = .next t :=
  ⟨by refine ⟨?_, ?_, ?_, ?_, ?_, ?_, ?_, ?_⟩ <;> decide +kernel,
    by refine ⟨?_, ?_, ?_, ?_, ?_, ?_, ?_, ?_⟩ <;> decide +kernel, by decide +kernel, by decide +kernel,
    by refine ⟨?_, ?_, ?_, ?_, ?_, ?_, ?_, ?_⟩ <;> decide +kernel, ⟨_, rfl⟩⟩

end Sys2Proof.Tests
end

section
/-!
SUPPORT. What a read of the running command sees while other agents write, and what one event of those agents does
(spec/20_memory.md R93, spec/70_reset_and_hazards.md R353).
-/

namespace Sys2Proof.Machine

/-! ### One event -/

theorem step_of_inputs_cons {s : State} {e : Input} {rest : List Input} (h : s.inputs = e :: rest) :
    step s = State.perform { s with inputs := rest } e := by
  simp only [step, State.advance, h]

/-! ### Racing reads -/

theorem racePick_of_ne {α : Type} {a : Nat} {replaced : List (Nat × α)} (h : ∀ r ∈ replaced, r.1 ≠ a) (fresh : Nat)
    (site : Site) (v : α) : racePick fresh site a v replaced = v := by
  have hnone : replaced.filterMap (fun r => if r.1 = a then some r.2 else none) = [] :=
    List.filterMap_eq_nil_iff.2 fun r hr => if_neg (h r hr)
  simp only [racePick, hnone]

theorem getD_cons_eq_or_mem {α : Type} (v : α) (l : List α) (n : Nat) : (v :: l).getD n v = v ∨ (v :: l).getD n v ∈ l := by
  by_cases hn : n < (v :: l).length
  · rw [List.getD_eq_getElem _ _ hn]
    exact List.mem_cons.1 (List.getElem_mem hn)
  · exact .inl (List.getD_eq_default _ _ (Nat.not_lt.1 hn))

theorem racePick_eq_or_mem {α : Type} (fresh : Nat) (site : Site) (a : Nat) (v : α) (replaced : List (Nat × α)) :
    racePick fresh site a v replaced = v ∨ (a, racePick fresh site a v replaced) ∈ replaced := by
  unfold racePick
  split
  · exact .inl rfl
  · refine (getD_cons_eq_or_mem v _ _).imp_right fun hold => ?_
    obtain ⟨⟨b, y⟩, hmem, hy⟩ := List.mem_filterMap.1 hold
    obtain ⟨rfl, hpick⟩ := Option.ite_none_right_eq_some.1 hy
    exact Option.some.inj hpick ▸ hmem

section Events
variable {s : State} (a : Word)

/-! ### The race lists -/

theorem State.busSrcWrite_srcRaces_of_idle (h : s.engine = .idle) (v : Word) :
    (s.busSrcWrite a v).srcRaces = s.srcRaces := by simp [State.busSrcWrite, h, Engine.isBusy]

theorem State.busSrcWrite_srcRaces_of_busy {w : Word} (h : s.engine = .busy w) (v : Word) :
    (s.busSrcWrite a v).srcRaces = (a.toNat, s.srcWord a) :: s.srcRaces := by
  simp [State.busSrcWrite, h, Engine.isBusy, State.srcWord]

theorem State.busBsWrite_bsRaces_of_idle (h : s.engine = .idle) (v : Byte) :
    (s.busBsWrite a v).bsRaces = s.bsRaces := by simp [State.busBsWrite, h, Engine.isBusy]

theorem State.busBsWrite_bsRaces_of_busy {w : Word} (h : s.engine = .busy w) (v : Byte) :
    (s.busBsWrite a v).bsRaces = (a.toNat, s.bsmem.read a.toNat) :: s.bsRaces := by
  simp [State.busBsWrite, h, Engine.isBusy]

/-! ### The events of other agents -/

/-- What a write of a SRCMEM word by another agent does (R93, R353). -/
theorem step_srcWrite {v : Word} {rest : List Input} (h : s.inputs = .srcWrite a v :: rest) :
    ∃ t, step s = .next t ∧
      t = { s with inputs := rest, srcmem := s.srcmem.writeWord a.toNat v, srcRaces := t.srcRaces } ∧
      (s.engine = .idle → t.srcRaces = s.srcRaces) ∧
      (∀ w, s.engine = .busy w → t.srcRaces = (a.toNat, s.srcWord a) :: s.srcRaces) ∧
      (s.srcmem.Pairwise (fun x y => x.1 < y.1) → t.srcWord a = v) ∧ ∀ b, b ≠ a → t.srcWord b = s.srcWord b :=
  ⟨State.busSrcWrite { s with inputs := rest } a v, step_of_inputs_cons h, rfl,
    fun hidle => State.busSrcWrite_srcRaces_of_idle a hidle v,
    fun _ hbusy => State.busSrcWrite_srcRaces_of_busy a hbusy v,
    fun hsorted => Memory.readWord_writeWord_same hsorted a.toNat v,
    fun _ hne => Memory.readWord_writeWord_of_ne s.srcmem v (mt BitVec.eq_of_toNat_eq hne)⟩

/-- What a write of a BSMEM byte by another agent does (R93, R353). -/
theorem step_bsWrite {v : Byte} {rest : List Input} (h : s.inputs = .bsWrite a v :: rest) :
    ∃ t, step s = .next t ∧ t = { s with inputs := rest, bsmem := s.bsmem.write a.toNat v, bsRaces := t.bsRaces } ∧
      (s.engine = .idle → t.bsRaces = s.bsRaces) ∧
      (∀ w, s.engine = .busy w → t.bsRaces = (a.toNat, s.bsmem.read a.toNat) :: s.bsRaces) ∧
      (s.bsmem.Pairwise (fun x y => x.1 < y.1) → t.bsmem.read a.toNat = v) ∧
      ∀ b, b ≠ a.toNat → t.bsmem.read b = s.bsmem.read b :=
  ⟨State.busBsWrite { s with inputs := rest } a v, step_of_inputs_cons h, rfl,
    fun hidle => State.busBsWrite_bsRaces_of_idle a hidle v,
    fun _ hbusy => State.busBsWrite_bsRaces_of_busy a hbusy v,
    fun hsorted => Memory.read_write_same hsorted a.toNat v,
    fun _ hne => Memory.read_write_of_ne s.bsmem v hne⟩

/-- What a write of an OUTMEM word by another agent does, whether a command runs or not (log entry 19). -/
theorem step_outWrite {v : Word} {rest : List Input} (h : s.inputs = .outWrite a v :: rest) :
    ∃ t, step s = .next t ∧ t = { s with inputs := rest, outmem := t.outmem } ∧
      (s.outmem.Pairwise (fun x y => x.1 < y.1) → t.outmem.readWord a.toNat = v) ∧
      ∀ b, b / 4 ≠ a.toNat → t.outmem.read b = s.outmem.read b :=
  ⟨State.outWrite { s with inputs := rest } a v, step_of_inputs_cons h, rfl,
    fun hsorted => Memory.readWord_writeWord_same hsorted a.toNat v,
    fun _ hne => Memory.read_writeWord_of_ne s.outmem v hne⟩

end Events

/-- Settles O58: the reads by the two laws of `racePick`, each access of another agent by the law of its event. -/
theorem racingReadsSeeOldOrNew : Obligations.RacingReadsSeeOldOrNew := fun s _ a =>
  ⟨racePick_eq_or_mem _ _ _ _ s.srcRaces, racePick_eq_or_mem _ _ _ _ s.bsRaces,
    fun hquiet => racePick_of_ne hquiet _ _ _, fun hquiet => racePick_of_ne hquiet _ _ _,
    fun _ _ h => step_srcWrite a h, fun _ _ h => step_bsWrite a h, fun _ _ h => step_outWrite a h,
    fun _ => ⟨fun h => step_of_inputs_cons h, fun h => step_of_inputs_cons h, fun h => step_of_inputs_cons h⟩⟩

end Sys2Proof.Machine
end

section
/-!
SUPPORT. Which tables each operation may write, and in which codeset (spec/00_scope.md R16, spec/10_state.md R57 to R62): one
relation between the state before and the state after, kept by sequences, and one lemma per command body.
-/

namespace Sys2Proof.Machine

/-- The table RAMs of spec/10_state.md R57 to R62; `work` stands for `WORK` with `WORK_LEN`. -/
inductive Table where
  | newcodes | fastbook | valuebook | fsm | cubic | work

/-- From `s` to `t` no codeset but `o` has changed, and no table but those in `W`. -/
structure State.WritesOnly (o : Option CsId) (W : Set Table) (s t : State) : Prop where
  codeset : ∀ c, o ≠ some c → t.codeset c = s.codeset c
  newcodes : .newcodes ∉ W → ∀ c, (t.codeset c).newcodes = (s.codeset c).newcodes
  fastbook : .fastbook ∉ W → ∀ c, (t.codeset c).fastbook = (s.codeset c).fastbook
  valuebook : .valuebook ∉ W → ∀ c, (t.codeset c).valuebook = (s.codeset c).valuebook
  fsm : .fsm ∉ W → ∀ c, (t.codeset c).fsm = (s.codeset c).fsm
  cubic : .cubic ∉ W → t.cubic = s.cubic
  work : .work ∉ W → t.work = s.work ∧ t.workLen = s.workLen

@[simp] theorem Body.state_done (s : State) : (Body.done s).state = s := rfl
@[simp] theorem Body.state_failed (f : Failure) (s : State) : (Body.failed f s).state = s := rfl

theorem State.codeset_setCodeset_congr {s t : State} {c : CsId} {v : Codeset} (h : ∀ d, t.codeset d = s.codeset d) (d : CsId) :
    (t.setCodeset c v).codeset d = (s.setCodeset c v).codeset d := by
  by_cases hd : d = c
  · rw [hd, State.codeset_setCodeset_same, State.codeset_setCodeset_same]
  · rw [State.codeset_setCodeset_of_ne t v hd, State.codeset_setCodeset_of_ne s v hd, h]

namespace State.WritesOnly

variable {o : Option CsId} {W V : Set Table} {s t u : State} {c : CsId}

/-! ### Rules -/

/-- The codesets are the same, and `CUBIC` and `WORK` outside `W`: whatever else changed does not count. -/
theorem of_codeset_eq (hcs : ∀ c, t.codeset c = s.codeset c := by exact fun _ => rfl)
    (hcubic : .cubic ∉ W → t.cubic = s.cubic := by simp)
    (hwork : .work ∉ W → t.work = s.work ∧ t.workLen = s.workLen := by simp) : WritesOnly o W s t where
  codeset c _ := hcs c
  newcodes _ c := by rw [hcs]
  fastbook _ c := by rw [hcs]
  valuebook _ c := by rw [hcs]
  fsm _ c := by rw [hcs]
  cubic := hcubic
  work := hwork

theorem refl (s : State) : WritesOnly o W s s := of_codeset_eq

theorem trans (h : WritesOnly o W s t) (h' : WritesOnly o W t u) : WritesOnly o W s u where
  codeset c hc := (h'.codeset c hc).trans (h.codeset c hc)
  newcodes hW c := (h'.newcodes hW c).trans (h.newcodes hW c)
  fastbook hW c := (h'.fastbook hW c).trans (h.fastbook hW c)
  valuebook hW c := (h'.valuebook hW c).trans (h.valuebook hW c)
  fsm hW c := (h'.fsm hW c).trans (h.fsm hW c)
  cubic hW := (h'.cubic hW).trans (h.cubic hW)
  work hW := ⟨(h'.work hW).1.trans (h.work hW).1, (h'.work hW).2.trans (h.work hW).2⟩

theorem mono (h : WritesOnly o V s t) (hVW : V ⊆ W) : WritesOnly o W s t where
  codeset := h.codeset
  newcodes hW := h.newcodes fun hV => hW (hVW hV)
  fastbook hW := h.fastbook fun hV => hW (hVW hV)
  valuebook hW := h.valuebook fun hV => hW (hVW hV)
  fsm hW := h.fsm fun hV => hW (hVW hV)
  cubic hW := h.cubic fun hV => hW (hVW hV)
  work hW := h.work fun hV => hW (hVW hV)

theorem complete (h : WritesOnly o W s t) : WritesOnly o W s t.complete :=
  h.trans (of_codeset_eq t.complete_codeset)

theorem fail (h : WritesOnly o W s t) (f : Failure) : WritesOnly o W s (t.fail f) :=
  h.trans (of_codeset_eq (t.fail_codeset f))

theorem finish {b : Body} (h : WritesOnly o W s b.state) : WritesOnly o W s b.finish := by
  cases b with
  | done t => exact h.complete
  | failed f t => exact h.fail f

theorem andThen {b : Body} {k : State → Body} (h : WritesOnly o W s b.state) (hk : ∀ t, WritesOnly o W t (k t).state) :
    WritesOnly o W s (b.andThen k).state := by
  cases b with
  | done t => exact h.trans (hk t)
  | failed f t => exact h

/-- Codeset `c` has the content `v`, whose tables outside `W` are the old ones, and the other codesets stay. -/
theorem of_setCodeset {v : Codeset} (hcs : ∀ d, t.codeset d = (s.setCodeset c v).codeset d)
    (hnew : .newcodes ∉ W → v.newcodes = (s.codeset c).newcodes := by simp)
    (hfast : .fastbook ∉ W → v.fastbook = (s.codeset c).fastbook := by simp)
    (hval : .valuebook ∉ W → v.valuebook = (s.codeset c).valuebook := by simp)
    (hfsm : .fsm ∉ W → v.fsm = (s.codeset c).fsm := by simp)
    (hcubic : .cubic ∉ W → t.cubic = s.cubic := by simp)
    (hwork : .work ∉ W → t.work = s.work ∧ t.workLen = s.workLen := by simp) : WritesOnly (some c) W s t := by
  have keeps {α : Type} (f : Codeset → α) (hf : f v = f (s.codeset c)) (d : CsId) : f (t.codeset d) = f (s.codeset d) := by
    by_cases hd : d = c
    · rw [hcs, hd, State.codeset_setCodeset_same, hf]
    · rw [hcs, State.codeset_setCodeset_of_ne s v hd]
  exact {
    codeset := fun d hd => (hcs d).trans (State.codeset_setCodeset_of_ne s v fun h => hd (by rw [h]))
    newcodes := fun hW => keeps _ (hnew hW)
    fastbook := fun hW => keeps _ (hfast hW)
    valuebook := fun hW => keeps _ (hval hW)
    fsm := fun hW => keeps _ (hfsm hW)
    cubic := hcubic
    work := hwork }

/-- A command with a codeset field writes what its body writes in the codeset named; for 3 it fails and writes nothing. -/
theorem onCodeset {cs : BitVec 2} {k : CsId → State} (h : ∀ c, WritesOnly (some c) W s (k c)) :
    WritesOnly (CsId.ofField cs) W s (s.onCodeset cs k) := by
  rcases s.onCodeset_cases cs k with ⟨hfail, -⟩ | ⟨c, hc, hk⟩
  · rw [hfail]
    exact (refl s).fail _
  · rw [hc, hk]
    exact h c

/-! ### The table generator -/

theorem sortRunLength (s : State) (c : CsId) : WritesOnly o {.work} s (s.sortRunLength c).state := by
  rcases s.sortRunLength_cases c with ⟨f, hfail, -⟩ | ⟨-, -, -, -, hdone⟩
  · rw [hfail]
    exact refl s
  · rw [hdone]
    exact of_codeset_eq

theorem buildRunLength (s : State) (c : CsId) : WritesOnly (some c) {.newcodes, .work} s (s.buildRunLength c).state := by
  have hstart : WritesOnly (some c) {.newcodes, .work} s (s.startRunLength c) := by
    unfold State.startRunLength
    exact of_setCodeset fun _ => rfl
  refine hstart.trans (andThen ((sortRunLength _ c).mono (by simp)) fun t => ?_)
  exact of_setCodeset fun _ => rfl

theorem startFill (s : State) (c : CsId) : WritesOnly (some c) {.fastbook} s (s.startFill c) := by
  unfold State.startFill
  exact of_setCodeset fun _ => rfl

theorem finishFill (s : State) (c : CsId) (legacy : Bool) (filled : List FastEntry × Option Nat) :
    WritesOnly (some c) {.fastbook} s (s.finishFill c legacy filled).state := by
  rcases s.finishFill_cases c legacy filled.1 filled.2 with ⟨idx, -, hfail⟩ | ⟨-, hdone⟩
  · rw [hfail]
    exact of_setCodeset fun _ => rfl
  · rw [hdone]
    exact of_setCodeset fun _ => rfl

theorem fillScanLut (s : State) (c : CsId) : WritesOnly (some c) {.fastbook} s (s.fillScanLut c).state := by
  rcases s.fillScanLut_cases c with ⟨f, hfail, -⟩ | ⟨-, hfill⟩
  · rw [hfail]
    exact startFill s c
  · rw [hfill]
    exact (startFill s c).trans (finishFill _ c _ _)

theorem fillCodeLut (s : State) (c : CsId) : WritesOnly (some c) {.fastbook} s (s.fillCodeLut c).state := by
  rcases s.fillCodeLut_cases c with ⟨f, hfail, -⟩ | ⟨-, hfill⟩
  · rw [hfail]
    exact startFill s c
  · rw [hfill]
    exact (startFill s c).trans (finishFill _ c _ _)

theorem buildCubic (s : State) : WritesOnly o {.cubic} s s.buildCubic := of_codeset_eq s.buildCubic_codeset

theorem fillVlcTable (s : State) (c : CsId) :
    WritesOnly (some c) {.valuebook, .cubic} s (s.fillVlcTable c).state := by
  have hstart : WritesOnly (some c) {.valuebook, .cubic} s (s.startValues c) := by
    unfold State.startValues
    exact of_setCodeset fun _ => rfl
  rcases s.fillVlcTable_cases c with ⟨f, hfail, -⟩ | ⟨p, -, -, hdone⟩
  · rw [hfail]
    exact hstart
  · rw [hdone]
    refine hstart.trans (trans ?_ (of_setCodeset fun _ => rfl))
    split
    · exact (buildCubic _).mono (by simp)
    · exact refl _

theorem initCodebooks (s : State) (c : CsId) :
    WritesOnly (some c) {.newcodes, .fastbook, .valuebook, .cubic, .work} s (s.initCodebooks c).state := by
  unfold State.initCodebooks
  split
  · exact of_codeset_eq
  · refine andThen (andThen ((buildRunLength s c).mono (by simp [Set.insert_subset_iff])) fun t => ?_) fun t =>
      andThen ((fillVlcTable t c).mono (by simp [Set.insert_subset_iff])) fun u => ?_
    · split
      · exact (fillCodeLut t c).mono (by simp)
      · exact (fillScanLut t c).mono (by simp)
    · exact of_setCodeset fun _ => rfl

theorem matchCommand (s : State) (c : CsId) (width : Nat) : WritesOnly o W s (s.matchCommand c width).state := by
  rcases s.matchCommand_cases c width with ⟨f, hfail, -⟩ | ⟨-, -, -, ⟨m, -, hdone⟩ | ⟨-, hdone⟩⟩
  · rw [hfail]
    exact refl s
  · rw [hdone]
    exact of_codeset_eq
  · rw [hdone]
    exact of_codeset_eq

/-! ### The FSM tables -/

theorem loadFsm (s : State) (c : CsId) : WritesOnly (some c) {.fsm} s (s.loadFsm c).state := by
  rcases s.loadFsm_cases c with ⟨-, hskip⟩ | ⟨-, ⟨-, hfail⟩ | ⟨-, hdone⟩⟩
  · rw [hskip]
    exact of_codeset_eq
  · rw [hfail]
    exact refl s
  · rw [hdone]
    exact of_setCodeset fun _ => rfl

theorem scaleFsm (s : State) (c : CsId) : WritesOnly (some c) {.fsm} s (s.scaleFsm c).state := by
  rcases s.scaleFsm_cases c with ⟨f, hfail, -⟩ | ⟨-, hskip | ⟨-, p, -, -, hdone⟩⟩
  · rw [hfail]
    exact refl s
  · rw [hskip]
    exact of_codeset_eq
  · rw [hdone]
    exact of_setCodeset fun _ => rfl

theorem extractBandEnd (s : State) (c : CsId) : WritesOnly (some c) W s (s.extractBandEnd c).state := by
  have hclear (v : TableValid) : WritesOnly (some c) W s (s.setValid c v) := by
    rw [State.setValid_eq]
    exact of_setCodeset fun _ => rfl
  rcases s.extractBandEnd_cases c with ⟨f, hfail, -⟩ | ⟨-, -, -, -, hdone⟩
  · rw [hfail]
    exact hclear _
  · rw [hdone]
    exact (hclear _).trans (of_setCodeset fun _ => rfl)

theorem initDecoderFsm (s : State) (c : CsId) : WritesOnly (some c) {.fsm} s (s.initDecoderFsm c).state :=
  andThen (loadFsm s c) fun t => andThen (scaleFsm t c) fun u => andThen (extractBandEnd u c) fun _ => of_codeset_eq

theorem freeCodebooks (s : State) (c : CsId) :
    WritesOnly (some c) {.newcodes, .fastbook, .valuebook, .fsm} s (s.setCodeset c (s.codeset c).freed) :=
  of_setCodeset fun _ => rfl

/-! ### The decode commands -/

theorem consume {n : Nat} (h : s.consume n = .ok t) : WritesOnly o W s t := by
  obtain ⟨-, rfl⟩ := (s.consume_ok_iff t n).1 h
  exact of_codeset_eq

theorem bandEndCheck {site : Site} (h : s.bandEndCheck c site = some t) : WritesOnly o W s t := by
  rcases s.bandEndCheck_cases c site with hnone | ⟨-, -, -, -, hsome⟩
  · rw [hnone] at h
    cases h
  · rw [hsome] at h
    cases h
    exact of_codeset_eq

theorem vlcStep {site : Site} {r : VlcStep} (h : s.vlcStep c site = .ok (r, t)) : WritesOnly o W s t := by
  rcases s.vlcStep_cases c site with ⟨f, hfail, -⟩ | ⟨u, hband, hok⟩ | ⟨r', n, -, -, -, hok⟩
  · rw [hfail] at h
    cases h
  · rw [hok] at h
    cases h
    exact bandEndCheck hband
  · rw [hok] at h
    cases h
    exact of_codeset_eq

theorem fsmStep {site : Site} {e : Option FsmEntry} (h : s.fsmStep c site = .ok (e, t)) : WritesOnly (some c) W s t := by
  rcases s.fsmStep_cases c site with ⟨f, hfail, -⟩ | ⟨u, hband, hok⟩ | ⟨e', -, -, -, -, hok⟩
  · rw [hfail] at h
    cases h
  · rw [hok] at h
    cases h
    exact bandEndCheck hband
  · rw [hok] at h
    cases h
    exact of_setCodeset (State.codeset_setCodeset_congr fun _ => rfl)

/-- A run writes what its steps write. -/
theorem runLoop {f : Nat → State → RunStep} (hf : ∀ k u r t, f k u = .ok (r, t) → WritesOnly o W u t) (left steps : Nat)
    (s : State) : WritesOnly o W s (runLoop f left steps s).state :=
  runLoop_induct (P := WritesOnly o W s) (Q := WritesOnly o W s) (fun _ h => h) (fun _ h => h.trans of_codeset_eq)
    (fun k u t h hstep => (h.trans (hf k u _ t hstep)).trans of_codeset_eq)
    (fun k u w0 w1 t h hstep => (h.trans (hf k u _ t hstep)).trans (of_codeset_eq (t.emit_codeset w0 w1))) left steps s (refl s)

theorem vlcRun (s : State) (c : CsId) (n : Nat) : WritesOnly o W s (s.vlcRun c n).state := by
  unfold State.vlcRun
  split
  · exact refl s
  · refine trans of_codeset_eq (runLoop (fun k u r t h => ?_) n 0 _)
    obtain ⟨p, b, rfl⟩ := vlcRunStep_ok h
    exact of_codeset_eq

theorem fsmRun (s : State) (c : CsId) (n : Nat) : WritesOnly (some c) W s (s.fsmRun c n).state := by
  unfold State.fsmRun
  split
  · exact refl s
  · refine trans of_codeset_eq (runLoop (fun k u r t h => ?_) n 0 _)
    obtain ⟨p, b, x, rfl⟩ := fsmRunStep_ok h
    exact of_setCodeset (State.codeset_setCodeset_congr fun _ => rfl)

theorem vlcDecode (s : State) (c : CsId) : WritesOnly o W s (s.vlcDecode c).state := by
  unfold State.vlcDecode
  split
  · exact refl s
  · split
    · exact refl s
    · rename_i r t hstep
      exact (vlcStep hstep).trans of_codeset_eq

theorem fsmStepCommand (s : State) (c : CsId) : WritesOnly (some c) W s (s.fsmStepCommand c).state := by
  unfold State.fsmStepCommand
  split
  · exact refl s
  · split
    · exact refl s
    · rename_i t hstep
      exact (fsmStep hstep).trans of_codeset_eq
    · rename_i e t hstep
      exact (fsmStep hstep).trans of_codeset_eq

theorem fsmSetState (s : State) (c : CsId) (n : Nat) : WritesOnly (some c) W s (s.fsmSetState c n).state := by
  unfold State.fsmSetState
  dsimp only
  split
  · exact refl s
  · split
    · exact refl s
    · exact of_setCodeset fun _ => rfl

/-! ### The bit-shift unit -/

theorem bsPeek (s : State) (n : Nat) : WritesOnly o W s (s.bsPeek n).state := by
  unfold State.bsPeek
  split
  · exact refl s
  · exact of_codeset_eq

theorem bsGet (s : State) (n : Nat) : WritesOnly o W s (s.bsGet n).state := by
  unfold State.bsGet
  split
  · exact refl s
  · split
    · exact refl s
    · rename_i t hok
      exact (consume hok).trans of_codeset_eq

theorem bsSkip (s : State) (n : Nat) : WritesOnly o W s (s.bsSkip n).state := by
  unfold State.bsSkip
  split
  · exact refl s
  · rename_i t hok
    exact consume hok

end State.WritesOnly

/-! ### All commands -/

/-- The tables that a command may write or release. -/
def tablesOf : Instr → Set Table
  | .initCodebooks _ => {.newcodes, .fastbook, .valuebook, .cubic, .work}
  | .sortRunlength _ => {.work}
  | .buildRunlength _ => {.newcodes, .work}
  | .fillScanLut _ | .fillCodeLut _ => {.fastbook}
  | .buildCubic => {.cubic}
  | .fillVlcTable _ => {.valuebook, .cubic}
  | .loadFsm _ | .scaleFsm _ | .initDecoderFsm _ => {.fsm}
  | .freeCodebooks _ => {.newcodes, .fastbook, .valuebook, .fsm}
  | .nop | .extractBandEnd _ | .matchPattern _ _ | .bsPeek _ | .bsGet _ | .bsSkip _ | .vlcDecode _ | .vlcRun _ _
  | .fsmSetState _ _ | .fsmStep _ | .fsmRun _ _ => ∅

open State.WritesOnly in
/-- Every command writes only its tables, in the codeset it names. -/
theorem exec_writesOnly {i : Instr} {s t : State} (h : exec i s = .next t) :
    s.WritesOnly (i.codesetField.bind CsId.ofField) (tablesOf i) t := by
  cases i <;> obtain rfl := Host.Outcome.next.inj h
  case nop => exact (refl s).complete
  case initCodebooks => exact onCodeset fun c => (initCodebooks s c).finish
  case sortRunlength => exact onCodeset fun c => (sortRunLength s c).finish
  case buildRunlength => exact onCodeset fun c => (buildRunLength s c).finish
  case fillScanLut => exact onCodeset fun c => (fillScanLut s c).finish
  case fillCodeLut => exact onCodeset fun c => (fillCodeLut s c).finish
  case buildCubic => exact (buildCubic s).complete
  case fillVlcTable => exact onCodeset fun c => (fillVlcTable s c).finish
  case loadFsm => exact onCodeset fun c => (loadFsm s c).finish
  case scaleFsm => exact onCodeset fun c => (scaleFsm s c).finish
  case extractBandEnd => exact onCodeset fun c => (extractBandEnd s c).finish
  case initDecoderFsm => exact onCodeset fun c => (initDecoderFsm s c).finish
  case freeCodebooks => exact onCodeset fun c => (freeCodebooks s c).complete
  case matchPattern imm => exact onCodeset fun c => (matchCommand s c imm.toNat).finish
  case bsPeek imm => exact (bsPeek s imm.toNat).finish
  case bsGet imm => exact (bsGet s imm.toNat).finish
  case bsSkip imm => exact (bsSkip s imm.toNat).finish
  case vlcDecode => exact onCodeset fun c => (vlcDecode s c).finish
  case vlcRun imm => exact onCodeset fun c => (vlcRun s c imm.toNat).finish
  case fsmSetState imm => exact onCodeset fun c => (fsmSetState s c imm.toNat).finish
  case fsmStep => exact onCodeset fun c => (fsmStepCommand s c).finish
  case fsmRun imm => exact onCodeset fun c => (fsmRun s c imm.toNat).finish

section Writers
variable {i : Instr}

theorem newcodes_notMem_tablesOf (h : ∀ cs, i ≠ .buildRunlength cs ∧ i ≠ .initCodebooks cs ∧ i ≠ .freeCodebooks cs) :
    .newcodes ∉ tablesOf i := by
  cases i <;> simp [tablesOf] at h ⊢

theorem fastbook_notMem_tablesOf
    (h : ∀ cs, i ≠ .fillScanLut cs ∧ i ≠ .fillCodeLut cs ∧ i ≠ .initCodebooks cs ∧ i ≠ .freeCodebooks cs) :
    .fastbook ∉ tablesOf i := by
  cases i <;> simp [tablesOf] at h ⊢

theorem valuebook_notMem_tablesOf (h : ∀ cs, i ≠ .fillVlcTable cs ∧ i ≠ .initCodebooks cs ∧ i ≠ .freeCodebooks cs) :
    .valuebook ∉ tablesOf i := by
  cases i <;> simp [tablesOf] at h ⊢

theorem fsm_notMem_tablesOf
    (h : ∀ cs, i ≠ .loadFsm cs ∧ i ≠ .scaleFsm cs ∧ i ≠ .initDecoderFsm cs ∧ i ≠ .freeCodebooks cs) :
    .fsm ∉ tablesOf i := by
  cases i <;> simp [tablesOf] at h ⊢

theorem cubic_notMem_tablesOf (h : ∀ cs, i ≠ .fillVlcTable cs ∧ i ≠ .initCodebooks cs) (hcubic : i ≠ .buildCubic) :
    .cubic ∉ tablesOf i := by
  cases i <;> simp [tablesOf] at h hcubic ⊢

theorem work_notMem_tablesOf (h : ∀ cs, i ≠ .sortRunlength cs ∧ i ≠ .buildRunlength cs ∧ i ≠ .initCodebooks cs) :
    .work ∉ tablesOf i := by
  cases i <;> simp [tablesOf] at h ⊢

end Writers

/-- Settles O11: every command writes only its own tables in the codeset it names, and `tablesOf` lists none for a command that
the statement does not name. -/
theorem tablesWrittenOnlyByTheirCommands : Obligations.TablesWrittenOnlyByTheirCommands := fun _ _ _ h =>
  have hw := exec_writesOnly h
  ⟨hw.codeset, fun c hi => hw.newcodes (newcodes_notMem_tablesOf hi) c, fun c hi => hw.fastbook (fastbook_notMem_tablesOf hi) c,
    fun c hi => hw.valuebook (valuebook_notMem_tablesOf hi) c, fun c hi => hw.fsm (fsm_notMem_tablesOf hi) c,
    fun hi hcubic => hw.cubic (cubic_notMem_tablesOf hi hcubic), fun hi => hw.work (work_notMem_tablesOf hi)⟩

end Sys2Proof.Machine
end

section
/-!
SUPPORT. What every command body keeps, once each: the part of the state that no command writes (spec/10_state.md R35 to R51), and
the invariant of the tables, registers and memories that a command does write.
-/

namespace Sys2Proof.Machine

/-! ### The part of the state that no command body writes -/

/-- The host-written registers of a descriptor block (R49 to R52); all else of the codeset is blank. -/
def Codeset.descriptors (k : Codeset) : Codeset :=
  { Codeset.reset with
    csFlags := k.csFlags
    magBase := k.magBase
    magLen := k.magLen
    rlcBase := k.rlcBase
    rlcLen := k.rlcLen
    rlvBase := k.rlvBase
    rlvLen := k.rlvLen
    tagBase := k.tagBase
    fsmBase := k.fsmBase
    zeroBits := k.zeroBits
    zeroSize := k.zeroSize }

/-- The state with every field blank that a command may write before its completion. -/
def State.kept (s : State) : State :=
  { s with
    status := { s.status with bandEnd := false, unmatched := false }
    result0 := 0
    result1 := 0
    result2 := 0
    result3 := 0
    bsPos := 0
    outPtr := 0
    workLen := 0
    cs0 := s.cs0.descriptors
    cs1 := s.cs1.descriptors
    cs2 := s.cs2.descriptors
    cubic := ⟨0, [], []⟩
    work := ⟨0, [], []⟩
    outmem := []
    progress := .start }

theorem State.kept_setCodeset (s : State) {c : CsId} {v : Codeset} (h : v.descriptors = (s.codeset c).descriptors) :
    (s.setCodeset c v).kept = s.kept := by
  cases c <;> simp only [State.kept, State.setCodeset, h] <;> rfl

/-! ### The invariant of what a command body may write -/

/-- The invariant but for the error report and the engine. -/
abbrev State.DataOk (s : State) : Prop :=
  s.params.inRange ∧ s.MemoriesOk ∧ (∀ c, (s.codeset c).Ok s.params) ∧ s.WorkOk

theorem State.inv_iff (s : State) : s.Inv ↔ s.DataOk ∧ s.ErrorOk ∧ s.EngineOk where
  mp := fun ⟨hp, hmem, h0, h1, h2, hwork, herr, heng⟩ =>
    ⟨⟨hp, hmem, fun | .c0 => h0 | .c1 => h1 | .c2 => h2, hwork⟩, herr, heng⟩
  mpr := fun ⟨⟨hp, hmem, hcs, hwork⟩, herr, heng⟩ => ⟨hp, hmem, hcs .c0, hcs .c1, hcs .c2, hwork, herr, heng⟩

theorem State.DataOk.setCodeset {s : State} (h : s.DataOk) {c : CsId} {v : Codeset} (hv : v.Ok s.params) :
    (s.setCodeset c v).DataOk := by
  obtain ⟨hp, hmem, hcs, hwork⟩ := h
  refine ⟨by simpa using hp, by simpa [State.MemoriesOk] using hmem, fun d => ?_, by simpa [State.WorkOk] using hwork⟩
  rw [State.setCodeset_params]
  by_cases hdc : d = c
  · rw [hdc, State.codeset_setCodeset_same]
    exact hv
  · rw [State.codeset_setCodeset_of_ne s v hdc]
    exact hcs d

section Codeset
variable {p : Params} {k : Codeset}

theorem Codeset.Ok.with_newcodes (h : k.Ok p) {r : Ram NewCode} {v : Bool}
    (hlen : r.cells.length = if v then Config.newCodebookLength else 0) (hsize : ∀ e ∈ r.cells, e.size.toNat ≤ p.budget) :
    Codeset.Ok p { k with newcodes := r, valid := { k.valid with newcodes := v } } := by
  obtain ⟨hfsm, ⟨-, -, hfast, hlegacy, hvalues, hram⟩, hband⟩ := h
  exact ⟨hfsm, ⟨hlen, hsize, hfast, hlegacy, hvalues, hram⟩, hband⟩

theorem Codeset.Ok.with_fastbook (h : k.Ok p) {r : Ram FastEntry} {v legacy : Bool}
    (hlen : r.cells.length = if v then Config.fastbookDepth else 0) (hv : legacy = true → v = true) :
    Codeset.Ok p { k with fastbook := r, valid := { k.valid with fastbook := v, fastbookLegacy := legacy } } := by
  obtain ⟨hfsm, ⟨hnew, hsize, -, -, hvalues, hram⟩, hband⟩ := h
  exact ⟨hfsm, ⟨hnew, hsize, hlen, hv, hvalues, hram⟩, hband⟩

theorem Codeset.Ok.with_valuebook (h : k.Ok p) {r : Ram ValueEntry} {v : Bool}
    (hlen : r.cells.length = if v then 2 ^ p.valueSize else 0) :
    Codeset.Ok p { k with valuebook := r, valid := { k.valid with valuebook := v } } := by
  obtain ⟨hfsm, ⟨hnew, hsize, hfast, hlegacy, -, hram⟩, hband⟩ := h
  exact ⟨hfsm, ⟨hnew, hsize, hfast, hlegacy, hlen, hram⟩, hband⟩

/-- The FSM table and its registers replaced by those of a loaded table that fits its RAM. -/
theorem Codeset.Ok.with_fsm (h : k.Ok p) {r : Ram FsmEntry} {flags : FsmFlags} {ns : Word} {x : BitVec 16}
    (hinit : flags.initialized = true) (hpos : 1 ≤ ns.toNat) (hmax : ns.toNat ≤ 65536) (hx : x.toNat < ns.toNat)
    (hfit : ns.toNat * 2 ^ p.indexSize ≤ p.fsmRamEntries) (hfilled : ns.toNat * 2 ^ p.indexSize ≤ r.cells.length)
    (hram : r.cells.length ≤ p.fsmRamEntries) :
    Codeset.Ok p { k with fsm := r, fsmNumStates := ns, fsmFlags := flags, fsmState := x } := by
  obtain ⟨-, ⟨hnew, hsize, hfast, hlegacy, hvalues, -⟩, hband⟩ := h
  exact ⟨⟨fun _ => ⟨hpos, hmax, hfit, hx, hfilled⟩, fun hnot => by rw [hinit] at hnot; cases hnot⟩,
    ⟨hnew, hsize, hfast, hlegacy, hvalues, hram⟩, hband⟩

/-- A move to another state of the table: an index below the state count, which says that one is loaded. -/
theorem Codeset.Ok.with_fsmState (h : k.Ok p) {x : BitVec 16} (hx : x.toNat < k.fsmNumStates.toNat) :
    Codeset.Ok p { k with fsmState := x } := by
  obtain ⟨⟨hloaded, hempty⟩, htables, hband⟩ := h
  cases hi : k.fsmFlags.initialized with
  | false => simp [(hempty hi).2.1] at hx
  | true =>
    obtain ⟨hpos, hmax, hfit, -, hfilled⟩ := hloaded hi
    exact ⟨⟨fun _ => ⟨hpos, hmax, hfit, hx, hfilled⟩, fun hnot => by rw [hi] at hnot; cases hnot⟩, htables, hband⟩

theorem Codeset.Ok.without_bandEnd (h : k.Ok p) : Codeset.Ok p { k with valid := { k.valid with bandEnd := false } } :=
  ⟨h.1, h.2.1, fun hnot => by cases hnot⟩

theorem Codeset.Ok.with_bandEnd (h : k.Ok p) {code size : Word} (hpos : 1 ≤ size.toNat) (hmax : size.toNat ≤ 32)
    (hcode : code.toNat < 2 ^ size.toNat) :
    Codeset.Ok p { k with bandEndCode := code, bandEndSize := size, valid := { k.valid with bandEnd := true } } :=
  ⟨h.1, h.2.1, fun _ => ⟨hpos, hmax, hcode⟩⟩

/-- A codeset without derived state (R218). -/
theorem Codeset.Ok.of_empty (h : k.Empty) : k.Ok p := by
  obtain ⟨hvalid, hflags, hns, hstate, -, -, hnew, hfast, hvalues, hfsm⟩ := h
  simp [Codeset.Ok, Codeset.FsmOk, Codeset.TablesOk, Codeset.BandEndOk, hvalid, hflags, hns, hstate, hnew, hfast, hvalues, hfsm,
    TableValid.reset, FsmFlags.reset]

end Codeset

/-! ### What is kept from one state to the next -/

/-- From `s` to `t` nothing has changed that no command body writes, and the invariant of the rest has survived. -/
structure State.Keeps (s t : State) : Prop where
  kept : t.kept = s.kept
  ok : s.DataOk → t.DataOk

/-- A body that ends well for a command started in `s`: it keeps what a body must keep, and a failure has a code (R301). -/
def Body.Sound (s : State) : Body → Prop
  | .done t => s.Keeps t
  | .failed f t => f.code ≠ .none ∧ s.Keeps t

/-- The same of a step of a run, which leaves the state where it fails (R251). -/
def StepSound {α : Type} (s : State) : Except Failure (α × State) → Prop
  | .error f => f.code ≠ .none
  | .ok (_, t) => s.Keeps t

theorem Body.Sound.state {s : State} {b : Body} (h : b.Sound s) : s.Keeps b.state := by
  cases b with
  | done t => exact h
  | failed f t => exact h.2

namespace State.Keeps

variable {s t u : State} {c : CsId}

theorem refl (s : State) : Keeps s s := ⟨rfl, id⟩

theorem trans (h : Keeps s t) (h' : Keeps t u) : Keeps s u := ⟨h'.kept.trans h.kept, h'.ok ∘ h.ok⟩

theorem andThen {b : Body} {k : State → Body} (h : b.Sound s) (hk : ∀ t, (k t).Sound t) : (b.andThen k).Sound s := by
  cases b with
  | failed f t => exact h
  | done t =>
    have hkt := hk t
    rw [Body.done_andThen]
    cases hb : k t with
    | done u => exact trans h (hb ▸ hkt : Body.Sound t (.done u))
    | failed f u => exact (hb ▸ hkt : Body.Sound t (.failed f u)).imp_right (trans h)

theorem then_body {b : Body} (h : Keeps s t) (hb : b.Sound t) : b.Sound s := by
  cases b with
  | done u => exact h.trans hb
  | failed f u => exact hb.imp_right h.trans

/-- A new content of codeset `c` with the old descriptors that keeps the invariant. -/
theorem setCodeset {v : Codeset} (hok : s.params.inRange → (s.codeset c).Ok s.params → v.Ok s.params)
    (hd : v.descriptors = (s.codeset c).descriptors := by exact rfl) : Keeps s (s.setCodeset c v) where
  kept := s.kept_setCodeset hd
  ok := fun h => h.setCodeset (hok h.1 (h.2.2.1 c))

theorem outWrite (s : State) (a v : Word) : Keeps s (s.outWrite a v) where
  kept := rfl
  ok := fun ⟨hp, ⟨hsrc, hbs, hout⟩, hcs, hwork⟩ => ⟨hp, ⟨hsrc, hbs, Memory.wf_writeWord hout _ v a.isLt⟩, hcs, hwork⟩

theorem emit (s : State) (w0 w1 : Word) : Keeps s (s.emit w0 w1) where
  kept := by simp [State.kept]
  ok := fun ⟨hp, ⟨hsrc, hbs, hout⟩, hcs, hwork⟩ => by
    refine ⟨by simpa using hp, ⟨by simpa using hsrc, by simpa using hbs, ?_⟩, by simpa using hcs,
      by simpa [State.WorkOk] using hwork⟩
    exact Memory.wf_writeWord (Memory.wf_writeWord hout _ w0 s.outPtr.isLt) _ w1 (s.outPtr + 1).isLt

theorem with_result0 (s : State) (n : Word) : Keeps s { s with result0 := n } := ⟨rfl, id⟩

/-! ### The table generator -/

theorem sortRunLength (s : State) (c : CsId) : (s.sortRunLength c).Sound s := by
  rcases s.sortRunLength_cases c with ⟨f, hfail, hcode⟩ | ⟨-, hfit, -, -, hdone⟩
  · rw [hfail]
    exact ⟨by rcases hcode with h | h <;> simp [h], refl s⟩
  · rw [hdone]
    generalize s.copiedRuns c (s.hasCountOne c) = runs at hfit
    refine ⟨rfl, fun ⟨hp, hmem, hcs, hcubic, hwork, _⟩ => ⟨hp, hmem, hcs, hcubic, ?_, ?_⟩⟩
    · simpa [Ram.length_store, length_sortRuns] using ⟨hfit, hwork⟩
    · simp only [Ram.length_store, length_sortRuns, BitVec.toNat_ofNat]
      exact (Nat.mod_le _ _).trans (Nat.le_max_left _ _)

theorem startRunLength (s : State) (c : CsId) : Keeps s (s.startRunLength c) :=
  setCodeset fun _ h => h.with_newcodes rfl (by simp)

theorem buildRunLength (s : State) (c : CsId) : (s.buildRunLength c).Sound s := by
  refine then_body (startRunLength s c) (andThen (sortRunLength _ c) fun t => ?_)
  refine trans (setCodeset fun hp h => h.with_newcodes (by simp) ?_) ⟨rfl, id⟩
  intro e he
  simp only [Ram.rebuild_cells, List.mem_map] at he
  obtain ⟨r, -, rfl⟩ := he
  simp only [compose, BitVec.toNat_ofNat]
  exact (Nat.mod_le _ _).trans (size_composition _ _ r)

theorem startFill (s : State) (c : CsId) : Keeps s (s.startFill c) :=
  setCodeset fun _ h => h.with_fastbook rfl (by simp)

theorem finishFill (s : State) (c : CsId) (legacy : Bool) (f : Nat → Option FastEntry) :
    (s.finishFill c legacy (fillEntries f Config.fastbookDepth 0)).Sound s := by
  have hl (h : (fillEntries f Config.fastbookDepth 0).2 = none) := (fillEntries_of_none h).1
  generalize fillEntries f Config.fastbookDepth 0 = filled at hl
  rcases s.finishFill_cases c legacy filled.1 filled.2 with ⟨idx, -, hfail⟩ | ⟨hk, hdone⟩
  · rw [hfail]
    exact ⟨by simp, setCodeset fun _ ⟨hfsm, htables, hband⟩ => ⟨hfsm, htables, hband⟩⟩
  · rw [hdone]
    exact trans (setCodeset fun _ h => h.with_fastbook (by simp [hl hk]) (by simp)) ⟨by simp [State.kept], id⟩

theorem fillScanLut (s : State) (c : CsId) : (s.fillScanLut c).Sound s := by
  rcases s.fillScanLut_cases c with ⟨f, hfail, hcode⟩ | ⟨-, hfill⟩
  · rw [hfail]
    exact ⟨by simp [hcode], startFill s c⟩
  · rw [hfill]
    exact then_body (startFill s c) (finishFill _ c _ _)

theorem fillCodeLut (s : State) (c : CsId) : (s.fillCodeLut c).Sound s := by
  rcases s.fillCodeLut_cases c with ⟨f, hfail, hcode⟩ | ⟨-, hfill⟩
  · rw [hfail]
    exact ⟨by simp [hcode], startFill s c⟩
  · rw [hfill]
    generalize (fun idx => some (legacyEntry _ _ _ idx)) = f -- else unification runs the fill
    exact then_body (startFill s c) (finishFill _ c true f)

theorem buildCubic (s : State) : Keeps s s.buildCubic where
  kept := by simp only [State.kept, State.buildCubic]
  ok := fun ⟨hp, hmem, hcs, hcubic, hwork⟩ => by
    refine ⟨by simpa using hp, by simpa [State.MemoriesOk] using hmem, by simpa using hcs, .inr ?_, by simpa using hwork⟩
    rw [State.buildCubic_cubic, Ram.length_store, List.length_map, length_forwardFill, length_cubicMarks]
    omega

theorem startValues (s : State) (c : CsId) : Keeps s (s.startValues c) :=
  setCodeset fun _ h => h.with_valuebook rfl

theorem fillVlcTable (s : State) (c : CsId) : (s.fillVlcTable c).Sound s := by
  rcases s.fillVlcTable_cases c with ⟨f, hfail, hcode⟩ | ⟨p, -, -, hdone⟩
  · rw [hfail]
    exact ⟨hcode, startValues s c⟩
  · rw [hdone]
    refine (startValues s c).trans (trans ?_ (trans (setCodeset fun _ h => h.with_valuebook (by simp)) ⟨rfl, id⟩))
    split
    · exact buildCubic _
    · exact refl _

theorem initLookup (s : State) (c : CsId) : (s.initLookup c).Sound s :=
  andThen (buildRunLength s c) fun t => by
    split
    · exact fillCodeLut t c
    · exact fillScanLut t c

theorem initValues (s : State) (c : CsId) : (s.initValues c).Sound s :=
  andThen (fillVlcTable s c) fun _ =>
    trans (setCodeset fun _ ⟨hfsm, htables, hband⟩ => ⟨hfsm, htables, hband⟩) ⟨rfl, id⟩

theorem initCodebooks (s : State) (c : CsId) : (s.initCodebooks c).Sound s := by
  unfold State.initCodebooks
  split
  · exact ⟨rfl, id⟩
  · exact andThen (initLookup s c) fun t => initValues t c

theorem matchCommand (s : State) (c : CsId) (width : Nat) : (s.matchCommand c width).Sound s := by
  rcases s.matchCommand_cases c width with ⟨f, hfail, hcode⟩ | ⟨-, -, -, ⟨m, -, hdone⟩ | ⟨-, hdone⟩⟩
  · rw [hfail]
    exact ⟨by rcases hcode with h | h <;> simp [h], refl s⟩
  · rw [hdone]
    exact ⟨rfl, id⟩
  · rw [hdone]
    exact ⟨rfl, id⟩

/-! ### The FSM tables -/

theorem loadFsm (s : State) (c : CsId) : (s.loadFsm c).Sound s := by
  rcases s.loadFsm_cases c with ⟨-, hskip⟩ | ⟨⟨hinit, -⟩, ⟨-, hfail⟩ | ⟨hcount, hdone⟩⟩
  · rw [hskip]
    exact ⟨rfl, id⟩
  · rw [hfail]
    exact ⟨by simp, refl s⟩
  · rw [hdone]
    obtain ⟨hpos, hmax, hfit⟩ := (badStateCount_eq_false_iff _ _).1 hcount
    refine trans (setCodeset fun _ h => ?_) ⟨rfl, id⟩
    have hempty : (s.codeset c).fsm.cells = [] := (h.1.2 hinit).2.2.2
    exact h.with_fsm rfl hpos hmax hpos hfit (by simp [Ram.length_store]) (by simpa [Ram.length_store, hempty] using hfit)

theorem scaleFsm (s : State) (c : CsId) : (s.scaleFsm c).Sound s := by
  rcases s.scaleFsm_cases c with ⟨f, hfail, hcode⟩ | ⟨hinit, hskip | ⟨-, p, -, -, hdone⟩⟩
  · rw [hfail]
    exact ⟨hcode, refl s⟩
  · rw [hskip]
    exact ⟨rfl, id⟩
  · rw [hdone]
    refine trans (setCodeset fun _ h => ?_) ⟨rfl, id⟩
    obtain ⟨hpos, hmax, hfit, hstate, hfilled⟩ := h.1.1 hinit
    have hram : (s.codeset c).fsm.cells.length ≤ s.params.fsmRamEntries := h.2.1.2.2.2.2.2
    exact h.with_fsm hinit hpos hmax hstate hfit (by simp [Ram.length_store, State.length_fsmList])
      (by simpa [Ram.length_store, State.length_fsmList] using ⟨hfit, hram⟩)

theorem extractBandEnd (s : State) (c : CsId) : (s.extractBandEnd c).Sound s := by
  have hclear : Keeps s (s.setValid c { (s.codeset c).valid with bandEnd := false }) :=
    setCodeset fun _ h => h.without_bandEnd
  rcases s.extractBandEnd_cases c with ⟨f, hfail, hcode⟩ | ⟨-, hpos, hmax, hcode, hdone⟩
  · rw [hfail]
    exact ⟨by simp [hcode], hclear⟩
  · rw [hdone]
    exact hclear.trans (trans (setCodeset fun _ h => h.with_bandEnd hpos hmax hcode) ⟨rfl, id⟩)

theorem initDecoderFsm (s : State) (c : CsId) : (s.initDecoderFsm c).Sound s :=
  andThen (loadFsm s c) fun t => andThen (scaleFsm t c) fun u => andThen (extractBandEnd u c) fun _ => ⟨rfl, id⟩

theorem freeCodebooks (s : State) (c : CsId) : Keeps s (s.setCodeset c (s.codeset c).freed) :=
  setCodeset fun _ _ => Codeset.Ok.of_empty ⟨rfl, rfl, rfl, rfl, rfl, rfl, rfl, rfl, rfl, rfl⟩

/-! ### The decode commands -/

theorem consume {n : Nat} (h : s.consume n = .ok t) : Keeps s t := by
  obtain ⟨-, rfl⟩ := (s.consume_ok_iff t n).1 h
  exact ⟨rfl, id⟩

theorem consume_error_code {f : Failure} {n : Nat} (h : s.consume n = .error f) : f.code ≠ .none := by
  obtain ⟨-, rfl⟩ := (s.consume_error_iff f n).1 h
  simp

theorem bandEndCheck {site : Site} (h : s.bandEndCheck c site = some t) : Keeps s t := by
  rcases s.bandEndCheck_cases c site with hnone | ⟨-, -, -, -, hsome⟩
  · rw [hnone] at h
    cases h
  · rw [hsome] at h
    cases h
    exact ⟨rfl, id⟩

theorem vlcStep (s : State) (c : CsId) (site : Site) : StepSound s (s.vlcStep c site) := by
  rcases s.vlcStep_cases c site with ⟨f, hfail, hcode⟩ | ⟨u, hband, hok⟩ | ⟨r, n, -, -, -, hok⟩
  · rw [hfail]
    show f.code ≠ .none
    rcases hcode with h | h <;> simp [h]
  · rw [hok]
    exact bandEndCheck hband
  · rw [hok]
    exact ⟨rfl, id⟩

theorem fsmStep (s : State) (c : CsId) (site : Site) : StepSound s (s.fsmStep c site) := by
  rcases s.fsmStep_cases c site with ⟨f, hfail, hcode⟩ | ⟨u, hband, hok⟩ | ⟨e, -, -, hstate, -, hok⟩
  · rw [hfail]
    show f.code ≠ .none
    rcases hcode with h | h <;> simp [h]
  · rw [hok]
    exact bandEndCheck hband
  · rw [hok]
    refine trans (t := { s with bsPos := s.bsPos + BitVec.ofNat 32 (e.preSkip.toNat + e.postSkip.toNat) }) ⟨rfl, id⟩ ?_
    exact setCodeset fun _ (h : (s.codeset c).Ok s.params) => h.with_fsmState hstate

theorem vlcRunStep (c : CsId) (k : Nat) (s : State) : StepSound s (vlcRunStep c k s) := by
  have hstep := vlcStep s c [7, k]
  unfold Machine.vlcRunStep
  split <;> rename_i heq <;> rw [heq] at hstep
  · exact hstep
  · split <;> exact hstep

theorem fsmRunStep (c : CsId) (k : Nat) (s : State) : StepSound s (fsmRunStep c k s) := by
  have hstep := fsmStep s c [7, k]
  unfold Machine.fsmRunStep
  split <;> rename_i heq <;> rw [heq] at hstep <;> exact hstep

/-- A run is sound where its steps are. -/
theorem runLoop {f : Nat → State → RunStep} (hf : ∀ k u, StepSound u (f k u)) (left steps : Nat) (s : State) :
    (runLoop f left steps s).Sound s := by
  induction left generalizing steps s with
  | zero => exact ⟨rfl, id⟩
  | succ n ih =>
    have hstep := hf steps s
    unfold Machine.runLoop
    split <;> rename_i heq <;> rw [heq] at hstep
    · exact ⟨hstep, refl s⟩
    · exact trans hstep ⟨rfl, id⟩
    · exact then_body (trans hstep ((emit _ _ _).trans (with_result0 _ _))) (ih _ _)

theorem vlcRun (s : State) (c : CsId) (n : Nat) : (s.vlcRun c n).Sound s := by
  unfold State.vlcRun
  split
  · exact ⟨by simp, refl s⟩
  · exact then_body (t := { s with result0 := 0, result1 := 0 }) ⟨rfl, id⟩ (runLoop (vlcRunStep c) n 0 _)

theorem fsmRun (s : State) (c : CsId) (n : Nat) : (s.fsmRun c n).Sound s := by
  unfold State.fsmRun
  split
  · exact ⟨by simp, refl s⟩
  · exact then_body (t := { s with result0 := 0, result1 := 0 }) ⟨rfl, id⟩ (runLoop (fsmRunStep c) n 0 _)

theorem vlcDecode (s : State) (c : CsId) : (s.vlcDecode c).Sound s := by
  have hstep := vlcStep s c [7, 0]
  unfold State.vlcDecode
  split
  · exact ⟨by simp, refl s⟩
  · split <;> rename_i heq <;> rw [heq] at hstep
    · exact ⟨hstep, refl s⟩
    · exact trans hstep ⟨rfl, id⟩

theorem fsmStepCommand (s : State) (c : CsId) : (s.fsmStepCommand c).Sound s := by
  have hstep := fsmStep s c [7, 0]
  unfold State.fsmStepCommand
  split
  · exact ⟨by simp, refl s⟩
  · split <;> rename_i heq <;> rw [heq] at hstep
    · exact ⟨hstep, refl s⟩
    · exact trans hstep ⟨rfl, id⟩
    · exact trans hstep ⟨rfl, id⟩

theorem fsmSetState (s : State) (c : CsId) (n : Nat) : (s.fsmSetState c n).Sound s := by
  unfold State.fsmSetState
  dsimp only
  split
  · exact ⟨by simp, refl s⟩
  · split
    · exact ⟨by simp, refl s⟩
    · rename_i hn
      refine setCodeset fun _ h => h.with_fsmState ?_
      rw [BitVec.toNat_ofNat]
      exact (Nat.mod_le _ _).trans_lt (Nat.not_le.1 hn)

/-! ### The bit-shift unit -/

theorem bsPeek (s : State) (n : Nat) : (s.bsPeek n).Sound s := by
  unfold State.bsPeek
  split
  · exact ⟨by simp, refl s⟩
  · exact ⟨rfl, id⟩

theorem bsGet (s : State) (n : Nat) : (s.bsGet n).Sound s := by
  unfold State.bsGet
  split
  · exact ⟨by simp, refl s⟩
  · split
    · rename_i f hfail
      exact ⟨consume_error_code hfail, refl s⟩
    · rename_i t hok
      exact trans (consume hok) ⟨rfl, id⟩

theorem bsSkip (s : State) (n : Nat) : (s.bsSkip n).Sound s := by
  unfold State.bsSkip
  split
  · rename_i f hfail
    exact ⟨consume_error_code hfail, refl s⟩
  · rename_i t hok
    exact consume hok

end State.Keeps

/-! ### All commands -/

/-- The bodies that a command has for the codesets are sound, so the command ends as a sound body: for codeset 3 it fails. -/
theorem State.onCodeset_sound {s : State} {cs : BitVec 2} {b : CsId → Body} (h : ∀ c, (b c).Sound s) :
    ∃ b' : Body, b'.Sound s ∧ s.onCodeset cs (fun c => (b c).finish) = b'.finish := by
  rcases s.onCodeset_cases cs fun c => (b c).finish with ⟨hfail, -⟩ | ⟨c, -, hk⟩
  · exact ⟨.failed ⟨.badCodeset, s.cmd.toNat⟩ s, ⟨by simp, .refl s⟩, hfail⟩
  · exact ⟨b c, h c, hk⟩

open State in
/-- Every command ends as a sound body does. -/
theorem exec_sound {i : Instr} {s t : State} (h : exec i s = .next t) : ∃ b : Body, b.Sound s ∧ t = b.finish := by
  cases i <;> obtain rfl := Host.Outcome.next.inj h
  case nop => exact ⟨.done s, .refl s, rfl⟩
  case initCodebooks => exact onCodeset_sound (Keeps.initCodebooks s)
  case sortRunlength => exact onCodeset_sound (Keeps.sortRunLength s)
  case buildRunlength => exact onCodeset_sound (Keeps.buildRunLength s)
  case fillScanLut => exact onCodeset_sound (Keeps.fillScanLut s)
  case fillCodeLut => exact onCodeset_sound (Keeps.fillCodeLut s)
  case buildCubic => exact ⟨.done s.buildCubic, .buildCubic s, rfl⟩
  case fillVlcTable => exact onCodeset_sound (Keeps.fillVlcTable s)
  case loadFsm => exact onCodeset_sound (Keeps.loadFsm s)
  case scaleFsm => exact onCodeset_sound (Keeps.scaleFsm s)
  case extractBandEnd => exact onCodeset_sound (Keeps.extractBandEnd s)
  case initDecoderFsm => exact onCodeset_sound (Keeps.initDecoderFsm s)
  case freeCodebooks => exact onCodeset_sound (b := fun c => .done _) (Keeps.freeCodebooks s)
  case matchPattern imm => exact onCodeset_sound fun c => Keeps.matchCommand s c imm.toNat
  case bsPeek imm => exact ⟨_, Keeps.bsPeek s imm.toNat, rfl⟩
  case bsGet imm => exact ⟨_, Keeps.bsGet s imm.toNat, rfl⟩
  case bsSkip imm => exact ⟨_, Keeps.bsSkip s imm.toNat, rfl⟩
  case vlcDecode => exact onCodeset_sound (Keeps.vlcDecode s)
  case vlcRun imm => exact onCodeset_sound fun c => Keeps.vlcRun s c imm.toNat
  case fsmSetState imm => exact onCodeset_sound fun c => Keeps.fsmSetState s c imm.toNat
  case fsmStep => exact onCodeset_sound (Keeps.fsmStepCommand s)
  case fsmRun imm => exact onCodeset_sound fun c => Keeps.fsmRun s c imm.toNat

end Sys2Proof.Machine
end

section
/-!
SUPPORT. What no command writes (spec/10_state.md R35 to R51, spec/20_memory.md R81): the part that its body keeps, but for what the
completion reports.
-/

namespace Sys2Proof.Machine

/-- The part of the state that no command writes: what a body keeps, with the engine and the report of a completion blank. -/
def State.frame (s : State) : State :=
  { s.kept with
    engine := .idle
    status := { s.kept.status with done := false, err := false, errCode := .none }
    errInfo := 0
    srcRaces := []
    bsRaces := [] }

theorem State.frame_congr {s t : State} (h : t.kept = s.kept) : t.frame = s.frame := by
  simp only [State.frame, h]

theorem Body.frame_finish (b : Body) : b.finish.frame = b.state.frame := by cases b <;> rfl

/-- No command changes the frame. -/
theorem exec_frame {i : Instr} {s t : State} (h : exec i s = .next t) : t.frame = s.frame := by
  obtain ⟨b, hb, rfl⟩ := exec_sound h
  exact b.frame_finish.trans (State.frame_congr hb.state.kept)

theorem State.descriptors_of_frame {s t : State} (h : t.frame = s.frame) (c : CsId) :
    (t.codeset c).descriptors = (s.codeset c).descriptors := by
  cases c with
  | c0 => exact congrArg State.cs0 h
  | c1 => exact congrArg State.cs1 h
  | c2 => exact congrArg State.cs2 h

theorem Codeset.descriptors_eq_iff (k l : Codeset) : l.descriptors = k.descriptors ↔
    l.csFlags = k.csFlags ∧ l.magBase = k.magBase ∧ l.magLen = k.magLen ∧ l.rlcBase = k.rlcBase ∧ l.rlcLen = k.rlcLen ∧
      l.rlvBase = k.rlvBase ∧ l.rlvLen = k.rlvLen ∧ l.tagBase = k.tagBase ∧ l.fsmBase = k.fsmBase ∧ l.zeroBits = k.zeroBits ∧
      l.zeroSize = k.zeroSize := by
  simp [Codeset.descriptors]

/-- Settles O10: every field named is one of the frame, which no command changes. -/
theorem commandFrame : Obligations.CommandFrame := fun _ s t h =>
  have hf : t.frame = s.frame := exec_frame h
  have field {α : Type} (f : State → α) : f t.frame = f s.frame := congrArg f hf
  ⟨field State.params, field State.ctrl, field (·.status.overrun), field State.cmd, field State.arg0, field State.bsBase,
    field State.bsLen, field State.tblSel, field State.tblIndex, field State.tblData0, field State.tblData1,
    field State.tblData2, field State.tblData3, field State.resetLine, fun a => field (·.srcmem.read a),
    fun a => field (·.bsmem.read a), field State.inputs,
    fun c => (Codeset.descriptors_eq_iff _ _).1 (State.descriptors_of_frame hf c)⟩

end Sys2Proof.Machine
end

section
/-!
SUPPORT. Every event keeps the invariant: the parts of a running command, its completion, the host's accesses, the resets and the
accesses of other bus masters.
-/

namespace Sys2Proof.Machine

/-! ### From what a body keeps to the invariant -/

/-- The error report is none of what a body writes. -/
theorem State.Keeps.errorOk {s t : State} (h : s.Keeps t) (hs : s.ErrorOk) : t.ErrorOk :=
  (congrArg State.ErrorOk h.kept).mpr hs

/-- A sound body completes, or fails with a code, and the engine is idle. -/
theorem Body.Sound.finish_inv {s : State} {b : Body} (hb : b.Sound s) (hs : s.Inv) : b.finish.Inv := by
  obtain ⟨hdata, herr, -⟩ := s.inv_iff.1 hs
  have hidle {t : State} (h : t.engine.isBusy = false) (hraces : t.srcRaces = [] ∧ t.bsRaces = [] ∧ t.progress = .start) :
      t.EngineOk := ⟨fun _ => hraces, fun hbusy => by rw [h] at hbusy; cases hbusy⟩
  cases b with
  | done t => exact t.complete.inv_iff.2 ⟨hb.ok hdata, hb.errorOk herr, hidle rfl ⟨rfl, rfl, rfl⟩⟩
  | failed f t =>
    exact (t.fail f).inv_iff.2 ⟨hb.2.ok hdata, ⟨nofun, fun _ => hb.1⟩, hidle rfl ⟨rfl, rfl, rfl⟩⟩

/-- A part of a running command keeps the invariant: the command stays busy. -/
theorem State.Keeps.inv_of_busy {s t : State} (h : s.Keeps t) (hbusy : s.engine.isBusy = true) (hs : s.Inv) : t.Inv := by
  obtain ⟨hdata, herr, -, heng⟩ := s.inv_iff.1 hs
  have hengine : t.kept.engine = s.kept.engine := congrArg State.engine h.kept
  refine t.inv_iff.2 ⟨h.ok hdata, h.errorOk herr, fun hidle => ?_, fun _ => ?_⟩
  · rw [show s.engine = .idle from hengine.symm.trans hidle] at hbusy
    cases hbusy
  · exact (congrArg (fun u : State =>
      u.engine = .busy u.cmd ∧ u.status.done = false ∧ u.status.err = false ∧ u.resetLine = false) h.kept).mpr (heng hbusy)

/-! ### The running command -/

theorem State.running_sound {s : State} {i : Instr} {r : Run} (h : s.running i = some r) (k : Nat) (u : State) :
    StepSound u (r.step k u) := by
  rcases State.running_cases h with ⟨_, _, c, -, -, -, rfl⟩ | ⟨_, _, c, -, -, -, rfl⟩
  · exact State.Keeps.vlcRunStep c k u
  · exact State.Keeps.fsmRunStep c k u

theorem State.early_sound {s : State} {i : Instr} {b : Body} {p : Progress} (h : s.early i = some (b, p)) : b.Sound s := by
  obtain ⟨_, c, -, ⟨-, rfl, -⟩ | ⟨-, rfl, -⟩ | ⟨-, -, rfl, -⟩ | ⟨-, rfl, -⟩ | ⟨-, rfl, -⟩⟩ := State.early_cases h
  · exact State.Keeps.fillScanLut s c
  · exact State.Keeps.fillCodeLut s c
  · exact State.Keeps.initLookup s c
  · exact State.Keeps.vlcDecode s c
  · exact State.Keeps.fsmStepCommand s c

namespace State.Keeps

theorem atStep (s : State) : s.Keeps s.atStep := by
  unfold State.atStep
  split <;> exact ⟨rfl, id⟩

theorem stageRecord (s : State) (k : Nat) (w1 : Word) : s.Keeps (s.stageRecord k w1) :=
  (outWrite s (s.outPtr + 1) w1).trans ⟨rfl, id⟩

/-- A part of a command keeps what its body must keep. -/
theorem stage (s : State) (i : Instr) : s.Keeps (s.stage i) := by
  rcases s.stage_cases i with hs | ⟨-, hs⟩ | ⟨r, t, hr, -, -, hok, hs⟩ | ⟨r, t, w0, w1, hr, -, -, hok, hs⟩ | ⟨k, w1, -, hs⟩ |
    ⟨t, p, -, -, he, hs⟩ <;> rw [hs]
  · exact refl s
  · exact ⟨rfl, id⟩
  · have hstep := State.running_sound hr s.progress.made s.atStep
    rw [hok] at hstep
    exact ((atStep s).trans hstep).trans ⟨rfl, id⟩
  · have hstep := State.running_sound hr s.progress.made s.atStep
    rw [hok] at hstep
    exact (((atStep s).trans hstep).trans (outWrite t t.outPtr w0)).trans ⟨rfl, id⟩
  · exact stageRecord s k w1
  · exact trans (State.early_sound he) ⟨rfl, id⟩

theorem resumeSteps (s : State) (i : Instr) (k : Nat) : (s.resumeSteps i k).Sound s := by
  unfold State.resumeSteps
  split
  · rename_i r hr
    exact then_body (t := { s with progress := .start }) ⟨rfl, id⟩ (runLoop (State.running_sound hr) _ _ _)
  · exact refl s

/-- The rest of a command is a sound body. -/
theorem resume (s : State) (i : Instr) : (s.resume i).Sound s := by
  unfold State.resume
  split
  · exact resumeSteps s i _
  · exact then_body (stageRecord s _ _) (resumeSteps _ i _)
  · split
    · exact then_body (t := { s with progress := .start }) ⟨rfl, id⟩ (initValues _ _)
    · exact refl s
  · exact refl s
  · exact refl s

end State.Keeps

/-- A command word completes as a sound body does, whatever part of the command was carried out before. -/
theorem State.completed_sound {s t : State} {w : Word} (h : s.completed w = .next t) :
    ∃ b : Body, b.Sound s ∧ t = b.finish := by
  unfold State.completed at h
  split at h
  · exact ⟨.failed _ s, ⟨by simp, .refl s⟩, (Host.Outcome.next.inj h).symm⟩
  · exact ⟨.failed _ s, ⟨by simp, .refl s⟩, (Host.Outcome.next.inj h).symm⟩
  · split at h
    · exact exec_sound h
    · exact ⟨_, State.Keeps.resume s _, (Host.Outcome.next.inj h).symm⟩

/-! ### Resets and writes of descriptors -/

theorem State.wf_tornOutput {s : State} (h : s.outmem.wf Memory.wordSpace) (i : Instr) :
    (s.tornOutput i).wf Memory.wordSpace := by
  unfold State.tornOutput
  split
  · exact Memory.wf_writeWord h _ _ (s.outPtr + 1).isLt
  · exact Memory.wf_writeWord (Memory.wf_writeWord h _ _ s.outPtr.isLt) _ _ (s.outPtr + 1).isLt
  · exact h

theorem State.abort_params (s : State) : s.abort.params = s.params := by
  unfold State.abort
  split
  · rfl
  · split <;> rfl

theorem State.abort_memoriesOk {s : State} (h : s.MemoriesOk) : s.abort.MemoriesOk := by
  unfold State.abort
  split
  · exact h
  · split
    · exact h
    · exact ⟨h.1, h.2.1, State.wf_tornOutput h.2.2 _⟩

theorem Codeset.resetRegs_empty (k : Codeset) : k.resetRegs.Empty := ⟨rfl, rfl, rfl, rfl, rfl, rfl, rfl, rfl, rfl, rfl⟩

/-- A reset needs nothing of the tables and registers to make the invariant hold. -/
theorem State.resetBlock_inv {s : State} (hp : s.params.inRange) (hmem : s.MemoriesOk) : s.resetBlock.Inv :=
  ⟨hp, hmem, .of_empty s.cs0.resetRegs_empty, .of_empty s.cs1.resetRegs_empty, .of_empty s.cs2.resetRegs_empty,
    ⟨.inl rfl, Nat.zero_le _, Nat.le_refl 0⟩, ⟨fun _ => ⟨rfl, rfl⟩, nofun⟩, ⟨fun _ => ⟨rfl, rfl, rfl⟩, nofun⟩⟩

/-- No descriptor is part of the invariant. -/
theorem Codeset.Ok.writeReg {p : Params} {k : Codeset} (h : k.Ok p) (r : CsReg) (v : Word) : (k.writeReg r v).Ok p := by
  cases r <;> exact h

namespace State.Inv

variable {s t : State}

/-! ### The engine -/

theorem runEngine (hs : s.Inv) (h : s.runEngine = .next t) : t.Inv := by
  unfold State.runEngine at h
  split at h
  · exact Host.Outcome.next.inj h ▸ hs
  · split at h
    · exact Host.Outcome.next.inj h ▸ hs
    · obtain ⟨b, hb, rfl⟩ := State.completed_sound h
      exact hb.finish_inv hs

theorem runStage (hs : s.Inv) : s.runStage.Inv := by
  unfold State.runStage
  split
  · exact hs
  · rename_i w hw
    split
    · exact hs
    · split
      · exact hs
      · exact (State.Keeps.stage s _).inv_of_busy (by rw [hw]; rfl) hs

/-! ### The reset input -/

theorem blockReset (hs : s.Inv) : s.blockReset.Inv :=
  State.resetBlock_inv (s.abort_params ▸ hs.1) (State.abort_memoriesOk hs.2.1)

/-- The reset input may change, but it is not asserted while a command runs. -/
theorem with_resetLine (hs : s.Inv) {b : Bool} (h : s.engine.isBusy = true → b = false) :
    State.Inv { s with resetLine := b } := by
  obtain ⟨hdata, herr, hidle, hbusy⟩ := s.inv_iff.1 hs
  refine (State.inv_iff _).2 ⟨hdata, herr, hidle, fun hb => ?_⟩
  obtain ⟨hcmd, hdone, hnot, -⟩ := hbusy hb
  exact ⟨hcmd, hdone, hnot, h hb⟩

theorem setResetLine (hs : s.Inv) (b : Bool) : (s.setResetLine b).Inv := by
  unfold State.setResetLine
  split
  · exact hs.blockReset.with_resetLine nofun
  · exact hs.with_resetLine fun _ => rfl

/-! ### The host's accesses -/

theorem hostRead (hs : s.Inv) (r : Reg) : (s.hostRead r).Inv := by
  unfold State.hostRead
  split
  · exact hs
  · split <;> exact hs

theorem accept (hs : s.Inv) (hreset : s.resetLine = false) (w : Word) : (s.accept w).Inv :=
  (State.inv_iff _).2 ⟨(s.inv_iff.1 hs).1, ⟨fun _ => ⟨rfl, rfl⟩, nofun⟩, ⟨nofun, fun _ => ⟨rfl, rfl, rfl, hreset⟩⟩⟩

/-- `STATUS` may change but for the error report, as long as a clear `DONE` stays clear. -/
theorem with_status (hs : s.Inv) {st : Status} (herr : st.err = s.status.err) (hcode : st.errCode = s.status.errCode)
    (hdone : s.status.done = false → st.done = false) : State.Inv { s with status := st } := by
  obtain ⟨hdata, ⟨hno, hyes⟩, hidle, hbusy⟩ := s.inv_iff.1 hs
  refine (State.inv_iff _).2 ⟨hdata, ⟨?_, ?_⟩, hidle, fun hb => ?_⟩
  · simpa only [herr, hcode] using hno
  · simpa only [herr, hcode] using hyes
  · obtain ⟨hcmd, hd, he, hr⟩ := hbusy hb
    exact ⟨hcmd, hdone hd, herr.trans he, hr⟩

theorem clearError (hs : s.Inv) : s.clearError.Inv := by
  obtain ⟨hdata, -, hidle, hbusy⟩ := s.inv_iff.1 hs
  refine (State.inv_iff _).2 ⟨hdata, ⟨fun _ => ⟨rfl, rfl⟩, nofun⟩, hidle, fun hb => ?_⟩
  obtain ⟨hcmd, hd, -, hr⟩ := hbusy hb
  exact ⟨hcmd, hd, rfl, hr⟩

theorem writeStatus (hs : s.Inv) (v : Word) : (s.writeStatus v).Inv := by
  have hclear (u : State) (hu : u.Inv) : State.Inv { u with status := { u.status with
      done := u.status.done && !v.getLsbD 1
      bandEnd := u.status.bandEnd && !v.getLsbD 3
      unmatched := u.status.unmatched && !v.getLsbD 4
      overrun := u.status.overrun && !v.getLsbD 5 } } :=
    hu.with_status rfl rfl fun h => by simp [h]
  unfold State.writeStatus
  split
  · exact hclear _ hs.clearError
  · exact hclear _ hs

theorem setCodeset (hs : s.Inv) {c : CsId} {k : Codeset} (hk : k.Ok s.params) : (s.setCodeset c k).Inv := by
  obtain ⟨hdata, herr, heng⟩ := s.inv_iff.1 hs
  exact (State.inv_iff _).2 ⟨hdata.setCodeset hk, by simpa [State.ErrorOk] using herr, by simpa [State.EngineOk] using heng⟩

theorem codeset (hs : s.Inv) (c : CsId) : (s.codeset c).Ok s.params := (s.inv_iff.1 hs).1.2.2.1 c

theorem writeIdle (hs : s.Inv) (hreset : s.resetLine = false) (r : Reg) (v : Word) : (s.writeIdle r v).Inv := by
  cases r
  case ctrl =>
    unfold State.writeIdle
    dsimp only
    split
    · exact hs.blockReset
    · exact hs
  case status => exact hs.writeStatus v
  case cmd => exact hs.accept hreset v
  case cs c r => exact hs.setCodeset ((hs.codeset c).writeReg r v)
  all_goals exact hs

theorem writeBusy (hs : s.Inv) (r : Reg) (v : Word) : (s.writeBusy r v).Inv := by
  have hover : State.Inv { s with status := { s.status with overrun := true } } := hs.with_status rfl rfl id
  unfold State.writeBusy
  split
  · exact hs.blockReset
  · dsimp only
    split <;> exact hover

theorem hostWrite (hs : s.Inv) (r : Reg) (v : Word) : (s.hostWrite r v).Inv := by
  unfold State.hostWrite
  split
  · exact hs
  · rename_i hreset
    split
    · exact hs.writeBusy r v
    · exact hs.writeIdle (Bool.not_eq_true _ ▸ hreset) r v

/-! ### The external memories -/

theorem busSrcWrite (hs : s.Inv) (a v : Word) : (s.busSrcWrite a v).Inv := by
  obtain ⟨⟨hp, ⟨hsrc, hbs, hout⟩, hcs, hwork⟩, herr, hidle, hbusy⟩ := s.inv_iff.1 hs
  refine (State.inv_iff _).2 ⟨⟨hp, ⟨Memory.wf_writeWord hsrc _ v a.isLt, hbs, hout⟩, hcs, hwork⟩, herr, fun hi => ?_, hbusy⟩
  obtain ⟨hraces, hrest⟩ := hidle hi
  exact ⟨(State.busSrcWrite_srcRaces_of_idle (s := s) a hi v).trans hraces, hrest⟩

theorem busBsWrite (hs : s.Inv) (a : Word) (v : Byte) : (s.busBsWrite a v).Inv := by
  obtain ⟨⟨hp, ⟨hsrc, hbs, hout⟩, hcs, hwork⟩, herr, hidle, hbusy⟩ := s.inv_iff.1 hs
  refine (State.inv_iff _).2 ⟨⟨hp, ⟨hsrc, Memory.wf_write hbs a.isLt, hout⟩, hcs, hwork⟩, herr, fun hi => ?_, hbusy⟩
  obtain ⟨hsrcRaces, hraces, hrest⟩ := hidle hi
  exact ⟨hsrcRaces, (State.busBsWrite_bsRaces_of_idle (s := s) a hi v).trans hraces, hrest⟩

theorem outWrite (hs : s.Inv) (a v : Word) : (s.outWrite a v).Inv := by
  obtain ⟨hdata, herr, heng⟩ := s.inv_iff.1 hs
  exact (State.inv_iff _).2 ⟨(State.Keeps.outWrite s a v).ok hdata, herr, heng⟩

/-! ### One event -/

theorem perform (hs : s.Inv) {e : Input} (h : s.perform e = .next t) : t.Inv := by
  have next {u : State} (hu : u.Inv) (h : (.next u : Host.Outcome State Fault Refusal) = .next t) : t.Inv :=
    Host.Outcome.next.inj h ▸ hu
  cases e with
  | write o z v =>
    simp only [State.perform] at h
    split at h
    · exact next (hs.hostWrite _ v) h
    · cases h
  | read o z =>
    simp only [State.perform] at h
    split at h
    · exact next (hs.hostRead _) h
    · cases h
  | resetLine b => exact next (hs.setResetLine b) h
  | srcWrite a v => exact next (hs.busSrcWrite a v) h
  | bsWrite a v => exact next (hs.busBsWrite a v) h
  | outWrite a v => exact next (hs.outWrite a v) h
  | srcRead a => exact next (u := s.busSrcRead a) hs h
  | bsRead a => exact next (u := s.busBsRead a) hs h
  | outRead a => exact next (u := s.busOutRead a) hs h
  | stage => exact next hs.runStage h
  | engine => exact hs.runEngine h

end State.Inv

/-- Settles O60: an event of the schedule keeps the invariant, and so does the engine alone. -/
theorem stepKeepsInv : Obligations.StepKeepsInv := by
  intro s t hs h
  cases hi : s.inputs with
  | nil => exact hs.runEngine (by simpa only [step, State.advance, hi] using h)
  | cons e rest => exact State.Inv.perform (s := { s with inputs := rest }) hs ((step_of_inputs_cons hi).symm.trans h)

end Sys2Proof.Machine
end

section
/-!
SUPPORT. The host's port (spec/10_state.md R31 to R56): what a write changes and what not, what a read returns, and what the table
window loads.
-/

namespace Sys2Proof.Machine

/-! ### The registers after reset -/

theorem Codeset.readReg_reset (r : CsReg) : Codeset.reset.readReg r = 0 := by cases r <;> rfl

theorem State.codeset_reset (c : CsId) : State.reset.codeset c = Codeset.reset := by cases c <;> rfl

/-- Settles O51: every field is 0 but the two constants. -/
theorem resetRegisters : Obligations.ResetRegisters := by
  refine ⟨fun r => ?_, rfl, rfl⟩
  cases r with
  | tableValid c => exact congrArg (·.valid.toWord) (State.codeset_reset c)
  | cs c r => exact (congrArg (·.readReg r) (State.codeset_reset c)).trans (Codeset.readReg_reset r)
  | _ => rfl

/-! ### Reads -/

theorem getLsbD_bitAtPlace (b : Bool) {i j : Nat} (hj : j < 32) : (bitAtPlace b i).getLsbD j = (b && decide (j = i)) := by
  cases b
  · simp [bitAtPlace]
  · simp only [bitAtPlace, if_true, BitVec.getLsbD_shiftLeft, BitVec.getLsbD_one, hj, decide_true, Bool.true_and]
    by_cases h : j < i
    · simp [h, Nat.ne_of_lt h]
    · simp only [h, decide_false, Bool.not_false, Bool.true_and, show (0 < 32) by omega, decide_true, decide_eq_decide]
      omega

section Reads
variable {s : State}

theorem State.readData_hostRead_of_idle (hidle : s.engine = .idle) (hreset : s.resetLine = false) (r : Reg) :
    (s.hostRead r).readData = s.readReg r := by
  simp [State.hostRead, hidle, hreset]

/-- While a command runs, a register that it may not write reads its current value (R352). -/
theorem State.readData_hostRead_of_busy {w : Word} (hbusy : s.engine = .busy w) (hreset : s.resetLine = false) {r : Reg}
    (hr : r.commandWrites = false) : (s.hostRead r).readData = s.readReg r := by
  simp [State.hostRead, hbusy, hreset, State.readBusy, hr]

/-- A read changes what the port returned and the counter of free values only (R31). -/
theorem State.hostRead_eq (s : State) (r : Reg) :
    s.hostRead r = { s with readData := (s.hostRead r).readData, fresh := (s.hostRead r).fresh } := by
  unfold State.hostRead
  split
  · rfl
  · split <;> rfl

/-- The registers of R352 that read their current value while a command runs. -/
theorem Reg.not_commandWrites_of_mem : ∀ r ∈ [Reg.id, .params, .ctrl, .cmd, .arg0, .bsBase, .bsLen, .tblSel, .tblIndex, .tblData0,
    .tblData1, .tblData2, .tblData3, .status, .unmapped], r.commandWrites = false := by decide

theorem CsReg.not_commandWrites_of_mem : ∀ k ∈ [CsReg.csFlags, .magBase, .magLen, .rlcBase, .rlcLen, .rlvBase, .rlvLen, .tagBase,
    .fsmBase, .zeroBits, .zeroSize], k.commandWrites = false := by decide

/-- Bit 0 of `STATUS` is `BUSY` (R37). -/
theorem State.statusWord_busy (s : State) : s.statusWord.getLsbD 0 = s.engine.isBusy := by
  simp only [State.statusWord, BitVec.getLsbD_or, getLsbD_bitAtPlace _ (show 0 < 32 by omega)]
  simp

end Reads

theorem admitted_of_aligned {o : BitVec 9} (h : o.toNat % 4 = 0) : admitted o .word = true := by simp [admitted, h]

theorem not_admitted {o : BitVec 9} {z : AccessSize} (h : z ≠ .word ∨ o.toNat % 4 ≠ 0) : admitted o z = false := by
  simp only [admitted, Bool.and_eq_false_iff, beq_eq_false_iff_ne]
  exact h

/-- What a step with a read of an aligned word does. -/
theorem step_read {s : State} {o : BitVec 9} {rest : List Input} (h : s.inputs = .read o .word :: rest) (ho : o.toNat % 4 = 0) :
    step s = .next ({ s with inputs := rest }.hostRead (.ofOffset o.toNat)) :=
  (step_of_inputs_cons h).trans (if_pos (admitted_of_aligned ho))

/-- What a step with a write of an aligned word does. -/
theorem step_write {s : State} {o : BitVec 9} {v : Word} {rest : List Input} (h : s.inputs = .write o .word v :: rest)
    (ho : o.toNat % 4 = 0) : step s = .next ({ s with inputs := rest }.hostWrite (.ofOffset o.toNat) v) :=
  (step_of_inputs_cons h).trans (if_pos (admitted_of_aligned ho))

/-- Settles O56: a read by the law of the engine's state, a refused access by the test of `admitted`. -/
theorem hostReadsAndRefusals : Obligations.HostReadsAndRefusals := by
  intro s o z v rest
  refine ⟨fun h ho => ⟨_, step_read h ho, State.hostRead_eq _ _, fun hidle hreset => ?_, fun w hbusy hreset => ?_⟩, fun hbad => ?_⟩
  · exact State.readData_hostRead_of_idle (s := { s with inputs := rest }) hidle hreset _
  · have current (hcur : (Reg.ofOffset o.toNat).commandWrites = false) :=
      State.readData_hostRead_of_busy (s := { s with inputs := rest }) hbusy hreset hcur
    refine ⟨?_, fun hstatus => ?_⟩
    · rintro (hmem | ⟨c, k, hk, hr⟩)
      · exact current (Reg.not_commandWrites_of_mem _ hmem)
      · exact current (by rw [hr]; exact CsReg.not_commandWrites_of_mem k hk)
    · rw [hstatus] at current ⊢
      have hword : _ = s.statusWord := current rfl
      exact ⟨hword, by rw [hword, s.statusWord_busy, hbusy]; rfl⟩
  · have hnot : ¬admitted o z = true := by simp [not_admitted hbad]
    exact ⟨fun h => (step_of_inputs_cons h).trans (if_neg hnot), fun h => (step_of_inputs_cons h).trans (if_neg hnot)⟩

/-! ### The table window -/

theorem State.hostWrite_of_idle {s : State} (hidle : s.engine = .idle) (hreset : s.resetLine = false) (r : Reg) (v : Word) :
    s.hostWrite r v = s.writeIdle r v := by
  simp [State.hostWrite, hidle, hreset, Engine.isBusy]

theorem extractLsb'_tid (cs : BitVec 2) (tid : BitVec 4) : (cs ++ tid : BitVec 6).extractLsb' 0 4 = tid := by
  revert cs tid; decide

theorem extractLsb'_tcs (cs : BitVec 2) (tid : BitVec 4) : (cs ++ tid : BitVec 6).extractLsb' 4 2 = cs := by
  revert cs tid; decide

/-- What the window loads with `TBL_SEL` selecting `TID` and `TCS` (R45, R47). -/
def State.selected (s : State) (cs : BitVec 2) (tid : BitVec 4) (i : Nat) : TblWords :=
  State.tblWords { s with tblSel := cs ++ tid } i

section Selected
variable (s : State) {cs : BitVec 2} {c : CsId} {tid : BitVec 4} {i : Nat}

theorem State.selected_newcodes (hc : CsId.ofField cs = some c) (hi : i < 3072) (hv : (s.codeset c).valid.newcodes = true) :
    s.selected cs 0 i = (s.newcodeAt c i).window := by
  simp only [State.selected, State.tblWords, State.tblCodeset, extractLsb'_tid, extractLsb'_tcs, hc]
  exact (if_pos hi).trans (congrArg NewCode.window (if_pos hv))

theorem State.selected_fastbook (hc : CsId.ofField cs = some c) (hi : i < 4096) (hv : (s.codeset c).valid.fastbook = true) :
    s.selected cs 1 i = (s.fastbookAt c i).window := by
  simp only [State.selected, State.tblWords, State.tblCodeset, extractLsb'_tid, extractLsb'_tcs, hc]
  exact (if_pos hi).trans (congrArg FastEntry.window (if_pos hv))

theorem State.selected_valuebook (hc : CsId.ofField cs = some c) (hi : i < 2 ^ s.params.valueSize)
    (hv : (s.codeset c).valid.valuebook = true) : s.selected cs 2 i = (s.valuebookAt c i).window := by
  simp only [State.selected, State.tblWords, State.tblCodeset, extractLsb'_tid, extractLsb'_tcs, hc]
  exact (if_pos hi).trans (congrArg ValueEntry.window (if_pos hv))

theorem State.selected_fsm (hc : CsId.ofField cs = some c) (hi : i < s.params.fsmRamEntries) :
    s.selected cs 3 i = (s.fsmAt c i).window := by
  simp only [State.selected, State.tblWords, State.tblCodeset, extractLsb'_tid, extractLsb'_tcs, hc]
  exact if_pos hi

theorem State.selected_cubic (hi : i < 1025) : s.selected cs 4 i = ((s.cubicAt i).setWidth 32, 0, 0, 0) := by
  simp only [State.selected, State.tblWords, extractLsb'_tid]
  exact if_pos hi

theorem State.selected_work (hi : i < s.params.rlcMaxEntries) : s.selected cs 5 i = (s.workAt i).window := by
  simp only [State.selected, State.tblWords, extractLsb'_tid]
  exact if_pos hi

/-- The depth of the table that a `TID` names (R45, R57 to R62); no table is 0 entries deep. -/
def tableDepth (p : Params) (tid : BitVec 4) : Nat :=
  match tid.toNat with
  | 0 => 3072
  | 1 => 4096
  | 2 => 2 ^ p.valueSize
  | 3 => p.fsmRamEntries
  | 4 => 1025
  | 5 => p.rlcMaxEntries
  | _ => 0

/-- An index at or above the depth selects nothing. -/
theorem State.selected_of_depth_le (hi : tableDepth s.params tid ≤ i) : s.selected cs tid i = (0, 0, 0, 0) := by
  unfold State.selected State.tblWords
  rw [extractLsb'_tid]
  unfold tableDepth at hi
  generalize tid.toNat = n at hi
  generalize State.tblCodeset _ = o
  match n, o with
  | 0, none | 1, none | 2, none | 3, none => rfl
  | 0, some _ | 1, some _ | 2, some _ | 3, some _ => exact if_neg (Nat.not_lt.2 hi)
  | 4, _ | 5, _ => exact if_neg (Nat.not_lt.2 hi)
  | _ + 6, _ => rfl

/-- A codeset table with `TCS` 3 is no table. -/
theorem State.selected_of_no_codeset (hcs : cs = 3) (htid : tid.toNat ≤ 3) : s.selected cs tid i = (0, 0, 0, 0) := by
  have hnone : State.tblCodeset { s with tblSel := cs ++ tid } = none := by
    rw [State.tblCodeset, extractLsb'_tcs, hcs]
    rfl
  unfold State.selected State.tblWords
  rw [extractLsb'_tid, hnone]
  generalize tid.toNat = n at htid
  match n with
  | 0 | 1 | 2 | 3 => rfl
  | n + 4 => omega

end Selected

/-- Settles O57: a write of `TBL_INDEX` loads what `TBL_SEL` selects. -/
theorem tableWindow : Obligations.TableWindow := by
  intro s i cs c hidle hreset words loaded
  have hload (tid : BitVec 4) : loaded tid = s.selected cs tid i.toNat := by
    simp only [loaded, State.hostWrite_of_idle (s := { s with tblSel := cs ++ tid }) hidle hreset]
    rfl
  have hbeyond (tid : BitVec 4) (h : tableDepth s.params tid ≤ i.toNat) : loaded tid = (0, 0, 0, 0) :=
    (hload tid).trans (s.selected_of_depth_le h)
  refine ⟨fun hc => ⟨fun hi hv => ?_, fun hi hv => ?_, fun hi hv => ?_, fun hi => ?_⟩, fun hi => ?_, fun hi => ?_,
    fun tid htid => ?_, fun hcs tid htid => ?_, hbeyond 0, hbeyond 1, hbeyond 2, hbeyond 3, hbeyond 4, hbeyond 5, fun v => ?_⟩
  · exact (hload 0).trans (s.selected_newcodes hc hi hv)
  · exact (hload 1).trans (s.selected_fastbook hc hi hv)
  · exact (hload 2).trans (s.selected_valuebook hc hi hv)
  · exact (hload 3).trans (s.selected_fsm hc hi)
  · exact (hload 4).trans (s.selected_cubic hi)
  · exact (hload 5).trans (s.selected_work hi)
  · refine hbeyond tid ?_
    unfold tableDepth
    split <;> omega
  · exact (hload tid).trans (s.selected_of_no_codeset hcs htid)
  · simp only [words, State.hostWrite_of_idle hidle hreset]
    rfl

end Sys2Proof.Machine
end

section
/-!
SUPPORT. What a host write does while the engine is idle (spec/10_state.md R31 to R50): what the register reads then, and what else
changes.
-/

namespace Sys2Proof.Machine

/-! ### The defined bits of a register -/

/-- A word masked to its lowest `n` bits. -/
theorem getLsbD_and_mask (v : Word) (n : Nat) {j : Nat} (hj : j < 32) :
    (v &&& BitVec.ofNat 32 (2 ^ n - 1)).getLsbD j = (v.getLsbD j && decide (j < n)) := by
  rw [BitVec.getLsbD_and, BitVec.getLsbD_ofNat, Nat.testBit_two_pow_sub_one, decide_eq_true hj, Bool.true_and]

/-- The three lowest bits of a word, each in its place. -/
theorem bitsAtPlaces_eq_and (v : Word) :
    bitAtPlace (v.getLsbD 0) 0 ||| bitAtPlace (v.getLsbD 1) 1 ||| bitAtPlace (v.getLsbD 2) 2 = v &&& 7 := by
  refine BitVec.eq_of_getLsbD_eq fun j hj => ?_
  rw [show (7 : Word) = BitVec.ofNat 32 (2 ^ 3 - 1) from rfl, getLsbD_and_mask v 3 hj]
  simp only [BitVec.getLsbD_or, getLsbD_bitAtPlace _ hj]
  by_cases h : j < 3
  · have hcases : j = 0 ∨ j = 1 ∨ j = 2 := by omega
    rcases hcases with rfl | rfl | rfl <;> simp
  · simp [h, show j ≠ 0 by omega, show j ≠ 1 by omega, show j ≠ 2 by omega]

theorem setWidth_extractLsb'_eq_and (v : Word) : (v.extractLsb' 0 6).setWidth 32 = v &&& 0x3F := by
  refine BitVec.eq_of_getLsbD_eq fun j hj => ?_
  rw [show (0x3F : Word) = BitVec.ofNat 32 (2 ^ 6 - 1) from rfl, getLsbD_and_mask v 6 hj]
  simp [BitVec.getLsbD_extractLsb', hj, Bool.and_comm]

/-! ### What a write leaves -/

theorem Codeset.readReg_writeReg_of_ne (k : Codeset) {r q : CsReg} (h : q ≠ r) (v : Word) :
    (k.writeReg r v).readReg q = k.readReg q := by
  cases r <;> cases q <;> first | rfl | exact absurd rfl h

theorem Codeset.writeReg_tables (k : Codeset) (r : CsReg) (v : Word) :
    (k.writeReg r v).valid = k.valid ∧ (k.writeReg r v).newcodes = k.newcodes ∧ (k.writeReg r v).fastbook = k.fastbook ∧
      (k.writeReg r v).valuebook = k.valuebook ∧ (k.writeReg r v).fsm = k.fsm := by
  cases r <;> exact ⟨rfl, rfl, rfl, rfl, rfl⟩

section Writes
variable (s : State) (v : Word)

/-- A `STATUS` write changes `STATUS` and `ERRINFO` only (R37). -/
theorem State.writeStatus_eq : s.writeStatus v = { s with
    status :=
      { done := s.status.done && !v.getLsbD 1
        err := s.status.err && !v.getLsbD 2
        bandEnd := s.status.bandEnd && !v.getLsbD 3
        unmatched := s.status.unmatched && !v.getLsbD 4
        overrun := s.status.overrun && !v.getLsbD 5
        errCode := if v.getLsbD 2 then .none else s.status.errCode }
    errInfo := if v.getLsbD 2 then 0 else s.errInfo } := by
  unfold State.writeStatus
  cases v.getLsbD 2 <;> simp [State.clearError]

/-- The registers that a write of `r` may change besides `r` itself: the window (R46) and the error information (R37). -/
def Reg.besides : Reg → List Reg
  | .tblIndex => [.tblData0, .tblData1, .tblData2, .tblData3]
  | .status => [.errInfo]
  | _ => []

/-- A write of a descriptor leaves every other register. -/
theorem State.readReg_setCodeset_of_ne {c : CsId} {r : CsReg} {q : Reg} (h : q ≠ .cs c r) :
    (s.setCodeset c ((s.codeset c).writeReg r v)).readReg q = s.readReg q := by
  cases q with
  | tableValid d =>
    by_cases hd : d = c
    · simp [State.readReg, hd, ((s.codeset c).writeReg_tables r v).1]
    · simp [State.readReg, State.codeset_setCodeset_of_ne s _ hd]
  | cs d q =>
    by_cases hd : d = c
    · subst hd
      simpa [State.readReg] using (s.codeset d).readReg_writeReg_of_ne (fun hq => h (by rw [hq])) v
    · simp [State.readReg, State.codeset_setCodeset_of_ne s _ hd]
  | _ => simp [State.readReg, State.statusWord]

/-- A write, but of `CMD` and a soft reset, leaves every register but the written one and those besides it: of each pair of
registers, they are the same, or the one read is besides the one written, or no field that it reads was written. -/
theorem State.readReg_writeIdle_of_ne {r q : Reg} (hcmd : r ≠ .cmd) (hctrl : r = .ctrl → v.getLsbD 31 = false) (hq : q ≠ r)
    (hbesides : q ∉ r.besides) : (s.writeIdle r v).readReg q = s.readReg q := by
  cases r with
  | cmd => exact absurd rfl hcmd
  | ctrl =>
    simp only [State.writeIdle, hctrl rfl, Bool.false_eq_true, if_false]
    cases q <;> first | rfl | exact absurd rfl hq
  | status =>
    rw [State.writeIdle, State.writeStatus_eq]
    cases q <;> first | rfl | exact absurd rfl hq | exact absurd (List.mem_singleton.2 rfl) hbesides
  | cs c r => exact s.readReg_setCodeset_of_ne v hq
  | tblIndex =>
    cases q <;> first | rfl | exact absurd rfl hq | exact absurd (by simp [Reg.besides]) hbesides
  | _ => cases q <;> first | rfl | exact absurd rfl hq

/-- The part of the state that no host write changes, but of `CMD` and a soft reset: the engine, the memories, the block-wide tables
and what is not CFED's. -/
def State.behindPort (s : State) : Engine × Memory × Memory × Memory × List Input × Ram (BitVec 8) × Ram WorkEntry :=
  (s.engine, s.srcmem, s.bsmem, s.outmem, s.inputs, s.cubic, s.work)

theorem State.behindPort_writeIdle {r : Reg} (hcmd : r ≠ .cmd) (hctrl : r = .ctrl → v.getLsbD 31 = false) :
    (s.writeIdle r v).behindPort = s.behindPort := by
  cases r with
  | cmd => exact absurd rfl hcmd
  | ctrl =>
    simp only [State.writeIdle, hctrl rfl, Bool.false_eq_true, if_false]
    rfl
  | status =>
    rw [State.writeIdle, State.writeStatus_eq]
    rfl
  | cs c r => simp [State.writeIdle, State.behindPort]
  | _ => rfl

/-- No host write changes a table RAM of a codeset, but of `CMD` and a soft reset. -/
theorem State.tables_writeIdle {r : Reg} (hcmd : r ≠ .cmd) (hctrl : r = .ctrl → v.getLsbD 31 = false) (c : CsId) :
    ((s.writeIdle r v).codeset c).newcodes = (s.codeset c).newcodes ∧
      ((s.writeIdle r v).codeset c).fastbook = (s.codeset c).fastbook ∧
      ((s.writeIdle r v).codeset c).valuebook = (s.codeset c).valuebook ∧
      ((s.writeIdle r v).codeset c).fsm = (s.codeset c).fsm := by
  cases r with
  | cmd => exact absurd rfl hcmd
  | ctrl =>
    simp only [State.writeIdle, hctrl rfl, Bool.false_eq_true, if_false]
    exact ⟨rfl, rfl, rfl, rfl⟩
  | status =>
    rw [State.writeIdle, State.writeStatus_eq]
    exact ⟨rfl, rfl, rfl, rfl⟩
  | cs d r =>
    rw [State.writeIdle]
    by_cases hd : c = d
    · subst hd
      rw [State.codeset_setCodeset_same]
      exact ((s.codeset c).writeReg_tables r v).2
    · rw [State.codeset_setCodeset_of_ne s _ hd]
      exact ⟨rfl, rfl, rfl, rfl⟩
  | _ => exact ⟨rfl, rfl, rfl, rfl⟩

/-! ### What a written register reads -/

theorem State.readReg_writeIdle_ctrl (h : v.getLsbD 31 = false) : (s.writeIdle .ctrl v).readReg .ctrl = v &&& 7 := by
  simp only [State.writeIdle, h, Bool.false_eq_true, if_false]
  exact bitsAtPlaces_eq_and v

theorem State.readReg_writeIdle_cs (c : CsId) (r : CsReg) :
    (s.writeIdle (.cs c r) v).readReg (.cs c r) = ((s.codeset c).writeReg r v).readReg r := by
  simp [State.writeIdle, State.readReg]

/-- The runtime registers of a descriptor block are read-only (R49). -/
theorem State.writeIdle_cs_of_commandWrites (c : CsId) {r : CsReg} (h : r.commandWrites = true) :
    s.writeIdle (.cs c r) v = s := by
  have hk : (s.codeset c).writeReg r v = s.codeset c := by cases r <;> first | rfl | cases h
  simp [State.writeIdle, hk]

end Writes

/-- Settles O55: the map by evaluation, each register by what its write does, and the rest by the frame of a write. -/
theorem registerWritesWhileIdle : Obligations.RegisterWritesWhileIdle := by
  unfold Obligations.RegisterWritesWhileIdle
  intro blockMap globalMap inBlock registerMap
  refine ⟨by decide, ?_, fun s o v rest ho h => step_write h ho, fun s v hidle hreset => ?_⟩
  · have h : ∀ a < 8, ∀ b < 16, (∀ x ∈ registerMap, x.1 ≠ 64 * a + 4 * b) → Reg.ofOffset (64 * a + 4 * b) = .unmapped := by
      decide
    intro o ho h4 hx
    have hsplit : 64 * (o / 64) + 4 * (o % 64 / 4) = o := by omega
    exact hsplit ▸ h (o / 64) (by omega) (o % 64 / 4) (by omega) (by rwa [hsplit])
  · simp only [State.hostWrite_of_idle hidle hreset]
    refine ⟨fun r hr => ?_, setWidth_extractLsb'_eq_and v, s.readReg_writeIdle_ctrl v, fun c => ⟨?_, fun k hk => ?_, fun k hk => ?_⟩,
      fun r hr => ?_, congrArg State.status (s.writeStatus_eq v), congrArg State.errInfo (s.writeStatus_eq v), fun r hcmd hctrl => ?_⟩
    · fin_cases hr <;> rfl
    · exact (s.readReg_writeIdle_cs v c .csFlags).trans (bitsAtPlaces_eq_and v)
    · rw [s.readReg_writeIdle_cs]
      fin_cases hk <;> rfl
    · refine s.writeIdle_cs_of_commandWrites v c ?_
      fin_cases hk <;> rfl
    · fin_cases hr <;> rfl
    · have hport := s.behindPort_writeIdle v hcmd hctrl
      simp only [State.behindPort, Prod.mk.injEq] at hport
      obtain ⟨hengine, hsrc, hbs, hout, hinputs, hcubic, hwork⟩ := hport
      refine ⟨fun q hq hwindow hinfo => s.readReg_writeIdle_of_ne v hcmd hctrl hq ?_, hengine.trans hidle, hsrc, hbs, hout, hinputs,
        hcubic, hwork, s.tables_writeIdle v hcmd hctrl⟩
      cases r with
      | tblIndex => exact hwindow rfl
      | status => simpa [Reg.besides] using hinfo rfl
      | _ => exact List.not_mem_nil

end Sys2Proof.Machine
end

section
/-!
SUPPORT. The signed-value table (spec/40_table_generator.md R170 to R179): the cubic table in closed form, the laws of companding and
folding, and the entries of `VALUEBOOK`.
-/

namespace Sys2Proof.Machine

/-! ### The cubic table (R170)

The images of the magnitudes rise strictly, so after `n` magnitudes were recorded, entry `i` holds `n'` where the image of `n'` is `i`,
and the forward fill leaves in entry `i` how many images are at most `i`. -/

theorem cubicExpand_lt {m n : Nat} (h : m < n) : cubicExpand m < cubicExpand n :=
  Nat.add_lt_add_of_lt_of_le h (Nat.div_le_div_right (Nat.mul_le_mul_left _ (Nat.pow_le_pow_left h.le 3)))

/-- Up to 255 the clamp does nothing. -/
theorem cubicSlot_of_le {m : Nat} (h : m ≤ 255) : cubicSlot m = cubicExpand m := by
  have hle : cubicExpand m ≤ cubicExpand 255 := h.lt_or_eq.elim (fun h => (cubicExpand_lt h).le) fun h => h ▸ le_rfl
  have hmax : cubicExpand 255 = 1014 := by decide
  exact Nat.min_eq_left (by omega)

/-- How many of the magnitudes 1 to `n` have an image below `i`. -/
def cubicBelow (n i : Nat) : Nat := (List.range' 1 n).countP fun m => cubicExpand m < i

theorem cubicBelow_succ (n i : Nat) : cubicBelow (n + 1) i = cubicBelow n i + if cubicExpand (n + 1) < i then 1 else 0 := by
  simp [cubicBelow, List.range'_concat, List.countP_append, List.countP_singleton, Nat.add_comm 1 n]

theorem cubicBelow_mono (n : Nat) {i j : Nat} (h : i ≤ j) : cubicBelow n i ≤ cubicBelow n j :=
  List.countP_mono_left fun _ _ hm => decide_eq_true ((of_decide_eq_true hm).trans_le h)

theorem cubicBelow_of_le {n i : Nat} (h : cubicExpand (n + 1) ≤ i) : cubicBelow n i = n := by
  have hall : cubicBelow n i = (List.range' 1 n).length := List.countP_eq_length.2 fun m hm =>
    decide_eq_true ((cubicExpand_lt (by rw [List.mem_range'_1] at hm; omega)).trans_le h)
  rw [hall, List.length_range']

theorem cubicIndex_eq_cubicBelow (i : Nat) : cubicIndex i = cubicBelow 255 (i + 1) := by
  simp only [cubicIndex, cubicBelow, cubicExpand, Nat.lt_succ_iff]

/-- Entry `i` after the magnitudes 1 to `n` were recorded: the one whose image is `i`, else 0. -/
def cubicMark (n i : Nat) : Nat := if cubicBelow n (i + 1) = cubicBelow n i then 0 else cubicBelow n (i + 1)

theorem cubicMark_zero (i : Nat) : cubicMark 0 i = 0 := if_pos rfl

theorem cubicMark_succ (n i : Nat) : cubicMark (n + 1) i = if i = cubicExpand (n + 1) then n + 1 else cubicMark n i := by
  simp only [cubicMark, cubicBelow_succ]
  rcases Nat.lt_trichotomy i (cubicExpand (n + 1)) with h | rfl | h
  · simp [h.ne, show ¬cubicExpand (n + 1) < i + 1 by omega, show ¬cubicExpand (n + 1) < i by omega]
  · simp [cubicBelow_of_le (Nat.le_succ (cubicExpand (n + 1))), cubicBelow_of_le (le_refl (cubicExpand (n + 1)))]
  · simp [h.ne', h, Nat.lt_succ_of_lt h, cubicBelow_of_le h.le, cubicBelow_of_le (Nat.le_succ_of_le h.le)]

theorem foldl_set_cubicSlot {n : Nat} (hn : n ≤ 255) (len : Nat) :
    (List.range' 1 n).foldl (fun t m => t.set (cubicSlot m) m) (List.replicate len 0) = (List.range len).map (cubicMark n) := by
  induction n with
  | zero => simp [funext cubicMark_zero, List.map_const']
  | succ n ih =>
    rw [List.range'_concat, List.foldl_append, ih (by omega)]
    refine List.ext_getElem (by simp) fun i hi _ => ?_
    simp [List.getElem_set, cubicMark_succ, cubicSlot_of_le hn, Nat.add_comm 1 n, eq_comm (b := i)]

/-- The forward fill over the marks counts the images. -/
theorem forwardFill_cubicMark (n a k : Nat) :
    forwardFill (cubicBelow n a) ((List.range' a k).map (cubicMark n)) = (List.range' a k).map fun i => cubicBelow n (i + 1) := by
  induction k generalizing a with
  | zero => rfl
  | succ k ih =>
    have hmono := cubicBelow_mono n (show a ≤ a + 1 by omega)
    rw [List.range'_succ, List.map_cons, List.map_cons, forwardFill, ← ih (a + 1)]
    by_cases h : cubicBelow n (a + 1) = cubicBelow n a
    · rw [if_pos (show cubicMark n a = 0 from if_pos h), h]
    · have hmark : cubicMark n a = cubicBelow n (a + 1) := if_neg h
      rw [hmark, if_neg (by omega)]

/-- What `BuildCubic` computes is the closed form. -/
theorem map_forwardFill_cubicMarks : (forwardFill 0 cubicMarks).map (BitVec.ofNat 8) = cubicTable := by
  have hmarks : cubicMarks = (List.range' 0 1025).map (cubicMark 255) := by
    rw [← List.range_eq_range', ← foldl_set_cubicSlot (le_refl 255)]
    rfl
  have hzero : cubicBelow 255 0 = 0 := by simp [cubicBelow]
  have hfill := forwardFill_cubicMark 255 0 1025
  rw [hzero, ← hmarks] at hfill
  rw [hfill, ← List.range_eq_range', List.map_map, cubicTable]
  simp only [Function.comp_def, cubicIndex_eq_cubicBelow]

theorem length_cubicTable : cubicTable.length = 1025 := by simp [cubicTable]

theorem cubicIndex_le (i : Nat) : cubicIndex i ≤ 255 := List.countP_le_length.trans_eq List.length_range'

theorem State.buildCubic_eq (s : State) : s.buildCubic = { s with cubic := s.cubic.store cubicTable } := by
  rw [State.buildCubic, map_forwardFill_cubicMarks]

/-! ### Companding, folding and the sign code -/

/-- The companding of a command is the closed form, once the cubic table is built under the cubic policy. -/
theorem State.compand_eq {s : State} {p : Policy} {r : Ram (BitVec 8)} (h : p = .cubic → s.cubic = r.store cubicTable) (m : Nat) :
    s.compand p m = companded p m := by
  cases p with
  | notNeeded => rfl
  | cubic =>
    have hlt : min m 1024 < cubicTable.length := by rw [length_cubicTable]; omega
    have hentry : s.cubicAt (min m 1024) = BitVec.ofNat 8 (cubicIndex (min m 1024)) := by
      rw [State.cubicAt, h rfl, r.store_entry_of_lt _ _ hlt]
      simp only [cubicTable, List.getElem_map, List.getElem_range]
    have hle := cubicIndex_le (min m 1024)
    simp only [State.compand, companded, hentry, BitVec.toNat_ofNat]
    omega
  | legacy => simp only [State.compand, compandLegacy, companded, Nat.shiftRight_eq_div_pow]

/-- `Fold` is the two's-complement reading of the index (R172). -/
theorem foldIndex_eq_toInt {S idx : Nat} (hS : 1 ≤ S) (h : idx < 2 ^ S) : foldIndex S idx = (BitVec.ofNat S idx).toInt := by
  obtain ⟨k, rfl⟩ : ∃ k, S = k + 1 := ⟨S - 1, by omega⟩
  rw [BitVec.toInt_eq_toNat_cond, BitVec.toNat_ofNat, Nat.mod_eq_of_lt h, foldIndex, Nat.add_sub_cancel]
  rw [Nat.pow_succ] at h ⊢
  rw [show ((2 : Int) ^ k) = ((2 ^ k : Nat) : Int) by push_cast; rfl]
  generalize 2 ^ k = P at h
  by_cases hle : P ≤ idx
  · rw [if_pos hle, if_neg (by omega), Nat.mod_eq_sub_mod hle, Nat.mod_eq_of_lt (by omega)]
    omega
  · rw [if_neg hle, if_pos (by omega)]

/-- A codeword and the 2-bit sign code after it (R178). -/
theorem shiftLeft_or_signCode (bits : Nat) (sign : BitVec 2) : bits <<< 2 ||| sign.toNat = 4 * bits + sign.toNat := by
  rw [← Nat.shiftLeft_add_eq_or_of_lt sign.isLt, Nat.shiftLeft_eq]
  omega

/-- The sign append of R178: a non-zero value has its sign code after the codeword. -/
theorem signAppend_eq (p : Params) (v : Int) (e : BookEntry) :
    signAppend p v e =
      if v = 0 then ⟨codeField e.bits, BitVec.ofNat 6 e.size⟩
      else ⟨codeField (4 * e.bits + (if v < 0 then p.negativeCode else p.positiveCode).toNat), BitVec.ofNat 6 (e.size + 2)⟩ := by
  simp only [signAppend, shiftLeft_or_signCode]
  rcases lt_trichotomy v 0 with h | rfl | h
  · simp [h, h.ne, h.le]
  · simp
  · simp [h, h.ne', not_lt_of_gt h]

/-! ### The entries of `VALUEBOOK` -/

theorem CompandFlags.policy_of_selects {f : CompandFlags} {p : Policy} (h : f.Selects p) (info : Word) :
    f.policy info = .ok p := by
  cases p <;> simp only [CompandFlags.Selects] at h <;> simp [CompandFlags.policy, h]

section Kept
variable {s t : State} (hkept : t.kept = s.kept)
include hkept

theorem State.vlcEntry_of_kept (c : CsId) (m : Nat) : t.vlcEntry c m = s.vlcEntry c m := by
  cases c with
  | c0 => exact congrArg (·.vlcEntry .c0 m) hkept
  | c1 => exact congrArg (·.vlcEntry .c1 m) hkept
  | c2 => exact congrArg (·.vlcEntry .c2 m) hkept

theorem State.quiet_of_kept : t.Quiet ↔ s.Quiet := iff_of_eq (congrArg State.Quiet hkept : t.kept.Quiet = s.kept.Quiet)

theorem State.params_of_kept : t.params = s.params :=
  (congrArg State.params hkept : t.kept.params = s.kept.params)

theorem State.magLen_of_kept (c : CsId) : (t.codeset c).magLen = (s.codeset c).magLen := by
  cases c with
  | c0 => exact congrArg (·.cs0.magLen) hkept
  | c1 => exact congrArg (·.cs1.magLen) hkept
  | c2 => exact congrArg (·.cs2.magLen) hkept

theorem State.vlcValid_of_kept {c : CsId} (h : s.VlcValid c) : t.VlcValid c := by
  simpa only [State.VlcValid, State.vlcEntry_of_kept hkept, State.params_of_kept hkept, State.magLen_of_kept hkept] using h

end Kept

/-- Entry `idx` of the table that R177 to R179 describe, in the terms of the static data. -/
def State.valueCode (s : State) (c : CsId) (p : Policy) (idx : Nat) : ValueEntry :=
  let v := (BitVec.ofNat s.params.valueSize idx).toInt
  let e := s.vlcEntry c (min (companded p v.natAbs) ((s.codeset c).magLen.toNat - 1))
  if v = 0 then ⟨codeField e.bits, BitVec.ofNat 6 e.size⟩
  else
    ⟨codeField (4 * e.bits + (if v < 0 then s.params.negativeCode else s.params.positiveCode).toNat), BitVec.ofNat 6 (e.size + 2)⟩

/-- What the command stores at an index, in a state with the cubic table built, is the entry described. -/
theorem State.valueEntry_eq_valueCode {s t : State} {c : CsId} {p : Policy} {r : Ram (BitVec 8)} {idx : Nat}
    (hkept : t.kept = s.kept) (hq : s.Quiet) (hS : 1 ≤ s.params.valueSize) (hidx : idx < 2 ^ s.params.valueSize)
    (hcubic : p = .cubic → t.cubic = r.store cubicTable) : t.valueEntry c p idx = s.valueCode c p idx := by
  have hq' : t.Quiet := (State.quiet_of_kept hkept).2 hq
  simp only [State.valueEntry, State.valueCode, signAppend_eq, State.vlcAt_of_quiet hq', State.compand_eq hcubic,
    State.params_of_kept hkept, State.magLen_of_kept hkept, State.vlcEntry_of_kept hkept, foldIndex_eq_toInt hS hidx]

/-- The state after the cubic table was built, where the policy asks for it. -/
def State.withCubic (s : State) (p : Policy) : State :=
  { s with cubic := if p = .cubic then s.cubic.store cubicTable else s.cubic }

/-- `FILL_VLC_TABLE` on a valid book with flags that select a policy. -/
theorem State.fillVlcTable_of_valid {s : State} {c : CsId} {p : Policy} (hq : s.Quiet) (hS : 1 ≤ s.params.valueSize)
    (hv : s.VlcValid c) (hp : (s.codeset c).csFlags.Selects p) :
    s.fillVlcTable c = .done { (s.withCubic p).setCodeset c { s.codeset c with
        valuebook := (s.codeset c).valuebook.rebuild ((List.range (2 ^ s.params.valueSize)).map (s.valueCode c p))
        valid := { (s.codeset c).valid with valuebook := true } } with
      result0 := BitVec.ofNat 32 (2 ^ s.params.valueSize) } := by
  have hstart : (s.startValues c).kept = s.kept := (State.Keeps.startValues s c).kept
  have hcodeset : (s.startValues c).codeset c = { s.codeset c with
      valuebook := (s.codeset c).valuebook.forget, valid := { (s.codeset c).valid with valuebook := false } } :=
    State.codeset_setCodeset_same _ _ _
  have hbuilt : (if p = .cubic then (s.startValues c).buildCubic else s.startValues c) = (s.startValues c).withCubic p := by
    rw [State.buildCubic_eq, State.withCubic]
    split <;> rfl
  have hvalidate : (s.startValues c).validateVlc c [3, 0] = none :=
    State.validateVlc_of_valid ((State.quiet_of_kept hstart).2 hq) (State.vlcValid_of_kept hstart hv) _
  have hpolicy : ((s.startValues c).codeset c).csFlags.policy ((s.startValues c).codeset c).csFlags.toWord = .ok p := by
    rw [hcodeset]
    exact CompandFlags.policy_of_selects hp _
  have hkept : ((s.startValues c).withCubic p).kept = s.kept := hstart
  have hparams : ((s.startValues c).withCubic p).params = s.params := State.params_of_kept hkept
  have hentries : (List.range' 0 (2 ^ s.params.valueSize)).map (((s.startValues c).withCubic p).valueEntry c p) =
      (List.range (2 ^ s.params.valueSize)).map (s.valueCode c p) := by
    rw [List.range_eq_range']
    refine List.map_congr_left fun idx hidx => State.valueEntry_eq_valueCode (r := (s.startValues c).cubic) hkept hq hS ?_ ?_
    · rw [List.mem_range'_1] at hidx
      omega
    · rintro rfl
      simp [State.withCubic]
  unfold State.fillVlcTable
  simp only [hpolicy, hvalidate, hbuilt, hparams, hentries]
  cases c <;> simp [State.withCubic, State.startValues, State.setCodeset, State.codeset]

/-- Settles O30, by the entries' closed form. -/
theorem fillVlcTableResult : Obligations.FillVlcTableResult := by
  intro s cs c p hc hq hrange hv hp field code
  have hS : 1 ≤ s.params.valueSize := Nat.le_of_succ_le hrange.2.2.1
  have hexec : exec (.fillVlcTable cs) s = .next (s.fillVlcTable c).finish := congrArg _ (State.onCodeset_some hc s _)
  rw [hexec, State.fillVlcTable_of_valid hq hS hv hp]
  cases c <;> rfl

end Sys2Proof.Machine
end

section
/-!
SUPPORT. `OUT_PTR` and OUTMEM (spec/20_memory.md R85): every command body but those of the two runs leaves them, once each; and what
a run writes to them, record by record (spec/43_decode.md R262, R275), as a whole and where a part of it is an event of its own
(spec/20_memory.md R93, spec/70_reset_and_hazards.md R354).
-/

namespace Sys2Proof.Machine

/-! ### What a command body leaves of the output -/

/-- Where a run puts its records: `OUT_PTR` and OUTMEM. -/
def State.output (s : State) : Word × Memory := (s.outPtr, s.outmem)

theorem State.output_eq_iff (s t : State) : t.output = s.output ↔ t.outPtr = s.outPtr ∧ t.outmem = s.outmem := Prod.mk_inj

theorem Body.finish_output (b : Body) : b.finish.output = b.state.output := by cases b <;> rfl

theorem Body.finish_result0 (b : Body) : b.finish.result0 = b.state.result0 := by cases b <;> rfl

theorem Body.andThen_output {s : State} {b : Body} {k : State → Body} (h : b.state.output = s.output)
    (hk : ∀ t, (k t).state.output = t.output) : (b.andThen k).state.output = s.output := by
  cases b with
  | done t => exact (hk t).trans h
  | failed f t => exact h

/-- A command with a codeset field leaves the output where its bodies do; for codeset 3 it fails. -/
theorem State.onCodeset_output {s : State} {cs : BitVec 2} {b : CsId → Body} (h : ∀ c, (b c).state.output = s.output) :
    (s.onCodeset cs fun c => (b c).finish).output = s.output := by
  rcases s.onCodeset_cases cs fun c => (b c).finish with ⟨hfail, -⟩ | ⟨c, -, hk⟩
  · rw [hfail]
    rfl
  · rw [hk, Body.finish_output]
    exact h c

namespace State
variable (s : State) (c : CsId)

theorem buildCubic_output : s.buildCubic.output = s.output := by simp [output]

theorem setCodeset_output (v : Codeset) : (s.setCodeset c v).output = s.output := by simp [output]

theorem startRunLength_output : (s.startRunLength c).output = s.output := s.setCodeset_output c _

theorem startFill_output : (s.startFill c).output = s.output := s.setCodeset_output c _

theorem startValues_output : (s.startValues c).output = s.output := s.setCodeset_output c _

theorem sortRunLength_output : (s.sortRunLength c).state.output = s.output := by
  rcases s.sortRunLength_cases c with ⟨f, hfail, -⟩ | ⟨-, -, -, -, hdone⟩
  · rw [hfail, Body.state_failed]
  · rw [hdone]
    rfl

theorem buildRunLength_output : (s.buildRunLength c).state.output = s.output := by
  rcases s.buildRunLength_cases c with ⟨f, hfail, -⟩ | ⟨t, hsort, hdone⟩
  · rw [hfail]
    exact s.startRunLength_output c
  · have ht : t.output = (s.startRunLength c).output := by simpa [hsort] using sortRunLength_output (s.startRunLength c) c
    rw [hdone]
    exact (t.setCodeset_output c _).trans (ht.trans (s.startRunLength_output c))

theorem finishFill_output (legacy : Bool) (filled : List FastEntry × Option Nat) :
    (s.finishFill c legacy filled).state.output = s.output := by
  rcases s.finishFill_cases c legacy filled.1 filled.2 with ⟨idx, -, hfail⟩ | ⟨-, hdone⟩
  · rw [hfail]
    exact s.setCodeset_output c _
  · rw [hdone]
    exact s.setCodeset_output c _

theorem fillScanLut_output : (s.fillScanLut c).state.output = s.output := by
  rcases s.fillScanLut_cases c with ⟨f, hfail, -⟩ | ⟨-, hfill⟩
  · rw [hfail]
    exact s.startFill_output c
  · rw [hfill, finishFill_output, startFill_output]

theorem fillCodeLut_output : (s.fillCodeLut c).state.output = s.output := by
  rcases s.fillCodeLut_cases c with ⟨f, hfail, -⟩ | ⟨-, hfill⟩
  · rw [hfail]
    exact s.startFill_output c
  · rw [hfill, finishFill_output, startFill_output]

theorem fillVlcTable_output : (s.fillVlcTable c).state.output = s.output := by
  rcases s.fillVlcTable_cases c with ⟨f, hfail, -⟩ | ⟨p, -, -, hdone⟩
  · rw [hfail]
    exact s.startValues_output c
  · rw [hdone]
    refine (setCodeset_output _ c _).trans (Eq.trans ?_ (s.startValues_output c))
    split
    · exact buildCubic_output _
    · rfl

theorem initLookup_output : (s.initLookup c).state.output = s.output :=
  Body.andThen_output (s.buildRunLength_output c) fun t => by
    split
    · exact t.fillCodeLut_output c
    · exact t.fillScanLut_output c

theorem initValues_output : (s.initValues c).state.output = s.output :=
  Body.andThen_output (s.fillVlcTable_output c) fun t => t.setCodeset_output c _

theorem initCodebooks_output : (s.initCodebooks c).state.output = s.output := by
  unfold State.initCodebooks
  split
  · rfl
  · exact Body.andThen_output (s.initLookup_output c) fun t => t.initValues_output c

theorem matchCommand_output (width : Nat) : (s.matchCommand c width).state.output = s.output := by
  rcases s.matchCommand_cases c width with ⟨f, hfail, -⟩ | ⟨-, -, -, ⟨m, -, hdone⟩ | ⟨-, hdone⟩⟩
  · rw [hfail, Body.state_failed]
  · rw [hdone]
    rfl
  · rw [hdone]
    rfl

theorem loadFsm_output : (s.loadFsm c).state.output = s.output := by
  rcases s.loadFsm_cases c with ⟨-, hskip⟩ | ⟨-, ⟨-, hfail⟩ | ⟨-, hdone⟩⟩
  · rw [hskip]
    rfl
  · rw [hfail, Body.state_failed]
  · rw [hdone]
    exact s.setCodeset_output c _

theorem scaleFsm_output : (s.scaleFsm c).state.output = s.output := by
  rcases s.scaleFsm_cases c with ⟨f, hfail, -⟩ | ⟨-, hskip | ⟨-, p, -, -, hdone⟩⟩
  · rw [hfail, Body.state_failed]
  · rw [hskip]
    rfl
  · rw [hdone]
    exact s.setCodeset_output c _

theorem extractBandEnd_output : (s.extractBandEnd c).state.output = s.output := by
  rcases s.extractBandEnd_cases c with ⟨f, hfail, -⟩ | ⟨-, -, -, -, hdone⟩
  · rw [hfail]
    exact s.setCodeset_output c _
  · rw [hdone]
    exact (setCodeset_output _ c _).trans (s.setCodeset_output c _)

theorem initDecoderFsm_output : (s.initDecoderFsm c).state.output = s.output :=
  Body.andThen_output (s.loadFsm_output c) fun t => Body.andThen_output (t.scaleFsm_output c) fun u =>
    Body.andThen_output (u.extractBandEnd_output c) fun _ => rfl

variable {s} {t : State} {c}

theorem consume_output {n : Nat} (h : s.consume n = .ok t) : t.output = s.output := by
  obtain ⟨-, rfl⟩ := (s.consume_ok_iff t n).1 h
  rfl

theorem bandEndCheck_output {site : Site} (h : s.bandEndCheck c site = some t) : t.output = s.output := by
  rcases s.bandEndCheck_cases c site with hnone | ⟨-, -, -, -, hsome⟩
  · rw [hnone] at h
    cases h
  · obtain rfl := Option.some.inj (hsome.symm.trans h)
    rfl

theorem vlcStep_output {site : Site} {r : VlcStep} (h : s.vlcStep c site = .ok (r, t)) : t.output = s.output := by
  rcases s.vlcStep_cases c site with ⟨f, hfail, -⟩ | ⟨u, hband, hok⟩ | ⟨r', n, -, -, -, hok⟩
  · rw [hfail] at h
    cases h
  · rw [hok] at h
    cases h
    exact bandEndCheck_output hband
  · rw [hok] at h
    cases h
    rfl

theorem fsmStep_output {site : Site} {e : Option FsmEntry} (h : s.fsmStep c site = .ok (e, t)) : t.output = s.output := by
  rcases s.fsmStep_cases c site with ⟨f, hfail, -⟩ | ⟨u, hband, hok⟩ | ⟨e', -, -, -, -, hok⟩
  · rw [hfail] at h
    cases h
  · rw [hok] at h
    cases h
    exact bandEndCheck_output hband
  · rw [hok] at h
    cases h
    exact setCodeset_output _ c _

variable (s) (c)

theorem vlcDecode_output : (s.vlcDecode c).state.output = s.output := by
  unfold State.vlcDecode
  split
  · rfl
  · split
    · rfl
    · rename_i r t hstep
      exact (vlcStep_output hstep :)

theorem fsmStepCommand_output : (s.fsmStepCommand c).state.output = s.output := by
  unfold State.fsmStepCommand
  split
  · rfl
  · split
    · rfl
    · rename_i t hstep
      exact (fsmStep_output hstep :)
    · rename_i e t hstep
      exact (fsmStep_output hstep :)

theorem fsmSetState_output (n : Nat) : (s.fsmSetState c n).state.output = s.output := by
  unfold State.fsmSetState
  dsimp only
  split
  · rfl
  · split
    · rfl
    · exact s.setCodeset_output c _

theorem bsPeek_output (n : Nat) : (s.bsPeek n).state.output = s.output := by
  unfold State.bsPeek
  split <;> rfl

theorem bsGet_output (n : Nat) : (s.bsGet n).state.output = s.output := by
  unfold State.bsGet
  split
  · rfl
  · split
    · rfl
    · rename_i t hok
      exact (consume_output hok :)

theorem bsSkip_output (n : Nat) : (s.bsSkip n).state.output = s.output := by
  unfold State.bsSkip
  split
  · rfl
  · rename_i t hok
    exact consume_output hok

end State

/-- Every command but the two runs leaves the output. -/
theorem exec_output {i : Instr} {s t : State} (h : exec i s = .next t) (hi : ∀ cs n, i ≠ .vlcRun cs n ∧ i ≠ .fsmRun cs n) :
    t.output = s.output := by
  cases i <;> obtain rfl := Host.Outcome.next.inj h
  case nop => rfl
  case initCodebooks => exact State.onCodeset_output s.initCodebooks_output
  case sortRunlength => exact State.onCodeset_output s.sortRunLength_output
  case buildRunlength => exact State.onCodeset_output s.buildRunLength_output
  case fillScanLut => exact State.onCodeset_output s.fillScanLut_output
  case fillCodeLut => exact State.onCodeset_output s.fillCodeLut_output
  case buildCubic => exact (Body.finish_output (.done s.buildCubic)).trans s.buildCubic_output
  case fillVlcTable => exact State.onCodeset_output s.fillVlcTable_output
  case loadFsm => exact State.onCodeset_output s.loadFsm_output
  case scaleFsm => exact State.onCodeset_output s.scaleFsm_output
  case extractBandEnd => exact State.onCodeset_output s.extractBandEnd_output
  case initDecoderFsm => exact State.onCodeset_output s.initDecoderFsm_output
  case freeCodebooks => exact State.onCodeset_output (b := fun c => .done _) fun c => s.setCodeset_output c _
  case matchPattern imm => exact State.onCodeset_output fun c => s.matchCommand_output c imm.toNat
  case bsPeek imm => exact (Body.finish_output _).trans (s.bsPeek_output imm.toNat)
  case bsGet imm => exact (Body.finish_output _).trans (s.bsGet_output imm.toNat)
  case bsSkip imm => exact (Body.finish_output _).trans (s.bsSkip_output imm.toNat)
  case vlcDecode => exact State.onCodeset_output s.vlcDecode_output
  case vlcRun cs n => exact absurd rfl (hi cs n).1
  case fsmSetState imm => exact State.onCodeset_output fun c => s.fsmSetState_output c imm.toNat
  case fsmStep => exact State.onCodeset_output s.fsmStepCommand_output
  case fsmRun cs n => exact absurd rfl (hi cs n).2

/-- What a command that is no run does before its completion leaves the output. -/
theorem State.early_output {s : State} {i : Instr} {b : Body} {p : Progress} (h : s.early i = some (b, p)) :
    b.state.output = s.output := by
  obtain ⟨_, c, -, ⟨-, rfl, -⟩ | ⟨-, rfl, -⟩ | ⟨-, -, rfl, -⟩ | ⟨-, rfl, -⟩ | ⟨-, rfl, -⟩⟩ := State.early_cases h
  · exact s.fillScanLut_output c
  · exact s.fillCodeLut_output c
  · exact s.initLookup_output c
  · exact s.vlcDecode_output c
  · exact s.fsmStepCommand_output c

/-! ### Records -/

/-- A word is its four bytes. -/
theorem Memory.readWord_congr {m m' : Memory} {a : Nat} (h : ∀ b, b / 4 = a → m'.read b = m.read b) :
    m'.readWord a = m.readWord a := by
  unfold Memory.readWord
  rw [h (4 * a + 3) (by omega), h (4 * a + 2) (by omega), h (4 * a + 1) (by omega), h (4 * a) (by omega)]

/-- A write of a word leaves the word of every other address of R80. -/
theorem Memory.readWord_writeWord_or (m : Memory) (a b v : Word) :
    (m.writeWord a.toNat v).readWord b.toNat = m.readWord b.toNat ∨ b = a := by
  by_cases hb : b = a
  · exact .inr hb
  · exact .inl (Memory.readWord_writeWord_of_ne m v (mt BitVec.eq_of_toNat_eq hb))

/-- From `s` to `t` the two words of each of `r` records were written from `OUT_PTR` on, and no other byte of OUTMEM. -/
structure State.WroteRecords (s : State) (r : Nat) (t : State) : Prop where
  outPtr : t.outPtr = s.outPtr + BitVec.ofNat 32 (2 * r)
  read : ∀ a, (∀ k < 2 * r, a / 4 ≠ (s.outPtr + BitVec.ofNat 32 k).toNat) → t.outmem.read a = s.outmem.read a

/-- The state after step number `steps` of a run has decoded a record and written it (R262, R275). -/
def State.afterRecord (s : State) (steps : Nat) (w0 w1 : Word) : State :=
  { s.emit w0 w1 with result0 := BitVec.ofNat 32 (steps + 1) }

theorem State.afterRecord_outmem (s : State) (steps : Nat) (w0 w1 : Word) : (s.afterRecord steps w0 w1).outmem =
    (s.outmem.writeWord s.outPtr.toNat w0).writeWord (s.outPtr + 1).toNat w1 := s.emit_outmem w0 w1

namespace State.WroteRecords

variable {s t u : State} {r q : Nat}

theorem of_output (h : t.output = s.output) : s.WroteRecords 0 t := by
  obtain ⟨hptr, hmem⟩ := (s.output_eq_iff t).1 h
  exact ⟨by simp [hptr], fun a _ => by rw [hmem]⟩

theorem afterRecord (s : State) (steps : Nat) (w0 w1 : Word) : s.WroteRecords 1 (s.afterRecord steps w0 w1) where
  outPtr := rfl
  read a ha := by
    have h0 : a / 4 ≠ s.outPtr.toNat := by simpa using ha 0 (by omega)
    have h1 : a / 4 ≠ (s.outPtr + 1).toNat := ha 1 (by omega)
    rw [State.afterRecord_outmem, Memory.read_writeWord_of_ne _ _ h1, Memory.read_writeWord_of_ne _ _ h0]

theorem trans (h : s.WroteRecords r t) (h' : t.WroteRecords q u) : s.WroteRecords (r + q) u where
  outPtr := by rw [h'.outPtr, h.outPtr, BitVec.add_assoc, ← BitVec.ofNat_add, ← Nat.mul_add]
  read a ha := by
    have hfirst : t.outmem.read a = s.outmem.read a := h.read a fun k hk => ha k (by omega)
    refine (h'.read a fun k hk => ?_).trans hfirst
    rw [h.outPtr, BitVec.add_assoc, ← BitVec.ofNat_add]
    exact ha _ (by omega)

/-- A body that completes or fails has written its records before. -/
theorem finish {b : Body} (h : s.WroteRecords r b.state) : s.WroteRecords r b.finish :=
  h.trans (of_output b.finish_output)

/-- The words of the record before `OUT_PTR` stay: not so many records are written that the pointer comes round to them. -/
theorem readWord_before (h : s.WroteRecords r t) (hr : r < 2 ^ 30) {a : Word} {d : Nat} (hd : 1 ≤ d ∧ d ≤ 2)
    (ha : s.outPtr = a + BitVec.ofNat 32 d) : t.outmem.readWord a.toNat = s.outmem.readWord a.toNat := by
  have hne (k : Nat) (hk : k < 2 * r) : a.toNat ≠ (s.outPtr + BitVec.ofNat 32 k).toNat := by
    rw [ha]
    simp only [BitVec.toNat_add, BitVec.toNat_ofNat]
    omega
  exact Memory.readWord_congr fun b hb => h.read b fun k hk => hb ▸ hne k hk

end State.WroteRecords

/-! ### Runs -/

/-- A step of a run leaves the output, and the count of the records in `RESULT0`, to the loop. -/
theorem State.running_step_output {s t u : State} {i : Instr} {r : Run} {k : Nat} {o : Option (Word × Word)}
    (h : s.running i = some r) (hs : r.step k u = .ok (o, t)) : t.output = u.output ∧ t.result0 = u.result0 := by
  obtain ⟨c, p, b, x, rfl⟩ := State.running_step h hs
  exact ⟨setCodeset_output _ c _, by simp⟩

/-- A step of a run that decodes a record: it is written, and the next step follows. -/
theorem runLoop_of_record {f : Nat → State → RunStep} {left steps : Nat} {s t : State} {w0 w1 : Word}
    (h : f steps s = .ok (some (w0, w1), t)) :
    runLoop f (left + 1) steps s = runLoop f left (steps + 1) (t.afterRecord steps w0 w1) := by
  rw [runLoop, h]
  rfl

/-- A run writes at most one record a step, and counts them in `RESULT0`. -/
theorem State.runLoop_wroteRecords {u : State} {i : Instr} {run : Run} (h : u.running i = some run) (left steps : Nat)
    (s : State) : ∃ r ≤ left, s.WroteRecords r (runLoop run.step left steps s).state ∧
      (s.result0 = BitVec.ofNat 32 steps → (runLoop run.step left steps s).state.result0 = BitVec.ofNat 32 (steps + r)) := by
  induction left generalizing steps s with
  | zero => exact ⟨0, Nat.le_refl 0, .of_output rfl, id⟩
  | succ n ih =>
    rcases hstep : run.step steps s with e | ⟨_ | ⟨w0, w1⟩, t⟩
    · rw [runLoop, hstep]
      exact ⟨0, Nat.zero_le _, .of_output rfl, id⟩
    · obtain ⟨hout, hres⟩ := State.running_step_output h hstep
      rw [runLoop, hstep]
      exact ⟨0, Nat.zero_le _, .of_output hout, hres.trans⟩
    · obtain ⟨hout, -⟩ := State.running_step_output h hstep
      rw [runLoop_of_record hstep]
      obtain ⟨r, hr, hw, hcount⟩ := ih (steps + 1) (t.afterRecord steps w0 w1)
      have hrecord : s.WroteRecords 1 (t.afterRecord steps w0 w1) :=
        (State.WroteRecords.of_output hout).trans (.afterRecord t steps w0 w1)
      refine ⟨1 + r, by omega, hrecord.trans hw, fun _ => ?_⟩
      rw [hcount rfl, Nat.add_assoc]

/-- A run that gets as far as its loop is that loop. -/
theorem exec_of_running {s : State} {i : Instr} {r : Run} (h : s.running i = some r) :
    exec i s = .next (runLoop r.step r.count 0 { s with result0 := 0, result1 := 0 }).finish := by
  rcases State.running_cases h with ⟨cs, n, c, rfl, hc, hv, rfl⟩ | ⟨cs, n, c, rfl, hc, hv, rfl⟩
  · simp only [exec, execVlcRun, State.onCodeset_some hc, State.vlcRun, hv, Bool.not_true, Bool.false_eq_true, if_false]
  · simp only [exec, execFsmRun, State.onCodeset_some hc, State.fsmRun, hv, Bool.not_true, Bool.false_eq_true, if_false]

/-- A run fails before its loop and leaves the state, or gets there with its operand as its count. -/
theorem exec_run_cases {i : Instr} {cs : BitVec 2} {n : BitVec 24} (hi : i = .vlcRun cs n ∨ i = .fsmRun cs n) (s : State) :
    (∃ f, exec i s = .next (s.fail f)) ∨ ∃ r, s.running i = some r ∧ r.count = n.toNat := by
  cases hc : CsId.ofField cs with
  | none =>
    rcases hi with rfl | rfl
    · exact .inl ⟨_, congrArg _ (State.onCodeset_none hc s _)⟩
    · exact .inl ⟨_, congrArg _ (State.onCodeset_none hc s _)⟩
  | some c =>
    rcases hi with rfl | rfl
    · cases hv : (s.codeset c).valid.fastbook with
      | true => exact .inr ⟨⟨vlcRunStep c, n.toNat⟩, by simp [State.running, hc, hv], rfl⟩
      | false => exact .inl ⟨⟨.notInitialized, c.toNat⟩, by simp [exec, execVlcRun, State.onCodeset_some hc, State.vlcRun, hv]⟩
    · cases hv : (s.codeset c).fsmFlags.initialized with
      | true => exact .inr ⟨⟨fsmRunStep c, n.toNat⟩, by simp [State.running, hc, hv], rfl⟩
      | false => exact .inl ⟨⟨.notInitialized, c.toNat⟩, by simp [exec, execFsmRun, State.onCodeset_some hc, State.fsmRun, hv]⟩

/-- What a whole run writes, and its `RESULT0`. -/
theorem exec_run_wroteRecords {i : Instr} {cs : BitVec 2} {n : BitVec 24} (hi : i = .vlcRun cs n ∨ i = .fsmRun cs n)
    {s t : State} (h : exec i s = .next t) :
    ∃ r ≤ n.toNat, s.WroteRecords r t ∧ (t.result0 = BitVec.ofNat 32 r ∨ r = 0 ∧ t.result0 = s.result0) := by
  rcases exec_run_cases hi s with ⟨f, hfail⟩ | ⟨r, hr, hcount⟩
  · obtain rfl := Host.Outcome.next.inj (hfail.symm.trans h)
    exact ⟨0, Nat.zero_le _, .of_output rfl, .inr ⟨rfl, rfl⟩⟩
  · obtain rfl := Host.Outcome.next.inj ((exec_of_running hr).symm.trans h)
    obtain ⟨q, hq, hw, hres⟩ := State.runLoop_wroteRecords hr r.count 0 { s with result0 := 0, result1 := 0 }
    have hwrote : s.WroteRecords q _ := ⟨hw.finish.outPtr, hw.finish.read⟩
    refine ⟨q, hcount ▸ hq, hwrote, .inl ?_⟩
    rw [Body.finish_result0, hres rfl, Nat.zero_add]

/-! ### A part of a run and its completion -/

theorem State.running_count_lt {s : State} {i : Instr} {r : Run} (h : s.running i = some r) : r.count < 2 ^ 30 := by
  rcases State.running_cases h with ⟨_, n, _, -, -, -, rfl⟩ | ⟨_, n, _, -, -, -, rfl⟩ <;>
    exact n.isLt.trans (by decide)

/-- A run of which `made` steps were carried out, and no half of one, completes with the steps that are left. -/
theorem State.completed_of_running {s : State} {w : Word} {i : Instr} {r : Run} (hi : decode w = .ok i)
    (hr : s.running i = some r) (hp : s.progress = .start ∨ s.progress = .steps s.progress.made) :
    s.completed w = .next (runLoop r.step (r.count - s.progress.made) s.progress.made s.atStep).finish := by
  rcases hp with hp | hp
  · have hat : s.atStep = { s with result0 := 0, result1 := 0 } := by unfold State.atStep; rw [hp]
    simp only [State.completed, hi, hp, if_pos, exec_of_running hr, hat, Progress.made, Nat.sub_zero]
  · have hat : s.atStep = { s with progress := .start } := by unfold State.atStep; rw [hp]
    have hstart : s.progress ≠ .start := by rw [hp]; simp
    simp only [State.completed, hi, if_neg hstart, hat]
    unfold State.resume
    rw [hp]
    simp only [State.resumeSteps, hr, Progress.made]

/-- A run of which half a step was carried out completes with the second word of its record, and the steps that are left. -/
theorem State.completed_of_record {s : State} {w w1 : Word} {i : Instr} {k : Nat} (hi : decode w = .ok i)
    (hp : s.progress = .record k w1) : s.completed w = .next ((s.stageRecord k w1).resumeSteps i (k + 1)).finish := by
  have hstart : s.progress ≠ .start := by rw [hp]; simp
  simp only [State.completed, hi, if_neg hstart]
  unfold State.resume
  rw [hp]

theorem State.resumeSteps_wroteRecords (s : State) (i : Instr) (k : Nat) :
    ∃ r < 2 ^ 30, s.WroteRecords r (s.resumeSteps i k).finish := by
  unfold State.resumeSteps
  split
  · rename_i r hr
    obtain ⟨q, hq, hw, -⟩ := State.runLoop_wroteRecords hr (r.count - k) k { s with progress := .start }
    have hcount := State.running_count_lt hr
    exact ⟨q, by omega, hw.finish.outPtr, hw.finish.read⟩
  · exact ⟨0, by decide, .of_output rfl⟩

theorem State.atStep_output (s : State) : s.atStep.output = s.output := by
  unfold State.atStep
  split <;> rfl

/-- Of a record's first word: the completion writes the same word, and no later record reaches it. -/
theorem State.firstWord_of_completed {s t u : State} {w w0 w1 : Word} {i : Instr} {r : Run} (hi : decode w = .ok i)
    (hr : s.running i = some r) (hp : s.progress = .start ∨ s.progress = .steps s.progress.made)
    (hlt : s.progress.made < r.count) (hstep : r.step s.progress.made s.atStep = .ok (some (w0, w1), u))
    (h : s.completed w = .next t) :
    t.outmem.readWord u.outPtr.toNat = (u.outWrite u.outPtr w0).outmem.readWord u.outPtr.toNat := by
  obtain ⟨left, hleft⟩ : ∃ left, r.count - s.progress.made = left + 1 := ⟨_, (Nat.sub_add_cancel (by omega)).symm⟩
  rw [State.completed_of_running hi hr hp, hleft, runLoop_of_record hstep] at h
  obtain rfl := Host.Outcome.next.inj h
  obtain ⟨q, hq, hw, -⟩ := State.runLoop_wroteRecords hr left (s.progress.made + 1) (u.afterRecord s.progress.made w0 w1)
  have hcount := State.running_count_lt hr
  have hne : u.outPtr.toNat ≠ (u.outPtr + 1).toNat := by
    rw [BitVec.toNat_add, show (1 : Word).toNat = 1 from rfl]
    omega
  refine (hw.finish.readWord_before (by omega) (d := 2) ⟨by omega, by omega⟩ rfl).trans ?_
  exact Memory.readWord_writeWord_of_ne _ _ hne

/-- Of a record's second word: the completion begins with that write, and no later record reaches it. -/
theorem State.secondWord_of_completed {s t : State} {w w1 : Word} {i : Instr} {k : Nat} (hi : decode w = .ok i)
    (hp : s.progress = .record k w1) (h : s.completed w = .next t) :
    t.outmem.readWord (s.outPtr + 1).toNat = (s.stageRecord k w1).outmem.readWord (s.outPtr + 1).toNat := by
  rw [State.completed_of_record hi hp] at h
  obtain rfl := Host.Outcome.next.inj h
  obtain ⟨q, hq, hw⟩ := (s.stageRecord k w1).resumeSteps_wroteRecords i (k + 1)
  refine hw.readWord_before hq (d := 1) ⟨by omega, by omega⟩ ?_
  exact (BitVec.add_assoc s.outPtr 1 1).symm

/-- A part of a running command leaves each word of OUTMEM as it was, or as the completion will leave it. -/
theorem State.stage_oldOrCompleted {s t : State} {w : Word} {i : Instr} (hi : decode w = .ok i) (h : s.completed w = .next t)
    (a : Word) : (s.stage i).outmem.readWord a.toNat = s.outmem.readWord a.toNat ∨
      (s.stage i).outmem.readWord a.toNat = t.outmem.readWord a.toNat := by
  have hold {u : State} (hu : u.output = s.output) : u.outmem.readWord a.toNat = s.outmem.readWord a.toNat := by
    rw [((s.output_eq_iff u).1 hu).2]
  rcases s.stage_cases i with hs | ⟨-, hs⟩ | ⟨r, u, hr, -, -, hok, hs⟩ | ⟨r, u, w0, w1, hr, hp, hlt, hok, hs⟩ |
    ⟨k, w1, hp, hs⟩ | ⟨u, p, -, -, he, hs⟩ <;> rw [hs]
  · exact .inl rfl
  · exact .inl rfl
  · exact .inl (hold ((State.running_step_output hr hok).1.trans s.atStep_output))
  · have hu := hold ((State.running_step_output hr hok).1.trans s.atStep_output)
    rcases u.outmem.readWord_writeWord_or u.outPtr a w0 with hkeep | rfl
    · exact .inl (hkeep.trans hu)
    · exact .inr (State.firstWord_of_completed hi hr hp hlt hok h).symm
  · rcases s.outmem.readWord_writeWord_or (s.outPtr + 1) a w1 with hkeep | rfl
    · exact .inl hkeep
    · exact .inr (State.secondWord_of_completed hi hp h).symm
  · exact .inl (hold (State.early_output he))

/-- R93, R354: so does the event of the engine that carries a part out; an idle engine, and one held in reset, does nothing. -/
theorem State.runStage_oldOrCompleted {s t : State} (h : s.runEngine = .next t) (a : Word) :
    s.runStage.outmem.readWord a.toNat = s.outmem.readWord a.toNat ∨
      s.runStage.outmem.readWord a.toNat = t.outmem.readWord a.toNat := by
  unfold State.runEngine at h
  unfold State.runStage
  cases he : s.engine with
  | idle => exact .inl rfl
  | busy w =>
    rw [he] at h
    dsimp only at h ⊢
    split at h
    · rename_i hreset
      exact .inl (by rw [if_pos hreset])
    · rename_i hreset
      rw [if_neg hreset]
      cases hi : decode w with
      | error e => exact .inl rfl
      | ok i => exact State.stage_oldOrCompleted hi h a

/-- Settles O12: no body but a run's touches the output, a run writes as `WroteRecords` says, and a part of a run writes a word that
its completion writes too. -/
theorem onlyRunsWriteOutput : Obligations.OnlyRunsWriteOutput := by
  refine ⟨fun i s t h => ⟨fun hi => ?_, fun cs n hi => ?_⟩, fun _ _ h a => State.runStage_oldOrCompleted h a⟩
  · obtain ⟨hptr, hmem⟩ := (s.output_eq_iff t).1 (exec_output h hi)
    exact ⟨hptr, fun a => by rw [hmem]⟩
  · obtain ⟨r, hr, hw, hres⟩ := exec_run_wroteRecords hi h
    exact ⟨r, hr, hw.outPtr, hres, hw.read⟩

end Sys2Proof.Machine
end

section
/-!
SUPPORT. The opcode map of spec/30_encoding.md R114 as the rows that build its commands, and the decoder and the encoder over it:
the round trip of a command word (R114) and the verdict on any word (R118).
-/

namespace Sys2Proof.Machine

/-! ### Command words -/

/-- A word is its three fields (R111). -/
theorem commandWord_fields (w : Word) : commandWord (opField w) (csField w) (immField w) = w := by
  refine BitVec.eq_of_getLsbD_eq fun i hi => ?_
  simp only [commandWord, opField, csField, immField, BitVec.getLsbD_append, BitVec.getLsbD_extractLsb']
  rcases Nat.lt_or_ge i 24 with h24 | h24
  · simp [h24]
  · rcases Nat.lt_or_ge (i - 24) 2 with h2 | h2
    · simp [h2, Nat.not_lt.2 h24, Nat.add_sub_cancel' h24]
    · have hi6 : i - 24 - 2 < 6 := by omega
      have hback : 26 + (i - 24 - 2) = i := by omega
      simp [Nat.not_lt.2 h24, Nat.not_lt.2 h2, hi6, hback]

/-! ### Rows of the opcode map -/

/-- A row of the opcode map: its format, with the command that the operands of the format give. -/
inductive Row where
  | N (i : Instr)
  | C (f : BitVec 2 → Instr)
  | I (f : BitVec 24 → Instr)
  | CI (f : BitVec 2 → BitVec 24 → Instr)

namespace Row

def format : Row → Format
  | N _ => .N
  | C _ => .C
  | I _ => .I
  | CI _ => .CI

/-- The command of the row with these fields; a field that the format reserves (R112) is ignored. -/
def instr : Row → BitVec 2 → BitVec 24 → Instr
  | N i, _, _ => i
  | C f, cs, _ => f cs
  | I f, _, imm => f imm
  | CI f, cs, imm => f cs imm

/-- The command word with these fields; a field that the format reserves is 0. -/
def word : Row → BitVec 6 → BitVec 2 → BitVec 24 → Word
  | N _, op, _, _ => commandWord op 0 0
  | C _, op, cs, _ => commandWord op cs 0
  | I _, op, _, imm => commandWord op 0 imm
  | CI _, op, cs, imm => commandWord op cs imm

/-- The decoder of the row's format. -/
def decode : Row → Word → Except DecodeError Instr
  | N i => decodeN i
  | C f => decodeC f
  | I f => decodeI f
  | CI f => decodeCI f

/-- The checks of the four format decoders are those of R118: reserved fields, then the codeset. -/
theorem decode_eq (r : Row) (w : Word) : r.decode w =
    if reservedSet r.format w then .error .illegalCmd
    else if hasCodeset r.format ∧ csField w = 3 then .error .badCodeset
    else .ok (r.instr (csField w) (immField w)) := by
  cases r with
  | N i =>
    by_cases h : csField w = 0 ∧ immField w = 0
    · simp [decode, decodeN, format, reservedSet, hasCodeset, instr, h]
    · have hres : reservedSet .N w = true := by
        simpa only [reservedSet, Bool.or_eq_true, bne_iff_ne, ne_eq, ← not_and_or] using h
      exact (if_neg h).trans (if_pos hres).symm
  | C f => simp [decode, decodeC, format, reservedSet, hasCodeset, instr]
  | I f => simp [decode, decodeI, format, reservedSet, hasCodeset, instr]
  | CI f => simp [decode, decodeCI, format, reservedSet, hasCodeset, instr]

variable (r : Row) (op : BitVec 6) (cs : BitVec 2) (imm : BitVec 24)

theorem opField_word : opField (r.word op cs imm) = op := by cases r <;> exact opField_commandWord _ _ _

theorem reservedSet_word : reservedSet r.format (r.word op cs imm) = false := by
  cases r <;> simp [format, word, reservedSet, csField_commandWord, immField_commandWord]

theorem instr_word : r.instr (csField (r.word op cs imm)) (immField (r.word op cs imm)) = r.instr cs imm := by
  cases r <;> simp [instr, word, csField_commandWord, immField_commandWord]

theorem csField_word (h : hasCodeset r.format) : csField (r.word op cs imm) = cs := by
  cases r <;> simp_all [format, word, hasCodeset, csField_commandWord]

/-- A word without a non-zero reserved field is its row's word of its fields. -/
theorem word_fields {r : Row} {w : Word} (h : ¬ reservedSet r.format w) :
    r.word (opField w) (csField w) (immField w) = w := by
  refine Eq.trans ?_ (commandWord_fields w)
  cases r <;> simp_all [format, word, reservedSet]

end Row

/-- The opcode map of R114, each opcode with its row. -/
def rows : List (Nat × Row) :=
  [(0x00, .N .nop), (0x01, .C .initCodebooks), (0x02, .C .sortRunlength), (0x03, .C .buildRunlength),
    (0x04, .C .fillScanLut), (0x05, .C .fillCodeLut), (0x06, .N .buildCubic), (0x07, .C .fillVlcTable),
    (0x08, .C .loadFsm), (0x09, .C .scaleFsm), (0x0A, .C .extractBandEnd), (0x0B, .C .initDecoderFsm),
    (0x0C, .C .freeCodebooks), (0x0D, .CI .matchPattern), (0x10, .I .bsPeek), (0x11, .I .bsGet), (0x12, .I .bsSkip),
    (0x18, .C .vlcDecode), (0x19, .CI .vlcRun), (0x1A, .CI .fsmSetState), (0x1B, .C .fsmStep), (0x1C, .CI .fsmRun)]

theorem lookup_map_snd {α β : Type} (g : α → β) (l : List (Nat × α)) (n : Nat) :
    (l.map fun x => (x.1, g x.2)).lookup n = (l.lookup n).map g := by
  induction l with
  | nil => rfl
  | cons x rest ih =>
    rw [List.map_cons, List.lookup_cons, List.lookup_cons, ih]
    cases n == x.1 <;> rfl

theorem lookup_opcodeMap (n : Nat) : opcodeMap.lookup n = (rows.lookup n).map Row.format :=
  lookup_map_snd Row.format rows n

theorem mem_of_lookup {α : Type} {l : List (Nat × α)} {n : Nat} {a : α} (h : l.lookup n = some a) : (n, a) ∈ l := by
  obtain ⟨l₁, l₂, rfl, -⟩ := List.lookup_eq_some_iff.1 h
  simp

/-- The decoder looks the opcode up and decodes by the row it finds. -/
theorem decode_eq_lookup (w : Word) :
    decode w = (rows.lookup (opField w).toNat).elim (.error .illegalCmd) (Row.decode · w) := by
  generalize hn : (opField w).toNat = n
  unfold decode
  rw [hn]
  split
  -- the default branch, where `rows` does not list the opcode either
  case h_23 =>
    have hnone : rows.lookup n = none := by
      rw [List.lookup_eq_none_iff]
      simp_all [rows]
    rw [hnone]
    rfl
  all_goals rfl

/-- Every command is its row's, with the fields that it has; the others can be anything. -/
theorem exists_row (i : Instr) :
    ∃ (op : BitVec 6) (r : Row) (cs : BitVec 2) (imm : BitVec 24), rows.lookup op.toNat = some r ∧ r.instr cs imm = i := by
  cases i with
  | nop => exact ⟨0x00, .N .nop, 0, 0, rfl, rfl⟩
  | initCodebooks cs => exact ⟨0x01, .C .initCodebooks, cs, 0, rfl, rfl⟩
  | sortRunlength cs => exact ⟨0x02, .C .sortRunlength, cs, 0, rfl, rfl⟩
  | buildRunlength cs => exact ⟨0x03, .C .buildRunlength, cs, 0, rfl, rfl⟩
  | fillScanLut cs => exact ⟨0x04, .C .fillScanLut, cs, 0, rfl, rfl⟩
  | fillCodeLut cs => exact ⟨0x05, .C .fillCodeLut, cs, 0, rfl, rfl⟩
  | buildCubic => exact ⟨0x06, .N .buildCubic, 0, 0, rfl, rfl⟩
  | fillVlcTable cs => exact ⟨0x07, .C .fillVlcTable, cs, 0, rfl, rfl⟩
  | loadFsm cs => exact ⟨0x08, .C .loadFsm, cs, 0, rfl, rfl⟩
  | scaleFsm cs => exact ⟨0x09, .C .scaleFsm, cs, 0, rfl, rfl⟩
  | extractBandEnd cs => exact ⟨0x0A, .C .extractBandEnd, cs, 0, rfl, rfl⟩
  | initDecoderFsm cs => exact ⟨0x0B, .C .initDecoderFsm, cs, 0, rfl, rfl⟩
  | freeCodebooks cs => exact ⟨0x0C, .C .freeCodebooks, cs, 0, rfl, rfl⟩
  | matchPattern cs imm => exact ⟨0x0D, .CI .matchPattern, cs, imm, rfl, rfl⟩
  | bsPeek imm => exact ⟨0x10, .I .bsPeek, 0, imm, rfl, rfl⟩
  | bsGet imm => exact ⟨0x11, .I .bsGet, 0, imm, rfl, rfl⟩
  | bsSkip imm => exact ⟨0x12, .I .bsSkip, 0, imm, rfl, rfl⟩
  | vlcDecode cs => exact ⟨0x18, .C .vlcDecode, cs, 0, rfl, rfl⟩
  | vlcRun cs imm => exact ⟨0x19, .CI .vlcRun, cs, imm, rfl, rfl⟩
  | fsmSetState cs imm => exact ⟨0x1A, .CI .fsmSetState, cs, imm, rfl, rfl⟩
  | fsmStep cs => exact ⟨0x1B, .C .fsmStep, cs, 0, rfl, rfl⟩
  | fsmRun cs imm => exact ⟨0x1C, .CI .fsmRun, cs, imm, rfl, rfl⟩

section Lookup
variable {op : BitVec 6} {r : Row} (h : rows.lookup op.toNat = some r) (cs : BitVec 2) (imm : BitVec 24)
include h

theorem encode_instr : encode (r.instr cs imm) = r.word op cs imm := by
  suffices hall : ∀ x ∈ rows, encode (x.2.instr cs imm) = x.2.word (BitVec.ofNat 6 x.1) cs imm by
    simpa using hall _ (mem_of_lookup h)
  simp [rows, Row.instr, Row.word, encode]

theorem codesetField_instr : (r.instr cs imm).codesetField = if hasCodeset r.format then some cs else none := by
  suffices hall : ∀ x ∈ rows, (x.2.instr cs imm).codesetField = if hasCodeset x.2.format then some cs else none from
    hall _ (mem_of_lookup h)
  simp [rows, Row.instr, Row.format, hasCodeset, Instr.codesetField]

theorem wellFormed_instr_iff : (r.instr cs imm).wellFormed = true ↔ ¬ (hasCodeset r.format ∧ cs = 3) := by
  rw [Instr.wellFormed, codesetField_instr h]
  by_cases hf : hasCodeset r.format <;> simp [hf]

end Lookup

/-! ### The verdict on a word, and the round trip -/

/-- R118 for an opcode of the map. -/
theorem decode_of_lookup {w : Word} {r : Row} (h : rows.lookup (opField w).toNat = some r) : decode w =
    if reservedSet r.format w then .error .illegalCmd
    else if hasCodeset r.format ∧ csField w = 3 then .error .badCodeset
    else .ok (r.instr (csField w) (immField w)) := by
  rw [decode_eq_lookup, h]
  exact r.decode_eq w

/-- Settles O1: the word of a row has no reserved field set and carries the fields that the row's command has. -/
theorem encodeDecodeRoundTrip : Obligations.EncodeDecodeRoundTrip := by
  intro i hwf
  obtain ⟨op, r, cs, imm, h, rfl⟩ := exists_row i
  have hcs : ¬ (hasCodeset r.format ∧ csField (r.word op cs imm) = 3) := fun ⟨hf, h3⟩ =>
    (wellFormed_instr_iff h cs imm).1 hwf ⟨hf, by rwa [r.csField_word op cs imm hf] at h3⟩
  rw [encode_instr h, decode_of_lookup (r := r) (by rw [r.opField_word, h]), r.reservedSet_word, if_neg (by simp), if_neg hcs,
    r.instr_word]

theorem decode_of_encode_eq {i : Instr} {w : Word} (h : encode i = w) (hwf : i.wellFormed = true) : decode w = .ok i :=
  h ▸ encodeDecodeRoundTrip i hwf

/-- Settles O3: each word is the command word of its command, so O1 decodes it. -/
theorem sampleCommandWords : Obligations.SampleCommandWords := by
  refine ⟨?_, ?_, ?_, ?_, ?_, ?_, ?_, ?_, ?_, ?_, ?_, ?_, ?_, ?_, ?_, ?_, ?_, ?_, ?_, ?_, ?_, ?_⟩ <;>
    exact decode_of_encode_eq rfl rfl

/-- Settles O2: the opcode map lists the formats of `rows`, and a word without a reserved field set is the word of its row. -/
theorem decodeFollowsThePriority : Obligations.DecodeFollowsThePriority := by
  intro w
  rw [lookup_opcodeMap]
  cases h : rows.lookup (opField w).toNat with
  | none => exact (decode_eq_lookup w).trans (by rw [h]; rfl)
  | some r =>
    have hd := decode_of_lookup h
    dsimp only [Option.map_some]
    split_ifs at hd ⊢ with hres hcs
    · exact hd
    · exact hd
    · exact ⟨_, hd, (wellFormed_instr_iff h _ _).2 hcs, (encode_instr h _ _).trans (Row.word_fields hres)⟩

/-! ### Refused words -/

/-- The error code of a word that is not decoded (R302). -/
def refusalCode : DecodeError → ErrCode
  | .illegalCmd => .illegalCmd
  | .badCodeset => .badCodeset

theorem State.completed_of_decode_error {w : Word} {e : DecodeError} (s : State) (h : decode w = .error e) :
    s.completed w = .next (s.fail ⟨refusalCode e, w.toNat⟩) := by
  unfold State.completed
  cases e <;> simp only [h, refusalCode]

theorem step_engine_of_busy {s : State} {w : Word} {rest : List Input} (hbusy : s.engine = .busy w) (hreset : s.resetLine = false)
    (hinputs : s.inputs = .engine :: rest) : step s = State.completed { s with inputs := rest } w := by
  rw [step_of_inputs_cons hinputs]
  simp [State.perform, State.runEngine, hbusy, hreset]

/-- Settles O5: the verdict of O2 on the word, and the failure of a word that is not decoded. -/
theorem refusedWordsFail : Obligations.RefusedWordsFail := by
  intro s w rest hbusy hreset hinputs failed
  have hfail {e : DecodeError} (he : decode w = .error e) : step s = .next (failed (refusalCode e)) := by
    rw [step_engine_of_busy hbusy hreset hinputs, State.completed_of_decode_error _ he]
    simp [failed, State.fail, State.release]
  have hverdict := decodeFollowsThePriority w
  refine ⟨fun hnone => ?_, fun f hf => ?_⟩
  · rw [hnone] at hverdict
    exact hfail (e := .illegalCmd) hverdict
  · rw [hf] at hverdict
    dsimp only at hverdict
    refine ⟨fun hres => hfail (e := .illegalCmd) ?_, fun hres hcodeset hcs => hfail (e := .badCodeset) ?_⟩
    · rwa [if_pos hres] at hverdict
    · rwa [if_neg hres, if_pos ⟨hcodeset, hcs⟩] at hverdict

end Sys2Proof.Machine
end

section
/-!
SUPPORT. The loop of `ScanEntry` (spec/40_table_generator.md R160, R161) as the relation `ScanRun` of the statements, and the marker
of R163.
-/

namespace Sys2Proof.Machine

section ScanRun
variable {p : Params} {b : Nat → BookEntry} {len idx : Nat}

/-- A run of the loop has a result: each match shortens the window. -/
theorem ScanRun.exists_result (p : Params) (b : Nat → BookEntry) (len idx rem cnt sh : Nat) :
    ∃ r, ScanRun p b len idx rem cnt sh r := by
  induction rem using Nat.strong_induction_on generalizing cnt sh with
  | _ rem ih =>
    cases hm : matchPattern p (idx % 2 ^ rem) rem (fun _ => b) len [] with
    | none => exact ⟨_, .notFound rem cnt sh hm⟩
    | some m =>
      obtain ⟨j, -, -, e, -, -, h1, -, hsize, hwidth, -⟩ := matchPattern_some hm
      by_cases hv : m.value = 0
      · obtain ⟨r, hr⟩ := ih (rem - m.shift) (by omega) (cnt + m.count) (sh + m.shift)
        exact ⟨r, .zeroRun rem cnt sh m r (by omega) hm hv hr⟩
      · exact ⟨_, .value rem cnt sh m (by omega) hm hv⟩

/-- What a run adds to the count and to the shift: at most the window, and nothing to the one just where nothing to the other. -/
theorem ScanRun.bounds (hcount : ∀ j < len, 1 ≤ (b j).count) {rem cnt sh : Nat} {r : Nat × Int × Nat}
    (h : ScanRun p b len idx rem cnt sh r) :
    cnt ≤ r.1 ∧ sh ≤ r.2.2 ∧ r.2.2 ≤ sh + rem ∧ (cnt = r.1 ↔ sh = r.2.2) := by
  induction h with
  | exhausted cnt sh => simp
  | notFound rem cnt sh hm => simp
  | value rem cnt sh m hr hm hv =>
    obtain ⟨j, hj, -, e, rfl, hc, h1, -, hsize, hwidth, -⟩ := matchPattern_some hm
    have := hcount j hj
    dsimp only
    omega
  | zeroRun rem cnt sh m r hr hm hv rest ih =>
    obtain ⟨j, hj, -, e, rfl, hc, h1, -, hsize, hwidth, -⟩ := matchPattern_some hm
    have := hcount j hj
    omega

/-- How the loop ends that has the result `r`. -/
def ScanEnd.ofResult (r : Nat × Int × Nat) : ScanEnd :=
  if 2 ^ 32 ≤ r.1 then .overflow else if 0 < r.2.2 then .entry r.1 r.2.1 r.2.2 else .nothing

/-- Where the loop stops without another match, it ends as its result says. -/
theorem ScanEnd.ofResult_of_lt {cnt : Nat} (h : cnt < 2 ^ 32) (v : Int) (sh : Nat) :
    (if sh > 0 then ScanEnd.entry cnt v sh else .nothing) = .ofResult (cnt, v, sh) :=
  (if_neg (Nat.not_le.2 h)).symm

/-- A book that does not depend on the place of the read is matched alike at every place. -/
theorem matchPattern_const (word width : Nat) (site : Site) :
    matchPattern p word width (fun _ => b) len site = matchPattern p word width (fun _ => b) len [] := rfl

/-- The loop is the run, with the failure of R161 where the count of the run does not fit 32 bits. -/
theorem ScanRun.scanLoop_eq (hcount : ∀ j < len, 1 ≤ (b j).count) (site : Site) {rem cnt sh : Nat} {r : Nat × Int × Nat}
    (h : ScanRun p b len idx rem cnt sh r) {fuel : Nat} (hfuel : rem ≤ fuel) (hcnt : cnt < 2 ^ 32) :
    scanLoop p (fun _ => b) len site idx fuel rem cnt sh = .ofResult r := by
  induction h generalizing fuel with
  | exhausted cnt sh => cases fuel <;> simp only [scanLoop, if_true, ScanEnd.ofResult_of_lt hcnt]
  | notFound rem cnt sh hm =>
    cases fuel with
    | zero => simp only [scanLoop, ScanEnd.ofResult_of_lt hcnt]
    | succ n => simp only [scanLoop, matchPattern_const, hm, ScanEnd.ofResult_of_lt hcnt, ite_self]
  | value rem cnt sh m hr hm hv =>
    obtain ⟨j, -, -, e, -, -, h1, -, hsize, hwidth, -⟩ := matchPattern_some hm
    obtain ⟨n, rfl⟩ : ∃ n, fuel = n + 1 := ⟨fuel - 1, by omega⟩
    have hsh : 0 < sh + m.shift := by omega
    simp only [scanLoop, matchPattern_const, hm, if_neg (Nat.ne_of_gt hr), ScanEnd.ofResult, if_pos hsh, if_pos hv]
    exact if_congr (by omega) rfl rfl
  | zeroRun rem cnt sh m r hr hm hv rest ih =>
    obtain ⟨j, -, -, e, -, -, h1, -, hsize, hwidth, -⟩ := matchPattern_some hm
    obtain ⟨n, rfl⟩ : ∃ n, fuel = n + 1 := ⟨fuel - 1, by omega⟩
    simp only [scanLoop, matchPattern_const, hm, if_neg (Nat.ne_of_gt hr)]
    by_cases hover : cnt + m.count > 2 ^ 32 - 1
    · have := (rest.bounds hcount).1
      rw [if_pos hover, ScanEnd.ofResult, if_pos (by omega)]
    · rw [if_neg hover, if_neg (not_not.2 hv)]
      exact ih (by omega) (by omega)

end ScanRun

/-! ### The marker (R163) -/

section Marker
variable {p : Params} {b : Nat → BookEntry} {len idx : Nat} (site : Site)

theorem markerScan_of_first {j : Nat} (hj : j < len) (hmarks : (b j).marks p idx = true)
    (hbefore : ∀ i < j, (b i).marks p idx = false) : markerScan p (fun _ => b) len site idx = .continuation j := by
  have hfind : ((List.range' 0 len).find? fun i => (b i).marks p idx) = some j := by
    rw [List.find?_range'_eq_some]
    simp_all
  simp only [markerScan, hfind]

theorem markerScan_of_none (h : ∀ j < len, (b j).marks p idx = false) :
    markerScan p (fun _ => b) len site idx = .unmatched := by
  have hfind : ((List.range' 0 len).find? fun i => (b i).marks p idx) = none := by
    rw [List.find?_eq_none]
    simp_all
  simp only [markerScan, hfind]

end Marker

/-- Settles O24: the loop is a `ScanRun`, whose count and shift are both 0 or both not, and `markerScan` takes the first mark. -/
theorem scanEntryFollowsTheLoop : Obligations.ScanEntryFollowsTheLoop := by
  intro p b len idx _ hbook
  have hcount : ∀ j < len, 1 ≤ (b j).count := fun j hj => (hbook j hj).2.1
  obtain ⟨⟨cnt, v, sh⟩, hrun⟩ := ScanRun.exists_result p b len idx 12 0 0
  obtain ⟨-, -, hle, hzero⟩ : 0 ≤ cnt ∧ 0 ≤ sh ∧ sh ≤ 0 + 12 ∧ (0 = cnt ↔ 0 = sh) := hrun.bounds hcount
  have hloop := hrun.scanLoop_eq hcount ([] ++ [0, idx]) (Nat.le_refl 12) (by decide)
  refine ⟨cnt, v, sh, hrun, by omega, fun hover => ?_, fun hfits hpos => ⟨by omega, ?_⟩, fun hsh => ⟨by omega, ?_⟩⟩
  · rw [scanEntry, hloop, ScanEnd.ofResult, if_pos hover]
  · rw [scanEntry, hloop, ScanEnd.ofResult, if_neg (by omega), if_pos hpos]
    rfl
  · have hentry : scanEntry p (fun _ => b) len [] idx = some (markerScan p (fun _ => b) len ([] ++ [1, idx]) idx) := by
      rw [scanEntry, hloop, ScanEnd.ofResult, if_neg (by omega), if_neg (Nat.not_lt.2 hsh.le)]
    rw [hentry]
    refine ⟨fun j hj hmarks hbefore => ⟨indexField j, indexField_of_lt, ?_⟩, fun hnone => ?_⟩
    · rw [markerScan_of_first _ hj hmarks hbefore]
      rfl
    · rw [markerScan_of_none _ hnone]
      rfl

end Sys2Proof.Machine
end

section
/-!
SUPPORT. The run-length code table (spec/40_table_generator.md R140 to R151): the checks of `SORT_RUNLENGTH` and what it sorts, and the
composition of a run length as the greedy choice of its parts.
-/

namespace Sys2Proof.Machine

/-! ### The commands of the table generator on the codeset they name -/

section Commands
variable {cs : BitVec 2} {c : CsId} (hc : CsId.ofField cs = some c) (s : State)
include hc

theorem exec_sortRunlength : exec (.sortRunlength cs) s = .next (s.sortRunLength c).finish :=
  congrArg _ (State.onCodeset_some hc s _)

theorem exec_buildRunlength : exec (.buildRunlength cs) s = .next (s.buildRunLength c).finish :=
  congrArg _ (State.onCodeset_some hc s _)

theorem exec_fillScanLut : exec (.fillScanLut cs) s = .next (s.fillScanLut c).finish :=
  congrArg _ (State.onCodeset_some hc s _)

theorem exec_fillCodeLut : exec (.fillCodeLut cs) s = .next (s.fillCodeLut c).finish :=
  congrArg _ (State.onCodeset_some hc s _)

theorem exec_fillVlcTable : exec (.fillVlcTable cs) s = .next (s.fillVlcTable c).finish :=
  congrArg _ (State.onCodeset_some hc s _)

theorem exec_initCodebooks : exec (.initCodebooks cs) s = .next (s.initCodebooks c).finish :=
  congrArg _ (State.onCodeset_some hc s _)

theorem exec_matchPattern (imm : BitVec 24) : exec (.matchPattern cs imm) s = .next (s.matchCommand c imm.toNat).finish :=
  congrArg _ (State.onCodeset_some hc s _)

end Commands

/-! ### The static data, which no body writes -/

section Kept
variable {s t : State} (hkept : t.kept = s.kept)
include hkept

theorem State.rleEntry_of_kept (c : CsId) (j : Nat) : t.rleEntry c j = s.rleEntry c j := by
  cases c with
  | c0 => exact congrArg (·.rleEntry .c0 j) hkept
  | c1 => exact congrArg (·.rleEntry .c1 j) hkept
  | c2 => exact congrArg (·.rleEntry .c2 j) hkept

theorem State.rlvEntry_of_kept (c : CsId) (j : Nat) : t.rlvEntry c j = s.rlvEntry c j := by
  cases c with
  | c0 => exact congrArg (·.rlvEntry .c0 j) hkept
  | c1 => exact congrArg (·.rlvEntry .c1 j) hkept
  | c2 => exact congrArg (·.rlvEntry .c2 j) hkept

theorem State.descriptors_of_kept (c : CsId) : (t.codeset c).descriptors = (s.codeset c).descriptors :=
  State.descriptors_of_frame (State.frame_congr hkept) c

theorem State.csFlags_of_kept (c : CsId) : (t.codeset c).csFlags = (s.codeset c).csFlags :=
  (congrArg Codeset.csFlags (State.descriptors_of_kept hkept c) : (t.codeset c).descriptors.csFlags = _)

theorem State.rlcLen_of_kept (c : CsId) : (t.codeset c).rlcLen = (s.codeset c).rlcLen :=
  (congrArg Codeset.rlcLen (State.descriptors_of_kept hkept c) : (t.codeset c).descriptors.rlcLen = _)

theorem State.rlvLen_of_kept (c : CsId) : (t.codeset c).rlvLen = (s.codeset c).rlvLen :=
  (congrArg Codeset.rlvLen (State.descriptors_of_kept hkept c) : (t.codeset c).descriptors.rlvLen = _)

theorem State.rleValid_of_kept {c : CsId} (h : s.RleValid c) : t.RleValid c := by
  simpa only [State.RleValid, State.rleEntry_of_kept hkept, State.rlcLen_of_kept hkept] using h

theorem State.rlvValid_of_kept {c : CsId} (h : s.RlvValid c) : t.RlvValid c := by
  simpa only [State.RlvValid, State.rlvEntry_of_kept hkept, State.rlvLen_of_kept hkept] using h

theorem State.rlvReady_of_kept {c : CsId} (h : s.RlvReady c) : t.RlvReady c := by
  simpa only [State.RlvReady, State.RlvValid, State.rlvEntry_of_kept hkept, State.rlvLen_of_kept hkept] using h

end Kept

/-! ### The checks of R143 -/

/-- What `SORT_RUNLENGTH` fails with: the first of its checks that does not pass. -/
def State.sortFailure (s : State) (c : CsId) : Option Failure :=
  match s.validateRle c [0, 0] with
  | some f => some f
  | none =>
    if (s.copiedRuns c (s.hasCountOne c)).length > s.params.rlcMaxEntries then
      some ⟨.outOfMemory, (s.copiedRuns c (s.hasCountOne c)).length⟩
    else if !s.hasCountOne c && (s.codeset c).badZeroCode then some ⟨.invalidCodebook, (s.codeset c).rlcLen.toNat⟩
    else (s.firstDuplicate c).map fun j => ⟨.invalidCodebook, j⟩

/-- What `SORT_RUNLENGTH` leaves once its checks pass. -/
def State.withSorted (s : State) (runs : List WorkEntry) : State :=
  { s with
    work := s.work.store (sortRuns runs)
    workLen := BitVec.ofNat 32 runs.length
    result0 := BitVec.ofNat 32 runs.length }

/-- `SORT_RUNLENGTH` ends with its first failure, or with the sorted runs. -/
theorem State.sortRunLength_eq (s : State) (c : CsId) :
    s.sortRunLength c =
      (s.sortFailure c).elim (.done (s.withSorted (s.copiedRuns c (s.hasCountOne c)))) (Body.failed · s) := by
  simp only [State.sortRunLength, State.sortFailure, State.withSorted, ← State.length_copiedRuns]
  cases s.validateRle c [0, 0] with
  | some f => rfl
  | none =>
    dsimp only
    split_ifs
    · rfl
    · rfl
    · cases s.firstDuplicate c <;> rfl

theorem State.sortFailure_of_kept {s t : State} (hkept : t.kept = s.kept) (c : CsId) : t.sortFailure c = s.sortFailure c := by
  cases c with
  | c0 => exact congrArg (·.sortFailure .c0) hkept
  | c1 => exact congrArg (·.sortFailure .c1) hkept
  | c2 => exact congrArg (·.sortFailure .c2) hkept

/-! ### The checks in the terms of the static data -/

/-- The entries that `SORT_RUNLENGTH` sorts: the book, with the isolated zero if no entry has count 1 (R143). -/
def State.runs (s : State) (c : CsId) : List WorkEntry :=
  (List.range (s.codeset c).rlcLen.toNat).map (fun j => (s.rleEntry c j).toWork) ++
    if s.RleHasOne c then [] else [(s.codeset c).zeroEntry]

/-- An entry of the book repeats the count of an earlier one. -/
abbrev State.Repeats (s : State) (c : CsId) (j : Nat) : Prop := ∃ i < j, (s.rleEntry c i).count = (s.rleEntry c j).count

theorem State.length_runs (s : State) (c : CsId) : (s.runs c).length = s.runsNeeded c := by
  unfold State.runs State.runsNeeded
  split <;> simp

theorem State.runs_of_kept {s t : State} (hkept : t.kept = s.kept) (c : CsId) : t.runs c = s.runs c := by
  cases c with
  | c0 => exact congrArg (·.runs .c0) hkept
  | c1 => exact congrArg (·.runs .c1) hkept
  | c2 => exact congrArg (·.runs .c2) hkept

theorem Codeset.badZeroCode_eq_false_iff (k : Codeset) : k.badZeroCode = false ↔ k.ZeroCodeOk := by
  simp [Codeset.badZeroCode, Codeset.ZeroCodeOk, and_assoc, Nat.one_le_iff_ne_zero]

section Quiet
variable {s : State} (hq : s.Quiet) (c : CsId)
include hq

theorem State.hasCountOne_of_quiet : s.hasCountOne c = decide (s.RleHasOne c) := by
  rw [Bool.eq_iff_iff]
  simp [State.hasCountOne, State.rleAt_of_quiet hq]

theorem State.copiedRuns_of_quiet : s.copiedRuns c (s.hasCountOne c) = s.runs c := by
  simp only [State.copiedRuns, State.runs, State.hasCountOne_of_quiet hq, State.rleAt_of_quiet hq, List.range_eq_range',
    decide_eq_true_eq]

theorem State.firstDuplicate_of_quiet :
    s.firstDuplicate c = firstBad (s.codeset c).rlcLen.toNat fun j => s.Repeats c j := by
  unfold State.firstDuplicate firstBad
  congr 1
  funext j
  rw [Bool.eq_iff_iff]
  simp [State.rleAt_of_quiet hq]

variable {c}

theorem State.sortFailure_of_bad {j : Nat} (hj : j < (s.codeset c).rlcLen.toNat) (hbad : (s.rleEntry c j).badRun = true)
    (hfirst : ∀ i < j, (s.rleEntry c i).badRun = false) : s.sortFailure c = some ⟨.invalidCodebook, j⟩ := by
  simp only [State.sortFailure, State.validateRle_of_bad hq hj hbad hfirst]

/-- On a book of valid entries the checks are those of R143. -/
theorem State.sortFailure_of_valid (hv : s.RleValid c) :
    s.sortFailure c =
      if s.params.rlcMaxEntries < s.runsNeeded c then some ⟨.outOfMemory, s.runsNeeded c⟩
      else if ¬ (s.RleHasOne c ∨ (s.codeset c).ZeroCodeOk) then some ⟨.invalidCodebook, (s.codeset c).rlcLen.toNat⟩
      else (firstBad (s.codeset c).rlcLen.toNat fun j => s.Repeats c j).map fun j => ⟨.invalidCodebook, j⟩ := by
  have hlen : (s.copiedRuns c (s.hasCountOne c)).length = s.runsNeeded c := by
    rw [State.copiedRuns_of_quiet hq, State.length_runs]
  simp only [State.sortFailure, State.validateRle_of_valid hq hv, hlen]
  simp only [State.hasCountOne_of_quiet hq, State.firstDuplicate_of_quiet hq, gt_iff_lt, Bool.and_eq_true, Bool.not_eq_true',
    decide_eq_false_iff_not, ← Codeset.badZeroCode_eq_false_iff, not_or, Bool.not_eq_false]

/-- The checks pass just on the static data that keeps the limits of R143. -/
theorem State.sortFailure_eq_none_iff : s.sortFailure c = none ↔ s.RunsReady c := by
  by_cases hv : s.RleValid c
  · have hdistinct : (∀ j < (s.codeset c).rlcLen.toNat, ¬ s.Repeats c j) ↔ s.RleDistinct c := by
      simp only [State.Repeats, not_exists, not_and, ne_eq, State.RleDistinct]
    rw [State.sortFailure_of_valid hq hv]
    by_cases hfit : s.params.rlcMaxEntries < s.runsNeeded c
    · rw [if_pos hfit]
      exact iff_of_false (by simp) fun ⟨_, _, hle, _⟩ => Nat.not_le.2 hfit hle
    · rw [if_neg hfit]
      by_cases hzero : s.RleHasOne c ∨ (s.codeset c).ZeroCodeOk
      · simp only [if_neg (not_not.2 hzero), Option.map_eq_none_iff, firstBad_eq_none_iff, decide_eq_false_iff_not, hdistinct]
        exact ⟨fun h => ⟨hv, h, Nat.not_lt.1 hfit, hzero⟩, fun h => h.2.1⟩
      · rw [if_pos hzero]
        exact iff_of_false (by simp) fun ⟨_, _, _, h⟩ => hzero h
  · refine iff_of_false (fun h => hv ?_) fun h => hv h.1
    have hnone : s.validateRle c [0, 0] = none := by
      unfold State.sortFailure at h
      cases hval : s.validateRle c [0, 0] with
      | none => rfl
      | some f => simp [hval] at h
    simpa only [State.validateRle, Option.map_eq_none_iff, firstBad_eq_none_iff, State.rleAt_of_quiet hq] using hnone

theorem State.runsReady_of_kept {t : State} (hkept : t.kept = s.kept) (h : s.RunsReady c) : t.RunsReady c := by
  rwa [← State.sortFailure_eq_none_iff ((State.quiet_of_kept hkept).2 hq), State.sortFailure_of_kept hkept,
    State.sortFailure_eq_none_iff hq]

/-- R143: on ready static data the runs are sorted into `WORK`. -/
theorem State.sortRunLength_of_ready (h : s.RunsReady c) : s.sortRunLength c = .done (s.withSorted (s.runs c)) := by
  rw [State.sortRunLength_eq, (State.sortFailure_eq_none_iff hq).2 h, State.copiedRuns_of_quiet hq]
  rfl

end Quiet

theorem exec_sortRunlength_of_failure {s : State} {cs : BitVec 2} {c : CsId} {f : Failure} (hc : CsId.ofField cs = some c)
    (h : s.sortFailure c = some f) : exec (.sortRunlength cs) s = .next (s.fail f) := by
  rw [exec_sortRunlength hc, State.sortRunLength_eq, h]
  rfl

/-- Settles O18: each clause names the first check that does not pass. -/
theorem sortRunlengthFailures : Obligations.SortRunlengthFailures := by
  intro s cs c hc hq n
  refine ⟨fun j hj hbad hfirst => ?_, fun hv hfit => ?_, fun hv hfit hone hzero => ?_, fun hv hfit hone j hj hrep hfirst => ?_⟩ <;>
    apply exec_sortRunlength_of_failure hc
  · exact State.sortFailure_of_bad hq hj hbad hfirst
  · rw [State.sortFailure_of_valid hq hv, if_pos hfit]
  · rw [State.sortFailure_of_valid hq hv, if_neg (Nat.not_lt.2 hfit), if_pos (not_or.2 ⟨hone, hzero⟩)]
  · have hdup : (firstBad (s.codeset c).rlcLen.toNat fun j => s.Repeats c j) = some j :=
      (firstBad_eq_some_iff _ _ j).2
        ⟨hj, decide_eq_true hrep, fun k hk => decide_eq_false fun ⟨i, hi, heq⟩ => hfirst k hk i hi heq⟩
    rw [State.sortFailure_of_valid hq hv, if_neg (Nat.not_lt.2 hfit), if_neg (not_not.2 hone), hdup]
    rfl

/-! ### The sorted runs -/

theorem State.map_count_runs (s : State) (c : CsId) :
    (s.runs c).map (·.count.toNat) =
      (List.range (s.codeset c).rlcLen.toNat).map (fun j => (s.rleEntry c j).count) ++ if s.RleHasOne c then [] else [1] := by
  unfold State.runs
  split <;> simp [BookEntry.toWork, State.rleEntry, Codeset.zeroEntry]

/-- Of ready static data the counts are distinct and positive, and one of them is 1. -/
theorem State.runs_counts {s : State} {c : CsId} (h : s.RunsReady c) :
    ((s.runs c).map (·.count.toNat)).Nodup ∧ (∀ n ∈ (s.runs c).map (·.count.toNat), 1 ≤ n) ∧
      1 ∈ (s.runs c).map (·.count.toNat) := by
  obtain ⟨hv, hd, -, -⟩ := h
  have hpos : ∀ j < (s.codeset c).rlcLen.toNat, 1 ≤ (s.rleEntry c j).count := fun j hj => by
    have := hv j hj
    simp only [BookEntry.badRun, Bool.or_eq_false_iff, decide_eq_false_iff_not] at this
    omega
  have hnodup : ((List.range (s.codeset c).rlcLen.toNat).map fun j => (s.rleEntry c j).count).Nodup := by
    refine List.Nodup.map_on (fun i hi j hj heq => ?_) List.nodup_range
    rw [List.mem_range] at hi hj
    rcases Nat.lt_trichotomy i j with hlt | heq' | hlt
    · exact absurd heq (hd j hj i hlt)
    · exact heq'
    · exact absurd heq.symm (hd i hi j hlt)
  rw [State.map_count_runs]
  by_cases hone : s.RleHasOne c
  · have ⟨j, hj, h1⟩ := hone
    simp only [if_pos hone, List.append_nil, List.mem_map, List.mem_range]
    exact ⟨hnodup, by rintro _ ⟨i, hi, rfl⟩; exact hpos i hi, j, hj, h1⟩
  · have hne : ∀ j < (s.codeset c).rlcLen.toNat, (s.rleEntry c j).count ≠ 1 := fun j hj h1 => hone ⟨j, hj, h1⟩
    simp only [if_neg hone, List.nodup_append, List.mem_append, List.mem_map, List.mem_range, List.mem_singleton]
    refine ⟨⟨hnodup, List.nodup_singleton 1, ?_⟩, ?_, .inr trivial⟩
    · rintro _ ⟨j, hj, rfl⟩ _ rfl
      exact hne j hj
    · rintro n (⟨j, hj, rfl⟩ | rfl)
      · exact hpos j hj
      · exact le_rfl

/-- R144: the sorted classes fall strictly in count. -/
theorem sortRuns_strict {l : List WorkEntry} (h : (l.map (·.count.toNat)).Nodup) :
    (sortRuns l).Pairwise fun a b => b.count.toNat < a.count.toNat := by
  have hnodup : ((sortRuns l).map (·.count.toNat)).Nodup := (((sortRuns_perm l).map _).nodup_iff).2 h
  exact ((sortRuns_pairwise l).and (List.pairwise_map.1 hnodup)).imp fun ⟨hle, hne⟩ => Nat.lt_of_le_of_ne hle hne.symm

/-- The last of strictly falling positive counts is 1 where one of them is. -/
theorem getLast?_count_of_strict {l : List WorkEntry} (hl : l.Pairwise fun a b => b.count.toNat < a.count.toNat)
    (hpos : ∀ e ∈ l, 1 ≤ e.count.toNat) (hone : ∃ e ∈ l, e.count.toNat = 1) : l.getLast?.map (·.count) = some 1 := by
  rcases l.eq_nil_or_concat' with rfl | ⟨init, last, rfl⟩
  · simp at hone
  · have hlast : last.count.toNat = 1 := by
      have hge := hpos last (by simp)
      obtain ⟨e, he, h1⟩ := hone
      rcases List.mem_append.1 he with hinit | he
      · have := (List.pairwise_append.1 hl).2.2 e hinit last (by simp)
        omega
      · rwa [← List.mem_singleton.1 he]
    rw [List.getLast?_concat, Option.map_some]
    exact congrArg some (BitVec.eq_of_toNat_eq hlast)

/-- Settles O17: the sorted runs, by the facts about their counts. -/
theorem sortRunlengthResult : Obligations.SortRunlengthResult := by
  intro s cs c hc hq h
  have hlen : (sortRuns (s.runs c)).length = (s.runs c).length := length_sortRuns _
  obtain ⟨hnodup, hpos, hone⟩ := State.runs_counts h
  have hstrict := sortRuns_strict hnodup
  refine ⟨sortRuns (s.runs c), ?_, hlen.trans (s.length_runs c), sortRuns_perm _, hstrict,
    getLast?_count_of_strict hstrict (fun e he => ?_) ?_⟩
  · rw [exec_sortRunlength hc, State.sortRunLength_of_ready hq h, hlen]
    rfl
  · exact hpos _ (List.mem_map_of_mem ((sortRuns_perm _).mem_iff.1 he))
  · obtain ⟨e, he, h1⟩ := List.mem_map.1 hone
    exact ⟨e, (sortRuns_perm _).mem_iff.2 he, h1⟩

/-! ### The built table -/

/-- A failure that leaves one state alike leaves every state alike. -/
theorem State.fail_congr {s : State} {f g : Failure} (h : s.fail f = s.fail g) (t : State) : t.fail f = t.fail g := by
  have hcode : f.code = g.code := congrArg (·.status.errCode) h
  have hinfo : BitVec.ofNat 32 f.info = BitVec.ofNat 32 g.info := congrArg State.errInfo h
  simp only [State.fail, hcode, hinfo]

section Build
variable {s : State} {c : CsId}

theorem State.RunsReady.length_lt (h : s.RunsReady c) (hp : s.params.inRange) : (s.runs c).length < 2 ^ 32 := by
  obtain ⟨-, -, -, -, -, -, -, -, -, hmax, -⟩ := hp
  have hfit := h.2.2.1
  rw [State.length_runs]
  omega

/-- The entries of `WORK` up to `WORK_LEN` are the sorted ones. -/
theorem State.take_withSorted (s : State) {l : List WorkEntry} (hl : l.length < 2 ^ 32) :
    (s.withSorted l).work.cells.take (s.withSorted l).workLen.toNat = sortRuns l := by
  simp only [State.withSorted, Ram.store, BitVec.toNat_ofNat, Nat.mod_eq_of_lt hl]
  exact List.take_left' (length_sortRuns l)

theorem State.workList_withSorted (s : State) {l : List WorkEntry} (hl : l.length < 2 ^ 32) :
    (s.withSorted l).workList = sortRuns l := by
  have hlen : (s.withSorted l).workLen.toNat = (sortRuns l).length := by
    simp only [State.withSorted, BitVec.toNat_ofNat, Nat.mod_eq_of_lt hl, length_sortRuns]
  refine List.ext_getElem (by simp [State.workList, hlen]) fun i _ hi => ?_
  simp only [State.workList, List.getElem_map, List.getElem_range', State.workAt]
  rw [show 0 + 1 * i = i by omega]
  exact s.work.store_entry_of_lt _ _ hi

theorem State.buildRunLength_of_failure {f : Failure} (h : s.sortFailure c = some f) :
    s.buildRunLength c = .failed f (s.startRunLength c) := by
  have hstart : (s.startRunLength c).sortFailure c = some f :=
    (State.sortFailure_of_kept (State.Keeps.startRunLength s c).kept c).trans h
  simp only [State.buildRunLength, State.sortRunLength_eq, hstart, Option.elim_some, Body.failed_andThen]

/-- R150: over the sorted runs the composition of every run length is stored. -/
theorem State.buildRunLength_of_ready (hq : s.Quiet) (hp : s.params.inRange) (h : s.RunsReady c) :
    s.buildRunLength c = .done { (s.withSorted (s.runs c)).setCodeset c { s.codeset c with
          newcodes := (s.codeset c).newcodes.rebuild
            ((List.range 3072).map (compose (s.params.longSize - 1) (sortRuns (s.runs c))))
          valid := { (s.codeset c).valid with newcodes := true } } with
        result0 := BitVec.ofNat 32 (s.runs c).length } := by
  have hkept : (s.startRunLength c).kept = s.kept := (State.Keeps.startRunLength s c).kept
  have hsort : (s.startRunLength c).sortRunLength c = .done ((s.startRunLength c).withSorted (s.runs c)) := by
    rw [State.sortRunLength_of_ready ((State.quiet_of_kept hkept).2 hq) (State.runsReady_of_kept hq hkept h),
      State.runs_of_kept hkept]
  simp only [State.buildRunLength, hsort, Body.done_andThen, State.workList_withSorted _ (h.length_lt hp), List.range_eq_range']
  cases c <;> rfl

end Build

/-- Settles O19: `BUILD_RUNLENGTH` sorts, and fails, as `SORT_RUNLENGTH` does. -/
theorem buildRunlengthResult : Obligations.BuildRunlengthResult := by
  intro s cs c hc hq hp
  refine ⟨fun h => ⟨(s.withSorted (s.runs c)).complete, ?_, ?_⟩, fun f hsort hready => ?_⟩
  · rw [exec_sortRunlength hc, State.sortRunLength_of_ready hq h]
    rfl
  · rw [exec_buildRunlength hc, State.buildRunLength_of_ready hq hp h, State.complete_work, State.complete_workLen,
      s.take_withSorted (h.length_lt hp)]
    cases c <;> rfl
  · obtain ⟨g, hg⟩ := Option.ne_none_iff_exists'.1 (mt (State.sortFailure_eq_none_iff hq).1 hready)
    have hfail : s.fail f = s.fail g := Host.Outcome.next.inj (hsort.symm.trans (exec_sortRunlength_of_failure hc hg))
    rw [exec_buildRunlength hc, State.buildRunLength_of_failure hg]
    exact congrArg _ (State.fail_congr hfail.symm _)

end Sys2Proof.Machine
end

section
/-!
SUPPORT. Composite codewords (spec/40_table_generator.md R145 to R151): a composition is the concatenation of the codewords that the
greedy choice takes.
-/

namespace Sys2Proof.Machine

/-! ### Lists of codewords -/

/-- The total size, and the total count, of codewords. -/
def sizeSum (l : List WorkEntry) : Nat := (l.map fun e => e.size.toNat).sum
def countSum (l : List WorkEntry) : Nat := (l.map fun e => e.count.toNat).sum

section Sums
variable (e : WorkEntry) (l r : List WorkEntry) (n : Nat)

@[simp] theorem sizeSum_nil : sizeSum [] = 0 := rfl
@[simp] theorem countSum_nil : countSum [] = 0 := rfl
@[simp] theorem sizeSum_cons : sizeSum (e :: l) = e.size.toNat + sizeSum l := by simp [sizeSum]
@[simp] theorem countSum_cons : countSum (e :: l) = e.count.toNat + countSum l := by simp [countSum]
@[simp] theorem sizeSum_append : sizeSum (l ++ r) = sizeSum l + sizeSum r := by simp [sizeSum]
@[simp] theorem countSum_append : countSum (l ++ r) = countSum l + countSum r := by simp [countSum]
@[simp] theorem sizeSum_replicate : sizeSum (List.replicate n e) = n * e.size.toNat := by simp [sizeSum]
@[simp] theorem countSum_replicate : countSum (List.replicate n e) = n * e.count.toNat := by simp [countSum]

theorem concatCodes_cons : concatCodes (e :: l) = e.bits.toNat * 2 ^ sizeSum l + concatCodes l := rfl

theorem concatCodes_append : concatCodes (l ++ r) = concatCodes l * 2 ^ sizeSum r + concatCodes r := by
  induction l with
  | nil => simp [concatCodes]
  | cons e l ih =>
    rw [List.cons_append, concatCodes_cons, concatCodes_cons, ih, sizeSum_append, pow_add]
    ring

/-- Codewords that fit their sizes fit the total size one after the other. -/
theorem concatCodes_lt {l : List WorkEntry} (h : ∀ e ∈ l, e.bits.toNat < 2 ^ e.size.toNat) : concatCodes l < 2 ^ sizeSum l := by
  induction l with
  | nil => simp [concatCodes]
  | cons e l ih =>
    have hl := ih fun e he => h e (List.mem_cons_of_mem _ he)
    have he : e.bits.toNat + 1 ≤ 2 ^ e.size.toNat := h e List.mem_cons_self
    rw [concatCodes_cons, sizeSum_cons, pow_add]
    calc e.bits.toNat * 2 ^ sizeSum l + concatCodes l < (e.bits.toNat + 1) * 2 ^ sizeSum l := by rw [Nat.succ_mul]; omega
      _ ≤ 2 ^ e.size.toNat * 2 ^ sizeSum l := Nat.mul_le_mul_right _ he

end Sums

/-! ### One class -/

/-- A composition with more codewords taken. -/
def Composite.take (a : Composite) (l : List WorkEntry) : Composite :=
  ⟨a.code * 2 ^ sizeSum l + concatCodes l, a.size + sizeSum l, a.remaining - countSum l⟩

theorem Composite.take_nil (a : Composite) : a.take [] = a := by simp [Composite.take, concatCodes]

theorem Composite.take_append (a : Composite) (l r : List WorkEntry) : a.take (l ++ r) = (a.take l).take r := by
  simp only [Composite.take, sizeSum_append, countSum_append, concatCodes_append, pow_add, Nat.sub_sub, Nat.add_assoc,
    Nat.add_mul, Nat.mul_assoc]

/-- A class of `WORK` that keeps the limits of R140 and R143. -/
abbrev WorkEntry.Valid (e : WorkEntry) : Prop :=
  1 ≤ e.count.toNat ∧ 1 ≤ e.size.toNat ∧ e.size.toNat ≤ 31 ∧ e.bits.toNat < 2 ^ e.size.toNat

section Visit
variable {budget : Nat} {e : WorkEntry} (he : e.Valid) {a : Composite} (ha : a.size ≤ budget)
include he ha

/-- R147: of `reps` repetitions those are taken that fit the budget. -/
theorem Composite.append_eq (reps : Nat) :
    Composite.append budget e reps a = a.take (List.replicate (min reps ((budget - a.size) / e.size.toNat)) e) := by
  obtain ⟨-, hsize, -, hbits⟩ := he
  induction reps generalizing a with
  | zero => simp [Composite.append, Composite.take_nil]
  | succ n ih =>
    rw [Composite.append]
    split
    · rename_i hover
      rw [Nat.div_eq_of_lt (by omega), Nat.min_zero, List.replicate_zero, Composite.take_nil]
    · rename_i hfit
      have hstep : (⟨a.code <<< e.size.toNat ||| e.bits.toNat, a.size + e.size.toNat, a.remaining - e.count.toNat⟩ : Composite) =
          a.take [e] := by
        rw [← Nat.shiftLeft_add_eq_or_of_lt hbits, Nat.shiftLeft_eq]
        simp [Composite.take, concatCodes]
      have hdiv : (budget - a.size) / e.size.toNat = (budget - (a.size + e.size.toNat)) / e.size.toNat + 1 := by
        rw [show budget - a.size = budget - (a.size + e.size.toNat) + e.size.toNat by omega, Nat.add_div_right _ hsize]
      rw [hdiv, Nat.add_min_add_right, List.replicate_succ, ← List.singleton_append, Composite.take_append, ← hstep]
      exact ih (by dsimp only; omega)

/-- How often R146 and R147 take a class: as the length still to cover and the budget still free allow. -/
def greedyCount (budget : Nat) (e : WorkEntry) (remaining size : Nat) : Nat :=
  min (remaining / e.count.toNat) ((budget - size) / e.size.toNat)

theorem Composite.visit_eq :
    Composite.visit budget a e = a.take (List.replicate (greedyCount budget e a.remaining a.size) e) := by
  unfold Composite.visit greedyCount
  split
  · rw [Composite.append_eq he ha, repetitions_of_pos he.1]
  · rename_i hlt
    rw [Nat.div_eq_of_lt (by omega), Nat.zero_min, List.replicate_zero, Composite.take_nil]

end Visit

/-! ### All classes -/

theorem greedyParts_cons (budget : Nat) (e : WorkEntry) (rest : List WorkEntry) (remaining size : Nat) :
    greedyParts budget (e :: rest) remaining size =
      List.replicate (greedyCount budget e remaining size) e ++
        greedyParts budget rest (remaining - greedyCount budget e remaining size * e.count.toNat)
          (size + greedyCount budget e remaining size * e.size.toNat) := rfl

theorem mem_of_mem_greedyParts {budget : Nat} {work : List WorkEntry} {remaining size : Nat} {e : WorkEntry}
    (h : e ∈ greedyParts budget work remaining size) : e ∈ work := by
  induction work generalizing remaining size with
  | nil => exact h
  | cons d rest ih =>
    rw [greedyParts_cons, List.mem_append] at h
    rcases h with h | h
    · rw [List.eq_of_mem_replicate h]
      exact List.mem_cons_self
    · exact List.mem_cons_of_mem _ (ih h)

/-- The greedy choice of one class covers no more than remains, and stays within the budget. -/
theorem greedyCount_mul_le {budget : Nat} (e : WorkEntry) (remaining : Nat) {size : Nat} (h : size ≤ budget) :
    greedyCount budget e remaining size * e.count.toNat ≤ remaining ∧
      size + greedyCount budget e remaining size * e.size.toNat ≤ budget := by
  have hcount : greedyCount budget e remaining size * e.count.toNat ≤ remaining :=
    (Nat.mul_le_mul_right _ (Nat.min_le_left _ _)).trans (Nat.div_mul_le_self _ _)
  have hsize : greedyCount budget e remaining size * e.size.toNat ≤ budget - size :=
    (Nat.mul_le_mul_right _ (Nat.min_le_right _ _)).trans (Nat.div_mul_le_self _ _)
  exact ⟨hcount, by omega⟩

section Composition
variable {budget : Nat}

theorem countSum_greedyParts_le (work : List WorkEntry) {remaining size : Nat} (h : size ≤ budget) :
    countSum (greedyParts budget work remaining size) ≤ remaining := by
  induction work generalizing remaining size with
  | nil => exact Nat.zero_le _
  | cons e rest ih =>
    obtain ⟨hcount, hsize⟩ := greedyCount_mul_le e remaining h
    have := ih hsize (remaining := remaining - greedyCount budget e remaining size * e.count.toNat)
    rw [greedyParts_cons, countSum_append, countSum_replicate]
    omega

/-- The classes one after the other take the greedy parts. -/
theorem foldl_visit_eq {work : List WorkEntry} (hwork : ∀ e ∈ work, e.Valid) {a : Composite} (ha : a.size ≤ budget) :
    work.foldl (Composite.visit budget) a = a.take (greedyParts budget work a.remaining a.size) := by
  induction work generalizing a with
  | nil => exact a.take_nil.symm
  | cons e rest ih =>
    have hvisit := Composite.visit_eq (hwork e List.mem_cons_self) ha
    rw [List.foldl_cons, ih (fun d hd => hwork d (List.mem_cons_of_mem _ hd)) (Composite.size_visit budget e a ha), hvisit,
      greedyParts_cons, Composite.take_append]
    simp only [Composite.take, sizeSum_replicate, countSum_replicate]

/-- R149: where the last class has count 1 and the length is not covered, one more of its codewords exceeds the budget. -/
theorem budget_lt_of_countSum_lt {work : List WorkEntry} {e : WorkEntry} (hlast : work.getLast? = some e) (hone : e.count.toNat = 1)
    (hsize : 1 ≤ e.size.toNat) {remaining size : Nat} (h : size ≤ budget)
    (hlt : countSum (greedyParts budget work remaining size) < remaining) :
    budget < size + sizeSum (greedyParts budget work remaining size) + e.size.toNat := by
  induction work generalizing remaining size with
  | nil => simp at hlast
  | cons d rest ih =>
    obtain ⟨hcount, hfit⟩ := greedyCount_mul_le d remaining h
    rw [greedyParts_cons] at hlt ⊢
    simp only [countSum_append, countSum_replicate, sizeSum_append, sizeSum_replicate] at hlt ⊢
    cases rest with
    | nil =>
      obtain rfl : d = e := by simpa using hlast
      simp only [greedyParts, countSum_nil, sizeSum_nil] at hlt ⊢
      have hcap : greedyCount budget d remaining size = (budget - size) / d.size.toNat := by
        unfold greedyCount at hlt ⊢
        rw [hone, Nat.div_one] at hlt ⊢
        omega
      have := Nat.lt_div_mul_add (a := budget - size) hsize
      rw [hcap]
      omega
    | cons d' rest =>
      have := ih (by simpa using hlast) hfit (remaining := remaining - greedyCount budget d remaining size * d.count.toNat)
        (by omega)
      omega

end Composition

/-- Settles O20: the composition takes the greedy parts, and each field has room for what it holds of them. -/
theorem composeCoversItsParts : Obligations.ComposeCoversItsParts := by
  intro budget work r hbudget hr hwork parts
  have hcomp : composition budget work r = ⟨concatCodes parts, sizeSum parts, r - countSum parts⟩ := by
    rw [composition, foldl_visit_eq hwork (Nat.zero_le budget)]
    simp [Composite.take, parts]
  have hsize : sizeSum parts ≤ budget := by
    have := size_composition budget work r
    rwa [hcomp] at this
  have hcount : countSum parts ≤ r := countSum_greedyParts_le work (Nat.zero_le budget)
  have hcode : concatCodes parts < 2 ^ 32 :=
    (concatCodes_lt fun e he => (hwork e (mem_of_mem_greedyParts he)).2.2.2).trans
      (Nat.pow_lt_pow_right (by decide) (show sizeSum parts < 32 by omega))
  have hbits : (compose budget work r).bits.toNat = concatCodes parts := by
    simp only [compose, hcomp, BitVec.toNat_ofNat, Nat.mod_eq_of_lt hcode]
  have hsz : (compose budget work r).size.toNat = sizeSum parts := by
    simp only [compose, hcomp, BitVec.toNat_ofNat]
    omega
  have hcnt : (compose budget work r).count.toNat = countSum parts := by
    simp only [compose, hcomp, BitVec.toNat_ofNat]
    omega
  refine ⟨fun e => mem_of_mem_greedyParts, hbits, hsz, hcnt, hsz.trans_le hsize, hcnt.trans_le hcount, fun e hlast hone hlt => ?_⟩
  have hmem : e ∈ work := List.mem_of_getLast? hlast
  have := budget_lt_of_countSum_lt hlast hone (hwork e hmem).2.1 (Nat.zero_le budget) (hcnt ▸ hlt)
  rwa [hsz, ← Nat.zero_add (sizeSum parts)]

end Sys2Proof.Machine
end

section
/-!
SUPPORT. Bit-pattern matching (spec/40_table_generator.md R155 to R158) and what rests on it: legacy entries (R167), and the coverage
of the scan entries (R166).
-/

namespace Sys2Proof.Machine

/-! ### The first lead (R158) -/

section FirstLead
variable {b : Nat → BookEntry} {len w width size j : Nat} (site : Site)

theorem BookEntry.leads_iff : (b j).leads w width size = true ↔ Leads b w width size j := by
  simp [BookEntry.leads, Nat.shiftRight_eq_div_pow]

theorem matchSize_of_first (hj : j < len) (hlead : Leads b w width size j) (hfirst : ∀ i < j, ¬ Leads b w width size i) :
    matchSize (fun _ => b) len site w width size = some (b j) := by
  have hfind : firstBad len (fun i => (b i).leads w width size) = some j :=
    (firstBad_eq_some_iff _ _ j).2
      ⟨hj, BookEntry.leads_iff.2 hlead, fun i hi => Bool.eq_false_iff.2 (mt BookEntry.leads_iff.1 (hfirst i hi))⟩
  exact congrArg (Option.map b) hfind

theorem matchSize_of_none (h : ∀ i < len, ¬ Leads b w width size i) :
    matchSize (fun _ => b) len site w width size = none :=
  congrArg (Option.map b)
    ((firstBad_eq_none_iff len fun i => (b i).leads w width size).2 fun i hi =>
      Bool.eq_false_iff.2 (mt BookEntry.leads_iff.1 (h i hi)))

/-- The entry that a search through the sizes from 1 to `sizes` finds, with its size. -/
def searchSizes (b : Nat → BookEntry) (len : Nat) (site : Site) (w width sizes : Nat) : Option (Nat × BookEntry) :=
  (List.range' 1 sizes).findSome? fun size => (matchSize (fun _ => b) len site w width size).map (size, ·)

theorem searchSizes_of_firstLead (h : FirstLead b len w width size j) :
    searchSizes b len site w width (min width 31) = some (size, b j) := by
  obtain ⟨hpos, hle, hj, hlead, hfirst, hshorter⟩ := h
  have hsplit : List.range' 1 (min width 31) = List.range' 1 (size - 1) ++ size :: List.range' (size + 1) (min width 31 - size) := by
    have happend := List.range'_append_1 (s := 1) (m := size - 1) (n := min width 31 - size + 1)
    rw [show 1 + (size - 1) = size by omega, show size - 1 + (min width 31 - size + 1) = min width 31 by omega,
      List.range'_succ] at happend
    exact happend.symm
  rw [searchSizes, List.findSome?_eq_some_iff]
  refine ⟨_, _, _, hsplit, ?_, fun z hz => ?_⟩
  · rw [matchSize_of_first site hj hlead hfirst]
    rfl
  · rw [List.mem_range'_1] at hz
    rw [matchSize_of_none site (hshorter z (by omega) (by omega))]
    rfl

theorem searchSizes_of_noLead (h : NoLead b len w width) : searchSizes b len site w width (min width 31) = none := by
  rw [searchSizes, List.findSome?_eq_none_iff]
  intro z hz
  rw [List.mem_range'_1] at hz
  rw [matchSize_of_none site (h z (by omega) (by omega))]
  rfl

/-- What `Match` answers once the search has found its entry, or none (R155). -/
theorem matchPattern_eq (p : Params) (word : Nat) :
    matchPattern p word width (fun _ => b) len site =
      (searchSizes b len site (word % 2 ^ width) width (min width 31)).bind fun found =>
        signedHit p (word % 2 ^ width) width found.1 found.2 := by
  unfold matchPattern searchSizes
  dsimp only
  split <;> rename_i h <;> rw [h] <;> rfl

end FirstLead

/-- The sign code after a codeword, compared as a number (R155 to R157). -/
theorem signedHit_eq (p : Params) (w width size : Nat) (e : BookEntry) :
    signedHit p w width size e =
      if e.value = 0 then some ⟨e.count, 0, size⟩
      else if width < size + 2 then none
      else if w / 2 ^ (width - size - 2) % 4 = p.negativeCode.toNat then some ⟨e.count, -e.value, size + 2⟩
      else some ⟨e.count, e.value, size + 2⟩ := by
  have hsign : BitVec.ofNat 2 (w >>> (width - size - 2)) = p.negativeCode ↔
      w / 2 ^ (width - size - 2) % 4 = p.negativeCode.toNat := by
    rw [← BitVec.toNat_inj, BitVec.toNat_ofNat, Nat.shiftRight_eq_div_pow]
  simp only [signedHit, hsign, gt_iff_lt]

theorem matchPattern_of_firstLead (p : Params) {b : Nat → BookEntry} {word width len size j : Nat} (site : Site)
    (h : FirstLead b len (word % 2 ^ width) width size j) :
    matchPattern p word width (fun _ => b) len site = signedHit p (word % 2 ^ width) width size (b j) := by
  rw [matchPattern_eq, searchSizes_of_firstLead site h]
  rfl

/-- Settles O21: the search finds the first lead, if there is one. -/
theorem matchFindsTheFirstLead : Obligations.MatchFindsTheFirstLead := by
  intro p word width b len site w
  refine ⟨fun hnone => ?_, fun size j hfirst => ?_⟩
  · rw [matchPattern_eq, searchSizes_of_noLead site hnone]
    rfl
  · rw [matchPattern_of_firstLead p site hfirst, signedHit_eq]

/-! ### `MATCH_PATTERN` -/

theorem State.rlvAt_eq_of_quiet {s : State} (hq : s.Quiet) (c : CsId) : s.rlvAt c = fun _ => s.rlvEntry c :=
  funext fun site => funext fun j => State.rlvAt_of_quiet hq c site j

theorem State.rleAt_eq_of_quiet {s : State} (hq : s.Quiet) (c : CsId) : s.rleAt c = fun _ => s.rleEntry c :=
  funext fun site => funext fun j => State.rleAt_of_quiet hq c site j

theorem matchPattern_mod (p : Params) (word width : Nat) (book : Book) (len : Nat) (site : Site) :
    matchPattern p (word % 2 ^ width) width book len site = matchPattern p word width book len site := by
  simp only [matchPattern, Nat.mod_mod]

theorem State.matchCommand_of_valid {s : State} {c : CsId} {width : Nat} (hq : s.Quiet) (hlo : 1 ≤ width) (hhi : width ≤ 32)
    (hv : s.RlvValid c) :
    s.matchCommand c width =
      (matchPattern s.params (s.arg0.toNat % 2 ^ width) width (fun _ => s.rlvEntry c) (s.codeset c).rlvLen.toNat []).elim
        (.done { s with result0 := 0, result1 := 0, result2 := 0, result3 := 1 })
        fun m => .done { s with
          result0 := BitVec.ofNat 32 m.count
          result1 := BitVec.ofInt 32 m.value
          result2 := BitVec.ofNat 32 m.shift
          result3 := 0 } := by
  rw [matchPattern_mod]
  unfold State.matchCommand
  rw [if_neg (by omega), State.validateRlv_of_valid hq hv, State.rlvAt_eq_of_quiet hq]
  dsimp only
  rw [matchPattern_const]
  cases matchPattern s.params s.arg0.toNat width (fun _ => s.rlvEntry c) (s.codeset c).rlvLen.toNat [] <;> rfl

/-- Settles O22: the checks in their order, then what `Match` answers. -/
theorem matchPatternResult : Obligations.MatchPatternResult := by
  intro s cs c n hc hq w len
  rw [exec_matchPattern hc]
  refine ⟨fun hlo hhi hv => ?_, fun hwidth => ?_, fun hlo hhi j hj hbad hfirst => ?_⟩
  · rw [State.matchCommand_of_valid hq hlo hhi hv]
    exact ⟨fun m hm => by rw [hm]; rfl, fun hm => by rw [hm]; rfl⟩
  · rw [State.matchCommand, if_pos hwidth]
    rfl
  · rw [State.matchCommand, if_neg (by omega), State.validateRlv_of_bad hq hj hbad hfirst]
    rfl

/-! ### Legacy entries (R167) -/

theorem lt_two_pow_of_leading_clear {n v z : Nat} (hv : v < 2 ^ n) (hclear : ∀ i < z, v.testBit (n - 1 - i) = false) :
    v < 2 ^ (n - z) := by
  refine Nat.lt_pow_two_of_testBit v fun i hi => ?_
  by_cases hin : i < n
  · have := hclear (n - 1 - i) (by omega)
    rwa [show n - 1 - (n - 1 - i) = i by omega] at this
  · exact Nat.testBit_lt_two_pow (hv.trans_le (Nat.pow_le_pow_right (by decide) (Nat.not_lt.1 hin)))

/-- The leading zeros of an `n`-bit value fix it between two powers of 2. -/
theorem leadingZeros_spec {n v : Nat} (hv : v < 2 ^ n) :
    leadingZeros n v ≤ n ∧ v < 2 ^ (n - leadingZeros n v) ∧ (leadingZeros n v < n → 2 ^ (n - 1 - leadingZeros n v) ≤ v) := by
  have hlead : leadingZeros n v = (firstBad n fun i => v.testBit (n - 1 - i)).getD n := rfl
  rw [hlead]
  cases hz : firstBad n fun i => v.testBit (n - 1 - i) with
  | none =>
    have hclear := (firstBad_eq_none_iff _ _).1 hz
    exact ⟨le_rfl, lt_two_pow_of_leading_clear hv hclear, fun h => absurd h (Nat.lt_irrefl n)⟩
  | some z =>
    obtain ⟨hzn, hset, hclear⟩ := (firstBad_eq_some_iff _ _ z).1 hz
    exact ⟨hzn.le, lt_two_pow_of_leading_clear hv hclear, fun _ => Nat.ge_two_pow_of_testBit hset⟩

section Legacy
variable {b : Nat → BookEntry} {len idx : Nat} (site : Site)

theorem legacyMatch_eq : legacyMatch (fun _ => b) len site idx = searchSizes b len site idx 12 (min 12 31) := rfl

theorem legacyEntry_of_firstLead {size j : Nat} (h : FirstLead b len idx 12 size j) :
    legacyEntry (fun _ => b) len site idx =
      if (b j).bits = 0 ∧ size = 1 ∧ (b j).count = 1 then .ofParts (leadingZeros 12 idx) 0 (leadingZeros 12 idx)
      else .ofParts (b j).count 0 size := by
  simp only [legacyEntry, legacyMatch_eq, searchSizes_of_firstLead _ h]

theorem overflows_iff {bits size : Nat} : overflows bits size idx = true ↔ 12 < size ∧ bits / 2 ^ (size - 12) = idx := by
  simp [overflows, Nat.shiftRight_eq_div_pow]

theorem legacyEntry_of_noLead (h : NoLead b len idx 12) :
    legacyEntry (fun _ => b) len site idx =
      (firstBad len fun j => overflows (b j).bits (b j).size idx).elim .unmatched .continuation := by
  simp only [legacyEntry, legacyMatch_eq, searchSizes_of_noLead _ h, firstBad]
  cases (List.range' 0 len).find? fun j => overflows (b j).bits (b j).size idx <;> rfl

end Legacy

/-- Settles O27: the first lead, or the first entry that overflows the index, or neither. -/
theorem legacyEntryIsTheFirstLead : Obligations.LegacyEntryIsTheFirstLead := by
  intro b len idx site hidx
  refine ⟨fun size j hfirst => ⟨fun hzero => ?_, fun hzero => ?_⟩, fun hnone => ⟨fun j hj hsize hlead hbefore => ?_, fun h => ?_⟩⟩
  · obtain ⟨hle, hlt, hge⟩ := leadingZeros_spec (n := 12) hidx
    refine ⟨leadingZeros 12 idx, hle, hlt, hge, ?_⟩
    rw [legacyEntry_of_firstLead site hfirst, if_pos hzero]
    rfl
  · rw [legacyEntry_of_firstLead site hfirst, if_neg hzero]
    rfl
  · have hmark : (firstBad len fun i => overflows (b i).bits (b i).size idx) = some j :=
      (firstBad_eq_some_iff _ _ j).2 ⟨hj, overflows_iff.2 ⟨hsize, hlead⟩,
        fun i hi => Bool.eq_false_iff.2 fun hover => hbefore i hi (overflows_iff.1 hover).1 (overflows_iff.1 hover).2⟩
    refine ⟨indexField j, indexField_of_lt, ?_⟩
    rw [legacyEntry_of_noLead site hnone, hmark]
    rfl
  · have hmark : (firstBad len fun i => overflows (b i).bits (b i).size idx) = none :=
      (firstBad_eq_none_iff _ _).2
        fun i hi => Bool.eq_false_iff.2 fun hover => h i hi (overflows_iff.1 hover).1 (overflows_iff.1 hover).2
    rw [legacyEntry_of_noLead site hnone, hmark]
    rfl

/-! ### Coverage (R166) -/

section Coverage
variable {p : Params} {b : Nat → BookEntry} {len idx : Nat}

/-- At most one codeword of such a book leads a window. -/
theorem PrefixFree.eq_of_leads (h : PrefixFree b len) {w width i j si sj : Nat} (hi : i < len) (hj : j < len) (hle : si ≤ sj)
    (hwidth : sj ≤ width) (hleadi : Leads b w width si i) (hleadj : Leads b w width sj j) : i = j := by
  by_contra hne
  obtain ⟨rfl, hbitsi⟩ := hleadi
  obtain ⟨rfl, hbitsj⟩ := hleadj
  refine h.2 i hi j hj hne hle ?_
  rw [← hbitsi, ← hbitsj, Nat.div_div_eq_div_mul, ← pow_add]
  congr 2
  omega

/-- So one that leads is the first that does. -/
theorem PrefixFree.firstLead_of_leads (h : PrefixFree b len) {w width j : Nat} (hj : j < len) (hwidth : (b j).size ≤ width)
    (hlead : Leads b w width (b j).size j) : FirstLead b len w width (b j).size j := by
  obtain ⟨hpos, hle, -⟩ := h.1 j hj
  refine ⟨hpos, le_min hwidth hle, hj, hlead, fun i hi hleadi => ?_, fun z hz _ i hi hleadi => ?_⟩
  · exact hi.ne (h.eq_of_leads (hi.trans hj) hj le_rfl hwidth hleadi hlead)
  · obtain rfl := h.eq_of_leads hi hj hz.le hwidth hleadi hlead
    exact hz.ne hleadi.1.symm

/-- The codeword of a transmitted codeword that fits the index leads it. -/
theorem Sent.leads_of_compatible {t : Sent} (hfit : t.length b ≤ 12) (h : t.compatible p b idx) :
    Leads b idx 12 (b t.j).size t.j := by
  rw [Sent.compatible, if_pos hfit] at h
  refine ⟨rfl, ?_⟩
  by_cases hv : (b t.j).value = 0
  · simpa only [Sent.length, Sent.code, if_pos hv] using h
  · simp only [Sent.length, Sent.code, if_neg hv] at h hfit
    have hsign := (if t.negative then p.negativeCode else p.positiveCode).isLt
    rw [show 12 - (b t.j).size = 12 - ((b t.j).size + 2) + 2 by omega, pow_add, ← Nat.div_div_eq_div_mul, h]
    omega

/-- A transmitted codeword that is longer than the index, and begins with it, marks it (R163). -/
theorem Sent.marks_of_compatible {t : Sent} (hlong : 12 < t.length b) (h : t.compatible p b idx) :
    (b t.j).marks p idx = true := by
  rw [Sent.compatible, if_neg (Nat.not_le.2 hlong)] at h
  simp only [BookEntry.marks, Bool.or_eq_true, Bool.and_eq_true, overflows_iff, shiftLeft_or_signCode, decide_eq_true_eq]
  by_cases hv : (b t.j).value = 0
  · simp only [Sent.length, Sent.code, if_pos hv] at h hlong
    exact .inl ⟨hlong, h⟩
  · simp only [Sent.length, Sent.code, if_neg hv] at h hlong
    refine .inr ⟨hv, ?_⟩
    cases hneg : t.negative with
    | false => exact .inl ⟨hlong, by simpa [hneg] using h⟩
    | true => exact .inr ⟨hlong, by simpa [hneg] using h⟩

/-- `Match` finds the transmitted codeword that fits the index. -/
theorem Sent.matchPattern_ne_none {t : Sent} (hpf : PrefixFree b len) (hidx : idx < 4096) (hj : t.j < len)
    (hfit : t.length b ≤ 12) (h : t.compatible p b idx) :
    matchPattern p (idx % 2 ^ 12) 12 (fun _ => b) len [] ≠ none := by
  have hsize : (b t.j).size ≤ 12 ∧ ((b t.j).value ≠ 0 → (b t.j).size + 2 ≤ 12) := by
    unfold Sent.length at hfit
    split at hfit <;> simp_all; omega
  have hlead : FirstLead b len (idx % 2 ^ 12 % 2 ^ 12) 12 (b t.j).size t.j := by
    rw [Nat.mod_mod, show idx % 2 ^ 12 = idx from Nat.mod_eq_of_lt hidx]
    exact PrefixFree.firstLead_of_leads hpf hj hsize.1 (Sent.leads_of_compatible hfit h)
  rw [matchPattern_of_firstLead p [] hlead, signedHit_eq]
  by_cases hv : (b t.j).value = 0
  · simp [hv]
  · rw [if_neg hv, if_neg (Nat.not_lt.2 (hsize.2 hv))]
    split <;> simp

/-- Where `Match` finds a codeword, the loop consumes it. -/
theorem ScanRun.lt_shift (hcount : ∀ j < len, 1 ≤ (b j).count) {rem cnt sh : Nat} {r : Nat × Int × Nat}
    (h : ScanRun p b len idx rem cnt sh r) (hm : matchPattern p (idx % 2 ^ rem) rem (fun _ => b) len [] ≠ none) :
    sh < r.2.2 := by
  obtain ⟨m, hm⟩ := Option.ne_none_iff_exists'.1 hm
  obtain ⟨j, -, -, e, -, -, hpos, -, hsize, hwidth, -⟩ := matchPattern_some hm
  cases h with
  | exhausted => omega
  | notFound _ _ _ hnone => simp [hnone] at hm
  | value _ _ _ m' _ hm' _ =>
    obtain rfl : m' = m := Option.some.inj (hm'.symm.trans hm)
    dsimp only
    omega
  | zeroRun _ _ _ m' r _ hm' _ rest =>
    obtain rfl : m' = m := Option.some.inj (hm'.symm.trans hm)
    have := (rest.bounds hcount).2.1
    omega

end Coverage

theorem FastEntry.kind_of_count_ne {e : FastEntry} (h : e.count ≠ 0) : e.kind = .complete := if_pos h

/-- Settles O25: the codeword that an index agrees with leads the index, so that the loop consumes it, or marks it. -/
theorem scanCoverage : Obligations.ScanCoverage := by
  intro p b len hpf hcount hcover idx hidx
  have hpos : ∀ j < len, 1 ≤ (b j).count := fun j hj => (hcount j hj).1
  obtain ⟨cnt, v, sh, hrun, -, hover, hentry, hnothing⟩ := scanEntryFollowsTheLoop p b len idx hidx
    fun j hj => ⟨(hpf.1 j hj).1, hpos j hj, (hpf.1 j hj).2.2⟩
  have hfits : cnt < 2 ^ 32 := by
    by_contra hge
    have hsome : (scanEntry p (fun _ => b) len [] idx).isSome :=
      scanEntry_isSome (B := 357913941) (fun _ j hj => by have := (hcount j hj).2; omega) (by decide)
    simp [hover (Nat.not_lt.1 hge)] at hsome
  obtain ⟨t, hj, ht⟩ := hcover idx hidx
  rcases Nat.eq_zero_or_pos sh with hsh | hsh
  · have hlong : 12 < t.length b := by
      by_contra hfit
      have : 0 < sh := hrun.lt_shift hpos (Sent.matchPattern_ne_none hpf hidx hj (Nat.not_lt.1 hfit) ht)
      omega
    obtain ⟨j, hfirst⟩ : ∃ j, firstBad len (fun j => (b j).marks p idx) = some j := by
      rw [← Option.ne_none_iff_exists', ne_eq, firstBad_eq_none_iff]
      exact fun h => Bool.eq_false_iff.1 (h t.j hj) (Sent.marks_of_compatible hlong ht)
    obtain ⟨hj, hmarks, hbefore⟩ := (firstBad_eq_some_iff _ _ j).1 hfirst
    obtain ⟨w, -, he⟩ := (hnothing hsh).2.1 j hj hmarks hbefore
    exact ⟨_, he, by simp [FastEntry.kind]⟩
  · obtain ⟨hcnt, he⟩ := hentry hfits hsh
    have hne : BitVec.ofNat 32 cnt ≠ 0 := fun h => by
      have hzero : (BitVec.ofNat 32 cnt).toNat = 0 := congrArg BitVec.toNat h
      rw [BitVec.toNat_ofNat, Nat.mod_eq_of_lt hfits] at hzero
      omega
    exact ⟨_, he, by rw [FastEntry.kind_of_count_ne hne]; simp⟩

end Sys2Proof.Machine
end

section
/-!
SUPPORT. The two fills of the fast lookup table (spec/40_table_generator.md R160 to R169): what either stores where every index has an
entry, and what it leaves where one has none or the book is bad.
-/

namespace Sys2Proof.Machine

/-! ### Entries of a quiet book -/

section Const
variable {p : Params} {b : Nat → BookEntry} {len idx : Nat} (site : Site)

theorem scanLoop_const (fuel rem cnt sh : Nat) :
    scanLoop p (fun _ => b) len site idx fuel rem cnt sh = scanLoop p (fun _ => b) len [] idx fuel rem cnt sh := by
  induction fuel generalizing rem cnt sh with
  | zero => rfl
  | succ n ih => simp only [scanLoop, matchPattern_const, ih]

theorem scanEntry_const : scanEntry p (fun _ => b) len site idx = scanEntry p (fun _ => b) len [] idx := by
  simp only [scanEntry, scanLoop_const (site ++ [0, idx]), scanLoop_const ([] ++ [0, idx])]
  rfl

theorem legacyEntry_const : legacyEntry (fun _ => b) len site idx = legacyEntry (fun _ => b) len [] idx := rfl

end Const

/-- A fill whose entries all exist stores them in order. -/
theorem fillEntries_some (g : Nat → FastEntry) (fuel idx : Nat) :
    fillEntries (fun i => some (g i)) fuel idx = ((List.range' idx fuel).map g, none) := by
  induction fuel generalizing idx with
  | zero => rfl
  | succ n ih => simp only [fillEntries, ih, List.range'_succ, List.map_cons]

/-! ### What a fill leaves -/

/-- The state after a fill that has written `written` entries and failed: the table is invalid, and unspecified (log entry 2). -/
def State.withSpoilt (s : State) (c : CsId) (written : Nat) : State :=
  s.setCodeset c { s.codeset c with
    fastbook := (s.codeset c).fastbook.forget.spoil written
    valid := { (s.codeset c).valid with fastbook := false, fastbookLegacy := false } }

/-- The state after a fill that has stored the table `l` (R165, R169). -/
def State.withFilled (s : State) (c : CsId) (legacy : Bool) (l : List FastEntry) : State :=
  { s.setCodeset c { s.codeset c with
      fastbook := (s.codeset c).fastbook.rebuild l
      valid := { (s.codeset c).valid with fastbook := true, fastbookLegacy := legacy } } with
    status := { s.status with unmatched := s.status.unmatched || decide (0 < countKind .unmatched l) }
    result0 := BitVec.ofNat 32 (countKind .complete l)
    result1 := BitVec.ofNat 32 (countKind .marker l)
    result2 := BitVec.ofNat 32 (countKind .unmatched l) }

section Fill
variable {s : State} {c : CsId}

theorem State.finishFill_of_none (legacy : Bool) (l : List FastEntry) :
    (s.startFill c).finishFill c legacy (l, none) = .done (s.withFilled c legacy l) := by
  cases c <;> simp [State.finishFill, State.startFill, State.withFilled, State.setCodeset, State.codeset]

theorem State.finishFill_of_some (legacy : Bool) (l : List FastEntry) (idx : Nat) :
    (s.startFill c).finishFill c legacy (l, some idx) = .failed ⟨.invalidCodebook, idx⟩ (s.withSpoilt c l.length) := by
  cases c <;> simp [State.finishFill, State.startFill, State.withSpoilt, State.setCodeset, State.codeset]

/-- `FILL_SCAN_LUT` on a valid book is the fill of the scan entries. -/
theorem State.fillScanLut_of_valid (hq : s.Quiet) (hv : s.RlvValid c) :
    s.fillScanLut c = (s.startFill c).finishFill c false
      (fillEntries (scanEntry s.params (fun _ => s.rlvEntry c) (s.codeset c).rlvLen.toNat []) Config.fastbookDepth 0) := by
  have hkept : (s.startFill c).kept = s.kept := (State.Keeps.startFill s c).kept
  have hq' := (State.quiet_of_kept hkept).2 hq
  have hvalid := State.validateRlv_of_valid hq' (State.rlvValid_of_kept hkept hv) [1, 0]
  have hentry : scanEntry (s.startFill c).params ((s.startFill c).rlvAt c) ((s.startFill c).codeset c).rlvLen.toNat [1, 1] =
      scanEntry s.params (fun _ => s.rlvEntry c) (s.codeset c).rlvLen.toNat [] := by
    funext idx
    rw [State.rlvAt_eq_of_quiet hq', funext (State.rlvEntry_of_kept hkept c), State.params_of_kept hkept,
      State.rlvLen_of_kept hkept, scanEntry_const]
  simp only [State.fillScanLut, hvalid, hentry]

/-- `FILL_CODE_LUT` on a valid book stores the legacy entries. -/
theorem State.fillCodeLut_of_valid (hq : s.Quiet) (hv : s.RleValid c) :
    s.fillCodeLut c = .done (s.withFilled c true
      ((List.range 4096).map (legacyEntry (fun _ => s.rleEntry c) (s.codeset c).rlcLen.toNat []))) := by
  have hkept : (s.startFill c).kept = s.kept := (State.Keeps.startFill s c).kept
  have hq' := (State.quiet_of_kept hkept).2 hq
  have hvalid := State.validateRle_of_valid hq' (State.rleValid_of_kept hkept hv) [2, 0]
  have hentry : legacyEntry ((s.startFill c).rleAt c) ((s.startFill c).codeset c).rlcLen.toNat [2, 1] =
      legacyEntry (fun _ => s.rleEntry c) (s.codeset c).rlcLen.toNat [] := by
    funext idx
    rw [State.rleAt_eq_of_quiet hq', funext (State.rleEntry_of_kept hkept c), State.rlcLen_of_kept hkept, legacyEntry_const]
  simp only [State.fillCodeLut, hvalid, hentry, fillEntries_some, ← List.range_eq_range', State.finishFill_of_none]

/-- The scan fill stores the whole table where every index has an entry. -/
theorem State.fillScanLut_of_isSome (hq : s.Quiet) (hv : s.RlvValid c)
    (h : ∀ idx < 4096, (scanEntry s.params (fun _ => s.rlvEntry c) (s.codeset c).rlvLen.toNat [] idx).isSome = true) :
    ∃ l : List FastEntry, l.length = 4096 ∧
      (∀ idx < 4096, l[idx]? = scanEntry s.params (fun _ => s.rlvEntry c) (s.codeset c).rlvLen.toNat [] idx) ∧
      s.fillScanLut c = .done (s.withFilled c false l) := by
  rw [State.fillScanLut_of_valid hq hv]
  generalize scanEntry s.params (fun _ => s.rlvEntry c) (s.codeset c).rlvLen.toNat [] = f at h ⊢
  have hnone : (fillEntries f Config.fastbookDepth 0).2 = none :=
    fillEntries_none_of_isSome fun i hi => by rw [Nat.zero_add]; exact h i hi
  obtain ⟨hlen, hget⟩ := fillEntries_of_none hnone
  refine ⟨_, hlen, fun idx hidx => ?_, ?_⟩
  · rw [(hget idx hidx).1, Nat.zero_add]
  · rw [← State.finishFill_of_none, ← hnone]

/-- The scan fill fails at the first index without an entry. -/
theorem State.fillScanLut_of_overflow (hq : s.Quiet) (hv : s.RlvValid c) {idx : Nat} (hidx : idx < 4096)
    (hnone : scanEntry s.params (fun _ => s.rlvEntry c) (s.codeset c).rlvLen.toNat [] idx = none)
    (hbefore : ∀ i < idx, (scanEntry s.params (fun _ => s.rlvEntry c) (s.codeset c).rlvLen.toNat [] i).isSome = true) :
    s.fillScanLut c = .failed ⟨.invalidCodebook, idx⟩ (s.withSpoilt c idx) := by
  rw [State.fillScanLut_of_valid hq hv]
  generalize scanEntry s.params (fun _ => s.rlvEntry c) (s.codeset c).rlvLen.toNat [] = f at hnone hbefore ⊢
  have hsome : (fillEntries f Config.fastbookDepth 0).2 = some idx := fillEntries_some_iff.2
    ⟨Nat.zero_le _, by omega, hnone, fun i _ hi => Option.isSome_iff_ne_none.1 (hbefore i hi)⟩
  have hlen : (fillEntries f Config.fastbookDepth 0).1.length = idx := length_fillEntries_of_some hsome
  rw [← hlen, ← State.finishFill_of_some false, hlen, ← hsome]

/-- A bad entry ends either fill before it writes. -/
theorem State.fillScanLut_of_bad (hq : s.Quiet) {j : Nat} (hj : j < (s.codeset c).rlvLen.toNat)
    (hbad : (s.rlvEntry c j).badRunValue = true) (hfirst : ∀ i < j, (s.rlvEntry c i).badRunValue = false) :
    s.fillScanLut c = .failed ⟨.invalidCodebook, j⟩ (s.withSpoilt c 0) := by
  have hkept : (s.startFill c).kept = s.kept := (State.Keeps.startFill s c).kept
  rw [← State.rlvLen_of_kept hkept] at hj
  simp only [← State.rlvEntry_of_kept hkept] at hbad hfirst
  simp only [State.fillScanLut, State.validateRlv_of_bad ((State.quiet_of_kept hkept).2 hq) hj hbad hfirst]
  rfl

theorem State.fillCodeLut_of_bad (hq : s.Quiet) {j : Nat} (hj : j < (s.codeset c).rlcLen.toNat)
    (hbad : (s.rleEntry c j).badRun = true) (hfirst : ∀ i < j, (s.rleEntry c i).badRun = false) :
    s.fillCodeLut c = .failed ⟨.invalidCodebook, j⟩ (s.withSpoilt c 0) := by
  have hkept : (s.startFill c).kept = s.kept := (State.Keeps.startFill s c).kept
  rw [← State.rlcLen_of_kept hkept] at hj
  simp only [← State.rleEntry_of_kept hkept] at hbad hfirst
  simp only [State.fillCodeLut, State.validateRle_of_bad ((State.quiet_of_kept hkept).2 hq) hj hbad hfirst]
  rfl

/-- R161: the counts of ready data cannot overflow. -/
theorem State.RlvReady.isSome (h : s.RlvReady c) (idx : Nat) :
    (scanEntry s.params (fun _ => s.rlvEntry c) (s.codeset c).rlvLen.toNat [] idx).isSome = true :=
  scanEntry_isSome (B := 357913941) (fun _ j hj => by have := h.2 j hj; omega) (by decide)

end Fill

/-- Settles O23: with an entry for every index the fill stores them all. -/
theorem fillScanLutResult : Obligations.FillScanLutResult := by
  intro s cs c hc hq entry
  refine ⟨fun h idx _ => h.isSome idx, fun hv hall => ?_⟩
  obtain ⟨l, hlen, hget, hdone⟩ := State.fillScanLut_of_isSome hq hv hall
  refine ⟨l, hlen, hget, ?_⟩
  rw [exec_fillScanLut hc, hdone]
  rfl

/-- Settles O26: every index has a legacy entry. -/
theorem fillCodeLutResult : Obligations.FillCodeLutResult := by
  intro s cs c hc hq hv l
  rw [exec_fillCodeLut hc, State.fillCodeLut_of_valid hq hv]
  rfl

/-- Settles O28: a bad entry, or an index without one, ends the fill. -/
theorem fillFailures : Obligations.FillFailures := by
  intro s cs c hc hq started entry
  rw [exec_fillScanLut hc, exec_fillCodeLut hc]
  refine ⟨fun j hj hbad hfirst => ?_, fun hv idx hidx hnone hbefore => ?_, fun j hj hbad hfirst => ?_⟩
  · rw [State.fillScanLut_of_bad hq hj hbad hfirst]
    rfl
  · rw [State.fillScanLut_of_overflow hq hv hidx hnone hbefore]
    rfl
  · rw [State.fillCodeLut_of_bad hq hj hbad hfirst]
    rfl

end Sys2Proof.Machine
end

section
/-!
SUPPORT. The failures of `FILL_VLC_TABLE` (spec/40_table_generator.md R171 to R179), and `INIT_CODEBOOKS` as its three builds one after
the other (R186, R187).
-/

namespace Sys2Proof.Machine

/-- Settles O29, by the closed form of the table. -/
theorem buildCubicResult : Obligations.BuildCubicResult := fun s =>
  congrArg (fun t : State => Host.Outcome.next t.complete) s.buildCubic_eq

/-! ### The failures of `FILL_VLC_TABLE` -/

section Flags
variable {f : CompandFlags}

theorem CompandFlags.policy_of_both (hn : f.notNeeded = true) (hcubic : f.cubic = true) (info : Word) :
    f.policy info = .error ⟨.badFlags, info.toNat⟩ := by simp [CompandFlags.policy, hn, hcubic]

theorem CompandFlags.policy_of_more (hn : f.notNeeded = false) (hcubic : f.cubic = false) (hmore : f.more = true) (info : Word) :
    f.policy info = .error ⟨.unsupported, info.toNat⟩ := by simp [CompandFlags.policy, hn, hcubic, hmore]

end Flags

section Values
variable {s : State} {c : CsId}

theorem State.validateVlc_of_empty (h : (s.codeset c).magLen = 0) (site : Site) :
    s.validateVlc c site = some ⟨.invalidCodebook, 0xFFFFFFFF⟩ := if_pos h

theorem State.validateVlc_of_bad (hq : s.Quiet) {m : Nat} (hm : m < (s.codeset c).magLen.toNat)
    (hbad : (s.vlcEntry c m).badMagnitude s.params.budget m = true)
    (hfirst : ∀ k < m, (s.vlcEntry c k).badMagnitude s.params.budget k = false) (site : Site) :
    s.validateVlc c site = some ⟨.invalidCodebook, m⟩ := by
  have hne : (s.codeset c).magLen ≠ 0 := fun h => by simp [h] at hm
  have hfind : firstBad (s.codeset c).magLen.toNat (fun k => (s.vlcEntry c k).badMagnitude s.params.budget k) = some m :=
    (firstBad_eq_some_iff _ _ m).2 ⟨hm, hbad, hfirst⟩
  simp only [State.validateVlc, if_neg hne, State.vlcAt_of_quiet hq, hfind, Option.map_some]

theorem State.fillVlcTable_of_badFlags {f : Failure}
    (h : (s.codeset c).csFlags.policy (s.codeset c).csFlags.toWord = .error f) :
    s.fillVlcTable c = .failed f (s.startValues c) := by
  rw [← State.csFlags_of_kept (State.Keeps.startValues s c).kept] at h
  simp only [State.fillVlcTable, h]

theorem State.fillVlcTable_of_badBook {p : Policy} {f : Failure} (hp : (s.codeset c).csFlags.Selects p)
    (h : (s.startValues c).validateVlc c [3, 0] = some f) : s.fillVlcTable c = .failed f (s.startValues c) := by
  rw [← State.csFlags_of_kept (State.Keeps.startValues s c).kept] at hp
  simp only [State.fillVlcTable, CompandFlags.policy_of_selects hp, h]

end Values

/-- Settles O31: the flags are checked before the book. -/
theorem fillVlcTableFailures : Obligations.FillVlcTableFailures := by
  intro s cs c hc hq started flags
  have hkept : started.kept = s.kept := (State.Keeps.startValues s c).kept
  rw [exec_fillVlcTable hc]
  refine ⟨fun hn hcubic => ?_, fun hn hcubic hmore => ?_, fun p hp => ⟨fun hempty => ?_, fun m hm hbad hfirst => ?_⟩⟩
  · rw [State.fillVlcTable_of_badFlags (CompandFlags.policy_of_both hn hcubic _)]
    rfl
  · rw [State.fillVlcTable_of_badFlags (CompandFlags.policy_of_more hn hcubic hmore _)]
    rfl
  · have hempty' : (started.codeset c).magLen = 0 := (State.magLen_of_kept hkept c).trans hempty
    rw [State.fillVlcTable_of_badBook hp (State.validateVlc_of_empty hempty' _)]
    rfl
  · simp only [← State.vlcEntry_of_kept hkept, ← State.params_of_kept hkept, ← State.magLen_of_kept hkept] at hm hbad hfirst
    rw [State.fillVlcTable_of_badBook hp (State.validateVlc_of_bad ((State.quiet_of_kept hkept).2 hq) hm hbad hfirst _)]
    rfl

/-! ### A body started after a completion

A composite command runs its second body in the state that the first body leaves; a single command runs it after the completion of the
first. Without a racing write the two end alike. -/

section Complete
variable {s : State} (hq : s.Quiet) (c : CsId)

theorem State.finishFill_complete (legacy : Bool) (filled : List FastEntry × Option Nat) :
    (s.complete.finishFill c legacy filled).finish = (s.finishFill c legacy filled).finish := by
  obtain ⟨l, _ | idx⟩ := filled <;> cases c <;> rfl

theorem State.startFill_complete : s.complete.startFill c = (s.startFill c).complete := by cases c <;> rfl

theorem State.startValues_complete : s.complete.startValues c = (s.startValues c).complete := by cases c <;> rfl

theorem State.buildCubic_complete : s.complete.buildCubic = s.buildCubic.complete := by rw [buildCubic_eq, buildCubic_eq]; rfl

include hq

theorem State.srcRead_complete : s.complete.srcRead = s.srcRead := by
  funext site a
  simp only [State.srcRead, State.complete_fresh, State.complete_srcmem, State.complete_srcRaces, hq.1]

theorem State.rleAt_complete : s.complete.rleAt c = s.rleAt c := by
  funext site j
  simp only [State.rleAt, State.complete_codeset, State.srcRead_complete hq]

theorem State.rlvAt_complete : s.complete.rlvAt c = s.rlvAt c := by
  funext site j
  simp only [State.rlvAt, State.complete_codeset, State.srcRead_complete hq]

theorem State.vlcAt_complete : s.complete.vlcAt c = s.vlcAt c := by
  funext site j
  simp only [State.vlcAt, State.complete_codeset, State.srcRead_complete hq]

theorem State.valueEntry_complete (p : Policy) : s.complete.valueEntry c p = s.valueEntry c p := by
  funext idx
  simp only [State.valueEntry, State.complete_params, State.complete_codeset, State.vlcAt_complete hq]
  cases p <;> rfl

theorem State.validateRle_complete (site : Site) : s.complete.validateRle c site = s.validateRle c site := by
  simp only [State.validateRle, State.rleAt_complete hq, State.complete_codeset]

theorem State.validateRlv_complete (site : Site) : s.complete.validateRlv c site = s.validateRlv c site := by
  simp only [State.validateRlv, State.rlvAt_complete hq, State.complete_codeset]

theorem State.validateVlc_complete (site : Site) : s.complete.validateVlc c site = s.validateVlc c site := by
  simp only [State.validateVlc, State.vlcAt_complete hq, State.complete_codeset, State.complete_params]

theorem State.fillCodeLut_complete : (s.complete.fillCodeLut c).finish = (s.fillCodeLut c).finish := by
  have hq' : (s.startFill c).Quiet := (State.quiet_of_kept (State.Keeps.startFill s c).kept).2 hq
  simp only [State.fillCodeLut, State.startFill_complete, State.validateRle_complete hq', State.rleAt_complete hq',
    State.complete_codeset]
  cases (s.startFill c).validateRle c [2, 0] with
  | some f => rfl
  | none => exact State.finishFill_complete c true _

theorem State.fillScanLut_complete : (s.complete.fillScanLut c).finish = (s.fillScanLut c).finish := by
  have hq' : (s.startFill c).Quiet := (State.quiet_of_kept (State.Keeps.startFill s c).kept).2 hq
  simp only [State.fillScanLut, State.startFill_complete, State.validateRlv_complete hq', State.rlvAt_complete hq',
    State.complete_codeset, State.complete_params]
  cases (s.startFill c).validateRlv c [1, 0] with
  | some f => rfl
  | none => exact State.finishFill_complete c false _

theorem State.fillVlcTable_complete : (s.complete.fillVlcTable c).finish = (s.fillVlcTable c).finish := by
  have hq' : (s.startValues c).Quiet := (State.quiet_of_kept (State.Keeps.startValues s c).kept).2 hq
  simp only [State.fillVlcTable, State.startValues_complete, State.validateVlc_complete hq', State.complete_codeset]
  cases ((s.startValues c).codeset c).csFlags.policy ((s.startValues c).codeset c).csFlags.toWord with
  | error f => rfl
  | ok p =>
    dsimp only
    cases (s.startValues c).validateVlc c [3, 0] with
    | some f => rfl
    | none =>
      have hbuilt : (if p = .cubic then (s.startValues c).complete.buildCubic else (s.startValues c).complete) =
          (if p = .cubic then (s.startValues c).buildCubic else s.startValues c).complete := by
        rw [State.buildCubic_complete, apply_ite State.complete]
      have hq'' : (if p = .cubic then (s.startValues c).buildCubic else s.startValues c).Quiet := by
        split <;> simpa [State.Quiet] using hq'
      dsimp only
      rw [hbuilt]
      generalize (if p = .cubic then (s.startValues c).buildCubic else s.startValues c) = u at hq''
      simp only [State.valueEntry_complete hq'', State.complete_params, State.complete_codeset]
      cases c <;> rfl

end Complete

/-! ### The three builds -/

/-- The fill that `CTRL.LUT_LEGACY` selects (R186). -/
def State.fillLookup (s : State) (c : CsId) : Body := if s.ctrl.lutLegacy then s.fillCodeLut c else s.fillScanLut c

/-- The codebooks of the codeset are built (R186). -/
def State.withReplaced (s : State) (c : CsId) : State :=
  { s.setCodeset c { s.codeset c with valid := { (s.codeset c).valid with cbReplaced := true } } with result0 := 1 }

section Init
variable {s : State} {c : CsId}

theorem State.initCodebooks_eq (h : (s.codeset c).valid.cbReplaced = false) :
    s.initCodebooks c = (s.buildRunLength c).andThen fun u => (u.fillLookup c).andThen fun v =>
      (v.fillVlcTable c).andThen fun w => .done (w.withReplaced c) := by
  have hinit : s.initCodebooks c = (s.initLookup c).andThen fun v => v.initValues c := by
    simp only [State.initCodebooks, h, Bool.false_eq_true, if_false]
  rw [hinit, State.initLookup]
  cases s.buildRunLength c <;> rfl

theorem State.Keeps.fillLookup (s : State) (c : CsId) : (s.fillLookup c).Sound s := by
  unfold State.fillLookup
  split
  · exact State.Keeps.fillCodeLut s c
  · exact State.Keeps.fillScanLut s c

theorem State.fillLookup_complete (hq : s.Quiet) (c : CsId) : (s.complete.fillLookup c).finish = (s.fillLookup c).finish := by
  unfold State.fillLookup
  rw [State.complete_ctrl]
  split
  · exact State.fillCodeLut_complete hq c
  · exact State.fillScanLut_complete hq c

theorem exec_fillLookup {cs : BitVec 2} (hc : CsId.ofField cs = some c) (s : State) :
    exec (if s.ctrl.lutLegacy then .fillCodeLut cs else .fillScanLut cs) s = .next (s.fillLookup c).finish := by
  unfold State.fillLookup
  split
  · exact exec_fillCodeLut hc s
  · exact exec_fillScanLut hc s

theorem Body.Sound.kept_of_done {b : Body} {u : State} (h : b.Sound s) (hdone : b = .done u) : u.kept = s.kept := by
  subst hdone
  exact State.Keeps.kept h

/-- Without an error before it, a body has failed just where its completion reports an error. -/
theorem Body.Sound.failed_or_done {b : Body} (h : b.Sound s) (herr : s.status.err = false) :
    (∃ f u, b = .failed f u ∧ b.finish.status.err = true) ∨
      ∃ u, b = .done u ∧ u.kept = s.kept ∧ b.finish.status.err = false := by
  cases b with
  | failed f u => exact .inl ⟨f, u, rfl, rfl⟩
  | done u =>
    have hkept : u.kept = s.kept := h.kept_of_done rfl
    exact .inr ⟨u, rfl, hkept, (congrArg (·.status.err) hkept : u.kept.status.err = s.kept.status.err).trans herr⟩

end Init

/-- Settles O32: each body of the composite ends as the single command does after the completion of the one before it. -/
theorem initCodebooksIsTheThreeBuilds : Obligations.InitCodebooksIsTheThreeBuilds := by
  intro s t1 t2 t3 cs c hc hq herr hnew h1 h2 h3
  rw [exec_initCodebooks hc, State.initCodebooks_eq hnew]
  obtain rfl := Host.Outcome.next.inj ((exec_buildRunlength hc s).symm.trans h1)
  rcases (State.Keeps.buildRunLength s c).failed_or_done herr with ⟨f, u, hb1, herr1⟩ | ⟨u, hb1, hu, herr1⟩
  · simp only [herr1, Bool.true_eq_false, false_implies, true_implies, and_true]
    rw [hb1, Body.failed_andThen]
  have hqu : u.Quiet := (State.quiet_of_kept hu).2 hq
  have herru : u.status.err = false := by simpa [hb1] using herr1
  have hctrl : s.ctrl = u.complete.ctrl := (congrArg State.ctrl hu : u.kept.ctrl = s.kept.ctrl).symm
  rw [hb1, Body.finish_done, hctrl, exec_fillLookup hc, State.fillLookup_complete hqu] at h2
  obtain rfl := Host.Outcome.next.inj h2
  rcases (State.Keeps.fillLookup u c).failed_or_done herru with ⟨f, v, hb2, herr2⟩ | ⟨v, hb2, hv, herr2⟩
  · simp only [herr1, herr2, Bool.true_eq_false, Bool.false_eq_true, false_implies, true_implies, and_true, true_and]
    rw [hb1, Body.done_andThen, hb2, Body.failed_andThen]
  have hqv : v.Quiet := (State.quiet_of_kept hv).2 hqu
  have herrv : v.status.err = false := by simpa [hb2] using herr2
  rw [hb2, Body.finish_done, exec_fillVlcTable hc, State.fillVlcTable_complete hqv] at h3
  obtain rfl := Host.Outcome.next.inj h3
  rw [hb1, Body.done_andThen, hb2, Body.done_andThen]
  rw [hb1] at herr1
  rw [hb2] at herr2
  rcases (State.Keeps.fillVlcTable v c).failed_or_done herrv with ⟨f, w, hb3, herr3⟩ | ⟨w, hb3, -, herr3⟩
  · simp only [herr1, herr2, herr3, Bool.true_eq_false, Bool.false_eq_true, false_implies, true_implies, and_true, true_and]
    rw [hb3, Body.failed_andThen]
  · simp only [herr1, herr2, herr3, Bool.false_eq_true, false_implies, true_implies, true_and]
    rw [hb3, Body.done_andThen]
    cases c <;> rfl

/-! ### On valid static data -/

section Valid
variable {s : State} {c : CsId}

theorem State.codeset_with_result0 (s : State) (n : Word) (c : CsId) : State.codeset { s with result0 := n } c = s.codeset c := by
  cases c <;> rfl

theorem State.buildRunLength_valid (hq : s.Quiet) (hp : s.params.inRange) (h : s.RunsReady c) :
    ∃ u, s.buildRunLength c = .done u ∧ u.kept = s.kept ∧
      (u.codeset c).valid = { (s.codeset c).valid with newcodes := true } := by
  have hdone := State.buildRunLength_of_ready hq hp h
  refine ⟨_, hdone, (State.Keeps.buildRunLength s c).kept_of_done hdone, ?_⟩
  rw [State.codeset_with_result0, State.codeset_setCodeset_same]

theorem State.withFilled_valid (s : State) (c : CsId) (legacy : Bool) (l : List FastEntry) :
    ((s.withFilled c legacy l).codeset c).valid = { (s.codeset c).valid with fastbook := true, fastbookLegacy := legacy } := by
  cases c <;> rfl

theorem State.fillLookup_valid (hq : s.Quiet) (hv : s.RleValid c) (h : if s.ctrl.lutLegacy then True else s.RlvReady c) :
    ∃ u, s.fillLookup c = .done u ∧ u.kept = s.kept ∧
      (u.codeset c).valid = { (s.codeset c).valid with fastbook := true, fastbookLegacy := s.ctrl.lutLegacy } := by
  obtain ⟨l, hdone⟩ : ∃ l, s.fillLookup c = .done (s.withFilled c s.ctrl.lutLegacy l) := by
    unfold State.fillLookup
    cases hlegacy : s.ctrl.lutLegacy with
    | true => exact ⟨_, State.fillCodeLut_of_valid hq hv⟩
    | false =>
      rw [hlegacy] at h
      obtain ⟨l, -, -, hdone⟩ := State.fillScanLut_of_isSome hq h.1 fun idx _ => h.isSome idx
      exact ⟨l, hdone⟩
  exact ⟨_, hdone, (State.Keeps.fillLookup s c).kept_of_done hdone, s.withFilled_valid c _ l⟩

theorem State.withReplaced_valid (s : State) (c : CsId) :
    ((s.withReplaced c).codeset c).valid = { (s.codeset c).valid with cbReplaced := true } := by
  cases c <;> rfl

theorem State.fillVlcTable_valid {p : Policy} (hq : s.Quiet) (hp : s.params.inRange) (hv : s.VlcValid c)
    (hflags : (s.codeset c).csFlags.Selects p) :
    ∃ u, s.fillVlcTable c = .done u ∧ u.kept = s.kept ∧
      (u.codeset c).valid = { (s.codeset c).valid with valuebook := true } := by
  have hdone := State.fillVlcTable_of_valid hq (Nat.le_of_succ_le hp.2.2.1) hv hflags
  refine ⟨_, hdone, (State.Keeps.fillVlcTable s c).kept_of_done hdone, ?_⟩
  rw [State.codeset_with_result0, State.codeset_setCodeset_same]

end Valid

/-- Settles O33: each of the three builds succeeds and sets its valid bits. -/
theorem initCodebooksCompletes : Obligations.InitCodebooksCompletes := by
  intro s cs c hc
  rw [exec_initCodebooks hc]
  refine ⟨fun hbuilt => ?_, fun hnew hq herr hp hruns hlookup hvlc ⟨p, hflags⟩ => ?_⟩
  · rw [State.initCodebooks, if_pos hbuilt]
    rfl
  · obtain ⟨u, hu, hku, hvu⟩ := State.buildRunLength_valid hq hp hruns
    have hctrl : u.ctrl = s.ctrl := (congrArg State.ctrl hku : u.kept.ctrl = s.kept.ctrl)
    have hlookup' : if u.ctrl.lutLegacy then True else u.RlvReady c := by
      rw [hctrl]
      split_ifs at hlookup ⊢
      exact State.rlvReady_of_kept hku hlookup
    obtain ⟨v, hv, hkv, hvv⟩ := State.fillLookup_valid ((State.quiet_of_kept hku).2 hq) (State.rleValid_of_kept hku hruns.1) hlookup'
    have hk : v.kept = s.kept := hkv.trans hku
    have hflags' : (v.codeset c).csFlags.Selects p := by rwa [State.csFlags_of_kept hk]
    obtain ⟨w, hw, hkw, hvw⟩ := State.fillVlcTable_valid ((State.quiet_of_kept hk).2 hq) (by rwa [State.params_of_kept hk])
      (State.vlcValid_of_kept hk hvlc) hflags'
    refine ⟨(w.withReplaced c).complete, ?_, ?_, rfl, ?_⟩
    · rw [State.initCodebooks_eq hnew, hu, Body.done_andThen, hv, Body.done_andThen, hw]
      rfl
    · have herrw : w.status.err = s.status.err :=
        (congrArg (·.status.err) (hkw.trans hk) : w.kept.status.err = s.kept.status.err)
      cases c <;> exact herrw.trans herr
    · rw [State.complete_codeset, State.withReplaced_valid, hvw, hvv, hvu, hctrl]

end Sys2Proof.Machine
end

section
/-!
SUPPORT. The FSM tables (spec/41_fsm_tables.md R200 to R218): the two scaling laws, what each command of the family leaves, and
`INIT_DECODER_FSM` as its three bodies one after the other.
-/

namespace Sys2Proof.Machine

/-! ### The scaling laws (R205, R206) -/

theorem cubicExpand_le {m : Nat} (h : m < 264) : cubicExpand m ≤ 1095 := by
  have hmono : StrictMono cubicExpand := fun _ _ => cubicExpand_lt
  have hmax : cubicExpand 263 = 1095 := by decide
  exact hmax ▸ hmono.monotone (Nat.le_of_lt_succ h)

section Laws
variable {v : Int}

theorem scaleCubic_of_nonneg (h : v.natAbs < 264) (hv : 0 ≤ v) : scaleCubic v = cubicExpand v.natAbs := by
  rw [scaleCubic, if_pos h, if_neg (Int.not_lt.2 hv)]

theorem scaleCubic_of_neg (h : v.natAbs < 264) (hv : v < 0) : scaleCubic v = -(cubicExpand v.natAbs : Int) := by
  rw [scaleCubic, if_pos h, if_pos hv]

theorem scaleCubic_of_large (h : 264 ≤ v.natAbs) : scaleCubic v = v := if_neg (Nat.not_lt.2 h)

/-- Below 264 in magnitude the cubic law expands the magnitude and keeps the sign. -/
theorem scaleCubic_of_small (h : v.natAbs < 264) :
    (scaleCubic v).natAbs = cubicExpand v.natAbs ∧ (0 ≤ scaleCubic v ↔ 0 ≤ v) ∧
      -1095 ≤ scaleCubic v ∧ scaleCubic v ≤ 1095 := by
  have hmax := cubicExpand_le h
  have hge : v.natAbs ≤ cubicExpand v.natAbs := Nat.le_add_right _ _
  rcases Int.lt_or_le v 0 with hv | hv
  · rw [scaleCubic_of_neg h hv]
    omega
  · rw [scaleCubic_of_nonneg h hv]
    omega

theorem scaleLegacy_of_mid (hlo : 40 ≤ v) (hhi : v < 264) : scaleLegacy v = (v - 40) * 4 + 40 := if_pos ⟨hlo, hhi⟩

theorem scaleLegacy_of_le (h : v ≤ -40) : scaleLegacy v = -((-v - 40) * 4 + 40) := by
  rw [scaleLegacy, if_neg (by omega), if_pos h]

theorem scaleLegacy_of_other (hlo : -40 < v) (hmid : ¬ (40 ≤ v ∧ v < 264)) : scaleLegacy v = v := by
  rw [scaleLegacy, if_neg hmid, if_neg (by omega)]

/-- The cubic law keeps the 16-bit range: it expands small magnitudes to at most 1095. -/
theorem scaleCubic_mem_range (hlo : -32768 ≤ v) (hhi : v ≤ 32767) : -32768 ≤ scaleCubic v ∧ scaleCubic v ≤ 32767 := by
  rcases Nat.lt_or_ge v.natAbs 264 with h | h
  · obtain ⟨-, -, hmin, hmax⟩ := scaleCubic_of_small h
    omega
  · rw [scaleCubic_of_large h]
    exact ⟨hlo, hhi⟩

/-- The legacy law leaves the 16-bit range on its negative branch only, which has no lower bound. -/
theorem scaleLegacy_not_mem_range_iff (hlo : -32768 ≤ v) (hhi : v ≤ 32767) :
    ¬ (-32768 ≤ scaleLegacy v ∧ scaleLegacy v ≤ 32767) ↔ v ≤ -8223 := by
  by_cases hneg : v ≤ -40
  · rw [scaleLegacy_of_le hneg]
    omega
  · by_cases hmid : 40 ≤ v ∧ v < 264
    · rw [scaleLegacy_of_mid hmid.1 hmid.2]
      omega
    · rw [scaleLegacy_of_other (by omega) hmid]
      omega

end Laws

/-- Settles O37, by the branches of the two laws. -/
theorem scaleLaws : Obligations.ScaleLaws :=
  ⟨fun _ => scaleCubic_of_small, fun _ => scaleCubic_of_large, fun _ => scaleLegacy_of_mid, fun _ => scaleLegacy_of_le,
    fun _ => scaleLegacy_of_other, fun _ hlo hhi => ⟨scaleCubic_mem_range hlo hhi, scaleLegacy_not_mem_range_iff hlo hhi⟩,
    by decide, by decide, by decide⟩

/-! ### The commands on the codeset they name -/

section Commands
variable {cs : BitVec 2} {c : CsId} (hc : CsId.ofField cs = some c) (s : State)
include hc

theorem exec_loadFsm : exec (.loadFsm cs) s = .next (s.loadFsm c).finish := congrArg _ (State.onCodeset_some hc s _)

theorem exec_scaleFsm : exec (.scaleFsm cs) s = .next (s.scaleFsm c).finish := congrArg _ (State.onCodeset_some hc s _)

theorem exec_extractBandEnd : exec (.extractBandEnd cs) s = .next (s.extractBandEnd c).finish :=
  congrArg _ (State.onCodeset_some hc s _)

theorem exec_initDecoderFsm : exec (.initDecoderFsm cs) s = .next (s.initDecoderFsm c).finish :=
  congrArg _ (State.onCodeset_some hc s _)

theorem exec_freeCodebooks : exec (.freeCodebooks cs) s = .next (s.setCodeset c (s.codeset c).freed).complete :=
  congrArg _ (State.onCodeset_some hc s _)

end Commands

/-! ### Loading (R201 to R203) -/

/-- No table is loaded. -/
abbrev Codeset.Unloaded (k : Codeset) : Prop := k.fsmFlags.initialized = false ∧ k.fsmNumStates = 0

/-- The state count of the static table. -/
def State.stateCount (s : State) (c : CsId) : Word := s.srcWord (s.codeset c).fsmBase

/-- The state count of the static table fits (R202). -/
abbrev State.TableFits (s : State) (c : CsId) : Prop :=
  1 ≤ (s.stateCount c).toNat ∧ (s.stateCount c).toNat ≤ 65536 ∧
    (s.stateCount c).toNat * 2 ^ s.params.indexSize ≤ s.params.fsmRamEntries

/-- What `LOAD_FSM` leaves of a codeset whose static table fits. -/
def State.loadedCodeset (s : State) (c : CsId) : Codeset :=
  { s.codeset c with
    fsm := (s.codeset c).fsm.store
      ((List.range ((s.stateCount c).toNat * 2 ^ s.params.indexSize)).map (s.fsmArrayEntry c))
    fsmNumStates := s.stateCount c
    fsmFlags := ⟨(s.codeset c).csFlags, false, true⟩
    fsmState := 0 }

/-- What `LOAD_FSM` leaves where the static table fits. -/
def State.withLoaded (s : State) (c : CsId) : State :=
  { s.setCodeset c (s.loadedCodeset c) with result0 := s.stateCount c }

section Load
variable {s : State} {c : CsId}

theorem State.loadFsm_of_loaded (h : ¬ (s.codeset c).Unloaded) : s.loadFsm c = .done { s with result0 := 0 } := by
  rcases s.loadFsm_cases c with ⟨-, hskip⟩ | ⟨hunloaded, -⟩
  · exact hskip
  · exact absurd hunloaded h

/-- Without a racing write an unloaded table is loaded where it fits, and else the load fails. -/
theorem State.loadFsm_of_unloaded (hq : s.Quiet) (h : (s.codeset c).Unloaded) :
    s.loadFsm c =
      if s.TableFits c then .done (s.withLoaded c)
      else .failed ⟨.initFsm, (s.stateCount c).toNat⟩ s := by
  have hfits_iff : badStateCount s.params (s.stateCount c).toNat = false ↔ s.TableFits c := badStateCount_eq_false_iff _ _
  have hcases := s.loadFsm_cases c
  simp only [State.srcRead_of_quiet hq, State.fsmArrayAt_of_quiet hq, ← List.range_eq_range'] at hcases
  rcases hcases with ⟨hloaded, -⟩ | ⟨-, ⟨hbad, hfail⟩ | ⟨hcount, hdone⟩⟩
  · simp [h] at hloaded
  · exact hfail.trans (if_neg fun hfits => Bool.false_ne_true ((hfits_iff.2 hfits).symm.trans hbad)).symm
  · exact hdone.trans (if_pos (hfits_iff.1 hcount)).symm

end Load

/-- Settles O34: the three ways a load ends. -/
theorem loadFsmResult : Obligations.LoadFsmResult := by
  intro s cs c hc hq k ns fits
  rw [exec_loadFsm hc]
  refine ⟨fun hloaded => ?_, fun hinit hcount hfits => ?_, fun hinit hcount hfits => ?_⟩
  · rw [State.loadFsm_of_loaded (c := c) fun ⟨hinit, hcount⟩ => hloaded.elim (by simp [k, hinit]) (absurd hcount)]
    rfl
  · rw [State.loadFsm_of_unloaded hq ⟨hinit, hcount⟩, if_pos (show s.TableFits c from hfits)]
    rfl
  · rw [State.loadFsm_of_unloaded hq ⟨hinit, hcount⟩, if_neg (show ¬ s.TableFits c from hfits)]
    rfl

/-! ### The companding scale (R204 to R211) -/

/-- The table is loaded, and `SCALE_FSM` leaves it as it is: it was scaled before, or its policy asks for no scale. -/
abbrev Codeset.NothingToScale (k : Codeset) : Prop :=
  k.fsmFlags.initialized = true ∧ (k.fsmFlags.compandingDone = true ∨ k.fsmFlags.policy.Selects .notNeeded)

/-- What `SCALE_FSM` leaves of a codeset whose loaded table it scales. -/
def State.scaledCodeset (s : State) (c : CsId) (p : Policy) : Codeset :=
  { s.codeset c with
    fsm := (s.codeset c).fsm.store ((s.fsmList c).map (FsmEntry.scaled p))
    fsmFlags := { (s.codeset c).fsmFlags with compandingDone := true } }

/-- What `SCALE_FSM` leaves where it scales the loaded table. -/
def State.withScaled (s : State) (c : CsId) (p : Policy) : State :=
  { s.setCodeset c (s.scaledCodeset c p) with
    result0 := BitVec.ofNat 32 ((s.fsmList c).countP (FsmEntry.changes p)) }

theorem Policy.scale_eq {p : Policy} (h : p ≠ .notNeeded) : p.scale = if p = .cubic then scaleCubic else scaleLegacy := by
  cases p with
  | notNeeded => exact absurd rfl h
  | cubic => rfl
  | legacy => rfl

theorem FsmEntry.scaled_eq_law {p : Policy} (h : p ≠ .notNeeded) : FsmEntry.scaled p = fun e =>
    { e with value0 := BitVec.ofInt 16 ((if p = .cubic then scaleCubic else scaleLegacy) e.value0.toInt) } :=
  funext fun e => by rw [FsmEntry.scaled_eq, Policy.scale_eq h]

theorem FsmEntry.changes_eq_law {p : Policy} (h : p ≠ .notNeeded) : FsmEntry.changes p = fun e =>
    decide ((if p = .cubic then scaleCubic else scaleLegacy) e.value0.toInt ≠ e.value0.toInt) :=
  funext fun e => by rw [FsmEntry.changes, Policy.scale_eq h]

/-- The entries of a loaded table are the first of the RAM. -/
theorem State.fsmList_eq_take {s : State} {c : CsId}
    (h : (s.codeset c).fsmNumStates.toNat * 2 ^ s.params.indexSize ≤ (s.codeset c).fsm.cells.length) :
    s.fsmList c = (s.codeset c).fsm.cells.take ((s.codeset c).fsmNumStates.toNat * 2 ^ s.params.indexSize) := by
  refine List.ext_getElem (by simp [State.length_fsmList, h]) fun i hi _ => ?_
  have hlt : i < (s.codeset c).fsm.cells.length := (State.length_fsmList s c ▸ hi).trans_le h
  simp [State.fsmList, State.fsmAt, Ram.entry, hlt]

/-- A map over the loaded table rewrites the first entries of the RAM. -/
theorem State.store_map_fsmList {s : State} {c : CsId} (f : FsmEntry → FsmEntry)
    (h : (s.codeset c).fsmNumStates.toNat * 2 ^ s.params.indexSize ≤ (s.codeset c).fsm.cells.length) :
    (s.codeset c).fsm.store ((s.fsmList c).map f) = { (s.codeset c).fsm with
      cells :=
        ((s.codeset c).fsm.cells.take ((s.codeset c).fsmNumStates.toNat * 2 ^ s.params.indexSize)).map f ++
          (s.codeset c).fsm.cells.drop ((s.codeset c).fsmNumStates.toNat * 2 ^ s.params.indexSize) } := by
  rw [Ram.store, List.length_map, State.length_fsmList, State.fsmList_eq_take h]

section Scale
variable {s : State} {c : CsId}

theorem State.scaleFsm_of_uninitialized (h : (s.codeset c).fsmFlags.initialized = false) :
    s.scaleFsm c = .failed ⟨.notInitialized, c.toNat⟩ s := by simp only [State.scaleFsm, h, Bool.not_false, if_true]

/-- An initialised table not yet scaled is scaled as its policy says. -/
theorem State.scaleFsm_of_unscaled (hinit : (s.codeset c).fsmFlags.initialized = true)
    (hdone : (s.codeset c).fsmFlags.compandingDone = false) :
    s.scaleFsm c =
      match (s.codeset c).fsmFlags.policy.policy (s.codeset c).fsmFlags.toWord with
      | .error f => .failed f s
      | .ok .notNeeded => .done { s with result0 := 0 }
      | .ok p => .done (s.withScaled c p) := by
  refine ((if_neg (by simp [hinit])).trans (if_neg (by simp [hdone])) : s.scaleFsm c = _).trans ?_
  rfl

theorem State.scaleFsm_of_nothingToScale (h : (s.codeset c).NothingToScale) :
    s.scaleFsm c = .done { s with result0 := 0 } := by
  obtain ⟨hinit, hskip⟩ := h
  cases hdone : (s.codeset c).fsmFlags.compandingDone with
  | true => simp only [State.scaleFsm, hinit, hdone, Bool.not_true, Bool.false_eq_true, if_false, if_true]
  | false =>
    have hflags : (s.codeset c).fsmFlags.policy.Selects .notNeeded := hskip.resolve_left (by simp [hdone])
    rw [State.scaleFsm_of_unscaled hinit hdone, CompandFlags.policy_of_selects hflags]

theorem State.scaleFsm_of_badFlags {f : Failure} (hinit : (s.codeset c).fsmFlags.initialized = true)
    (hdone : (s.codeset c).fsmFlags.compandingDone = false)
    (h : (s.codeset c).fsmFlags.policy.policy (s.codeset c).fsmFlags.toWord = .error f) : s.scaleFsm c = .failed f s := by
  rw [State.scaleFsm_of_unscaled hinit hdone, h]

theorem State.scaleFsm_of_selects {p : Policy} (hinit : (s.codeset c).fsmFlags.initialized = true)
    (hdone : (s.codeset c).fsmFlags.compandingDone = false) (hp : p ≠ .notNeeded)
    (hflags : (s.codeset c).fsmFlags.policy.Selects p) : s.scaleFsm c = .done (s.withScaled c p) := by
  rw [State.scaleFsm_of_unscaled hinit hdone, CompandFlags.policy_of_selects hflags]
  cases p with
  | notNeeded => exact absurd rfl hp
  | cubic => rfl
  | legacy => rfl

end Scale

/-- Settles O35: the table is not loaded, needs no scale, has flags that fail, or is scaled. -/
theorem scaleFsmResult : Obligations.ScaleFsmResult := by
  intro s cs c hc k flags n
  rw [exec_scaleFsm hc]
  refine ⟨fun hinit => ?_, fun hinit hskip => ?_, fun hinit hdone => ⟨fun hn hcubic => ?_, fun hn hcubic hmore => ?_,
    fun p hp hflags hlen => ?_⟩⟩
  · rw [State.scaleFsm_of_uninitialized hinit]
    rfl
  · rw [State.scaleFsm_of_nothingToScale ⟨hinit, hskip⟩]
    rfl
  · rw [State.scaleFsm_of_badFlags hinit hdone (CompandFlags.policy_of_both hn hcubic _)]
    rfl
  · rw [State.scaleFsm_of_badFlags hinit hdone (CompandFlags.policy_of_more hn hcubic hmore _)]
    rfl
  · rw [State.scaleFsm_of_selects hinit hdone hp hflags, State.withScaled, State.scaledCodeset, State.store_map_fsmList _ hlen,
      State.fsmList_eq_take hlen, FsmEntry.scaled_eq_law hp, FsmEntry.changes_eq_law hp]
    rfl

theorem CompandFlags.selects_of_policy {f : CompandFlags} {info : Word} {p : Policy} (h : f.policy info = .ok p) :
    f.Selects p := by
  unfold CompandFlags.policy at h
  split_ifs at h with hboth hnot hcubic hmore <;> obtain rfl := Except.ok.inj h
  · exact ⟨hnot, by simpa [hnot] using hboth⟩
  · exact ⟨Bool.eq_false_iff.2 hnot, hcubic⟩
  · exact ⟨Bool.eq_false_iff.2 hnot, Bool.eq_false_iff.2 hcubic, Bool.eq_false_iff.2 hmore⟩

/-- A `SCALE_FSM` that succeeds leaves nothing to scale: there was nothing before, or it has set `COMPANDING_DONE`. -/
theorem State.nothingToScale_of_scaleFsm {s t : State} {c : CsId} (h : s.scaleFsm c = .done t) :
    (t.codeset c).NothingToScale := by
  have hinit : (s.codeset c).fsmFlags.initialized = true := by
    by_contra hinit
    rw [State.scaleFsm_of_uninitialized (Bool.eq_false_iff.2 hinit)] at h
    cases h
  by_cases hskip : (s.codeset c).NothingToScale
  · rw [State.scaleFsm_of_nothingToScale hskip] at h
    obtain rfl := Body.done.inj h
    rwa [State.codeset_with_result0]
  · obtain ⟨hdone, hnot⟩ := not_or.1 fun hor => hskip ⟨hinit, hor⟩
    have hdone' : (s.codeset c).fsmFlags.compandingDone = false := Bool.eq_false_iff.2 hdone
    cases hp : (s.codeset c).fsmFlags.policy.policy (s.codeset c).fsmFlags.toWord with
    | error f =>
      rw [State.scaleFsm_of_badFlags hinit hdone' hp] at h
      cases h
    | ok p =>
      have hflags := CompandFlags.selects_of_policy hp
      rw [State.scaleFsm_of_selects hinit hdone' (by rintro rfl; exact hnot hflags) hflags] at h
      obtain rfl := Body.done.inj h
      rw [State.withScaled, State.codeset_with_result0, State.codeset_setCodeset_same]
      exact ⟨hinit, .inl rfl⟩

/-- Settles O36: the first command left nothing to scale. -/
theorem scaleFsmOnce : Obligations.ScaleFsmOnce := by
  intro s t cs herr h ht
  cases hc : CsId.ofField cs with
  | none =>
    have hexec : exec (.scaleFsm cs) s = .next (s.fail ⟨.badCodeset, s.cmd.toNat⟩) :=
      congrArg Host.Outcome.next (State.onCodeset_none hc s _)
    obtain rfl := Host.Outcome.next.inj (hexec.symm.trans h)
    cases ht
  | some c =>
    obtain rfl := Host.Outcome.next.inj ((exec_scaleFsm hc s).symm.trans h)
    rcases (State.Keeps.scaleFsm s c).failed_or_done herr with ⟨f, u, -, herr'⟩ | ⟨u, hdone, -, -⟩
    · rw [ht] at herr'
      cases herr'
    · have hnothing : (u.complete.codeset c).NothingToScale := by
        rw [State.complete_codeset]
        exact State.nothingToScale_of_scaleFsm hdone
      rw [hdone, Body.finish_done, exec_scaleFsm hc, State.scaleFsm_of_nothingToScale hnothing]
      rfl

/-! ### The band-end code (R212) -/

/-- The number of entries of the tag table. -/
def State.tagCount (s : State) (c : CsId) : Word := s.srcWord (s.codeset c).tagBase

/-- The code of the last entry of the tag table. -/
def State.tagCode (s : State) (c : CsId) : Word := s.srcWord ((s.codeset c).tagBase + (s.tagCount c - 1) * 2 + 1)

/-- The size of the last entry of the tag table. -/
def State.tagSize (s : State) (c : CsId) : Word := s.srcWord ((s.codeset c).tagBase + (s.tagCount c - 1) * 2 + 2)

/-- The last entry of the tag table is a code of 1 to 32 bits. -/
abbrev State.TagGood (s : State) (c : CsId) : Prop :=
  1 ≤ (s.tagSize c).toNat ∧ (s.tagSize c).toNat ≤ 32 ∧ (s.tagCode c).toNat < 2 ^ (s.tagSize c).toNat

/-- No band-end code is cached. -/
def State.withoutBandEnd (s : State) (c : CsId) : State := s.setValid c { (s.codeset c).valid with bandEnd := false }

/-- The code of the last tag entry is cached and reported. -/
def State.withBandEnd (s : State) (c : CsId) : State :=
  { s.setCodeset c { s.codeset c with
      bandEndCode := s.tagCode c, bandEndSize := s.tagSize c, valid := { (s.codeset c).valid with bandEnd := true } } with
    result0 := s.tagCode c
    result1 := s.tagSize c }

/-- Without a racing write the extraction fails for an empty tag table or a bad last entry, and else caches that entry. -/
theorem State.extractBandEnd_of_quiet {s : State} (hq : s.Quiet) (c : CsId) :
    s.extractBandEnd c =
      if s.tagCount c = 0 then .failed ⟨.invalidCodebook, 0⟩ (s.withoutBandEnd c)
      else if s.TagGood c then .done (s.withBandEnd c)
      else .failed ⟨.invalidCodebook, (s.tagCount c).toNat⟩ (s.withoutBandEnd c) := by
  have hq' : (s.withoutBandEnd c).Quiet := by simpa [State.withoutBandEnd, State.setValid_eq, State.Quiet] using hq
  have hread (site : Site) (a : Word) : (s.withoutBandEnd c).srcRead site a = s.srcWord a := by
    rw [State.srcRead_of_quiet hq']
    simp [State.srcWord, State.withoutBandEnd, State.setValid_eq]
  have hbase : ((s.withoutBandEnd c).codeset c).tagBase = (s.codeset c).tagBase := by
    rw [State.withoutBandEnd, State.setValid_eq, State.codeset_setCodeset_same]
  have hcount : s.srcWord (s.codeset c).tagBase = s.tagCount c := rfl
  have hcode : s.srcWord ((s.codeset c).tagBase + (s.tagCount c - 1) * 2 + 1) = s.tagCode c := rfl
  have hsize : s.srcWord ((s.codeset c).tagBase + (s.tagCount c - 1) * 2 + 2) = s.tagSize c := rfl
  rw [State.extractBandEnd, ← State.withoutBandEnd]
  simp only [hread, hbase, hcount, hcode, hsize, Bool.or_eq_true, decide_eq_true_eq]
  split_ifs
  · rfl
  · omega
  · rfl
  · cases c <;> rfl
  · omega

/-- Settles O38: the three ways the extraction ends. -/
theorem extractBandEndResult : Obligations.ExtractBandEndResult := by
  intro s cs c hc hq k n code size good started
  rw [exec_extractBandEnd hc, State.extractBandEnd_of_quiet hq]
  refine ⟨fun hcount hgood => ?_, fun hcount => ?_, fun hcount hbad => ?_⟩
  · rw [if_neg (show s.tagCount c ≠ 0 from hcount), if_pos (show s.TagGood c from hgood)]
    rfl
  · rw [if_pos (show s.tagCount c = 0 from hcount)]
    rfl
  · rw [if_neg (show s.tagCount c ≠ 0 from hcount), if_neg (show ¬ s.TagGood c from hbad)]
    rfl

/-! ### `INIT_DECODER_FSM` as its three bodies (R213, R214) -/

/-- A body ends alike whether the one before it ended in a completion or went on in the same command. -/
def IgnoresCompletion (k : State → Body) : Prop :=
  ∀ u : State, u.Quiet → u.status.err = false → (k u.complete).finish = (k u).finish

/-- A sequence of bodies ends as its second part does, run after the completion of the first, unless the first fails. -/
theorem Body.Sound.finish_andThen {s : State} {b : Body} {k : State → Body} (hb : b.Sound s) (hq : s.Quiet)
    (herr : s.status.err = false) (hk : IgnoresCompletion k) :
    (b.andThen k).finish = if b.finish.status.err then b.finish else (k b.finish).finish := by
  rcases hb.failed_or_done herr with ⟨f, u, rfl, herr'⟩ | ⟨u, rfl, hu, herr'⟩
  · rw [if_pos herr']
    rfl
  · rw [if_neg (Bool.eq_false_iff.1 herr'), Body.done_andThen, Body.finish_done, hk u ((State.quiet_of_kept hu).2 hq) herr']

theorem IgnoresCompletion.andThen {j k : State → Body} (hsound : ∀ u, (j u).Sound u) (hj : IgnoresCompletion j)
    (hk : IgnoresCompletion k) : IgnoresCompletion fun u => (j u).andThen k := by
  intro u hq herr
  rw [(hsound u).finish_andThen hq herr hk, (hsound u.complete).finish_andThen ⟨rfl, rfl⟩ herr hk, hj u hq herr]

theorem State.fsmList_complete (s : State) (c : CsId) : s.complete.fsmList c = s.fsmList c := by cases c <;> rfl

theorem State.scaleFsm_ignoresCompletion (c : CsId) : IgnoresCompletion fun s => s.scaleFsm c := by
  intro s _ _
  simp only [State.scaleFsm, State.complete_codeset, State.fsmList_complete]
  split
  · rfl
  · split
    · rfl
    · split
      · rfl
      · rfl
      · cases c <;> rfl

theorem State.extractBandEnd_ignoresCompletion (c : CsId) : IgnoresCompletion fun s => s.extractBandEnd c := by
  intro s hq _
  have hcount : s.complete.tagCount c = s.tagCount c := by cases c <;> rfl
  have hcode : s.complete.tagCode c = s.tagCode c := by cases c <;> rfl
  have hsize : s.complete.tagSize c = s.tagSize c := by cases c <;> rfl
  dsimp only
  rw [State.extractBandEnd_of_quiet hq, State.extractBandEnd_of_quiet (s := s.complete) ⟨rfl, rfl⟩]
  simp only [State.TagGood, hcount, hcode, hsize]
  split_ifs <;> cases c <;> rfl

/-- What `INIT_DECODER_FSM` reports after its three bodies. -/
def State.reportFsm (s : State) (c : CsId) : State :=
  { s with result0 := (s.codeset c).fsmNumStates, result1 := (s.codeset c).bandEndSize }

theorem State.reportFsm_ignoresCompletion (c : CsId) : IgnoresCompletion fun s => .done (s.reportFsm c) := by
  intro s _ _
  cases c <;> rfl

theorem State.initDecoderFsm_eq (s : State) (c : CsId) :
    s.initDecoderFsm c = (s.loadFsm c).andThen fun u => (u.scaleFsm c).andThen fun v =>
      (v.extractBandEnd c).andThen fun w => .done (w.reportFsm c) := rfl

theorem Body.quiet_finish (b : Body) : b.finish.Quiet := by cases b <;> exact ⟨rfl, rfl⟩

/-- Settles O39: each body of the composite ends as the single command does after the completion of the one before it. -/
theorem initDecoderFsmIsTheThreeSteps : Obligations.InitDecoderFsmIsTheThreeSteps := by
  intro s t1 t2 t3 cs c hc hq herr h1 h2 h3
  have ht1 : (s.loadFsm c).finish = t1 := Host.Outcome.next.inj ((exec_loadFsm hc s).symm.trans h1)
  have ht2 : (t1.scaleFsm c).finish = t2 := Host.Outcome.next.inj ((exec_scaleFsm hc t1).symm.trans h2)
  have ht3 : (t2.extractBandEnd c).finish = t3 := Host.Outcome.next.inj ((exec_extractBandEnd hc t2).symm.trans h3)
  have hq1 : t1.Quiet := ht1 ▸ Body.quiet_finish _
  have hq2 : t2.Quiet := ht2 ▸ Body.quiet_finish _
  have hreport := State.reportFsm_ignoresCompletion c
  have hextract := (State.extractBandEnd_ignoresCompletion c).andThen (State.Keeps.extractBandEnd · c) hreport
  have hscale := (State.scaleFsm_ignoresCompletion c).andThen (State.Keeps.scaleFsm · c) hextract
  have hload := (State.Keeps.loadFsm s c).finish_andThen hq herr hscale
  have hthen1 (herr1 : t1.status.err = false) := (State.Keeps.scaleFsm t1 c).finish_andThen hq1 herr1 hextract
  have hthen2 (herr2 : t2.status.err = false) := (State.Keeps.extractBandEnd t2 c).finish_andThen hq2 herr2 hreport
  rw [ht1] at hload
  rw [ht2] at hthen1
  rw [ht3] at hthen2
  rw [exec_initDecoderFsm hc, State.initDecoderFsm_eq, hload]
  refine ⟨fun herr1 => ?_, fun herr1 herr2 => ?_, fun herr1 herr2 herr3 => ?_, fun herr1 herr2 herr3 => ?_⟩
  · rw [if_pos herr1]
  · rw [if_neg (Bool.eq_false_iff.1 herr1), hthen1 herr1, if_pos herr2]
  · rw [if_neg (Bool.eq_false_iff.1 herr1), hthen1 herr1, if_neg (Bool.eq_false_iff.1 herr2), hthen2 herr2, if_pos herr3]
  · rw [if_neg (Bool.eq_false_iff.1 herr1), hthen1 herr1, if_neg (Bool.eq_false_iff.1 herr2), hthen2 herr2,
      if_neg (Bool.eq_false_iff.1 herr3), ← ht3]
    cases t2.extractBandEnd c <;> rfl

/-! ### `INIT_DECODER_FSM` on static data that fits -/

section Kept
variable {s t : State} (hkept : t.kept = s.kept) (c : CsId)
include hkept

theorem State.srcWord_of_kept (a : Word) : t.srcWord a = s.srcWord a :=
  (congrArg (State.srcWord · a) hkept : t.kept.srcWord a = _)

theorem State.tagBase_of_kept : (t.codeset c).tagBase = (s.codeset c).tagBase :=
  (congrArg Codeset.tagBase (State.descriptors_of_kept hkept c) : (t.codeset c).descriptors.tagBase = _)

theorem State.tagCount_of_kept : t.tagCount c = s.tagCount c := by
  simp only [State.tagCount, State.srcWord_of_kept hkept, State.tagBase_of_kept hkept]

theorem State.tagCode_of_kept : t.tagCode c = s.tagCode c := by
  simp only [State.tagCode, State.tagCount_of_kept hkept, State.srcWord_of_kept hkept, State.tagBase_of_kept hkept]

theorem State.tagSize_of_kept : t.tagSize c = s.tagSize c := by
  simp only [State.tagSize, State.tagCount_of_kept hkept, State.srcWord_of_kept hkept, State.tagBase_of_kept hkept]

end Kept

/-- A table not yet scaled whose policy the block has is scaled, or kept where the policy asks for no scale. -/
theorem State.scaleFsm_codeset {s : State} {c : CsId} {p : Policy} (hinit : (s.codeset c).fsmFlags.initialized = true)
    (hdone : (s.codeset c).fsmFlags.compandingDone = false) (hflags : (s.codeset c).fsmFlags.policy.Selects p) :
    ∃ (t : State) (r : Ram FsmEntry), s.scaleFsm c = .done t ∧ (p = .notNeeded → r = (s.codeset c).fsm) ∧
      t.codeset c = { s.codeset c with
        fsm := r, fsmFlags := { (s.codeset c).fsmFlags with compandingDone := p ≠ .notNeeded } } := by
  by_cases hp : p = .notNeeded
  · subst hp
    refine ⟨_, (s.codeset c).fsm, State.scaleFsm_of_nothingToScale ⟨hinit, .inr hflags⟩, fun _ => rfl, ?_⟩
    rw [State.codeset_with_result0]
    simp [← hdone]
  · refine ⟨s.withScaled c p, (s.scaledCodeset c p).fsm, State.scaleFsm_of_selects hinit hdone hp hflags, (absurd · hp), ?_⟩
    rw [State.withScaled, State.codeset_with_result0, State.codeset_setCodeset_same, State.scaledCodeset]
    simp [hp]

theorem State.withLoaded_codeset (s : State) (c : CsId) : (s.withLoaded c).codeset c = s.loadedCodeset c := by
  rw [State.withLoaded, State.codeset_with_result0, State.codeset_setCodeset_same]

theorem State.withBandEnd_codeset (s : State) (c : CsId) : (s.withBandEnd c).codeset c = { s.codeset c with
    bandEndCode := s.tagCode c, bandEndSize := s.tagSize c, valid := { (s.codeset c).valid with bandEnd := true } } := by
  cases c <;> rfl

theorem State.reportFsm_codeset (s : State) (c : CsId) : (s.reportFsm c).codeset c = s.codeset c := by cases c <;> rfl

/-- Settles O40: each of the three bodies succeeds, and leaves its part of the codeset. -/
theorem initDecoderFsmCompletes : Obligations.InitDecoderFsmCompletes := by
  intro s cs c p hc hq herr k ns n code size hinit hcount hflags hpos hmax hfit hn hsize hsize' hcode
  have hload : s.loadFsm c = .done (s.withLoaded c) := by
    rw [State.loadFsm_of_unloaded hq ⟨hinit, hcount⟩, if_pos ⟨hpos, hmax, hfit⟩]
  have hku : (s.withLoaded c).kept = s.kept := (State.Keeps.loadFsm s c).kept_of_done hload
  have hcu := s.withLoaded_codeset c
  obtain ⟨v, r, hscale, hr, hcv⟩ := State.scaleFsm_codeset (s := s.withLoaded c) (c := c) (p := p)
    (by rw [hcu]; rfl) (by rw [hcu]; rfl) (by rw [hcu]; exact hflags)
  have hkv : v.kept = s.kept := ((State.Keeps.scaleFsm _ c).kept_of_done hscale).trans hku
  have hextract : v.extractBandEnd c = .done (v.withBandEnd c) := by
    have hgood : v.TagGood c := by
      simp only [State.TagGood, State.tagCode_of_kept hkv, State.tagSize_of_kept hkv]
      exact ⟨hsize, hsize', hcode⟩
    rw [State.extractBandEnd_of_quiet ((State.quiet_of_kept hkv).2 hq), State.tagCount_of_kept hkv,
      if_neg (show s.tagCount c ≠ 0 from hn), if_pos hgood]
  have hcw : (v.withBandEnd c).codeset c = { s.loadedCodeset c with
      fsm := r
      fsmFlags := ⟨k.csFlags, p ≠ .notNeeded, true⟩
      bandEndCode := code
      bandEndSize := size
      valid := { k.valid with bandEnd := true } } := by
    rw [State.withBandEnd_codeset, State.tagCode_of_kept hkv, State.tagSize_of_kept hkv, hcv, hcu]
    rfl
  have hct : ((v.withBandEnd c).reportFsm c).complete.codeset c = _ :=
    ((State.complete_codeset _ c).trans (State.reportFsm_codeset _ c)).trans hcw
  refine ⟨((v.withBandEnd c).reportFsm c).complete, ?_, ?_, congrArg Codeset.fsmNumStates hcw, congrArg Codeset.bandEndSize hcw,
    congrArg Codeset.fsmFlags hct, congrArg Codeset.fsmNumStates hct, congrArg Codeset.fsmState hct,
    congrArg Codeset.bandEndCode hct, congrArg Codeset.bandEndSize hct, congrArg Codeset.valid hct, fun hp e he => ?_⟩
  · rw [exec_initDecoderFsm hc, State.initDecoderFsm_eq, hload, Body.done_andThen, hscale, Body.done_andThen, hextract]
    rfl
  · have herrw : (v.withBandEnd c).status.err = v.status.err := by cases c <;> rfl
    exact herrw.trans ((congrArg (·.status.err) hkv : v.kept.status.err = s.kept.status.err).trans herr)
  · have hlen : e < ((List.range (ns.toNat * 2 ^ s.params.indexSize)).map (s.fsmArrayEntry c)).length := by simpa using he
    have hentry := (s.codeset c).fsm.store_entry_of_lt _ (freeFsm c e) hlen
    rw [State.fsmAt, hct, hr hp, hcu]
    exact hentry.trans (by simp)

/-! ### Release (R217, R218) -/

theorem Codeset.freed_of_empty {k : Codeset} (h : k.Empty) : k.freed = k := by
  cases k
  obtain ⟨rfl, rfl, rfl, rfl, rfl, rfl, hnew, hfast, hvalues, hfsm⟩ := h
  simp only [Codeset.freed, Ram.forget_of_empty _ hnew, Ram.forget_of_empty _ hfast, Ram.forget_of_empty _ hvalues,
    Ram.forget_of_empty _ hfsm]

theorem TableValid.toWord_reset : TableValid.reset.toWord = 0 := by decide

theorem FsmFlags.toWord_reset : FsmFlags.reset.toWord = 0 := by decide

/-- Settles O41: what is forgotten reads as before where it held nothing, and of an empty codeset nothing is forgotten. -/
theorem freeCodebooksResult : Obligations.FreeCodebooksResult := by
  intro s cs c hc
  rw [exec_freeCodebooks hc]
  refine ⟨⟨(s.codeset c).freed, rfl, rfl, TableValid.toWord_reset, FsmFlags.toWord_reset, rfl, rfl, rfl, rfl, fun i => ?_,
    fun i => ?_, fun i => ?_, fun i => ?_⟩, fun hempty => ?_⟩
  · exact (s.codeset c).newcodes.forget_entry_of_ge _
  · exact (s.codeset c).fastbook.forget_entry_of_ge _
  · exact (s.codeset c).valuebook.forget_entry_of_ge _
  · exact (s.codeset c).fsm.forget_entry_of_ge _
  · rw [Codeset.freed_of_empty hempty, State.setCodeset_codeset]

end Sys2Proof.Machine
end

section
/-!
SUPPORT. The bit-shift unit (spec/42_bitstream.md): a peek reads the bitstream (R231, R233), what `BS_PEEK`, `BS_GET` and `BS_SKIP`
do (R234 to R236), and which commands move `BS_POS`, how far (R232, spec/10_state.md R42).
-/

namespace Sys2Proof.Machine

/-! ### Peeks -/

theorem State.bitAt_of_quiet {s : State} (hq : s.Quiet) (site : Site) (p : Nat) : s.bitAt site p = s.streamBit p := by
  by_cases hp : s.bsLen.toNat ≤ p
  · simp [State.bitAt, State.streamBit, hp]
  · simp [State.bitAt, State.streamBit, hp, State.bsReadByte_of_quiet hq, Nat.not_le.1 hp]

theorem State.peek_of_quiet {s : State} (hq : s.Quiet) (site : Site) (n : Nat) :
    s.peek site n = s.streamBits s.bsPos.toNat n := by
  induction n with
  | zero => rfl
  | succ n ih => rw [State.peek_succ, State.streamBits, ih, State.bitAt_of_quiet hq]

/-- Settles O14: bit by bit, by the number of bits peeked. -/
theorem peekReadsTheStream : Obligations.PeekReadsTheStream := fun s hq site n =>
  ⟨State.bitAt_of_quiet hq site n, State.peek_of_quiet hq site n, s.peek_lt site n⟩

/-! ### `BS_PEEK`, `BS_GET` and `BS_SKIP` -/

theorem State.consume_of_le {s : State} {n : Nat} (h : s.bsPos.toNat + n ≤ s.bsLen.toNat) :
    s.consume n = .ok { s with bsPos := s.bsPos + BitVec.ofNat 32 n } :=
  (s.consume_ok_iff _ n).2 ⟨h, rfl⟩

theorem State.consume_of_lt {s : State} {n : Nat} (h : s.bsLen.toNat < s.bsPos.toNat + n) :
    s.consume n = .error ⟨.bitstreamUnderrun, n⟩ :=
  (s.consume_error_iff _ n).2 ⟨h, rfl⟩

theorem exec_bsPeek (n : BitVec 24) (s : State) : exec (.bsPeek n) s = .next (s.bsPeek n.toNat).finish := rfl

theorem exec_bsGet (n : BitVec 24) (s : State) : exec (.bsGet n) s = .next (s.bsGet n.toNat).finish := rfl

theorem exec_bsSkip (n : BitVec 24) (s : State) : exec (.bsSkip n) s = .next (s.bsSkip n.toNat).finish := rfl

/-- Settles O15: the operand is in range or not. -/
theorem bsPeekResult : Obligations.BsPeekResult := by
  intro s n hq
  rw [exec_bsPeek, State.bsPeek, State.peek_of_quiet hq]
  refine ⟨fun hn => ?_, fun hn => ?_⟩
  · rw [if_neg (by omega), Body.finish_done]
  · rw [if_pos hn, Body.finish_failed]

/-- Settles O16: `Consume` succeeds or fails as bits remain or not, and `BS_GET` looks at its operand before that. -/
theorem bsGetAndSkipResult : Obligations.BsGetAndSkipResult := by
  intro s n hq
  rw [exec_bsGet, exec_bsSkip, State.bsGet, State.bsSkip, State.peek_of_quiet hq]
  refine ⟨fun hn hle => ?_, fun hn => ?_, fun hn hlt => ?_, fun hle => ?_, fun hlt => ?_⟩
  · rw [if_neg (by omega), State.consume_of_le hle, BitVec.ofNat_toNat]
    rfl
  · rw [if_pos hn, Body.finish_failed]
  · rw [if_neg (by omega), State.consume_of_lt hlt]
    rfl
  · rw [State.consume_of_le hle, BitVec.ofNat_toNat]
    rfl
  · rw [State.consume_of_lt hlt]
    rfl

/-! ### The commands that consume no bits -/

theorem Body.finish_bsPos (b : Body) : b.finish.bsPos = b.state.bsPos := by cases b <;> rfl

theorem Body.andThen_bsPos {s : State} {b : Body} {k : State → Body} (h : b.state.bsPos = s.bsPos)
    (hk : ∀ t, (k t).state.bsPos = t.bsPos) : (b.andThen k).state.bsPos = s.bsPos := by
  cases b with
  | done t => exact (hk t).trans h
  | failed f t => exact h

/-- A command with a codeset field leaves the position where its bodies do; for codeset 3 it fails. -/
theorem State.onCodeset_bsPos {s : State} {cs : BitVec 2} {b : CsId → Body} (h : ∀ c, (b c).state.bsPos = s.bsPos) :
    (s.onCodeset cs fun c => (b c).finish).bsPos = s.bsPos := by
  rcases s.onCodeset_cases cs fun c => (b c).finish with ⟨hfail, -⟩ | ⟨c, -, hk⟩
  · rw [hfail, State.fail_bsPos]
  · rw [hk, Body.finish_bsPos, h]

namespace State
variable (s : State) (c : CsId)

@[simp] theorem startRunLength_bsPos : (s.startRunLength c).bsPos = s.bsPos := s.setCodeset_bsPos c _

@[simp] theorem startFill_bsPos : (s.startFill c).bsPos = s.bsPos := s.setCodeset_bsPos c _

@[simp] theorem startValues_bsPos : (s.startValues c).bsPos = s.bsPos := s.setCodeset_bsPos c _

theorem sortRunLength_bsPos : (s.sortRunLength c).state.bsPos = s.bsPos := by
  rcases s.sortRunLength_cases c with ⟨f, hfail, -⟩ | ⟨-, -, -, -, hdone⟩
  · simp [hfail]
  · simp [hdone]

theorem buildRunLength_bsPos : (s.buildRunLength c).state.bsPos = s.bsPos := by
  rcases s.buildRunLength_cases c with ⟨f, hfail, -⟩ | ⟨t, hsort, hdone⟩
  · simp [hfail]
  · have ht : t.bsPos = s.bsPos := by simpa [hsort] using sortRunLength_bsPos (s.startRunLength c) c
    simp [hdone, ht]

theorem finishFill_bsPos (legacy : Bool) (filled : List FastEntry × Option Nat) :
    (s.finishFill c legacy filled).state.bsPos = s.bsPos := by
  rcases s.finishFill_cases c legacy filled.1 filled.2 with ⟨idx, -, hfail⟩ | ⟨-, hdone⟩
  · simp [hfail]
  · simp [hdone]

theorem fillScanLut_bsPos : (s.fillScanLut c).state.bsPos = s.bsPos := by
  rcases s.fillScanLut_cases c with ⟨f, hfail, -⟩ | ⟨-, hfill⟩
  · simp [hfail]
  · rw [hfill, finishFill_bsPos, startFill_bsPos]

theorem fillCodeLut_bsPos : (s.fillCodeLut c).state.bsPos = s.bsPos := by
  rcases s.fillCodeLut_cases c with ⟨f, hfail, -⟩ | ⟨-, hfill⟩
  · simp [hfail]
  · rw [hfill, finishFill_bsPos, startFill_bsPos]

theorem fillVlcTable_bsPos : (s.fillVlcTable c).state.bsPos = s.bsPos := by
  rcases s.fillVlcTable_cases c with ⟨f, hfail, -⟩ | ⟨p, -, -, hdone⟩
  · simp [hfail]
  · rw [hdone]
    split <;> simp

theorem initLookup_bsPos : (s.initLookup c).state.bsPos = s.bsPos :=
  Body.andThen_bsPos (s.buildRunLength_bsPos c) fun t => by
    split
    · exact t.fillCodeLut_bsPos c
    · exact t.fillScanLut_bsPos c

theorem initValues_bsPos : (s.initValues c).state.bsPos = s.bsPos :=
  Body.andThen_bsPos (s.fillVlcTable_bsPos c) fun t => t.setCodeset_bsPos c _

theorem initCodebooks_bsPos : (s.initCodebooks c).state.bsPos = s.bsPos := by
  unfold State.initCodebooks
  split
  · rfl
  · exact Body.andThen_bsPos (s.initLookup_bsPos c) fun t => t.initValues_bsPos c

theorem matchCommand_bsPos (width : Nat) : (s.matchCommand c width).state.bsPos = s.bsPos := by
  rcases s.matchCommand_cases c width with ⟨f, hfail, -⟩ | ⟨-, -, -, ⟨m, -, hdone⟩ | ⟨-, hdone⟩⟩
  · simp [hfail]
  · simp [hdone]
  · simp [hdone]

theorem loadFsm_bsPos : (s.loadFsm c).state.bsPos = s.bsPos := by
  rcases s.loadFsm_cases c with ⟨-, hskip⟩ | ⟨-, ⟨-, hfail⟩ | ⟨-, hdone⟩⟩
  · simp [hskip]
  · simp [hfail]
  · simp [hdone]

theorem scaleFsm_bsPos : (s.scaleFsm c).state.bsPos = s.bsPos := by
  rcases s.scaleFsm_cases c with ⟨f, hfail, -⟩ | ⟨-, hskip | ⟨-, p, -, -, hdone⟩⟩
  · simp [hfail]
  · simp [hskip]
  · simp [hdone]

theorem extractBandEnd_bsPos : (s.extractBandEnd c).state.bsPos = s.bsPos := by
  rcases s.extractBandEnd_cases c with ⟨f, hfail, -⟩ | ⟨-, -, -, -, hdone⟩
  · simp [hfail, State.setValid]
  · simp [hdone, State.setValid]

theorem initDecoderFsm_bsPos : (s.initDecoderFsm c).state.bsPos = s.bsPos :=
  Body.andThen_bsPos (s.loadFsm_bsPos c) fun t => Body.andThen_bsPos (t.scaleFsm_bsPos c) fun u =>
    Body.andThen_bsPos (u.extractBandEnd_bsPos c) fun _ => rfl

theorem fsmSetState_bsPos (n : Nat) : (s.fsmSetState c n).state.bsPos = s.bsPos := by
  unfold State.fsmSetState
  dsimp only
  split
  · rfl
  · split
    · rfl
    · exact s.setCodeset_bsPos c _

theorem bsPeek_bsPos (n : Nat) : (s.bsPeek n).state.bsPos = s.bsPos := by
  unfold State.bsPeek
  split <;> rfl

end State

/-- Every command but the six that consume bits leaves the position. -/
theorem exec_bsPos {i : Instr} {s t : State} (h : exec i s = .next t)
    (hi : ∀ cs n, i ≠ .bsGet n ∧ i ≠ .bsSkip n ∧ i ≠ .vlcDecode cs ∧ i ≠ .vlcRun cs n ∧ i ≠ .fsmStep cs ∧ i ≠ .fsmRun cs n) :
    t.bsPos = s.bsPos := by
  cases i <;> obtain rfl := Host.Outcome.next.inj h
  case nop => rfl
  case initCodebooks => exact State.onCodeset_bsPos s.initCodebooks_bsPos
  case sortRunlength => exact State.onCodeset_bsPos s.sortRunLength_bsPos
  case buildRunlength => exact State.onCodeset_bsPos s.buildRunLength_bsPos
  case fillScanLut => exact State.onCodeset_bsPos s.fillScanLut_bsPos
  case fillCodeLut => exact State.onCodeset_bsPos s.fillCodeLut_bsPos
  case buildCubic => exact (Body.finish_bsPos (.done s.buildCubic)).trans s.buildCubic_bsPos
  case fillVlcTable => exact State.onCodeset_bsPos s.fillVlcTable_bsPos
  case loadFsm => exact State.onCodeset_bsPos s.loadFsm_bsPos
  case scaleFsm => exact State.onCodeset_bsPos s.scaleFsm_bsPos
  case extractBandEnd => exact State.onCodeset_bsPos s.extractBandEnd_bsPos
  case initDecoderFsm => exact State.onCodeset_bsPos s.initDecoderFsm_bsPos
  case freeCodebooks => exact State.onCodeset_bsPos (b := fun c => .done _) fun c => s.setCodeset_bsPos c _
  case matchPattern imm => exact State.onCodeset_bsPos fun c => s.matchCommand_bsPos c imm.toNat
  case bsPeek imm => exact (Body.finish_bsPos _).trans (s.bsPeek_bsPos imm.toNat)
  case fsmSetState imm => exact State.onCodeset_bsPos fun c => s.fsmSetState_bsPos c imm.toNat
  case bsGet imm => simpa using hi 0 imm
  case bsSkip imm => simpa using hi 0 imm
  case vlcDecode cs => simpa using hi cs 0
  case vlcRun cs imm => simpa using hi cs imm
  case fsmStep cs => simpa using hi cs 0
  case fsmRun cs imm => simpa using hi cs imm

/-! ### The commands that consume bits -/

/-- From `s` to `t` the bitstream kept its length, and `BS_POS` stayed or moved forward within it. -/
structure State.Advances (s t : State) : Prop where
  bsLen : t.bsLen = s.bsLen
  bsPos : t.bsPos = s.bsPos ∨ s.bsPos.toNat ≤ t.bsPos.toNat ∧ t.bsPos.toNat ≤ s.bsLen.toNat

namespace State.Advances

variable {s t u : State} {c : CsId}

theorem refl (s : State) : s.Advances s := ⟨rfl, .inl rfl⟩

theorem trans (h : s.Advances t) (h' : t.Advances u) : s.Advances u where
  bsLen := h'.bsLen.trans h.bsLen
  bsPos := by
    rcases h.bsPos with hst | ⟨hst, -⟩
    · rw [← hst, ← h.bsLen]
      exact h'.bsPos
    · rcases h'.bsPos with htu | ⟨htu, hlen⟩
      · rw [htu]
        exact h.bsPos
      · exact .inr ⟨hst.trans htu, h.bsLen ▸ hlen⟩

/-- Whatever else changes does not count. -/
theorem congr (h : s.Advances t) (hlen : u.bsLen = t.bsLen := by rfl) (hpos : u.bsPos = t.bsPos := by rfl) : s.Advances u :=
  h.trans ⟨hlen, .inl hpos⟩

/-- The body's completion or failure moves nothing. -/
theorem finish {b : Body} (h : s.Advances b.state) : s.Advances b.finish :=
  h.congr (by cases b <;> rfl) b.finish_bsPos

theorem onCodeset {cs : BitVec 2} {b : CsId → Body} (h : ∀ c, s.Advances (b c).state) :
    s.Advances (s.onCodeset cs fun c => (b c).finish) := by
  rcases s.onCodeset_cases cs fun c => (b c).finish with ⟨hfail, -⟩ | ⟨c, -, hk⟩
  · rw [hfail]
    exact (refl s).congr
  · rw [hk]
    exact (h c).finish

theorem consume {n : Nat} (h : s.consume n = .ok t) : s.Advances t := by
  have hpos := State.consume_bsPos h
  obtain ⟨hle, rfl⟩ := (s.consume_ok_iff t n).1 h
  exact ⟨rfl, .inr ⟨by omega, by omega⟩⟩

theorem bsGet (s : State) (n : Nat) : s.Advances (s.bsGet n).state := by
  unfold State.bsGet
  split
  · exact refl s
  · split
    · exact refl s
    · rename_i t hok
      exact (consume hok).congr

theorem bsSkip (s : State) (n : Nat) : s.Advances (s.bsSkip n).state := by
  unfold State.bsSkip
  split
  · exact refl s
  · rename_i t hok
    exact consume hok

theorem bandEndCheck {site : Site} (h : s.bandEndCheck c site = some t) : s.Advances t := by
  rcases s.bandEndCheck_cases c site with hnone | ⟨-, -, hle, -, hsome⟩
  · rw [hnone] at h
    cases h
  · obtain rfl := Option.some.inj (hsome.symm.trans h)
    exact (consume (State.consume_of_le hle)).congr rfl (by simp)

theorem vlcStep {site : Site} {r : VlcStep} (h : s.vlcStep c site = .ok (r, t)) : s.Advances t := by
  rcases s.vlcStep_cases c site with ⟨f, hfail, -⟩ | ⟨u, hband, hok⟩ | ⟨r', n, -, -, hle, hok⟩
  · rw [hfail] at h
    cases h
  · rw [hok] at h
    cases h
    exact bandEndCheck hband
  · rw [hok] at h
    cases h
    exact consume (State.consume_of_le hle)

theorem fsmStep {site : Site} {e : Option FsmEntry} (h : s.fsmStep c site = .ok (e, t)) : s.Advances t := by
  rcases s.fsmStep_cases c site with ⟨f, hfail, -⟩ | ⟨u, hband, hok⟩ | ⟨e', -, -, -, hle, hok⟩
  · rw [hfail] at h
    cases h
  · rw [hok] at h
    cases h
    exact bandEndCheck hband
  · rw [hok] at h
    cases h
    exact (consume (State.consume_of_le hle)).congr (by simp) (by simp)

theorem vlcDecode (s : State) (c : CsId) : s.Advances (s.vlcDecode c).state := by
  unfold State.vlcDecode
  split
  · exact refl s
  · split
    · exact refl s
    · rename_i r t hstep
      exact (vlcStep hstep).congr

theorem fsmStepCommand (s : State) (c : CsId) : s.Advances (s.fsmStepCommand c).state := by
  unfold State.fsmStepCommand
  split
  · exact refl s
  · split
    · exact refl s
    · rename_i t hstep
      exact (fsmStep hstep).congr
    · rename_i e t hstep
      exact (fsmStep hstep).congr

theorem vlcRunStep {k : Nat} {o : Option (Word × Word)} (h : vlcRunStep c k s = .ok (o, t)) : s.Advances t := by
  unfold Machine.vlcRunStep at h
  split at h
  · cases h
  · rename_i r u hstep
    split at h
    · cases h
      exact vlcStep hstep
    · cases h
      exact vlcStep hstep

theorem fsmRunStep {k : Nat} {o : Option (Word × Word)} (h : fsmRunStep c k s = .ok (o, t)) : s.Advances t := by
  unfold Machine.fsmRunStep at h
  split at h
  · cases h
  · rename_i u hstep
    cases h
    exact fsmStep hstep
  · rename_i e u hstep
    cases h
    exact fsmStep hstep

/-- A run advances where its steps do: a record written between them moves only the output. -/
theorem runLoop {f : Nat → State → RunStep} (hf : ∀ {k u v o}, f k u = .ok (o, v) → u.Advances v) (left steps : Nat)
    (s : State) : s.Advances (runLoop f left steps s).state :=
  runLoop_induct (P := s.Advances) (fun _ h => h) (fun _ h => h.congr) (fun _ _ _ h hband => (h.trans (hf hband)).congr)
    (fun _ _ _ _ _ h hrecord => (h.trans (hf hrecord)).congr) left steps s (refl s)

theorem vlcRun (s : State) (c : CsId) (n : Nat) : s.Advances (s.vlcRun c n).state := by
  unfold State.vlcRun
  split
  · exact refl s
  · exact (refl s).congr.trans (runLoop vlcRunStep n 0 { s with result0 := 0, result1 := 0 })

theorem fsmRun (s : State) (c : CsId) (n : Nat) : s.Advances (s.fsmRun c n).state := by
  unfold State.fsmRun
  split
  · exact refl s
  · exact (refl s).congr.trans (runLoop fsmRunStep n 0 { s with result0 := 0, result1 := 0 })

end State.Advances

open State in
/-- Every command leaves the position or moves it forward, to at most the length. -/
theorem exec_advances {i : Instr} {s t : State} (h : exec i s = .next t) : s.Advances t := by
  have hlen : t.bsLen = s.bsLen := (congrArg State.bsLen (exec_frame h) : t.frame.bsLen = s.frame.bsLen)
  cases i
  case bsGet imm => exact Host.Outcome.next.inj h ▸ (Advances.bsGet s imm.toNat).finish
  case bsSkip imm => exact Host.Outcome.next.inj h ▸ (Advances.bsSkip s imm.toNat).finish
  case vlcDecode cs => exact Host.Outcome.next.inj h ▸ Advances.onCodeset (Advances.vlcDecode s)
  case vlcRun cs imm => exact Host.Outcome.next.inj h ▸ Advances.onCodeset fun c => Advances.vlcRun s c imm.toNat
  case fsmStep cs => exact Host.Outcome.next.inj h ▸ Advances.onCodeset (Advances.fsmStepCommand s)
  case fsmRun cs imm => exact Host.Outcome.next.inj h ▸ Advances.onCodeset fun c => Advances.fsmRun s c imm.toNat
  all_goals exact ⟨hlen, .inl (exec_bsPos h (by simp))⟩

/-- Settles O13: a command that consumes bits does so by `Consume`, which does not pass the length, or as the band-end code is
consumed, where its bits remain; the others leave the position. -/
theorem positionMovesOnlyByConsume : Obligations.PositionMovesOnlyByConsume := fun _ _ _ h =>
  ⟨(exec_advances h).bsPos, exec_bsPos h⟩

end Sys2Proof.Machine
end

section
/-!
SUPPORT. The decode steps (spec/43_decode.md R250 to R254, R270) with no racing write: what a step answers depends on the bitstream,
the tables and the static data alone, and what it changes follows from its answer. The single-step commands (R255, R265, R271) report
that answer.
-/

namespace Sys2Proof.Machine

/-! ### The commands on the codeset they name -/

section Commands
variable {cs : BitVec 2} {c : CsId} (hc : CsId.ofField cs = some c) (s : State)
include hc

theorem exec_vlcDecode : exec (.vlcDecode cs) s = .next (s.vlcDecode c).finish := congrArg _ (State.onCodeset_some hc s _)

theorem exec_vlcRun (n : BitVec 24) : exec (.vlcRun cs n) s = .next (s.vlcRun c n.toNat).finish :=
  congrArg _ (State.onCodeset_some hc s _)

theorem exec_fsmSetState (n : BitVec 24) : exec (.fsmSetState cs n) s = .next (s.fsmSetState c n.toNat).finish :=
  congrArg _ (State.onCodeset_some hc s _)

theorem exec_fsmStep : exec (.fsmStep cs) s = .next (s.fsmStepCommand c).finish := congrArg _ (State.onCodeset_some hc s _)

theorem exec_fsmRun (n : BitVec 24) : exec (.fsmRun cs n) s = .next (s.fsmRun c n.toNat).finish :=
  congrArg _ (State.onCodeset_some hc s _)

end Commands

/-! ### Answers of a step -/

/-- The answer `a` of a step that consumes `n` bits, or an underrun where they do not remain (R232). -/
def State.afterBits {α : Type} (s : State) (n : Nat) (a : α) : Except Failure α :=
  if s.bsPos.toNat + n ≤ s.bsLen.toNat then .ok a else .error ⟨.bitstreamUnderrun, n⟩

/-- The state after the band-end code was consumed (R252). -/
def State.pastBandEnd (s : State) (c : CsId) : State :=
  { s with bsPos := s.bsPos + (s.codeset c).bandEndSize, status := { s.status with bandEnd := true } }

/-- What `Match` finds at `BS_POS` in the book the table was built from (R254). -/
def State.slowHit (s : State) (c : CsId) : Option MatchHit :=
  matchPattern s.params (s.streamBits s.bsPos.toNat 32) 32
    (fun _ => if (s.codeset c).valid.fastbookLegacy then s.rleEntry c else s.rlvEntry c)
    (if (s.codeset c).valid.fastbookLegacy then (s.codeset c).rlcLen.toNat else (s.codeset c).rlvLen.toNat) []

/-- The fast lookup entry of the next 12 bits (R253). -/
def State.nextFast (s : State) (c : CsId) : FastEntry := s.fastbookAt c (s.streamBits s.bsPos.toNat 12)

/-- The answer of `VlcStep` (R253). -/
def State.vlcAnswer (s : State) (c : CsId) : Except Failure VlcStep :=
  let e := s.nextFast c
  if s.BandEndAhead c then .ok ⟨.bandEnd, 0, 0, (s.codeset c).bandEndSize⟩
  else
    match e.kind with
    | .complete => s.afterBits e.shift.toNat ⟨.fast, e.count, e.value, e.shift.setWidth 32⟩
    | .marker =>
      (s.slowHit c).elim (.error ⟨.decodeError, s.bsPos.toNat⟩) fun m =>
        s.afterBits m.shift ⟨.slow, BitVec.ofNat 32 m.count, BitVec.ofInt 32 m.value, BitVec.ofNat 32 m.shift⟩
    | .unmatched => .error ⟨.decodeError, s.bsPos.toNat⟩

/-- The state after `VlcStep` answered `r`. -/
def State.afterVlc (s : State) (r : VlcStep) : State :=
  { s with
    bsPos := s.bsPos + r.shift
    status := match r.kind with
      | .bandEnd => { s.status with bandEnd := true }
      | _ => s.status }

/-- Where the next FSM entry stands (R270). -/
def State.fsmPlace (s : State) (c : CsId) : Nat :=
  (s.codeset c).fsmState.toNat * 2 ^ s.params.indexSize + s.streamBits s.bsPos.toNat s.params.indexSize

/-- How many bits an FSM entry consumes (R270). -/
def FsmEntry.skips (e : FsmEntry) : Nat := e.preSkip.toNat + e.postSkip.toNat

/-- The answer of `FsmStep` (R270). -/
def State.fsmAnswer (s : State) (c : CsId) : Except Failure (Option FsmEntry) :=
  let e := s.fsmAt c (s.fsmPlace c)
  if s.BandEndAhead c then .ok none
  else if (s.codeset c).fsmNumStates.toNat ≤ e.nextState.toNat then .error ⟨.decodeError, s.fsmPlace c⟩
  else s.afterBits e.skips (some e)

/-- The state in which a step has moved the position and the FSM state of codeset `c`. -/
def State.moved (s : State) (c : CsId) (p : Word) (x : BitVec 16) : State :=
  ({ s with bsPos := p }).setCodeset c { s.codeset c with fsmState := x }

/-- The state after `FsmStep` answered `o`. -/
def State.afterFsm (s : State) (c : CsId) : Option FsmEntry → State
  | none => s.pastBandEnd c
  | some e => s.moved c (s.bsPos + BitVec.ofNat 32 e.skips) e.nextState

section Answers
variable {s : State} {c : CsId}

theorem State.afterBits_of_le {α : Type} {n : Nat} (h : s.bsPos.toNat + n ≤ s.bsLen.toNat) (a : α) :
    s.afterBits n a = .ok a := if_pos h

theorem State.afterBits_of_lt {α : Type} {n : Nat} (h : s.bsLen.toNat < s.bsPos.toNat + n) (a : α) :
    s.afterBits n a = .error ⟨.bitstreamUnderrun, n⟩ := if_neg (Nat.not_le.2 h)

theorem State.afterBits_eq_ok_iff {α : Type} {n : Nat} {a r : α} :
    s.afterBits n a = .ok r ↔ s.bsPos.toNat + n ≤ s.bsLen.toNat ∧ a = r := by
  unfold State.afterBits
  split <;> simp [*]

/-! The answer of `VlcStep` in each of its cases. -/

theorem State.vlcAnswer_of_bandEnd (h : s.BandEndAhead c) :
    s.vlcAnswer c = .ok ⟨.bandEnd, 0, 0, (s.codeset c).bandEndSize⟩ := if_pos h

theorem State.vlcAnswer_of_complete (h : ¬ s.BandEndAhead c) (hkind : (s.nextFast c).kind = .complete) :
    s.vlcAnswer c = s.afterBits (s.nextFast c).shift.toNat
      ⟨.fast, (s.nextFast c).count, (s.nextFast c).value, (s.nextFast c).shift.setWidth 32⟩ := by
  simp only [vlcAnswer, if_neg h, hkind]

theorem State.vlcAnswer_of_marker (h : ¬ s.BandEndAhead c) (hkind : (s.nextFast c).kind = .marker) :
    s.vlcAnswer c = (s.slowHit c).elim (.error ⟨.decodeError, s.bsPos.toNat⟩) fun m =>
      s.afterBits m.shift ⟨.slow, BitVec.ofNat 32 m.count, BitVec.ofInt 32 m.value, BitVec.ofNat 32 m.shift⟩ := by
  simp only [vlcAnswer, if_neg h, hkind]

theorem State.vlcAnswer_of_unmatched (h : ¬ s.BandEndAhead c) (hkind : (s.nextFast c).kind = .unmatched) :
    s.vlcAnswer c = .error ⟨.decodeError, s.bsPos.toNat⟩ := by
  simp only [vlcAnswer, if_neg h, hkind]

/-! The answer of `FsmStep` in each of its cases. -/

theorem State.fsmAnswer_of_bandEnd (h : s.BandEndAhead c) : s.fsmAnswer c = .ok none := if_pos h

theorem State.fsmAnswer_of_lost (h : ¬ s.BandEndAhead c)
    (hlost : (s.codeset c).fsmNumStates.toNat ≤ (s.fsmAt c (s.fsmPlace c)).nextState.toNat) :
    s.fsmAnswer c = .error ⟨.decodeError, s.fsmPlace c⟩ := by
  simp only [fsmAnswer, if_neg h, if_pos hlost]

theorem State.fsmAnswer_of_good (h : ¬ s.BandEndAhead c)
    (hgood : (s.fsmAt c (s.fsmPlace c)).nextState.toNat < (s.codeset c).fsmNumStates.toNat) :
    s.fsmAnswer c = s.afterBits (s.fsmAt c (s.fsmPlace c)).skips (some (s.fsmAt c (s.fsmPlace c))) := by
  simp only [fsmAnswer, if_neg h, if_neg (Nat.not_le.2 hgood)]

/-- A step that consumes `n` bits succeeds where `Consume` does. -/
theorem State.consume_afterBits {α : Type} (s : State) (n : Nat) (a : α) :
    s.consume n = .ok { s with bsPos := s.bsPos + BitVec.ofNat 32 n } ∧ s.afterBits n a = .ok a ∨
      s.consume n = .error ⟨.bitstreamUnderrun, n⟩ ∧ s.afterBits n a = .error ⟨.bitstreamUnderrun, n⟩ := by
  by_cases hfit : s.bsPos.toNat + n ≤ s.bsLen.toNat
  · exact .inl ⟨consume_of_le hfit, afterBits_of_le hfit a⟩
  · exact .inr ⟨consume_of_lt (Nat.not_le.1 hfit), afterBits_of_lt (Nat.not_le.1 hfit) a⟩

end Answers

/-! ### The steps and their answers -/

section Quiet
variable {s : State} (hq : s.Quiet) {c : CsId}
include hq

theorem State.bandEndCheck_of_ahead (h : s.BandEndAhead c) (site : Site) : s.bandEndCheck c site = some (s.pastBandEnd c) := by
  obtain ⟨hon, hvalid, hfit, hcode⟩ := h
  simp [bandEndCheck, peek_of_quiet hq, hon, hvalid, hcode, Nat.not_lt.2 hfit, pastBandEnd]

theorem State.bandEndCheck_of_not_ahead (h : ¬ s.BandEndAhead c) (site : Site) : s.bandEndCheck c site = none := by
  rcases s.bandEndCheck_cases c site with hnone | ⟨hon, hvalid, hfit, hcode, -⟩
  · exact hnone
  · exact absurd ⟨hon, hvalid, hfit, peek_of_quiet hq site _ ▸ hcode⟩ h

theorem State.slowMatch_of_quiet (site : Site) : s.slowMatch c site = s.slowHit c := by
  simp only [slowMatch, slowHit, peek_of_quiet hq, rleAt_eq_of_quiet hq, rlvAt_eq_of_quiet hq]
  split <;> rw [matchPattern_const]

/-- A step of `VLC_DECODE` gives its answer, and changes what the answer says. -/
theorem State.vlcStep_eq (site : Site) : s.vlcStep c site = (s.vlcAnswer c).map fun r => (r, s.afterVlc r) := by
  have hnext (site : Site) : s.fastbookAt c (s.peek site Config.windowSize) = s.nextFast c := by
    rw [peek_of_quiet hq, nextFast]
  by_cases hband : s.BandEndAhead c
  · rw [vlcStep, bandEndCheck_of_ahead hq hband, vlcAnswer_of_bandEnd hband]
    rfl
  · rw [vlcStep, bandEndCheck_of_not_ahead hq hband]
    dsimp only
    rw [hnext]
    cases hkind : (s.nextFast c).kind with
    | complete =>
      rw [vlcAnswer_of_complete hband hkind]
      dsimp only
      rcases s.consume_afterBits (s.nextFast c).shift.toNat
        (VlcStep.mk .fast (s.nextFast c).count (s.nextFast c).value ((s.nextFast c).shift.setWidth 32)) with
        ⟨hconsume, hanswer⟩ | ⟨hconsume, hanswer⟩ <;> rw [hconsume, hanswer]
      · rw [BitVec.ofNat_toNat]
        rfl
      · rfl
    | marker =>
      rw [vlcAnswer_of_marker hband hkind, slowStep, slowMatch_of_quiet hq]
      cases s.slowHit c with
      | none => rfl
      | some m =>
        dsimp only [Option.elim_some]
        rcases s.consume_afterBits m.shift
          (VlcStep.mk .slow (BitVec.ofNat 32 m.count) (BitVec.ofInt 32 m.value) (BitVec.ofNat 32 m.shift)) with
          ⟨hconsume, hanswer⟩ | ⟨hconsume, hanswer⟩ <;> rw [hconsume, hanswer] <;> rfl
    | unmatched =>
      rw [vlcAnswer_of_unmatched hband hkind]
      rfl

/-- A step of `FSM_STEP` gives its answer, and changes what the answer says. -/
theorem State.fsmStep_eq (site : Site) : s.fsmStep c site = (s.fsmAnswer c).map fun o => (o, s.afterFsm c o) := by
  have hplace (site : Site) : s.fsmIndex c site = s.fsmPlace c := by rw [fsmIndex, fsmPlace, peek_of_quiet hq]
  by_cases hband : s.BandEndAhead c
  · rw [fsmStep, bandEndCheck_of_ahead hq hband, fsmAnswer_of_bandEnd hband]
    rfl
  · rw [fsmStep, bandEndCheck_of_not_ahead hq hband]
    dsimp only
    rw [hplace]
    by_cases hlost : (s.codeset c).fsmNumStates.toNat ≤ (s.fsmAt c (s.fsmPlace c)).nextState.toNat
    · rw [if_pos hlost, fsmAnswer_of_lost hband hlost]
      rfl
    · rw [if_neg hlost, fsmAnswer_of_good hband (Nat.not_le.1 hlost), ← FsmEntry.skips]
      rcases s.consume_afterBits (s.fsmAt c (s.fsmPlace c)).skips (some (s.fsmAt c (s.fsmPlace c))) with
        ⟨hconsume, hanswer⟩ | ⟨hconsume, hanswer⟩ <;> rw [hconsume, hanswer]
      · cases c <;> rfl
      · rfl

end Quiet

/-! ### The single-step commands -/

/-- What `VLC_DECODE` reports of the answer `r` (R255). -/
def State.reportVlc (s : State) (r : VlcStep) : State :=
  { s.afterVlc r with result0 := r.count, result1 := r.value, result2 := r.shift, result3 := r.kind.toWord }

/-- What `FSM_STEP` reports of the answer `o` (R271). -/
def State.reportFsmStep (s : State) (c : CsId) (o : Option FsmEntry) : State :=
  match o with
  | none => { s.pastBandEnd c with result0 := 0, result1 := 0, result2 := 0, result3 := 2 }
  | some e =>
    { s.afterFsm c (some e) with
      result0 := e.value0.signExtend 32
      result1 := e.value1.signExtend 32
      result2 := e.stateWord
      result3 := 0 }

section Single
variable {s : State} {cs : BitVec 2} {c : CsId} (hc : CsId.ofField cs = some c)
include hc

theorem exec_vlcDecode_of_invalid (hv : (s.codeset c).valid.fastbook = false) :
    exec (.vlcDecode cs) s = .next (s.fail ⟨.notInitialized, c.toNat⟩) := by
  rw [exec_vlcDecode hc, State.vlcDecode, hv]
  rfl

theorem exec_fsmStep_of_unloaded (hv : (s.codeset c).fsmFlags.initialized = false) :
    exec (.fsmStep cs) s = .next (s.fail ⟨.notInitialized, c.toNat⟩) := by
  rw [exec_fsmStep hc, State.fsmStepCommand, hv]
  rfl

section Vlc
variable (hq : s.Quiet) (hv : (s.codeset c).valid.fastbook = true)
include hq hv

theorem exec_vlcDecode_of_ok {r : VlcStep} (h : s.vlcAnswer c = .ok r) :
    exec (.vlcDecode cs) s = .next (s.reportVlc r).complete := by
  rw [exec_vlcDecode hc, State.vlcDecode, hv, State.vlcStep_eq hq, h]
  rfl

theorem exec_vlcDecode_of_error {f : Failure} (h : s.vlcAnswer c = .error f) : exec (.vlcDecode cs) s = .next (s.fail f) := by
  rw [exec_vlcDecode hc, State.vlcDecode, hv, State.vlcStep_eq hq, h]
  rfl

end Vlc

section Fsm
variable (hq : s.Quiet) (hv : (s.codeset c).fsmFlags.initialized = true)
include hq hv

theorem exec_fsmStep_of_ok {o : Option FsmEntry} (h : s.fsmAnswer c = .ok o) :
    exec (.fsmStep cs) s = .next (s.reportFsmStep c o).complete := by
  rw [exec_fsmStep hc, State.fsmStepCommand, hv, State.fsmStep_eq hq, h]
  cases o <;> rfl

theorem exec_fsmStep_of_error {f : Failure} (h : s.fsmAnswer c = .error f) : exec (.fsmStep cs) s = .next (s.fail f) := by
  rw [exec_fsmStep hc, State.fsmStepCommand, hv, State.fsmStep_eq hq, h]
  rfl

end Fsm

end Single

/-- Settles O42: the answer is the band end, the complete entry, or what the slow match found. -/
theorem vlcDecodeResult : Obligations.VlcDecodeResult := by
  intro s cs c hc hq hv e book len
  refine ⟨fun hband => ?_, fun hband hkind hfit => ?_, fun hband hkind m hm hfit => ?_⟩
  · rw [exec_vlcDecode_of_ok hc hq hv (State.vlcAnswer_of_bandEnd hband)]
    rfl
  · have hanswer := (State.vlcAnswer_of_complete hband hkind).trans (State.afterBits_of_le hfit _)
    rw [exec_vlcDecode_of_ok hc hq hv hanswer]
    rfl
  · have hhit : s.slowHit c = some m := hm
    have hanswer := State.vlcAnswer_of_marker hband hkind
    rw [hhit, Option.elim_some, State.afterBits_of_le hfit] at hanswer
    rw [exec_vlcDecode_of_ok hc hq hv hanswer]
    rfl

/-- Settles O43: without a table there is no step, and else the answer is an error. -/
theorem vlcDecodeFailures : Obligations.VlcDecodeFailures := by
  intro s cs c hc hq e book len
  refine ⟨exec_vlcDecode_of_invalid hc, fun hv hband =>
    ⟨fun hkind => ?_, fun hkind hlt => ?_, fun hkind => ⟨fun hm => ?_, fun m hm hlt => ?_⟩⟩⟩
  · exact exec_vlcDecode_of_error hc hq hv (State.vlcAnswer_of_unmatched hband hkind)
  · exact exec_vlcDecode_of_error hc hq hv ((State.vlcAnswer_of_complete hband hkind).trans (State.afterBits_of_lt hlt _))
  · have hhit : s.slowHit c = none := hm
    refine exec_vlcDecode_of_error hc hq hv ((State.vlcAnswer_of_marker hband hkind).trans ?_)
    rw [hhit, Option.elim_none]
  · have hhit : s.slowHit c = some m := hm
    refine exec_vlcDecode_of_error hc hq hv ((State.vlcAnswer_of_marker hband hkind).trans ?_)
    rw [hhit, Option.elim_some, State.afterBits_of_lt hlt]

/-- Settles O47: the checks in their order. -/
theorem fsmSetStateResult : Obligations.FsmSetStateResult := by
  intro s cs c n hc k
  rw [exec_fsmSetState hc, State.fsmSetState]
  refine ⟨fun hinit => ?_, fun hinit hge => ?_, fun hinit hlt => ?_⟩
  · rw [show (s.codeset c).fsmFlags.initialized = false from hinit]
    rfl
  · rw [show (s.codeset c).fsmFlags.initialized = true from hinit, if_neg (by decide), if_pos hge, Body.finish_failed]
  · rw [show (s.codeset c).fsmFlags.initialized = true from hinit, if_neg (by decide), if_neg (Nat.not_le.2 hlt),
      Body.finish_done, BitVec.ofNat_toNat]

/-- The packed state and skips word as a number (spec/20_memory.md R83). -/
theorem FsmEntry.stateWord_eq (e : FsmEntry) :
    e.stateWord = BitVec.ofNat 32 (e.nextState.toNat + 2 ^ 16 * e.preSkip.toNat + 2 ^ 24 * e.postSkip.toNat) := by
  have hnext := e.nextState.isLt
  have hpre := e.preSkip.isLt
  have hpost := e.postSkip.isLt
  refine BitVec.eq_of_toNat_eq ?_
  rw [FsmEntry.stateWord, BitVec.toNat_append, BitVec.toNat_append, BitVec.toNat_ofNat, ← Nat.shiftLeft_add_eq_or_of_lt hpre,
    ← Nat.shiftLeft_add_eq_or_of_lt hnext, Nat.shiftLeft_eq, Nat.shiftLeft_eq, Nat.mod_eq_of_lt (by omega)]
  omega

/-- Settles O48: the answer is the band end, a lost state, an underrun, or the entry. -/
theorem fsmStepResult : Obligations.FsmStepResult := by
  intro s cs c hc hq k i e skips
  refine ⟨exec_fsmStep_of_unloaded hc, fun hinit hband => ?_, fun hinit hband =>
    ⟨fun hlost => ?_, fun hgood hlt => ?_, fun hgood hfit => ?_⟩⟩
  · rw [exec_fsmStep_of_ok hc hq hinit (State.fsmAnswer_of_bandEnd hband)]
    rfl
  · exact exec_fsmStep_of_error hc hq hinit (State.fsmAnswer_of_lost hband hlost)
  · exact exec_fsmStep_of_error hc hq hinit ((State.fsmAnswer_of_good hband hgood).trans (State.afterBits_of_lt hlt _))
  · rw [exec_fsmStep_of_ok hc hq hinit ((State.fsmAnswer_of_good hband hgood).trans (State.afterBits_of_le hfit _)),
      ← FsmEntry.stateWord_eq]
    cases c <;> rfl

end Sys2Proof.Machine
end

section
/-!
SUPPORT. The two runs (spec/43_decode.md R262, R275) as their single-step commands one after the other: a step of a run and the command
agree where the states agree in what a step looks at, and the records of the run are what the commands report.
-/

namespace Sys2Proof.Machine

/-! ### What a step looks at -/

/-- The part of the state that the answer of a step depends on: what no command writes, the position and the codesets. -/
def State.seen (s : State) : State := { s.frame with bsPos := s.bsPos, cs0 := s.cs0, cs1 := s.cs1, cs2 := s.cs2 }

section Seen
variable {s t : State} {c : CsId}

@[simp] theorem State.codeset_seen (s : State) (c : CsId) : s.seen.codeset c = s.codeset c := by cases c <;> rfl

@[simp] theorem State.streamBits_seen (s : State) (p n : Nat) : s.seen.streamBits p n = s.streamBits p n := by
  induction n with
  | zero => rfl
  | succ n ih => rw [streamBits, streamBits, ih]; rfl

theorem State.bandEndAhead_seen (s : State) (c : CsId) : s.seen.BandEndAhead c ↔ s.BandEndAhead c := by
  simp only [BandEndAhead, codeset_seen, streamBits_seen]
  exact Iff.rfl

theorem State.nextFast_seen (s : State) (c : CsId) : s.seen.nextFast c = s.nextFast c := by
  simp only [nextFast, fastbookAt, codeset_seen, streamBits_seen]
  rfl

theorem State.slowHit_seen (s : State) (c : CsId) : s.seen.slowHit c = s.slowHit c := by
  have hrle : s.seen.rleEntry c = s.rleEntry c := by funext j; simp only [rleEntry, codeset_seen]; rfl
  have hrlv : s.seen.rlvEntry c = s.rlvEntry c := by funext j; simp only [rlvEntry, codeset_seen]; rfl
  simp only [slowHit, codeset_seen, streamBits_seen, hrle, hrlv]
  rfl

theorem State.vlcAnswer_seen (s : State) (c : CsId) : s.seen.vlcAnswer c = s.vlcAnswer c := by
  simp only [vlcAnswer, bandEndAhead_seen, nextFast_seen, slowHit_seen, codeset_seen]
  rfl

theorem State.fsmAnswer_seen (s : State) (c : CsId) : s.seen.fsmAnswer c = s.fsmAnswer c := by
  have hplace : s.seen.fsmPlace c = s.fsmPlace c := by simp only [fsmPlace, codeset_seen, streamBits_seen]; rfl
  simp only [fsmAnswer, bandEndAhead_seen, hplace, fsmAt, codeset_seen]
  rfl

theorem State.moved_seen (s : State) (c : CsId) (p : Word) (x : BitVec 16) : (s.moved c p x).seen = (s.seen.moved c p x).seen := by
  cases c <;> rfl

theorem State.afterRecord_seen (s : State) (k : Nat) (w0 w1 : Word) : (s.afterRecord k w0 w1).seen = s.seen := by
  simp [afterRecord, seen, frame, kept]

theorem State.bsPos_of_seen (h : t.seen = s.seen) : t.bsPos = s.bsPos := (congrArg State.bsPos h :)

theorem State.codeset_of_seen (h : t.seen = s.seen) (c : CsId) : t.codeset c = s.codeset c := by
  rw [← codeset_seen, h, codeset_seen]

theorem State.moved_seen_congr (h : t.seen = s.seen) (c : CsId) (p : Word) (x : BitVec 16) :
    (t.moved c p x).seen = (s.moved c p x).seen := by
  rw [moved_seen, h, ← moved_seen]

theorem State.vlcAnswer_congr (h : t.seen = s.seen) (c : CsId) : t.vlcAnswer c = s.vlcAnswer c := by
  rw [← vlcAnswer_seen, h, vlcAnswer_seen]

theorem State.fsmAnswer_congr (h : t.seen = s.seen) (c : CsId) : t.fsmAnswer c = s.fsmAnswer c := by
  rw [← fsmAnswer_seen, h, fsmAnswer_seen]

end Seen

/-! ### What a step moves -/

section Moved
variable (s : State) (c : CsId) (p : Word) (x : BitVec 16)

@[simp] theorem State.moved_status : (s.moved c p x).status = s.status := by simp [moved]
@[simp] theorem State.moved_bsPos : (s.moved c p x).bsPos = p := by simp [moved]

/-- A step of `VLC_DECODE` that is no band end moves the position alone. -/
theorem State.afterVlc_of_ne {r : VlcStep} (h : r.kind ≠ .bandEnd) :
    s.afterVlc r = s.moved c (s.bsPos + r.shift) (s.codeset c).fsmState := by
  obtain ⟨kind, count, value, shift⟩ := r
  cases kind with
  | bandEnd => exact absurd rfl h
  | _ => cases c <;> rfl

end Moved

/-! ### A run after some of its steps -/

/-- A run started in `s` after `j` steps that decoded a record each: at position `p` and FSM state `x`, with `m` in OUTMEM. -/
def State.inRun (s : State) (c : CsId) (j : Nat) (p : Word) (x : BitVec 16) (m : Memory) : State :=
  State.moved { s with
    result0 := BitVec.ofNat 32 j
    result1 := 0
    outPtr := s.outPtr + BitVec.ofNat 32 (2 * j)
    outmem := m } c p x

section InRun
variable (s : State) (c : CsId) (j : Nat) (p : Word) (x : BitVec 16) (m : Memory)

@[simp] theorem State.inRun_params : (s.inRun c j p x m).params = s.params := by simp [inRun, moved]
@[simp] theorem State.inRun_ctrl : (s.inRun c j p x m).ctrl = s.ctrl := by simp [inRun, moved]
@[simp] theorem State.inRun_status : (s.inRun c j p x m).status = s.status := by simp [inRun]
@[simp] theorem State.inRun_result0 : (s.inRun c j p x m).result0 = BitVec.ofNat 32 j := by simp [inRun, moved]
@[simp] theorem State.inRun_result1 : (s.inRun c j p x m).result1 = 0 := by simp [inRun, moved]
@[simp] theorem State.inRun_result2 : (s.inRun c j p x m).result2 = s.result2 := by simp [inRun, moved]
@[simp] theorem State.inRun_result3 : (s.inRun c j p x m).result3 = s.result3 := by simp [inRun, moved]
@[simp] theorem State.inRun_errInfo : (s.inRun c j p x m).errInfo = s.errInfo := by simp [inRun, moved]
@[simp] theorem State.inRun_bsLen : (s.inRun c j p x m).bsLen = s.bsLen := by simp [inRun, moved]
@[simp] theorem State.inRun_bsPos : (s.inRun c j p x m).bsPos = p := by simp [inRun]
@[simp] theorem State.inRun_outmem : (s.inRun c j p x m).outmem = m := by simp [inRun, moved]
@[simp] theorem State.inRun_outPtr : (s.inRun c j p x m).outPtr = s.outPtr + BitVec.ofNat 32 (2 * j) := by simp [inRun, moved]

@[simp] theorem State.inRun_codeset : (s.inRun c j p x m).codeset c = { s.codeset c with fsmState := x } := by cases c <;> rfl

theorem State.quiet_inRun (hq : s.Quiet) : (s.inRun c j p x m).Quiet := by simpa [Quiet, inRun, moved] using hq

/-- Where a run starts. -/
theorem State.inRun_zero :
    s.inRun c 0 s.bsPos (s.codeset c).fsmState s.outmem = { s with result0 := 0, result1 := 0 } := by
  have hptr : s.outPtr + BitVec.ofNat 32 (2 * 0) = s.outPtr := BitVec.add_zero _
  rw [inRun, hptr]
  cases c <;> rfl

/-- OUTMEM with record `j` of a run that writes from `a` on (R262, R275). -/
def Memory.writeRecord (m : Memory) (a : Word) (j : Nat) (w : Word × Word) : Memory :=
  (m.writeWord (a + BitVec.ofNat 32 (2 * j)).toNat w.1).writeWord (a + BitVec.ofNat 32 (2 * j + 1)).toNat w.2

/-- The next step of a run and its record. -/
theorem State.moved_inRun_afterRecord (q : Word) (y : BitVec 16) (w : Word × Word) :
    ((s.inRun c j p x m).moved c q y).afterRecord j w.1 w.2 = s.inRun c (j + 1) q y (m.writeRecord s.outPtr j w) := by
  have hnext : s.outPtr + BitVec.ofNat 32 (2 * j) + 2 = s.outPtr + BitVec.ofNat 32 (2 * (j + 1)) := by
    rw [BitVec.add_assoc, Nat.mul_succ, BitVec.ofNat_add]
    rfl
  have hsecond : s.outPtr + BitVec.ofNat 32 (2 * j) + 1 = s.outPtr + BitVec.ofNat 32 (2 * j + 1) := by
    rw [BitVec.add_assoc, BitVec.ofNat_add]
    rfl
  rw [Memory.writeRecord, ← hsecond]
  unfold inRun
  rw [← hnext]
  cases c <;> rfl

/-- What each of the first `k` steps of a run passes on to the next, holds after them. -/
theorem runLoop_of_steps {f : Nat → State → RunStep} {P : Nat → State → Prop} {k n : Nat} (hkn : k ≤ n) {s : State} (h : P 0 s)
    (hstep : ∀ j < k, ∀ u, P j u → ∃ w v, f j u = .ok (some w, v) ∧ P (j + 1) (v.afterRecord j w.1 w.2)) :
    ∃ u, P k u ∧ runLoop f n 0 s = runLoop f (n - k) k u := by
  induction k with
  | zero => exact ⟨s, h, rfl⟩
  | succ k ih =>
    obtain ⟨u, hu, hrun⟩ := ih (by omega) fun j hj => hstep j (by omega)
    obtain ⟨w, v, hv, hnext⟩ := hstep k (by omega) u hu
    refine ⟨_, hnext, hrun.trans ?_⟩
    rw [show n - k = n - (k + 1) + 1 by omega, runLoop_of_record hv]

end InRun

/-! ### Records -/

/-- OUTMEM is in order, and from `a` on holds the first `j` of the records `w` (R263, R275). -/
structure Memory.HoldsRecords (m : Memory) (a : Word) (w : Nat → Word × Word) (j : Nat) : Prop where
  sorted : m.Pairwise fun x y => x.1 < y.1
  first : ∀ i < j, m.readWord (a + BitVec.ofNat 32 (2 * i)).toNat = (w i).1
  second : ∀ i < j, m.readWord (a + BitVec.ofNat 32 (2 * i + 1)).toNat = (w i).2

theorem Memory.pairwise_writeWord {m : Memory} (h : m.Pairwise fun x y => x.1 < y.1) (a : Nat) (v : Word) :
    (m.writeWord a v).Pairwise fun x y => x.1 < y.1 :=
  pairwise_write (pairwise_write (pairwise_write (pairwise_write h _ _) _ _) _ _) _ _

/-- A write of a word leaves the word at every other offset from `a`. -/
theorem Memory.readWord_writeWord_offset (m : Memory) (a v : Word) {i j : Nat} (hi : i < 2 ^ 32) (hj : j < 2 ^ 32) (h : i ≠ j) :
    (m.writeWord (a + BitVec.ofNat 32 j).toNat v).readWord (a + BitVec.ofNat 32 i).toNat =
      m.readWord (a + BitVec.ofNat 32 i).toNat := by
  refine readWord_writeWord_of_ne m v fun heq => h ?_
  have hoffset := congrArg BitVec.toNat (add_left_cancel (BitVec.eq_of_toNat_eq heq))
  rwa [BitVec.toNat_ofNat, BitVec.toNat_ofNat, Nat.mod_eq_of_lt hi, Nat.mod_eq_of_lt hj] at hoffset

/-- The next record joins the others: the addresses do not come round to them. -/
theorem Memory.HoldsRecords.write {m : Memory} {a : Word} {w : Nat → Word × Word} {j : Nat} (h : m.HoldsRecords a w j)
    (hj : 2 * j + 1 < 2 ^ 32) : (m.writeRecord a j (w j)).HoldsRecords a w (j + 1) where
  sorted := pairwise_writeWord (pairwise_writeWord h.sorted _ _) _ _
  first i hi := by
    rw [writeRecord, readWord_writeWord_offset _ _ _ (by omega) hj (by omega)]
    rcases Nat.lt_succ_iff_lt_or_eq.1 hi with hlt | rfl
    · rw [readWord_writeWord_offset _ _ _ (by omega) (by omega) (by omega), h.first i hlt]
    · exact readWord_writeWord_same h.sorted _ _
  second i hi := by
    rcases Nat.lt_succ_iff_lt_or_eq.1 hi with hlt | rfl
    · rw [writeRecord, readWord_writeWord_offset _ _ _ (by omega) hj (by omega),
        readWord_writeWord_offset _ _ _ (by omega) (by omega) (by omega), h.second i hlt]
    · exact readWord_writeWord_same (pairwise_writeWord h.sorted _ _) _ _

/-! ### A step of a run and its command -/

section RunSteps
variable {s : State} (hq : s.Quiet) {c : CsId} (k : Nat)
include hq

theorem vlcRunStep_of_error {e : Failure} (h : s.vlcAnswer c = .error e) : vlcRunStep c k s = .error e := by
  rw [vlcRunStep, State.vlcStep_eq hq, h]
  rfl

theorem vlcRunStep_of_bandEnd {r : VlcStep} (h : s.vlcAnswer c = .ok r) (hkind : r.kind = .bandEnd) :
    vlcRunStep c k s = .ok (none, s.afterVlc r) := by
  rw [vlcRunStep, State.vlcStep_eq hq, h]
  exact if_pos hkind

theorem vlcRunStep_of_ok {r : VlcStep} (h : s.vlcAnswer c = .ok r) (hkind : r.kind ≠ .bandEnd) :
    vlcRunStep c k s = .ok (some (r.count, r.value), s.moved c (s.bsPos + r.shift) (s.codeset c).fsmState) := by
  rw [vlcRunStep, State.vlcStep_eq hq, h, ← State.afterVlc_of_ne s c hkind]
  exact if_neg hkind

theorem fsmRunStep_of_error {e : Failure} (h : s.fsmAnswer c = .error e) : fsmRunStep c k s = .error e := by
  rw [fsmRunStep, State.fsmStep_eq hq, h]
  rfl

theorem fsmRunStep_of_bandEnd (h : s.fsmAnswer c = .ok none) : fsmRunStep c k s = .ok (none, s.pastBandEnd c) := by
  rw [fsmRunStep, State.fsmStep_eq hq, h]
  rfl

theorem fsmRunStep_of_ok {e : FsmEntry} (h : s.fsmAnswer c = .ok (some e)) :
    fsmRunStep c k s =
      .ok (some (e.valueWord, e.stateWord), s.moved c (s.bsPos + BitVec.ofNat 32 e.skips) e.nextState) := by
  rw [fsmRunStep, State.fsmStep_eq hq, h]
  rfl

end RunSteps

/-- With no racing write, a step of a run and the command `i` do the same from states that agree in what a step looks at: both fail;
or both consume the band-end code of R252; or both move alike, and the step gives the record of what the command reports. -/
def Simulates (f : Nat → State → RunStep) (c : CsId) (i : Instr) (ready : Codeset → Prop) (record : State → Word × Word) : Prop :=
  ∀ (k : Nat) (s t u : State), s.Quiet → u.Quiet → u.seen = s.seen → ready (s.codeset c) → s.status.err = false →
    exec i s = .next t →
    (∃ e, f k u = .error e ∧ t = s.fail e) ∨
      t.status.err = false ∧ t.result3 = 2 ∧
        f k u = .ok (none, { u with bsPos := t.bsPos, status := { u.status with bandEnd := true } }) ∨
      t.status.err = false ∧ t.result3 ≠ 2 ∧ ready (t.codeset c) ∧
        ∃ p x, f k u = .ok (some (record t), u.moved c p x) ∧ (u.moved c p x).seen = t.seen

theorem StepKind.toWord_eq_two_iff (k : StepKind) : k.toWord = 2 ↔ k = .bandEnd := by cases k <;> decide

theorem extractLsb'_signExtend (v : BitVec 16) : (v.signExtend 32).extractLsb' 0 16 = v := by
  refine BitVec.eq_of_getLsbD_eq fun i hi => ?_
  rw [BitVec.getLsbD_extractLsb', BitVec.getLsbD_signExtend, Nat.zero_add, if_pos hi]
  simp [hi, show i < 32 by omega]

/-- The values word of a record is what the command reports of the two values (spec/20_memory.md R83). -/
theorem FsmEntry.valueWord_eq (e : FsmEntry) :
    e.valueWord = (e.value1.signExtend 32).extractLsb' 0 16 ++ (e.value0.signExtend 32).extractLsb' 0 16 := by
  rw [extractLsb'_signExtend, extractLsb'_signExtend, valueWord]

section Steps
variable {cs : BitVec 2} {c : CsId} (hc : CsId.ofField cs = some c)
include hc

theorem vlcRunStep_simulates :
    Simulates (vlcRunStep c) c (.vlcDecode cs) (fun k => k.valid.fastbook = true) fun t => (t.result0, t.result1) := by
  intro k s t u hq hqu hseen hready herr h
  have hpos : u.bsPos = s.bsPos := State.bsPos_of_seen hseen
  cases hs : s.vlcAnswer c with
  | error e =>
    have hu := (State.vlcAnswer_congr hseen c).trans hs
    obtain rfl := Host.Outcome.next.inj ((exec_vlcDecode_of_error hc hq hready hs).symm.trans h)
    exact .inl ⟨e, vlcRunStep_of_error hqu k hu, rfl⟩
  | ok r =>
    have hu := (State.vlcAnswer_congr hseen c).trans hs
    obtain rfl := Host.Outcome.next.inj ((exec_vlcDecode_of_ok hc hq hready hs).symm.trans h)
    by_cases hkind : r.kind = .bandEnd
    · have hrun := vlcRunStep_of_bandEnd hqu k hu hkind
      obtain ⟨kind, count, value, shift⟩ := r
      obtain rfl : kind = .bandEnd := hkind
      refine .inr (.inl ⟨herr, rfl, ?_⟩)
      rw [hrun, State.afterVlc, hpos]
      rfl
    · have hrun := vlcRunStep_of_ok hqu k hu hkind
      rw [hpos, State.codeset_of_seen hseen] at hrun
      rw [State.reportVlc, State.afterVlc_of_ne s c hkind]
      exact .inr (.inr ⟨by simpa using herr, mt (StepKind.toWord_eq_two_iff _).1 hkind, by cases c <;> exact hready, _, _, hrun,
        State.moved_seen_congr hseen c _ _⟩)

theorem fsmRunStep_simulates :
    Simulates (fsmRunStep c) c (.fsmStep cs) (fun k => k.fsmFlags.initialized = true) fun t =>
      (t.result1.extractLsb' 0 16 ++ t.result0.extractLsb' 0 16, t.result2) := by
  intro k s t u hq hqu hseen hready herr h
  have hpos : u.bsPos = s.bsPos := State.bsPos_of_seen hseen
  cases hs : s.fsmAnswer c with
  | error e =>
    have hu := (State.fsmAnswer_congr hseen c).trans hs
    obtain rfl := Host.Outcome.next.inj ((exec_fsmStep_of_error hc hq hready hs).symm.trans h)
    exact .inl ⟨e, fsmRunStep_of_error hqu k hu, rfl⟩
  | ok o =>
    have hu := (State.fsmAnswer_congr hseen c).trans hs
    obtain rfl := Host.Outcome.next.inj ((exec_fsmStep_of_ok hc hq hready hs).symm.trans h)
    cases o with
    | none =>
      refine .inr (.inl ⟨herr, rfl, ?_⟩)
      rw [fsmRunStep_of_bandEnd hqu k hu, State.pastBandEnd, hpos, State.codeset_of_seen hseen]
      rfl
    | some e =>
      have hrun := fsmRunStep_of_ok hqu k hu
      rw [hpos, FsmEntry.valueWord_eq] at hrun
      rw [State.reportFsmStep, State.afterFsm]
      exact .inr (.inr ⟨by simpa using herr, (by decide : (0 : Word) ≠ 2), by cases c <;> exact hready, _, _, hrun,
        State.moved_seen_congr hseen c _ _⟩)

end Steps

/-! ### A run as its commands one after the other -/

theorem exec_quiet {i : Instr} {s t : State} (h : exec i s = .next t) : t.Quiet := by
  obtain ⟨b, -, rfl⟩ := exec_sound h
  exact b.quiet_finish

/-- The run started in `s` stands at `u` when the commands stand at `d j`, each having decoded a codeword. -/
structure State.InStep (s : State) (c : CsId) (ready : Codeset → Prop) (record : State → Word × Word) (d : Nat → State) (j : Nat)
    (u : State) : Prop where
  inRun : ∃ p x m, u = s.inRun c j p x m
  seen : u.seen = (d j).seen
  records : u.outmem.HoldsRecords s.outPtr (fun i => record (d (i + 1))) j
  quiet : (d j).Quiet
  noError : (d j).status.err = false
  ready : ready ((d j).codeset c)

/-- What a run started in `s` leaves that ends after the `k` commands of `d`. -/
structure State.EndsRun (s : State) (record : State → Word × Word) (d : Nat → State) (k : Nat) (stopped pos : Word) (t : State) :
    Prop where
  result0 : t.result0 = BitVec.ofNat 32 k
  result1 : t.result1 = stopped
  bsPos : t.bsPos = pos
  codeset : ∀ x, t.codeset x = (d k).codeset x
  outPtr : t.outPtr = s.outPtr + BitVec.ofNat 32 (2 * k)
  records : t.outmem.HoldsRecords s.outPtr (fun i => record (d (i + 1))) k

section Repeated
variable {f : Nat → State → RunStep} {c : CsId} {i : Instr} {ready : Codeset → Prop} {record : State → Word × Word}
  {s u : State} {d : Nat → State} {j k n : Nat}

theorem State.InStep.endsRun (h : s.InStep c ready record d k u) {t : State} {stopped pos : Word}
    (hres0 : t.result0 = u.result0 := by rfl) (hres1 : t.result1 = stopped := by rfl) (hpos : t.bsPos = pos := by rfl)
    (hcs : ∀ x, t.codeset x = u.codeset x := by intro x; cases x <;> rfl) (hout : t.output = u.output := by rfl) :
    s.EndsRun record d k stopped pos t := by
  obtain ⟨p, x, m, hu⟩ := h.inRun
  obtain ⟨hptr, hmem⟩ := (u.output_eq_iff t).1 hout
  exact {
    result0 := by rw [hres0, hu, inRun_result0]
    result1 := hres1
    bsPos := hpos
    codeset := fun x => (hcs x).trans (codeset_of_seen h.seen x)
    outPtr := by rw [hptr, hu, inRun_outPtr]
    records := by rw [hmem]; exact h.records }

/-- Each command that decodes a codeword is one step of the run. -/
theorem runLoop_of_commands (hsim : Simulates f c i ready record) (hq : s.Quiet) (herr : s.status.err = false)
    (hsorted : s.outmem.Pairwise fun x y => x.1 < y.1) (hready : ready (s.codeset c)) (hstart : d 0 = s) (hkn : k ≤ n)
    (hn : n < 2 ^ 24)
    (hcommands : ∀ j < k, exec i (d j) = .next (d (j + 1)) ∧ (d (j + 1)).status.err = false ∧ (d (j + 1)).result3 ≠ 2) :
    ∃ u, s.InStep c ready record d k u ∧ runLoop f n 0 { s with result0 := 0, result1 := 0 } = runLoop f (n - k) k u := by
  rw [← s.inRun_zero c]
  refine runLoop_of_steps hkn ?_ fun j hj u hu => ?_
  · subst hstart
    exact {
      inRun := ⟨_, _, _, rfl⟩
      seen := by rw [State.inRun_zero]; rfl
      records := by
        rw [State.inRun_outmem]
        exact ⟨hsorted, fun _ h => absurd h (Nat.not_lt_zero _), fun _ h => absurd h (Nat.not_lt_zero _)⟩
      quiet := hq
      noError := herr
      ready := hready }
  · obtain ⟨hnext, hok, hnoband⟩ := hcommands j hj
    obtain ⟨p, x, m, rfl⟩ := hu.inRun
    rcases hsim j (d j) (d (j + 1)) _ hu.quiet (s.quiet_inRun c j p x m hq) hu.seen hu.ready hu.noError hnext with
      ⟨e, -, hfail⟩ | ⟨-, hband, -⟩ | ⟨-, -, hready', q, y, hstep, hseen⟩
    · rw [hfail] at hok
      cases hok
    · exact absurd hband hnoband
    · have hafter := s.moved_inRun_afterRecord c j p x m q y (record (d (j + 1)))
      have hrecords := hu.records.write (by omega)
      rw [State.inRun_outmem] at hrecords
      refine ⟨_, _, hstep, ?_⟩
      exact {
        inRun := ⟨_, _, _, hafter⟩
        seen := (State.afterRecord_seen _ _ _ _).trans hseen
        records := by rwa [hafter, State.inRun_outmem]
        quiet := exec_quiet hnext
        noError := hok
        ready := hready' }

/-- How a run ends after `k` of the commands: it was to make no more steps, or the next command finds the band-end code or fails. -/
theorem run_endings (hsim : Simulates f c i ready record) {run : Instr}
    (hrun : exec run s = .next (runLoop f n 0 { s with result0 := 0, result1 := 0 }).finish) (hq : s.Quiet)
    (herr : s.status.err = false) (hsorted : s.outmem.Pairwise fun x y => x.1 < y.1) (hready : ready (s.codeset c))
    (hstart : d 0 = s) (hkn : k ≤ n) (hn : n < 2 ^ 24)
    (hcommands : ∀ j < k, exec i (d j) = .next (d (j + 1)) ∧ (d (j + 1)).status.err = false ∧ (d (j + 1)).result3 ≠ 2) :
    (k = n → ∃ t, exec run s = .next t ∧ s.EndsRun record d k 0 (d k).bsPos t ∧ t.status = { s.status with done := true }) ∧
      ∀ u, k < n → exec i (d k) = .next u →
        (u.status.err = false → u.result3 = 2 →
          ∃ t, exec run s = .next t ∧ s.EndsRun record d k 1 u.bsPos t ∧
            t.status = { s.status with done := true, bandEnd := true }) ∧
          (u.status.err = true →
            ∃ t, exec run s = .next t ∧ s.EndsRun record d k 0 (d k).bsPos t ∧ t.errInfo = u.errInfo ∧
              t.status = { s.status with done := true, err := true, errCode := u.status.errCode }) := by
  obtain ⟨v, hv, hloop⟩ := runLoop_of_commands hsim hq herr hsorted hready hstart hkn hn hcommands
  obtain ⟨p, x, m, hform⟩ := hv.inRun
  have hstatus : v.status = s.status := by rw [hform, State.inRun_status]
  have hresult1 : v.result1 = 0 := by rw [hform, State.inRun_result1]
  have hpos : v.bsPos = (d k).bsPos := State.bsPos_of_seen hv.seen
  rw [hrun, hloop]
  refine ⟨fun hk => ⟨_, rfl, ?_, ?_⟩, fun u hk hu => ?_⟩
  · rw [hk, Nat.sub_self]
    exact (hk ▸ hv).endsRun (hpos := hk ▸ hpos)
  · rw [hk, Nat.sub_self, ← hstatus]
    rfl
  · rw [show n - k = n - (k + 1) + 1 by omega, runLoop]
    rcases hsim k (d k) u v hv.quiet (hform ▸ s.quiet_inRun c k p x m hq) hv.seen hv.ready hv.noError hu with
      ⟨e, hstep, rfl⟩ | ⟨hok, hband, hstep⟩ | ⟨hok, hband, -⟩
    · rw [hstep]
      refine ⟨fun hok => absurd hok (by simp), fun _ => ⟨_, rfl, hv.endsRun (hres1 := hresult1) (hpos := hpos), rfl, ?_⟩⟩
      rw [← hstatus]
      rfl
    · rw [hstep]
      refine ⟨fun _ _ => ⟨_, rfl, hv.endsRun, ?_⟩, fun hfail => absurd (hok.symm.trans hfail) (by decide)⟩
      rw [← hstatus]
      rfl
    · exact ⟨fun _ h => absurd h hband, fun hfail => absurd (hok.symm.trans hfail) (by decide)⟩

end Repeated

section Runs
variable {s : State} {cs : BitVec 2} {c : CsId} (hc : CsId.ofField cs = some c) (n : BitVec 24)
include hc

theorem exec_vlcRun_of_invalid (hv : (s.codeset c).valid.fastbook = false) :
    exec (.vlcRun cs n) s = .next (s.fail ⟨.notInitialized, c.toNat⟩) := by
  rw [exec_vlcRun hc, State.vlcRun, hv]
  rfl

theorem exec_vlcRun_of_valid (hv : (s.codeset c).valid.fastbook = true) :
    exec (.vlcRun cs n) s = .next (runLoop (vlcRunStep c) n.toNat 0 { s with result0 := 0, result1 := 0 }).finish := by
  rw [exec_vlcRun hc, State.vlcRun, hv]
  rfl

theorem exec_fsmRun_of_unloaded (hv : (s.codeset c).fsmFlags.initialized = false) :
    exec (.fsmRun cs n) s = .next (s.fail ⟨.notInitialized, c.toNat⟩) := by
  rw [exec_fsmRun hc, State.fsmRun, hv]
  rfl

theorem exec_fsmRun_of_loaded (hv : (s.codeset c).fsmFlags.initialized = true) :
    exec (.fsmRun cs n) s = .next (runLoop (fsmRunStep c) n.toNat 0 { s with result0 := 0, result1 := 0 }).finish := by
  rw [exec_fsmRun hc, State.fsmRun, hv]
  rfl

end Runs

/-- Settles O45: the steps of `VLC_RUN` simulate `VLC_DECODE`, by induction on the number of commands. -/
theorem vlcRunIsRepeatedDecode : Obligations.VlcRunIsRepeatedDecode := by
  intro s cs c n d k hc hq herr hsorted
  refine ⟨exec_vlcRun_of_invalid hc n, fun hv hstart hkn hcommands => ?_⟩
  obtain ⟨hall, hnext⟩ := run_endings (vlcRunStep_simulates hc) (exec_vlcRun_of_valid hc n hv) hq herr hsorted hv hstart hkn n.isLt
    hcommands
  intro ends
  have hends {t : State} {stopped pos : Word} (ht : exec (.vlcRun cs n) s = .next t)
      (h : s.EndsRun (fun t => (t.result0, t.result1)) d k stopped pos t) : ends t stopped pos :=
    ⟨ht, h.result0, h.result1, h.bsPos, h.outPtr, fun j hj => ⟨h.records.first j hj, h.records.second j hj⟩⟩
  refine ⟨fun hk => ?_, fun u hk hu => ⟨fun hok hband => ?_, fun hfail => ?_⟩⟩
  · obtain ⟨t, ht, h, hstatus⟩ := hall hk
    exact ⟨t, hends ht h, hstatus⟩
  · obtain ⟨t, ht, h, hstatus⟩ := (hnext u hk hu).1 hok hband
    exact ⟨t, hends ht h, hstatus⟩
  · obtain ⟨t, ht, h, hinfo, hstatus⟩ := (hnext u hk hu).2 hfail
    exact ⟨t, hends ht h, hinfo, hstatus⟩

/-- Settles O50: the steps of `FSM_RUN` simulate `FSM_STEP`, by induction on the number of commands. -/
theorem fsmRunIsRepeatedStep : Obligations.FsmRunIsRepeatedStep := by
  intro s cs c n d k hc hq herr hsorted
  refine ⟨exec_fsmRun_of_unloaded hc n, fun hv hstart hkn hcommands => ?_⟩
  obtain ⟨hall, hnext⟩ := run_endings (fsmRunStep_simulates hc) (exec_fsmRun_of_loaded hc n hv) hq herr hsorted hv hstart hkn n.isLt
    hcommands
  intro ends
  have hends {t : State} {stopped pos : Word} (ht : exec (.fsmRun cs n) s = .next t)
      (h : s.EndsRun (fun t => (t.result1.extractLsb' 0 16 ++ t.result0.extractLsb' 0 16, t.result2)) d k stopped pos t) :
      ends t stopped pos :=
    ⟨ht, h.result0, h.result1, h.bsPos, h.codeset, h.outPtr, fun j hj => ⟨h.records.first j hj, h.records.second j hj⟩⟩
  refine ⟨fun hk => ?_, fun u hk hu => ⟨fun hok hband => ?_, fun hfail => ?_⟩⟩
  · obtain ⟨t, ht, h, hstatus⟩ := hall hk
    exact ⟨t, hends ht h, hstatus⟩
  · obtain ⟨t, ht, h, hstatus⟩ := (hnext u hk hu).1 hok hband
    exact ⟨t, hends ht h, hstatus⟩
  · obtain ⟨t, ht, h, hinfo, hstatus⟩ := (hnext u hk hu).2 hfail
    exact ⟨t, hends ht h, hinfo, hstatus⟩

/-! ### Runs that make all their steps -/

section Completes
variable {s : State} {c : CsId}

theorem State.streamBits_lt (hq : s.Quiet) (n : Nat) : s.streamBits s.bsPos.toNat n < 2 ^ n :=
  peek_of_quiet hq [] n ▸ s.peek_lt [] n

theorem State.not_bandEndAhead_of_off (h : s.ctrl.bandEndDetect = false) : ¬ s.BandEndAhead c :=
  fun hband => Bool.false_ne_true (h.symm.trans hband.1)

theorem toNat_add_ofNat_le (p : Word) (k : Nat) : (p + BitVec.ofNat 32 k).toNat ≤ p.toNat + k := by
  rw [BitVec.toNat_add, BitVec.toNat_ofNat]
  exact (Nat.mod_le _ _).trans (Nat.add_le_add_left (Nat.mod_le k _) _)

/-- Bits enough for `n` steps are enough for the one after the first `j`. -/
theorem add_le_of_steps {p b n m j len : Nat} (hp : p ≤ b + j * m) (hj : j < n) (hlen : b + n * m ≤ len) : p + m ≤ len := by
  have hmul : (j + 1) * m ≤ n * m := Nat.mul_le_mul_right m hj
  rw [Nat.succ_mul] at hmul
  omega

/-- A step of `VLC_RUN` over complete entries of at most `m` bits, which remain. -/
theorem vlcRunStep_completes (hq : s.Quiet) (hoff : s.ctrl.bandEndDetect = false) {m : Nat}
    (htable : ∀ idx < 4096, (s.fastbookAt c idx).kind = .complete ∧ (s.fastbookAt c idx).shift.toNat ≤ m)
    (hbits : s.bsPos.toNat + m ≤ s.bsLen.toNat) (k : Nat) :
    ∃ w n, n ≤ m ∧
      vlcRunStep c k s = .ok (some w, s.moved c (s.bsPos + BitVec.ofNat 32 n) (s.codeset c).fsmState) := by
  obtain ⟨hkind, hshift⟩ := htable _ (State.streamBits_lt hq 12)
  have hanswer := (State.vlcAnswer_of_complete (State.not_bandEndAhead_of_off hoff) hkind).trans
    (State.afterBits_of_le ((Nat.add_le_add_left hshift _).trans hbits) _)
  have hrun := vlcRunStep_of_ok hq k hanswer (by simp)
  rw [← BitVec.ofNat_toNat] at hrun
  exact ⟨_, _, hshift, hrun⟩

/-- A step of `FSM_RUN` over entries whose next states exist and whose skips, of at most `m` bits, remain. -/
theorem fsmRunStep_completes (hq : s.Quiet) (hoff : s.ctrl.bandEndDetect = false) {m : Nat}
    (hstate : (s.codeset c).fsmState.toNat < (s.codeset c).fsmNumStates.toNat)
    (htable : ∀ i < (s.codeset c).fsmNumStates.toNat * 2 ^ s.params.indexSize,
      (s.fsmAt c i).nextState.toNat < (s.codeset c).fsmNumStates.toNat ∧ (s.fsmAt c i).skips ≤ m)
    (hbits : s.bsPos.toNat + m ≤ s.bsLen.toNat) (k : Nat) :
    ∃ w n x, n ≤ m ∧ x.toNat < (s.codeset c).fsmNumStates.toNat ∧
      fsmRunStep c k s = .ok (some w, s.moved c (s.bsPos + BitVec.ofNat 32 n) x) := by
  have hplace : s.fsmPlace c < (s.codeset c).fsmNumStates.toNat * 2 ^ s.params.indexSize := by
    have hlook := State.streamBits_lt hq s.params.indexSize
    calc s.fsmPlace c < ((s.codeset c).fsmState.toNat + 1) * 2 ^ s.params.indexSize := by
          rw [Nat.succ_mul]
          exact Nat.add_lt_add_left hlook _
      _ ≤ _ := Nat.mul_le_mul_right _ hstate
  obtain ⟨hnext, hskips⟩ := htable _ hplace
  have hanswer := (State.fsmAnswer_of_good (State.not_bandEndAhead_of_off hoff) hnext).trans
    (State.afterBits_of_le ((Nat.add_le_add_left hskips _).trans hbits) _)
  exact ⟨_, _, _, hskips, hnext, fsmRunStep_of_ok hq k hanswer⟩

/-- A run of steps that each decode a record, consume at most `m` bits where so many remain, and keep `Q` of the FSM state. -/
theorem runLoop_completes {f : Nat → State → RunStep} {Q : BitVec 16 → Prop} {n m : Nat}
    (hbits : s.bsPos.toNat + n * m ≤ s.bsLen.toNat) (hstart : Q (s.codeset c).fsmState)
    (hstep : ∀ j p x mem, p.toNat + m ≤ s.bsLen.toNat → Q x →
      ∃ w k y, k ≤ m ∧ Q y ∧ f j (s.inRun c j p x mem) = .ok (some w, (s.inRun c j p x mem).moved c (p + BitVec.ofNat 32 k) y)) :
    ∃ p x mem, p.toNat ≤ s.bsPos.toNat + n * m ∧ Q x ∧
      runLoop f n 0 { s with result0 := 0, result1 := 0 } = .done (s.inRun c n p x mem) := by
  rw [← s.inRun_zero c]
  obtain ⟨u, ⟨p, x, mem, rfl, hp, hx⟩, hrun⟩ := runLoop_of_steps (f := f) (Nat.le_refl n)
    (P := fun j u => ∃ p x mem, u = s.inRun c j p x mem ∧ p.toNat ≤ s.bsPos.toNat + j * m ∧ Q x)
    ⟨_, _, _, rfl, Nat.le_add_right _ _, hstart⟩ fun j hj u ⟨p, x, mem, hu, hp, hx⟩ => by
      obtain ⟨w, k, y, hk, hy, hok⟩ := hstep j p x mem (add_le_of_steps hp hj hbits) hx
      have hq := toNat_add_ofNat_le p k
      rw [hu]
      refine ⟨w, _, hok, _, y, _, s.moved_inRun_afterRecord c j p x mem _ y w, ?_, hy⟩
      rw [Nat.succ_mul]
      omega
  refine ⟨p, x, mem, hp, hx, ?_⟩
  rw [hrun, Nat.sub_self]
  cases c <;> rfl

end Completes

/-- Settles O44: each step finds a complete entry, whose bits remain. -/
theorem vlcRunCompletes : Obligations.VlcRunCompletes := by
  intro s cs c n m hc hq hv hoff htable hbits
  obtain ⟨p, x, mem, hp, -, hrun⟩ := runLoop_completes (c := c) (f := vlcRunStep c) (Q := fun _ => True) hbits trivial
    fun j p x mem hp _ => by
      obtain ⟨w, k, hk, hok⟩ := vlcRunStep_completes (s := s.inRun c j p x mem) (c := c) (m := m)
        (s.quiet_inRun c j p x mem hq) (by simpa using hoff) (by simpa [State.fastbookAt] using htable) (by simpa using hp) j
      rw [State.inRun_bsPos] at hok
      exact ⟨w, k, _, hk, trivial, hok⟩
  rw [exec_vlcRun_of_valid hc n hv, hrun]
  exact ⟨_, rfl, by simp, by simp, by simp, by simp, by simp, by simp, by simp, by simpa using hp⟩

/-- Settles O49: each step finds a good entry in a state of the table, whose skips remain. -/
theorem fsmRunCompletes : Obligations.FsmRunCompletes := by
  intro s cs c n m hc hq k hinit hoff hstate htable hbits
  obtain ⟨p, x, mem, hp, hx, hrun⟩ := runLoop_completes (c := c) (f := fsmRunStep c)
    (Q := fun x => x.toNat < (s.codeset c).fsmNumStates.toNat) hbits hstate fun j p x mem hp hx => by
      obtain ⟨w, q, y, hq', hy, hok⟩ := fsmRunStep_completes (s := s.inRun c j p x mem) (c := c) (m := m)
        (s.quiet_inRun c j p x mem hq) (by simpa using hoff) (by simpa using hx)
        (by simpa [State.fsmAt, FsmEntry.skips] using htable) (by simpa using hp) j
      rw [State.inRun_bsPos] at hok
      exact ⟨w, q, y, hq', by simpa using hy, hok⟩
  rw [exec_fsmRun_of_loaded hc n hinit, hrun]
  exact ⟨_, rfl, by simp, by simp, by simp, by simp, by simp, by simp, by simp, by simpa using hp, by simpa using hx, by simp [k]⟩

end Sys2Proof.Machine
end

section
/-!
SUPPORT. What a decode step makes of a stream of transmitted codewords (spec/43_decode.md R256, spec/30_encoding.md R119, R120): every
match of a prefix-free book is the next of them.
-/

namespace Sys2Proof.Machine

/-! ### Bits of the stream -/

section Bits
variable (s : State) (q m n : Nat)

/-- The bits from `q` on are those up to a place and those from there on. -/
theorem State.streamBits_add : s.streamBits q (m + n) = s.streamBits q m * 2 ^ n + s.streamBits (q + m) n := by
  induction n with
  | zero => simp [streamBits]
  | succ n ih =>
    rw [← Nat.add_assoc, streamBits, ih, streamBits, Nat.add_assoc q m n, pow_succ]
    ring

theorem State.streamBits_lt_two_pow : s.streamBits q n < 2 ^ n := by
  induction n with
  | zero => simp [streamBits]
  | succ n ih =>
    have hbit := Bool.toNat_lt (s.streamBit (q + n))
    rw [streamBits, pow_succ]
    omega

theorem State.streamBits_add_div : s.streamBits q (m + n) / 2 ^ n = s.streamBits q m := by
  rw [streamBits_add, Nat.mul_comm, Nat.mul_add_div (Nat.two_pow_pos n), Nat.div_eq_of_lt (s.streamBits_lt_two_pow _ n),
    Nat.add_zero]

theorem State.streamBits_add_mod : s.streamBits q (m + n) % 2 ^ n = s.streamBits (q + m) n := by
  rw [streamBits_add, Nat.mul_comm, Nat.mul_add_mod, Nat.mod_eq_of_lt (s.streamBits_lt_two_pow _ n)]

theorem State.streamBits_div {width : Nat} (h : n ≤ width) : s.streamBits q width / 2 ^ (width - n) = s.streamBits q n := by
  rw [← s.streamBits_add_div q n (width - n), Nat.add_sub_cancel' h]

end Bits

/-! ### The codeword at a place of the stream -/

section Codeword
variable {s : State} {b : Nat → BookEntry} {len q : Nat}

/-- The codeword of entry `j` stands in the stream at `q`. -/
abbrev State.HasCodeword (s : State) (b : Nat → BookEntry) (q j : Nat) : Prop := s.streamBits q (b j).size = (b j).bits

/-- At most one codeword of a prefix-free book does. -/
theorem PrefixFree.eq_of_hasCodeword (h : PrefixFree b len) {i j : Nat} (hi : i < len) (hj : j < len) (hati : s.HasCodeword b q i)
    (hatj : s.HasCodeword b q j) : i = j := by
  have hleads {i : Nat} (hi : i < len) (hat : s.HasCodeword b q i) : Leads b (s.streamBits q 31) 31 (b i).size i :=
    ⟨rfl, (s.streamBits_div q (b i).size (h.1 i hi).2.1).trans hat⟩
  rcases Nat.le_total (b i).size (b j).size with hle | hle
  · exact h.eq_of_leads hi hj hle (h.1 j hj).2.1 (hleads hi hati) (hleads hj hatj)
  · exact (h.eq_of_leads hj hi hle (h.1 i hi).2.1 (hleads hj hatj) (hleads hi hati)).symm

/-- A transmitted codeword begins with the codeword of its entry. -/
theorem Sent.hasCodeword {t : Sent} (h : s.streamBits q (t.length b) = t.code s.params b) : s.HasCodeword b q t.j := by
  unfold Sent.length Sent.code at h
  split at h
  · exact h
  · rw [State.HasCodeword, ← s.streamBits_add_div q (b t.j).size 2, h]
    have hsign := (if t.negative then s.params.negativeCode else s.params.positiveCode).isLt
    omega

end Codeword

/-! ### One match -/

/-- What a match reports: an entry that leads the window, with its sign. -/
theorem exists_lead_of_matchPattern {p : Params} {b : Nat → BookEntry} {word width len : Nat} {site : Site} {m : MatchHit}
    (h : matchPattern p word width (fun _ => b) len site = some m) :
    ∃ j < len, (b j).size ≤ width ∧ word % 2 ^ width / 2 ^ (width - (b j).size) = (b j).bits ∧
      signedHit p (word % 2 ^ width) width (b j).size (b j) = some m := by
  unfold matchPattern at h
  dsimp only at h
  split at h
  · cases h
  · rename_i size e hfound
    obtain ⟨z, hz, hs⟩ := List.exists_of_findSome?_eq_some hfound
    obtain ⟨e', he', heq⟩ := Option.map_eq_some_iff.1 hs
    cases heq
    obtain ⟨j, hj, rfl, rfl, hlead⟩ := matchSize_some he'
    rw [List.mem_range'_1] at hz
    exact ⟨j, hj, by omega, hlead, h⟩

/-- The hit of `Match` (R155) on the transmitted codeword `t`. -/
def Sent.hit (b : Nat → BookEntry) (t : Sent) : MatchHit := ⟨(b t.j).count, t.value b, t.length b⟩

section Match
variable {s : State} {b : Nat → BookEntry} {len q width : Nat}

/-- A match in a window of the stream is the transmitted codeword that stands there. -/
theorem Sent.hit_of_matchPattern (hpf : PrefixFree b len) (hsigns : s.params.positiveCode ≠ s.params.negativeCode) {t : Sent}
    (hj : t.j < len) (ht : s.streamBits q (t.length b) = t.code s.params b) {site : Site} {m : MatchHit}
    (h : matchPattern s.params (s.streamBits q width) width (fun _ => b) len site = some m) : m = t.hit b := by
  obtain ⟨j, hjlen, hfit, hlead, hhit⟩ := exists_lead_of_matchPattern h
  rw [Nat.mod_eq_of_lt (s.streamBits_lt_two_pow q width)] at hlead hhit
  rw [s.streamBits_div q _ hfit] at hlead
  obtain rfl : j = t.j := hpf.eq_of_hasCodeword hjlen hj hlead (Sent.hasCodeword ht)
  rw [signedHit_eq] at hhit
  unfold Sent.hit Sent.value Sent.length
  by_cases hv : (b t.j).value = 0
  · rw [if_pos hv] at hhit
    simp [hv, ← Option.some.inj hhit]
  · rw [if_neg hv] at hhit
    unfold Sent.length Sent.code at ht
    rw [if_neg hv, if_neg hv] at ht
    by_cases hwidth : width < (b t.j).size + 2
    · simp [hwidth] at hhit
    · rw [if_neg hwidth, Nat.sub_sub, s.streamBits_div q _ (Nat.not_lt.1 hwidth), ht, Nat.mul_add_mod] at hhit
      have hne : s.params.positiveCode.toNat ≠ s.params.negativeCode.toNat := mt BitVec.eq_of_toNat_eq hsigns
      rw [Nat.mod_eq_of_lt (BitVec.isLt _)] at hhit
      cases hsign : t.negative with
      | false => simpa [hsign, hne, hv, eq_comm] using hhit
      | true => simpa [hsign, hv, eq_comm] using hhit

/-- The bits of transmitted codewords. -/
def Sent.bits (b : Nat → BookEntry) (l : List Sent) : Nat := (l.map (Sent.length b)).sum

@[simp] theorem Sent.bits_nil : Sent.bits b [] = 0 := rfl
@[simp] theorem Sent.bits_cons (t : Sent) (l : List Sent) : Sent.bits b (t :: l) = t.length b + Sent.bits b l := by
  simp [Sent.bits]

/-- A match in a window of the stream that consumes no more than the transmitted codewords is the first of them. -/
theorem State.Holds.exists_hit {l : List Sent} (hholds : s.Holds b q l) (hl : ∀ x ∈ l, x.j < len) (hpf : PrefixFree b len)
    (hsigns : s.params.positiveCode ≠ s.params.negativeCode) {site : Site} {m : MatchHit}
    (h : matchPattern s.params (s.streamBits q width) width (fun _ => b) len site = some m) (hend : m.shift ≤ Sent.bits b l) :
    ∃ t rest, l = t :: rest ∧ m = t.hit b := by
  cases l with
  | nil =>
    obtain ⟨j, -, -, e, -, -, hpos, -, hsize, -⟩ := matchPattern_some h
    rw [Sent.bits_nil] at hend
    omega
  | cons t rest => exact ⟨t, rest, rfl, Sent.hit_of_matchPattern hpf hsigns (hl t (by simp)) hholds.1 h⟩

end Match

/-! ### The loop of `ScanEntry` over the stream -/

/-- `n` bits, `cnt` positions and the value `v` are those of the first `k` transmitted codewords. -/
structure Sent.Decodes (b : Nat → BookEntry) (l : List Sent) (k cnt : Nat) (v : Int) (n : Nat) : Prop where
  bits : n = Sent.bits b (l.take k)
  count : cnt = ((l.take k).map fun x => (b x.j).count).sum
  value_of_none : k = 0 → v = 0
  value_of_some : 0 < k → ∃ last, l[k - 1]? = some last ∧ v = last.value b

section Decodes
variable {b : Nat → BookEntry} {l : List Sent} {t : Sent}

theorem Sent.Decodes.none : Sent.Decodes b l 0 0 0 0 := ⟨rfl, rfl, fun _ => rfl, fun h => absurd h (Nat.lt_irrefl 0)⟩

theorem Sent.Decodes.one : Sent.Decodes b (t :: l) 1 (b t.j).count (t.value b) (t.length b) :=
  ⟨by simp, by simp, by simp, fun _ => ⟨t, rfl, rfl⟩⟩

/-- A codeword of value 0 goes before the others. -/
theorem Sent.Decodes.cons {k cnt n : Nat} {v : Int} (h : Sent.Decodes b l k cnt v n) (ht : t.value b = 0) :
    Sent.Decodes b (t :: l) (k + 1) ((b t.j).count + cnt) v (t.length b + n) where
  bits := by simp [h.bits]
  count := by simp [h.count]
  value_of_none := by simp
  value_of_some _ := by
    cases k with
    | zero => exact ⟨t, rfl, (h.value_of_none rfl).trans ht.symm⟩
    | succ k => simpa using h.value_of_some (Nat.succ_pos k)

end Decodes

section Scan
variable {s : State} {b : Nat → BookEntry} {len : Nat}

/-- A run of the loop over a window of the stream that consumes no more than the transmitted codewords consumes the first of them. -/
theorem ScanRun.decodes (hpf : PrefixFree b len) (hcount : ∀ j < len, 1 ≤ (b j).count)
    (hsigns : s.params.positiveCode ≠ s.params.negativeCode) {p idx rem cnt sh : Nat} {r : Nat × Int × Nat}
    (hidx : idx = s.streamBits p 12) (h : ScanRun s.params b len idx rem cnt sh r) (hrem : rem + sh = 12) {l : List Sent}
    (hl : ∀ x ∈ l, x.j < len) (hholds : s.Holds b (p + sh) l) (hend : r.2.2 ≤ sh + Sent.bits b l) :
    ∃ k count n, Sent.Decodes b l k count r.2.1 n ∧ r.1 = cnt + count ∧ r.2.2 = sh + n := by
  have hwindow {rem sh : Nat} (hrem : rem + sh = 12) : idx % 2 ^ rem = s.streamBits (p + sh) rem := by
    rw [hidx, ← hrem, Nat.add_comm, s.streamBits_add_mod]
  induction h generalizing l with
  | exhausted cnt sh => exact ⟨0, 0, 0, .none, rfl, rfl⟩
  | notFound rem cnt sh hm => exact ⟨0, 0, 0, .none, rfl, rfl⟩
  | value rem cnt sh m hr hm hv =>
    rw [hwindow hrem] at hm
    obtain ⟨t, rest, rfl, rfl⟩ := hholds.exists_hit hl hpf hsigns hm (by dsimp only at hend; omega)
    exact ⟨1, _, _, .one, rfl, rfl⟩
  | zeroRun rem cnt sh m r hr hm hv hrest ih =>
    have hshift := (hrest.bounds hcount).2.1
    obtain ⟨-, -, -, -, -, -, -, -, -, hfit, -⟩ := matchPattern_some hm
    rw [hwindow hrem] at hm
    obtain ⟨t, rest, rfl, rfl⟩ := hholds.exists_hit hl hpf hsigns hm (by omega)
    rw [Sent.bits_cons] at hend
    obtain ⟨k, count, n, hdecodes, hcnt, hsh⟩ := ih (by omega) (fun x hx => hl x (List.mem_cons_of_mem t hx))
      (by rw [← Nat.add_assoc]; exact hholds.2) (by simp only [Sent.hit]; omega)
    exact ⟨k + 1, _, _, hdecodes.cons hv, by rw [hcnt, Nat.add_assoc]; rfl, by rw [hsh, Nat.add_assoc]; rfl⟩

theorem markerScan_kind_ne (p : Params) (book : Book) (site : Site) (idx : Nat) :
    (markerScan p book len site idx).kind ≠ .complete := by
  unfold markerScan
  split
  · simp
  · decide

/-- A complete scan entry is what the loop gives (R160). -/
theorem scanEntry_complete {p : Params} {idx : Nat} {e : FastEntry} (hcount : ∀ j < len, 1 ≤ (b j).count)
    (h : scanEntry p (fun _ => b) len [] idx = some e) (hkind : e.kind = .complete) :
    ∃ cnt v sh, ScanRun p b len idx 12 0 0 (cnt, v, sh) ∧ cnt < 2 ^ 32 ∧ 0 < sh ∧ sh ≤ 12 ∧ e = .ofParts cnt v sh := by
  obtain ⟨⟨cnt, v, sh⟩, hrun⟩ := ScanRun.exists_result p b len idx 12 0 0
  obtain ⟨-, -, hle, -⟩ : 0 ≤ cnt ∧ 0 ≤ sh ∧ sh ≤ 0 + 12 ∧ (0 = cnt ↔ 0 = sh) := hrun.bounds hcount
  rw [scanEntry, hrun.scanLoop_eq hcount ([] ++ [0, idx]) (Nat.le_refl 12) (by decide), ScanEnd.ofResult] at h
  by_cases hover : 2 ^ 32 ≤ cnt
  · rw [if_pos hover] at h
    cases h
  · rw [if_neg hover] at h
    by_cases hsh : 0 < sh
    · rw [if_pos hsh] at h
      exact ⟨cnt, v, sh, hrun, Nat.not_le.1 hover, hsh, by omega, (Option.some.inj h).symm⟩
    · rw [if_neg hsh] at h
      obtain rfl := Option.some.inj h
      exact absurd hkind (markerScan_kind_ne p _ _ idx)

end Scan

/-! ### A decode step over the stream -/

theorem State.RlvValid.one_le_count {s : State} {c : CsId} (h : s.RlvValid c) {j : Nat} (hj : j < (s.codeset c).rlvLen.toNat) :
    1 ≤ (s.rlvEntry c j).count := by
  have hgood := h j hj
  simp only [BookEntry.badRunValue, BookEntry.badRun, Bool.or_eq_false_iff, decide_eq_false_iff_not] at hgood
  omega

/-- The answer of a step over a scan table and a stream of transmitted codewords is that of one or more of them. -/
theorem State.vlcAnswer_decodes {s : State} {c : CsId} {l : List Sent} {r : VlcStep}
    (hsigns : s.params.positiveCode ≠ s.params.negativeCode) (hlegacy : (s.codeset c).valid.fastbookLegacy = false)
    (hq : s.Quiet) (hoff : s.ctrl.bandEndDetect = false) (hpf : PrefixFree (s.rlvEntry c) (s.codeset c).rlvLen.toNat)
    (hready : s.RlvReady c)
    (htable : ∀ idx < 4096,
      scanEntry s.params (fun _ => s.rlvEntry c) (s.codeset c).rlvLen.toNat [] idx = some (s.fastbookAt c idx))
    (hl : ∀ x ∈ l, x.j < (s.codeset c).rlvLen.toNat) (hholds : s.Holds (s.rlvEntry c) s.bsPos.toNat l)
    (hend : s.bsPos.toNat + Sent.bits (s.rlvEntry c) l = s.bsLen.toNat) (h : s.vlcAnswer c = .ok r) :
    ∃ k cnt v n, 0 < k ∧ Sent.Decodes (s.rlvEntry c) l k cnt v n ∧ cnt < 2 ^ 32 ∧ s.bsPos.toNat + n ≤ s.bsLen.toNat ∧
      r.count = BitVec.ofNat 32 cnt ∧ r.value = BitVec.ofInt 32 v ∧ r.shift = BitVec.ofNat 32 n := by
  have hcount : ∀ j < (s.codeset c).rlvLen.toNat, 1 ≤ (s.rlvEntry c j).count := fun j hj => hready.1.one_le_count hj
  have hband : ¬ s.BandEndAhead c := not_bandEndAhead_of_off hoff
  cases hkind : (s.nextFast c).kind with
  | unmatched =>
    rw [vlcAnswer_of_unmatched hband hkind] at h
    cases h
  | complete =>
    rw [vlcAnswer_of_complete hband hkind, afterBits_eq_ok_iff] at h
    obtain ⟨hfit, rfl⟩ := h
    obtain ⟨cnt, v, sh, hrun, hcnt, hpos, hsh, hentry⟩ := scanEntry_complete hcount (htable _ (streamBits_lt hq 12)) hkind
    have hentry : s.nextFast c = .ofParts cnt v sh := hentry
    have hshift : (s.nextFast c).shift.toNat = sh := by
      rw [hentry, FastEntry.ofParts, BitVec.toNat_ofNat]
      omega
    rw [hshift] at hfit
    obtain ⟨k, count, n, hdecodes, hk, hn⟩ := hrun.decodes hpf hcount hsigns rfl rfl hl hholds (by dsimp only; omega)
    rw [Nat.zero_add] at hk hn
    subst hk hn
    refine ⟨k, _, v, _, ?_, hdecodes, hcnt, hfit, by rw [hentry]; rfl, by rw [hentry]; rfl, ?_⟩
    · by_contra hzero
      have hnone := hdecodes.bits
      rw [Nat.eq_zero_of_not_pos hzero, List.take_zero, Sent.bits_nil] at hnone
      exact Nat.ne_of_gt hpos hnone
    · rw [← hshift, BitVec.ofNat_toNat]
  | marker =>
    rw [vlcAnswer_of_marker hband hkind] at h
    cases hhit : s.slowHit c with
    | none =>
      rw [hhit] at h
      cases h
    | some m =>
      rw [hhit, Option.elim_some, afterBits_eq_ok_iff] at h
      obtain ⟨hfit, rfl⟩ := h
      simp only [slowHit, hlegacy, Bool.false_eq_true, if_false] at hhit
      obtain ⟨x, rest, rfl, rfl⟩ := hholds.exists_hit hl hpf hsigns hhit (by omega)
      have hcnt := hready.2 x.j (hl x (by simp))
      exact ⟨1, _, _, _, Nat.one_pos, .one, by omega, hfit, rfl, rfl, rfl⟩

/-- Settles O46: a successful step has an answer, which is that of one or more whole codewords. -/
theorem decodesWholeCodewords : Obligations.DecodesWholeCodewords := by
  intro s t cs c l hc hq herr hsigns hv hlegacy hoff hpf hready htable hl hholds hend h hok
  cases hanswer : s.vlcAnswer c with
  | error f =>
    obtain rfl := Host.Outcome.next.inj ((exec_vlcDecode_of_error hc hq hv hanswer).symm.trans h)
    cases hok
  | ok r =>
    obtain rfl := Host.Outcome.next.inj ((exec_vlcDecode_of_ok hc hq hv hanswer).symm.trans h)
    obtain ⟨k, cnt, v, n, hk, hdecodes, hcnt, hfit, hrcount, hrvalue, hrshift⟩ :=
      State.vlcAnswer_decodes hsigns hlegacy hq hoff hpf hready htable hl hholds hend hanswer
    obtain ⟨last, hlast, hv⟩ := hdecodes.value_of_some hk
    refine ⟨k, last, hk, hlast, ?_, ?_, ?_⟩
    · show (s.bsPos + r.shift).toNat = _
      rw [hrshift]
      exact (State.consume_bsPos (State.consume_of_le hfit)).trans (congrArg _ hdecodes.bits)
    · show r.count.toNat = _
      rw [hrcount, BitVec.toNat_ofNat, Nat.mod_eq_of_lt hcnt, hdecodes.count]
    · show r.value = _
      rw [hrvalue, hv]

end Sys2Proof.Machine
end

section
/-!
SUPPORT. The engine between a command's acceptance and its end (spec/60_exceptions.md R301 to R306, R315): the step that runs a
decoded command, and what acceptance, completion and failure write.
-/

namespace Sys2Proof.Machine

/-! ### The engine's step -/

/-- The engine runs its command unless it is held in reset. -/
theorem State.runEngine_of_busy {s : State} {w : Word} (hbusy : s.engine = .busy w) (hreset : s.resetLine = false) :
    s.runEngine = s.completed w := by
  simp [State.runEngine, hbusy, hreset]

/-- A command of which no part was carried out before is carried out whole. -/
theorem State.completed_of_start {s : State} {w : Word} {i : Instr} (hi : decode w = .ok i) (hp : s.progress = .start) :
    s.completed w = exec i s := by
  simp only [State.completed, hi, if_pos hp]

/-- Without an event in the schedule the engine acts. -/
theorem step_of_inputs_nil {s : State} (h : s.inputs = []) : step s = s.runEngine := by
  simp only [step, State.advance, h]

/-- The state that `withFetchWord` prepares runs the word at its acceptance. -/
theorem step_withFetchWord (s : State) (w : Word) :
    step (s.withFetchWord 32 w.toNat) = State.completed { s.accept w with resetLine := false } w := by
  have hw : BitVec.ofNat 32 (w.toNat % 2 ^ 32) = w := by
    rw [Nat.mod_eq_of_lt w.isLt, BitVec.ofNat_toNat, BitVec.setWidth_eq]
  rw [State.withFetchWord, hw]
  exact step_engine_of_busy (s := s.issue w) rfl rfl rfl

/-- Settles O4: the engine's event, and the empty schedule, complete the running command, which is carried out whole. -/
theorem stepRunsDecodedCommand : Obligations.StepRunsDecodedCommand := by
  refine fun s w i hi => ⟨fun hbusy hstart hreset => ⟨fun rest hinputs => ?_, fun hinputs => ?_⟩, ?_⟩
  · rw [step_engine_of_busy hbusy hreset hinputs]
    exact State.completed_of_start hi hstart
  · rw [step_of_inputs_nil hinputs, State.runEngine_of_busy hbusy hreset, State.completed_of_start hi hstart]
  · rw [step_withFetchWord]
    exact State.completed_of_start hi rfl

/-! ### Acceptance -/

/-- Settles O6: offset 0x010 is `CMD`, and an idle engine accepts a word written there. -/
theorem commandAcceptance : Obligations.CommandAcceptance := by
  intro s w rest hidle hreset hinputs
  rw [step_write hinputs (by decide), State.hostWrite_of_idle (s := { s with inputs := rest }) hidle hreset]
  rfl

/-! ### Completion and failure -/

section StatusWord
variable (s : State)

theorem State.statusWord_done : s.statusWord.getLsbD 1 = s.status.done := by
  simp only [State.statusWord, BitVec.getLsbD_or, getLsbD_bitAtPlace _ (show 1 < 32 by omega)]
  simp

theorem State.statusWord_err : s.statusWord.getLsbD 2 = s.status.err := by
  simp only [State.statusWord, BitVec.getLsbD_or, getLsbD_bitAtPlace _ (show 2 < 32 by omega)]
  simp

/-- Bits 15:8 of `STATUS` are `ERRCODE` (R37): the six bits of the other fields lie below them. -/
theorem State.statusWord_errCode : s.statusWord.extractLsb' 8 8 = s.status.errCode.toByte := by
  refine BitVec.eq_of_getLsbD_eq fun j hj => ?_
  simp only [State.statusWord, BitVec.getLsbD_extractLsb', BitVec.getLsbD_or, getLsbD_bitAtPlace _ (show 8 + j < 32 by omega)]
  simp [hj, show 8 + j < 32 by omega, show 8 + j ≠ 1 by omega, show 8 + j ≠ 2 by omega,
    show 8 + j ≠ 3 by omega, show 8 + j ≠ 4 by omega, show 8 + j ≠ 5 by omega]

/-- The interrupt is deasserted where `DONE` is 0 (R315). -/
theorem State.irq_of_not_done {s : State} (h : s.status.done = false) : s.irq = false := by simp [State.irq, h]

/-- After a completion or a failure the interrupt follows its enable bit. -/
theorem State.irq_of_done {s : State} (h : s.status.done = true) : s.irq = s.ctrl.irqEn := by simp [State.irq, h]

/-- A W1C write of `DONE` clears it (R37). -/
theorem State.writeStatus_done {v : Word} (hv : v.getLsbD 1 = true) : (s.writeStatus v).status.done = false := by
  simp [State.writeStatus_eq, hv]

end StatusWord

/-- Settles O7: the fields by the definitions, `STATUS` bit by bit, and the interrupt by `DONE`. -/
theorem completionAndFailure : Obligations.CompletionAndFailure := by
  refine ⟨fun s f => ⟨rfl, rfl, ?_⟩, rfl, rfl, rfl, rfl, rfl, rfl, rfl, rfl, rfl, rfl, rfl, rfl⟩
  simp only [State.statusWord_busy, State.statusWord_done, State.statusWord_err, State.statusWord_errCode]
  exact ⟨rfl, rfl, rfl, rfl, rfl, rfl, BitVec.toNat_ofNat f.info 32, State.irq_of_done rfl, State.irq_of_done rfl,
    fun _ => State.irq_of_not_done rfl, fun _ hv => State.irq_of_not_done (s.writeStatus_done hv)⟩

end Sys2Proof.Machine
end

section
/-!
SUPPORT. What every command body keeps besides the frame: no bit of `STATUS` that stays until the host clears it is cleared
(spec/60_exceptions.md R311), and no part of the command is recorded as carried out.
-/

namespace Sys2Proof.Machine

/-- From one `STATUS` to the next none of the three sticky bits was cleared. -/
structure Status.Latches (a b : Status) : Prop where
  bandEnd : a.bandEnd = true → b.bandEnd = true
  unmatched : a.unmatched = true → b.unmatched = true
  overrun : a.overrun = true → b.overrun = true

theorem Status.Latches.refl (a : Status) : a.Latches a := ⟨id, id, id⟩

theorem Status.Latches.trans {a b d : Status} (h : a.Latches b) (h' : b.Latches d) : a.Latches d :=
  ⟨h'.bandEnd ∘ h.bandEnd, h'.unmatched ∘ h.unmatched, h'.overrun ∘ h.overrun⟩

/-- From `s` to `t` a command body went on: it cleared no sticky bit, and recorded no part as carried out. -/
structure State.GoesOn (s t : State) : Prop where
  latches : s.status.Latches t.status
  progress : t.progress = s.progress

namespace State.GoesOn

variable {s t u : State} {c : CsId}

/-! ### Rules -/

/-- `STATUS` is the same: whatever else changed does not count. -/
theorem of_status (hstatus : t.status = s.status := by simp)
    (hprogress : t.progress = s.progress := by simp) : s.GoesOn t :=
  ⟨hstatus ▸ .refl _, hprogress⟩

theorem refl (s : State) : s.GoesOn s := of_status

theorem trans (h : s.GoesOn t) (h' : t.GoesOn u) : s.GoesOn u := ⟨h.latches.trans h'.latches, h'.progress.trans h.progress⟩

theorem setCodeset (s : State) (c : CsId) (v : Codeset) : s.GoesOn (s.setCodeset c v) :=
  of_status (s.setCodeset_status c v) (s.setCodeset_progress c v)

theorem andThen {b : Body} {k : State → Body} (h : s.GoesOn b.state) (hk : ∀ t : State, t.GoesOn (k t).state) :
    s.GoesOn (b.andThen k).state := by
  cases b with
  | done t => exact h.trans (hk t)
  | failed f t => exact h

/-- A completion, or a failure, clears no sticky bit (R305, R306). -/
theorem latches_finish {b : Body} (h : s.GoesOn b.state) : s.status.Latches b.finish.status := by
  cases b with
  | done t => exact h.latches.trans ⟨id, id, id⟩
  | failed f t => exact h.latches.trans ⟨id, id, id⟩

/-- A command with a codeset field clears what its bodies clear; for codeset 3 it fails. -/
theorem latches_onCodeset {cs : BitVec 2} {b : CsId → Body} (h : ∀ c, s.GoesOn (b c).state) :
    s.status.Latches (s.onCodeset cs fun c => (b c).finish).status := by
  rcases s.onCodeset_cases cs fun c => (b c).finish with ⟨hfail, -⟩ | ⟨c, -, hk⟩
  · rw [hfail]
    exact ⟨id, id, id⟩
  · rw [hk]
    exact (h c).latches_finish

/-! ### The table generator -/

theorem sortRunLength (s : State) (c : CsId) : s.GoesOn (s.sortRunLength c).state := by
  rcases s.sortRunLength_cases c with ⟨f, hfail, -⟩ | ⟨-, -, -, -, hdone⟩
  · rw [hfail]
    exact refl s
  · rw [hdone]
    exact of_status

theorem buildRunLength (s : State) (c : CsId) : s.GoesOn (s.buildRunLength c).state :=
  (setCodeset s c _).trans (andThen (sortRunLength _ c) fun _ => of_status)

/-- A fill may set `UNMATCHED`. -/
theorem finishFill (s : State) (c : CsId) (legacy : Bool) (filled : List FastEntry × Option Nat) :
    s.GoesOn (s.finishFill c legacy filled).state := by
  rcases s.finishFill_cases c legacy filled.1 filled.2 with ⟨idx, -, hfail⟩ | ⟨-, hdone⟩
  · rw [hfail]
    exact setCodeset s c _
  · rw [hdone]
    exact ⟨⟨id, fun h => by simp [h], id⟩, s.setCodeset_progress c _⟩

theorem startFill (s : State) (c : CsId) : s.GoesOn (s.startFill c) := setCodeset s c _

theorem fillScanLut (s : State) (c : CsId) : s.GoesOn (s.fillScanLut c).state := by
  rcases s.fillScanLut_cases c with ⟨f, hfail, -⟩ | ⟨-, hfill⟩
  · rw [hfail]
    exact startFill s c
  · rw [hfill]
    exact (startFill s c).trans (finishFill _ c _ _)

theorem fillCodeLut (s : State) (c : CsId) : s.GoesOn (s.fillCodeLut c).state := by
  rcases s.fillCodeLut_cases c with ⟨f, hfail, -⟩ | ⟨-, hfill⟩
  · rw [hfail]
    exact startFill s c
  · rw [hfill]
    exact (startFill s c).trans (finishFill _ c _ _)

theorem buildCubic (s : State) : s.GoesOn s.buildCubic :=
  of_status s.buildCubic_status (by simp only [State.buildCubic])

theorem startValues (s : State) (c : CsId) : s.GoesOn (s.startValues c) := setCodeset s c _

theorem fillVlcTable (s : State) (c : CsId) : s.GoesOn (s.fillVlcTable c).state := by
  rcases s.fillVlcTable_cases c with ⟨f, hfail, -⟩ | ⟨p, -, -, hdone⟩
  · rw [hfail]
    exact startValues s c
  · rw [hdone]
    refine (startValues s c).trans (trans ?_ (of_status (State.setCodeset_status _ c _) (State.setCodeset_progress _ c _)))
    split
    · exact buildCubic _
    · exact refl _

theorem initLookup (s : State) (c : CsId) : s.GoesOn (s.initLookup c).state :=
  andThen (buildRunLength s c) fun t => by
    split
    · exact fillCodeLut t c
    · exact fillScanLut t c

theorem initValues (s : State) (c : CsId) : s.GoesOn (s.initValues c).state :=
  andThen (fillVlcTable s c) fun _ => of_status (State.setCodeset_status _ c _) (State.setCodeset_progress _ c _)

theorem initCodebooks (s : State) (c : CsId) : s.GoesOn (s.initCodebooks c).state := by
  unfold State.initCodebooks
  split
  · exact of_status
  · exact andThen (initLookup s c) fun t => initValues t c

theorem matchCommand (s : State) (c : CsId) (width : Nat) : s.GoesOn (s.matchCommand c width).state := by
  rcases s.matchCommand_cases c width with ⟨f, hfail, -⟩ | ⟨-, -, -, ⟨m, -, hdone⟩ | ⟨-, hdone⟩⟩
  · rw [hfail]
    exact refl s
  · rw [hdone]
    exact of_status
  · rw [hdone]
    exact of_status

/-! ### The FSM tables -/

theorem loadFsm (s : State) (c : CsId) : s.GoesOn (s.loadFsm c).state := by
  rcases s.loadFsm_cases c with ⟨-, hskip⟩ | ⟨-, ⟨-, hfail⟩ | ⟨-, hdone⟩⟩
  · rw [hskip]
    exact of_status
  · rw [hfail]
    exact refl s
  · rw [hdone]
    exact of_status

theorem scaleFsm (s : State) (c : CsId) : s.GoesOn (s.scaleFsm c).state := by
  rcases s.scaleFsm_cases c with ⟨f, hfail, -⟩ | ⟨-, hskip | ⟨-, p, -, -, hdone⟩⟩
  · rw [hfail]
    exact refl s
  · rw [hskip]
    exact of_status
  · rw [hdone]
    exact of_status

theorem extractBandEnd (s : State) (c : CsId) : s.GoesOn (s.extractBandEnd c).state := by
  rcases s.extractBandEnd_cases c with ⟨f, hfail, -⟩ | ⟨-, -, -, -, hdone⟩
  · rw [hfail]
    exact setCodeset s c _
  · rw [hdone]
    exact of_status (by simp [State.setValid]) (by simp [State.setValid])

theorem initDecoderFsm (s : State) (c : CsId) : s.GoesOn (s.initDecoderFsm c).state :=
  andThen (loadFsm s c) fun t => andThen (scaleFsm t c) fun u => andThen (extractBandEnd u c) fun _ => of_status

/-! ### The decode commands -/

theorem consume {n : Nat} (h : s.consume n = .ok t) : s.GoesOn t := by
  obtain ⟨-, rfl⟩ := (s.consume_ok_iff t n).1 h
  exact of_status

/-- The band-end code sets `BAND_END`. -/
theorem bandEndCheck {site : Site} (h : s.bandEndCheck c site = some t) : s.GoesOn t := by
  rcases s.bandEndCheck_cases c site with hnone | ⟨-, -, -, -, hsome⟩
  · rw [hnone] at h
    cases h
  · obtain rfl := Option.some.inj (hsome.symm.trans h)
    exact ⟨⟨fun _ => rfl, id, id⟩, rfl⟩

theorem vlcStep {site : Site} {r : VlcStep} (h : s.vlcStep c site = .ok (r, t)) : s.GoesOn t := by
  rcases s.vlcStep_cases c site with ⟨f, hfail, -⟩ | ⟨u, hband, hok⟩ | ⟨r', n, -, -, -, hok⟩
  · rw [hfail] at h
    cases h
  · rw [hok] at h
    cases h
    exact bandEndCheck hband
  · rw [hok] at h
    cases h
    exact of_status

theorem fsmStep {site : Site} {e : Option FsmEntry} (h : s.fsmStep c site = .ok (e, t)) : s.GoesOn t := by
  rcases s.fsmStep_cases c site with ⟨f, hfail, -⟩ | ⟨u, hband, hok⟩ | ⟨e', -, -, -, -, hok⟩
  · rw [hfail] at h
    cases h
  · rw [hok] at h
    cases h
    exact bandEndCheck hband
  · rw [hok] at h
    cases h
    exact of_status

theorem vlcDecode (s : State) (c : CsId) : s.GoesOn (s.vlcDecode c).state := by
  unfold State.vlcDecode
  split
  · exact refl s
  · split
    · exact refl s
    · rename_i r t hstep
      exact (vlcStep hstep).trans of_status

theorem fsmStepCommand (s : State) (c : CsId) : s.GoesOn (s.fsmStepCommand c).state := by
  unfold State.fsmStepCommand
  split
  · exact refl s
  · split
    · exact refl s
    · rename_i t hstep
      exact (fsmStep hstep).trans of_status
    · rename_i e t hstep
      exact (fsmStep hstep).trans of_status

theorem fsmSetState (s : State) (c : CsId) (n : Nat) : s.GoesOn (s.fsmSetState c n).state := by
  unfold State.fsmSetState
  dsimp only
  split
  · exact refl s
  · split
    · exact refl s
    · exact setCodeset s c _

/-- A step of a run may set `BAND_END`. -/
theorem running_step {i : Instr} {r : Run} {k : Nat} {o : Option (Word × Word)} (h : s.running i = some r)
    (hstep : r.step k u = .ok (o, t)) : u.GoesOn t := by
  obtain ⟨c, p, b, x, rfl⟩ := State.running_step h hstep
  refine trans (t := { u with bsPos := p, status := { u.status with bandEnd := u.status.bandEnd || b } }) ?_ (setCodeset _ c _)
  exact ⟨⟨fun hset => by simp [hset], id, id⟩, rfl⟩

/-- A run does what its steps do. -/
theorem runLoop {i : Instr} {r : Run} (h : s.running i = some r) (left steps : Nat) (u : State) :
    u.GoesOn (runLoop r.step left steps u).state :=
  runLoop_induct (P := u.GoesOn) (fun _ hgo => hgo) (fun _ hgo => hgo.trans of_status)
    (fun _ _ _ hgo hstep => (hgo.trans (running_step h hstep)).trans of_status)
    (fun _ _ _ _ _ hgo hstep => (hgo.trans (running_step h hstep)).trans of_status) left steps u (refl u)

/-! ### The bit-shift unit -/

theorem bsPeek (s : State) (n : Nat) : s.GoesOn (s.bsPeek n).state := by
  unfold State.bsPeek
  split
  · exact refl s
  · exact of_status

theorem bsGet (s : State) (n : Nat) : s.GoesOn (s.bsGet n).state := by
  unfold State.bsGet
  split
  · exact refl s
  · split
    · exact refl s
    · rename_i t hok
      exact (consume hok).trans of_status

theorem bsSkip (s : State) (n : Nat) : s.GoesOn (s.bsSkip n).state := by
  unfold State.bsSkip
  split
  · exact refl s
  · rename_i t hok
    exact consume hok

end State.GoesOn

/-! ### All commands -/

/-- A run clears no sticky bit: it fails before its loop, or its steps set `BAND_END` at most. -/
theorem exec_run_latches {i : Instr} {cs : BitVec 2} {n : BitVec 24} (hi : i = .vlcRun cs n ∨ i = .fsmRun cs n) {s t : State}
    (h : exec i s = .next t) : s.status.Latches t.status := by
  rcases exec_run_cases hi s with ⟨f, hfail⟩ | ⟨r, hr, -⟩
  · obtain rfl := Host.Outcome.next.inj (hfail.symm.trans h)
    exact ⟨id, id, id⟩
  · obtain rfl := Host.Outcome.next.inj ((exec_of_running hr).symm.trans h)
    have hclear : s.GoesOn { s with result0 := 0, result1 := 0 } := .of_status
    exact (hclear.trans (.runLoop hr _ _ _)).latches_finish

open State.GoesOn in
/-- No command clears a sticky bit. -/
theorem exec_latches {i : Instr} {s t : State} (h : exec i s = .next t) : s.status.Latches t.status := by
  cases i
  case vlcRun cs n => exact exec_run_latches (.inl rfl) h
  case fsmRun cs n => exact exec_run_latches (.inr rfl) h
  all_goals obtain rfl := Host.Outcome.next.inj h
  case nop => exact (refl s).latches_finish (b := .done s)
  case initCodebooks => exact latches_onCodeset (initCodebooks s)
  case sortRunlength => exact latches_onCodeset (sortRunLength s)
  case buildRunlength => exact latches_onCodeset (buildRunLength s)
  case fillScanLut => exact latches_onCodeset (fillScanLut s)
  case fillCodeLut => exact latches_onCodeset (fillCodeLut s)
  case buildCubic => exact (buildCubic s).latches_finish (b := .done s.buildCubic)
  case fillVlcTable => exact latches_onCodeset (fillVlcTable s)
  case loadFsm => exact latches_onCodeset (loadFsm s)
  case scaleFsm => exact latches_onCodeset (scaleFsm s)
  case extractBandEnd => exact latches_onCodeset (extractBandEnd s)
  case initDecoderFsm => exact latches_onCodeset (initDecoderFsm s)
  case freeCodebooks => exact latches_onCodeset (b := fun c => .done _) fun c => setCodeset s c _
  case matchPattern imm => exact latches_onCodeset fun c => matchCommand s c imm.toNat
  case bsPeek imm => exact (bsPeek s imm.toNat).latches_finish
  case bsGet imm => exact (bsGet s imm.toNat).latches_finish
  case bsSkip imm => exact (bsSkip s imm.toNat).latches_finish
  case vlcDecode => exact latches_onCodeset (vlcDecode s)
  case fsmSetState imm => exact latches_onCodeset fun c => fsmSetState s c imm.toNat
  case fsmStep => exact latches_onCodeset (fsmStepCommand s)

end Sys2Proof.Machine
end

section
/-!
SUPPORT. How a command ends (spec/60_exceptions.md R305, R306, R310), and that the parts of a command which other agents can see
before (log entry 4) do not change where it ends (spec/20_memory.md R93, spec/70_reset_and_hazards.md R357).
-/

namespace Sys2Proof.Machine

/-! ### Every command ends -/

/-- No command faults or is refused. -/
theorem exec_total (i : Instr) (s : State) : ∃ t, exec i s = .next t := by cases i <;> exact ⟨_, rfl⟩

/-- Nor does the completion of a command word (R310). -/
theorem State.completed_total (s : State) (w : Word) : ∃ t, s.completed w = .next t := by
  unfold State.completed
  split
  · exact ⟨_, rfl⟩
  · exact ⟨_, rfl⟩
  · split
    · exact exec_total _ s
    · exact ⟨_, rfl⟩

theorem Body.finish_engine (b : Body) : b.finish.engine = .idle := by cases b <;> rfl
theorem Body.finish_done_bit (b : Body) : b.finish.status.done = true := by cases b <;> rfl
theorem Body.finish_progress (b : Body) : b.finish.progress = .start := by cases b <;> rfl

/-- The error report after a sound body of an accepted command: as clear as before, or a failure with a code (R41). -/
theorem Body.Sound.finish_report {s : State} {b : Body} (h : b.Sound s) (hs : s.Accepted) :
    b.finish.status.err = false ∧ b.finish.status.errCode = .none ∧ b.finish.errInfo = 0 ∨
      b.finish.status.err = true ∧ b.finish.status.errCode ≠ .none := by
  cases b with
  | failed f t => exact .inr ⟨rfl, h.1⟩
  | done t =>
    have kept {α : Type} (f : State → α) : f t.kept = f s.kept := congrArg f (State.Keeps.kept h)
    obtain ⟨-, herr, hcode, hinfo⟩ := hs
    exact .inl ⟨(kept (·.status.err)).trans herr, (kept (·.status.errCode)).trans hcode, (kept State.errInfo).trans hinfo⟩

/-! ### The parts of a running command -/

/-- A command all of which was carried out but its completion completes. -/
theorem State.completed_of_over {s : State} {w : Word} {i : Instr} (hi : decode w = .ok i) (hp : s.progress = .over) :
    s.completed w = .next s.complete := by
  simp only [State.completed, hi, State.resume, hp, reduceCtorEq, if_false, Body.finish_done]

/-- A run of which whole steps were carried out completes with the steps that are left. -/
theorem State.completed_of_steps {s : State} {w : Word} {i : Instr} {k : Nat} (hi : decode w = .ok i)
    (hp : s.progress = .steps k) : s.completed w = .next (s.resumeSteps i k).finish := by
  simp only [State.completed, hi, State.resume, hp, reduceCtorEq, if_false]

/-- An `INIT_CODEBOOKS` whose lookup tables were built completes with its values. -/
theorem State.completed_of_lookup {t : State} {w : Word} {cs : BitVec 2} {c : CsId} (hi : decode w = .ok (.initCodebooks cs))
    (hc : CsId.ofField cs = some c) (hstart : t.progress = .start) :
    State.completed { t with progress := .lookup } w = .next (t.initValues c).finish := by
  cases t
  cases hstart
  simp only [State.completed, hi, State.resume, reduceCtorEq, if_false, Instr.codesetField, Option.bind_some, hc]

/-- A run that has written the first word of a record completes as one that has written all of it. -/
theorem State.completed_of_firstWord {t : State} {w w0 w1 : Word} {i : Instr} {r : Run} {k : Nat} (hi : decode w = .ok i)
    (hr : t.running i = some r) (hstart : t.progress = .start) :
    State.completed { t.outWrite t.outPtr w0 with progress := .record k w1 } w =
      .next (runLoop r.step (r.count - (k + 1)) (k + 1) (t.afterRecord k w0 w1)).finish := by
  have hr' : (State.stageRecord { t.outWrite t.outPtr w0 with progress := .record k w1 } k w1).running i = some r :=
    (State.running_congr i fun c => by cases c <;> exact ⟨rfl, rfl⟩).trans hr
  rw [State.completed_of_record hi rfl, State.resumeSteps, hr']
  cases t
  cases hstart
  rfl

theorem State.atStep_progress (s : State) : s.atStep.progress = .start := by
  unfold State.atStep
  split <;> rfl

/-- A step of a run leaves the command the run that it is. -/
theorem State.running_after_step {s t u : State} {i : Instr} {r : Run} {k : Nat} {o : Option (Word × Word)}
    (hs : s.running i = some r) (hu : u.running i = some r) (h : r.step k u = .ok (o, t)) : t.running i = some r := by
  obtain ⟨c, p, b, x, rfl⟩ := State.running_step hs h
  refine (State.running_congr i fun d => ?_).trans hu
  by_cases hd : d = c
  · subst hd
    rw [State.codeset_setCodeset_same]
    exact ⟨rfl, rfl⟩
  · rw [State.codeset_setCodeset_of_ne _ _ hd]
    cases d <;> exact ⟨rfl, rfl⟩

theorem State.running_atStep (s : State) (i : Instr) : s.atStep.running i = s.running i :=
  State.running_congr i fun c => by unfold State.atStep; split <;> cases c <;> exact ⟨rfl, rfl⟩

/-- Only a run has its results cleared first: what another command does early is not a number of steps. -/
theorem State.running_of_stage_steps {s : State} {i : Instr} {k : Nat} (hp : s.progress = .start)
    (h : (s.stage i).progress = .steps k) : ∃ r, s.running i = some r := by
  cases hr : s.running i with
  | some r => exact ⟨r, rfl⟩
  | none =>
    simp only [State.stage, hp, hr] at h
    split at h
    · rename_i t p he
      obtain ⟨_, _, -, ⟨-, -, rfl⟩ | ⟨-, -, rfl⟩ | ⟨-, -, -, rfl⟩ | ⟨-, -, rfl⟩ | ⟨-, -, rfl⟩⟩ := State.early_cases he <;>
        cases h
    · cases hp.symm.trans h

section Parts
variable {s t : State} {w : Word} {i : Instr} (hi : decode w = .ok i)
include hi

/-- The clearing of the results is what the run begins with. -/
theorem State.completed_after_clear (hp : s.progress = .start)
    (hs : s.stage i = { s with result0 := 0, result1 := 0, progress := .steps 0 }) :
    (s.stage i).completed w = s.completed w := by
  obtain ⟨r, hr⟩ := State.running_of_stage_steps hp (by rw [hs])
  have hat : s.atStep = { s with result0 := 0, result1 := 0, progress := .start } := by simp only [State.atStep, hp]
  have hr' : State.running { s with result0 := 0, result1 := 0, progress := .steps 0 } i = some r :=
    (State.running_congr i fun c => by cases c <;> exact ⟨rfl, rfl⟩).trans hr
  rw [hs, State.completed_of_running hi hr (.inl hp), State.completed_of_running hi hr' (.inr rfl), hat, hp]
  rfl

variable {r : Run} (hr : s.running i = some r) (hp : s.progress = .start ∨ s.progress = .steps s.progress.made)
  (hlt : s.progress.made < r.count)
include hr hp hlt

/-- A run of which steps are left completes from its next one on. -/
theorem State.completed_of_running_succ : s.completed w =
    .next (runLoop r.step (r.count - (s.progress.made + 1) + 1) s.progress.made s.atStep).finish := by
  rw [State.completed_of_running hi hr hp, show r.count - s.progress.made = r.count - (s.progress.made + 1) + 1 by omega]

/-- The step that finds the band-end code is the last one of the run. -/
theorem State.completed_after_bandEnd (hok : r.step s.progress.made s.atStep = .ok (none, t)) :
    State.completed { t with result1 := 1, progress := .over } w = s.completed w := by
  rw [State.completed_of_running_succ hi hr hp hlt, State.completed_of_over hi rfl, runLoop, hok]
  rfl

/-- A step with the first word of its record is followed by the second word, and then by the steps that are left. -/
theorem State.completed_after_firstWord {w0 w1 : Word} (hok : r.step s.progress.made s.atStep = .ok (some (w0, w1), t)) :
    State.completed { t.outWrite t.outPtr w0 with progress := .record s.progress.made w1 } w = s.completed w := by
  have ht : t.running i = some r := State.running_after_step hr ((s.running_atStep i).trans hr) hok
  have hstart : t.progress = .start := (State.GoesOn.running_step hr hok).progress.trans s.atStep_progress
  rw [State.completed_of_firstWord hi ht hstart, State.completed_of_running_succ hi hr hp hlt, runLoop_of_record hok]

end Parts

/-- What a command that is no run does early is where its body begins. -/
theorem State.completed_after_early {s t : State} {w : Word} {i : Instr} {p : Progress} (hi : decode w = .ok i)
    (hp : s.progress = .start) (he : s.early i = some (.done t, p)) :
    State.completed { t with progress := p } w = s.completed w := by
  rw [State.completed_of_start hi hp]
  obtain ⟨cs, c, hc, ⟨rfl, hb, rfl⟩ | ⟨rfl, hb, rfl⟩ | ⟨rfl, hnew, hb, rfl⟩ | ⟨rfl, hb, rfl⟩ | ⟨rfl, hb, rfl⟩⟩ :=
    State.early_cases he
  · rw [State.completed_of_over hi rfl, exec_fillScanLut hc, ← hb]
    rfl
  · rw [State.completed_of_over hi rfl, exec_fillCodeLut hc, ← hb]
    rfl
  · have hgo : s.GoesOn (s.initLookup c).state := .initLookup s c
    rw [← hb] at hgo
    have hstart : t.progress = .start := hgo.progress.trans hp
    have hinit : s.initCodebooks c = t.initValues c := by
      simp only [State.initCodebooks, hnew, Bool.false_eq_true, if_false, ← hb, Body.done_andThen]
    rw [State.completed_of_lookup hi hc hstart, exec_initCodebooks hc, hinit]
  · rw [State.completed_of_over hi rfl, exec_vlcDecode hc, ← hb]
    rfl
  · rw [State.completed_of_over hi rfl, exec_fsmStep hc, ← hb]
    rfl

/-- A part of a command does not change the state in which it completes (R93, R357). -/
theorem State.completed_stage {w : Word} {i : Instr} (hi : decode w = .ok i) (s : State) :
    (s.stage i).completed w = s.completed w := by
  rcases s.stage_cases i with hs | ⟨hp, hs⟩ | ⟨r, t, hr, hp, hlt, hok, hs⟩ | ⟨r, t, w0, w1, hr, hp, hlt, hok, hs⟩ |
    ⟨k, w1, hp, hs⟩ | ⟨t, p, hp, -, he, hs⟩
  · rw [hs]
  · exact State.completed_after_clear hi hp hs
  · rw [hs]
    exact State.completed_after_bandEnd hi hr hp hlt hok
  · rw [hs]
    exact State.completed_after_firstWord hi hr hp hlt hok
  · rw [hs, State.completed_of_steps hi rfl, State.completed_of_record hi hp]
  · rw [hs]
    exact State.completed_after_early hi hp he

/-- A part of a command leaves the engine as it is. -/
theorem State.stage_engine (s : State) (i : Instr) : (s.stage i).engine = s.engine ∧ (s.stage i).resetLine = s.resetLine :=
  have hkept : (s.stage i).kept = s.kept := (State.Keeps.stage s i).kept
  ⟨(congrArg State.engine hkept :), (congrArg State.resetLine hkept :)⟩

/-- The engine's event that carries a part out does nothing, or carries out a part of the running command. -/
theorem State.runStage_cases (s : State) : s.runStage = s ∨
    ∃ w i, s.engine = .busy w ∧ s.resetLine = false ∧ decode w = .ok i ∧ s.runStage = s.stage i := by
  unfold State.runStage
  cases he : s.engine with
  | idle => exact .inl rfl
  | busy w =>
    dsimp only
    cases hreset : s.resetLine with
    | true => exact .inl (if_pos rfl)
    | false =>
      rw [if_neg (by simp)]
      cases hi : decode w with
      | error e => exact .inl rfl
      | ok i => exact .inr ⟨w, i, rfl, rfl, hi, rfl⟩

/-- R93, R357: the engine is busy after it as before, and completes its command in the same state. -/
theorem State.runStage_engine (s : State) : s.runStage.engine = s.engine ∧ s.runStage.runEngine = s.runEngine := by
  rcases s.runStage_cases with hs | ⟨w, i, hbusy, hreset, hi, hs⟩
  · rw [hs]
    exact ⟨rfl, rfl⟩
  · obtain ⟨hengine, hline⟩ := s.stage_engine i
    rw [hs, State.runEngine_of_busy hbusy hreset, State.runEngine_of_busy (hengine.trans hbusy) (hline.trans hreset)]
    exact ⟨hengine, State.completed_stage hi s⟩

/-- Settles O8: a command ends as a sound body does, whole or with what its parts have left of it. -/
theorem everyCommandCompletes : Obligations.EveryCommandCompletes := by
  refine ⟨fun i s => ?_, fun s => rfl, fun s w hbusy hreset => ?_, State.runStage_engine⟩
  · obtain ⟨t, h⟩ := exec_total i s
    obtain ⟨b, hb, rfl⟩ := exec_sound h
    exact ⟨_, h, b.finish_engine, b.finish_done_bit, b.quiet_finish, b.finish_progress, hb.finish_report⟩
  · obtain ⟨t, h⟩ := s.completed_total w
    obtain ⟨b, -, rfl⟩ := State.completed_sound h
    exact ⟨_, (State.runEngine_of_busy hbusy hreset).trans h, b.finish_engine, b.finish_done_bit⟩

end Sys2Proof.Machine
end

section
/-!
SUPPORT. Which events clear a sticky bit of `STATUS` (spec/60_exceptions.md R311): the host's W1C write, the host's reset and the
reset input (spec/70_reset_and_hazards.md R342, R343), and no other.
-/

namespace Sys2Proof.Machine

/-! ### The engine -/

/-- Neither the rest of a command nor its completion clears a sticky bit. -/
theorem State.resume_latches (s : State) (i : Instr) : s.status.Latches (s.resume i).finish.status := by
  have steps (u : State) (k : Nat) : u.status.Latches (u.resumeSteps i k).finish.status := by
    unfold State.resumeSteps
    split
    · rename_i r hr
      exact (State.GoesOn.runLoop hr (r.count - k) k { u with progress := .start }).latches_finish
    · exact (State.GoesOn.refl u).latches_finish (b := .done u)
  have hcomplete : s.status.Latches s.complete.status := (State.GoesOn.refl s).latches_finish (b := .done s)
  unfold State.resume
  split
  · exact steps s _
  · exact steps (s.stageRecord _ _) _
  · split
    · exact (State.GoesOn.initValues { s with progress := .start } _).latches_finish
    · exact hcomplete
  · exact hcomplete
  · exact hcomplete

theorem State.completed_latches {s t : State} {w : Word} (h : s.completed w = .next t) : s.status.Latches t.status := by
  cases hi : decode w with
  | error e =>
    rw [State.completed_of_decode_error s hi] at h
    obtain rfl := Host.Outcome.next.inj h
    exact (State.GoesOn.refl s).latches_finish (b := .failed _ s)
  | ok i =>
    simp only [State.completed, hi] at h
    split at h
    · exact exec_latches h
    · obtain rfl := Host.Outcome.next.inj h
      exact s.resume_latches i

theorem State.runEngine_latches {s t : State} (h : s.runEngine = .next t) : s.status.Latches t.status := by
  unfold State.runEngine at h
  split at h
  · obtain rfl := Host.Outcome.next.inj h
    exact .refl _
  · split at h
    · obtain rfl := Host.Outcome.next.inj h
      exact .refl _
    · exact State.completed_latches h

theorem State.early_goesOn {s : State} {i : Instr} {b : Body} {p : Progress} (h : s.early i = some (b, p)) :
    s.GoesOn b.state := by
  obtain ⟨_, c, -, ⟨-, rfl, -⟩ | ⟨-, rfl, -⟩ | ⟨-, -, rfl, -⟩ | ⟨-, rfl, -⟩ | ⟨-, rfl, -⟩⟩ := State.early_cases h
  · exact .fillScanLut s c
  · exact .fillCodeLut s c
  · exact .initLookup s c
  · exact .vlcDecode s c
  · exact .fsmStepCommand s c

theorem State.atStep_status (s : State) : s.atStep.status = s.status := by
  unfold State.atStep
  split <;> rfl

/-- Nor does a part of a running command. -/
theorem State.stage_latches (s : State) (i : Instr) : s.status.Latches (s.stage i).status := by
  have step {r : Run} {k : Nat} {o : Option (Word × Word)} {t : State} (hr : s.running i = some r)
      (hok : r.step k s.atStep = .ok (o, t)) : s.status.Latches t.status :=
    s.atStep_status ▸ (State.GoesOn.running_step hr hok).latches
  rcases s.stage_cases i with hs | ⟨-, hs⟩ | ⟨r, t, hr, -, -, hok, hs⟩ | ⟨r, t, w0, w1, hr, -, -, hok, hs⟩ | ⟨k, w1, -, hs⟩ |
    ⟨t, p, -, -, he, hs⟩ <;> rw [hs]
  · exact .refl _
  · exact .refl _
  · exact (step hr hok :)
  · exact (step hr hok :)
  · exact .refl _
  · exact (State.early_goesOn he).latches

theorem State.runStage_latches (s : State) : s.status.Latches s.runStage.status := by
  rcases s.runStage_cases with hs | ⟨w, i, -, -, -, hs⟩ <;> rw [hs]
  · exact .refl _
  · exact s.stage_latches i

/-! ### The host -/

/-- A write while the engine is busy sets `OVERRUN`, or is a soft reset (R343, R350). -/
theorem State.writeBusy_cases (s : State) (r : Reg) (v : Word) :
    s.status.Latches (s.writeBusy r v).status ∨ r = .ctrl ∧ v.getLsbD 31 = true := by
  unfold State.writeBusy
  split
  · rename_i hreset
    exact .inr hreset
  · refine .inl ?_
    dsimp only
    split <;> exact ⟨id, id, fun _ => rfl⟩

/-- While the engine is idle only a write of `STATUS` or a soft reset clears a sticky bit: the others write other registers. -/
theorem State.writeIdle_cases (s : State) (r : Reg) (v : Word) :
    s.status.Latches (s.writeIdle r v).status ∨ r = .status ∨ r = .ctrl ∧ v.getLsbD 31 = true := by
  cases r
  case status => exact .inr (.inl rfl)
  case ctrl =>
    by_cases hv : v.getLsbD 31 = true
    · exact .inr (.inr ⟨rfl, hv⟩)
    · refine .inl ?_
      rw [State.writeIdle, if_neg hv]
      exact .refl _
  case cs c r =>
    refine .inl ?_
    rw [State.writeIdle, State.setCodeset_status]
    exact .refl _
  all_goals exact .inl ⟨id, id, id⟩

/-- A host write clears no sticky bit, or is a W1C write of `STATUS`, or a soft reset. -/
theorem State.hostWrite_cases (s : State) (r : Reg) (v : Word) :
    s.status.Latches (s.hostWrite r v).status ∨ (r = .status ∧ s.hostWrite r v = s.writeStatus v) ∨
      r = .ctrl ∧ v.getLsbD 31 = true := by
  unfold State.hostWrite
  split
  · exact .inl (.refl _)
  · split
    · exact (s.writeBusy_cases r v).imp_right .inr
    · exact (s.writeIdle_cases r v).imp_right (.imp_left fun hr => ⟨hr, by rw [hr]; rfl⟩)

/-! ### One event -/

/-- An event that clears a sticky bit is a W1C write of `STATUS`, a soft reset, or the assertion of the reset input. -/
theorem State.perform_latches_or {s t : State} {e : Input} (h : s.perform e = .next t) :
    s.status.Latches t.status ∨
      (∃ o v, e = .write o .word v ∧ (Reg.ofOffset o.toNat = .status ∧ t = s.writeStatus v ∨
        Reg.ofOffset o.toNat = .ctrl ∧ v.getLsbD 31 = true)) ∨ e = .resetLine true := by
  cases e with
  | write o z v =>
    simp only [State.perform] at h
    split at h
    · rename_i hadm
      obtain rfl := Host.Outcome.next.inj h
      obtain ⟨rfl, -⟩ : z = .word ∧ o.toNat % 4 = 0 := by simpa [admitted] using hadm
      exact (s.hostWrite_cases _ v).imp_right fun hcl => .inl ⟨o, v, rfl, hcl⟩
    · cases h
  | read o z =>
    simp only [State.perform] at h
    split at h
    · obtain rfl := Host.Outcome.next.inj h
      rw [State.hostRead_eq]
      exact .inl (.refl _)
    · cases h
  | resetLine asserted =>
    cases asserted with
    | true => exact .inr (.inr rfl)
    | false => exact .inl (Host.Outcome.next.inj h ▸ .refl _)
  | stage => exact .inl (Host.Outcome.next.inj h ▸ s.runStage_latches)
  | engine => exact .inl (State.runEngine_latches h)
  | _ => exact .inl (Host.Outcome.next.inj h ▸ .refl _)

/-- The same of a step. -/
theorem step_latches_or {s t : State} (h : step s = .next t) :
    s.status.Latches t.status ∨
      (∃ o v rest, s.inputs = .write o .word v :: rest ∧
        (Reg.ofOffset o.toNat = .status ∧ t = State.writeStatus { s with inputs := rest } v ∨
          Reg.ofOffset o.toNat = .ctrl ∧ v.getLsbD 31 = true)) ∨
      ∃ rest, s.inputs = .resetLine true :: rest := by
  cases hin : s.inputs with
  | nil => exact .inl (State.runEngine_latches ((step_of_inputs_nil hin).symm.trans h))
  | cons e rest =>
    rcases State.perform_latches_or ((step_of_inputs_cons hin).symm.trans h) with hlatch | ⟨o, v, rfl, hw⟩ | rfl
    · exact .inl hlatch
    · exact .inr (.inl ⟨o, v, rest, rfl, hw⟩)
    · exact .inr (.inr ⟨rest, rfl⟩)

/-- Settles O9: of a step that clears a bit, the W1C write is left, where the bit was written with a 1, and the two resets. -/
theorem stickyStatusBits : Obligations.StickyStatusBits := by
  intro s t h cleared
  rcases step_latches_or h with hlatch | ⟨o, v, rest, hin, ⟨hr, rfl⟩ | hreset⟩ | hline
  · exact ⟨fun ha hb => absurd (hlatch.bandEnd ha) (by simp [hb]), fun ha hb => absurd (hlatch.unmatched ha) (by simp [hb]),
      fun ha hb => absurd (hlatch.overrun ha) (by simp [hb])⟩
  · have w1c {bit : Nat} (hv : v.getLsbD bit = true) : cleared bit := .inl ⟨o, v, rest, hin, .inl ⟨hr, hv⟩⟩
    rw [State.writeStatus_eq]
    exact ⟨fun ha hb => w1c (by simpa [ha] using hb), fun ha hb => w1c (by simpa [ha] using hb),
      fun ha hb => w1c (by simpa [ha] using hb)⟩
  · have soft (bit : Nat) : cleared bit := .inl ⟨o, v, rest, hin, .inr hreset⟩
    exact ⟨fun _ _ => soft 3, fun _ _ => soft 4, fun _ _ => soft 5⟩
  · exact ⟨fun _ _ => .inr hline, fun _ _ => .inr hline, fun _ _ => .inr hline⟩

end Sys2Proof.Machine
end

section
/-!
SUPPORT. The reset (spec/70_reset_and_hazards.md R340 to R344): which registers it leaves at which values, what the abort of a
running command leaves of OUTMEM, and what a host write does while a command runs (R350, R351).
-/

namespace Sys2Proof.Machine

/-! ### The state after reset -/

/-- The parameters at reset are in the ranges of R8, whatever the free value is. -/
theorem configParams_inRange : Config.params.inRange := by
  unfold Config.params
  split
  · assumption
  · decide

/-- Settles O59: the tables and memories are empty, the error report is clear, and no command runs. -/
theorem invAtReset : Obligations.InvAtReset :=
  have hmem (limit : Nat) : Memory.wf limit [] := ⟨.nil, nofun⟩
  have hempty : Codeset.reset.Empty := ⟨rfl, rfl, rfl, rfl, rfl, rfl, rfl, rfl, rfl, rfl⟩
  ⟨configParams_inRange, ⟨hmem _, hmem _, hmem _⟩, .of_empty hempty, .of_empty hempty, .of_empty hempty,
    ⟨.inl rfl, Nat.zero_le _, Nat.le_refl 0⟩, ⟨fun _ => ⟨rfl, rfl⟩, nofun⟩, ⟨fun _ => ⟨rfl, rfl, rfl⟩, nofun⟩⟩

/-! ### The registers -/

theorem Codeset.readReg_resetRegs (k : Codeset) (r : CsReg) : k.resetRegs.readReg r = Codeset.reset.readReg r := by
  cases r <;> rfl

theorem State.codeset_resetBlock (s : State) (c : CsId) : s.resetBlock.codeset c = (s.codeset c).resetRegs := by
  cases c <;> rfl

/-- Every register but `PARAMS` has its reset value (R340). -/
theorem State.readReg_resetBlock (s : State) {r : Reg} (h : r ≠ .params) : s.resetBlock.readReg r = State.reset.readReg r := by
  cases r with
  | params => exact absurd rfl h
  | tableValid c =>
    rw [State.readReg, State.readReg, s.codeset_resetBlock, State.codeset_reset]
    rfl
  | cs c r =>
    rw [State.readReg, State.readReg, s.codeset_resetBlock, State.codeset_reset]
    exact (s.codeset c).readReg_resetRegs r
  | _ => rfl

/-! ### What an abort leaves of OUTMEM (R344) -/

/-- Only the next step of a run that is not over begins a record, and so may be writing one when it is aborted. -/
theorem State.stage_progress_ne_record {s : State} {i : Instr} (hrec : ∀ k w1, s.progress ≠ .record k w1)
    (h : s.progress = .over ∨ s.running i = none) (k : Nat) (w1 : Word) : (s.stage i).progress ≠ .record k w1 := by
  rcases s.stage_cases i with hs | ⟨-, hs⟩ | ⟨r, t, -, -, -, -, hs⟩ | ⟨r, t, v0, v1, hr, hp, -, -, -⟩ | ⟨k', v1, hp, -⟩ |
    ⟨t, p, -, -, he, hs⟩
  · rw [hs]
    exact hrec k w1
  · simp [hs]
  · simp [hs]
  · rcases h with hover | hnone
    · rcases hp with hp | hp <;> cases hover.symm.trans hp
    · cases hnone.symm.trans hr
  · exact absurd hp (hrec k' v1)
  · obtain ⟨_, _, -, ⟨-, -, rfl⟩ | ⟨-, -, rfl⟩ | ⟨-, -, -, rfl⟩ | ⟨-, -, rfl⟩ | ⟨-, -, rfl⟩⟩ := State.early_cases he <;> simp [hs]

/-- Only `VLC_RUN` and `FSM_RUN` are runs. -/
theorem State.running_eq_none {i : Instr} (h : ∀ cs n, i ≠ .vlcRun cs n ∧ i ≠ .fsmRun cs n) (s : State) : s.running i = none := by
  cases hr : s.running i with
  | none => rfl
  | some r =>
    rcases State.running_cases hr with ⟨cs, n, _, hi, -⟩ | ⟨cs, n, _, hi, -⟩
    · exact absurd hi (h cs n).1
    · exact absurd hi (h cs n).2

/-- The abort of a command that may not be writing a record leaves OUTMEM as it is. -/
theorem State.tornOutput_of_no_record {s : State} {i : Instr} (hrec : ∀ k w1, s.progress ≠ .record k w1)
    (h : s.progress = .over ∨ s.running i = none) : s.tornOutput i = s.outmem := by
  unfold State.tornOutput
  split
  · rename_i k w1 hp
    exact absurd hp (hrec k w1)
  · rename_i k w1 hp _
    exact absurd hp (State.stage_progress_ne_record hrec h k w1)
  · rfl

/-- The abort of a run between the two words of a record changes the second of them at most. -/
theorem State.read_tornOutput_of_record {s : State} {k : Nat} {w1 : Word} (hp : s.progress = .record k w1) (i : Instr) {a : Nat}
    (ha : a / 4 ≠ (s.outPtr + 1).toNat) : (s.tornOutput i).read a = s.outmem.read a := by
  simp only [State.tornOutput, hp, State.outWrite_outmem, Memory.read_writeWord_of_ne _ _ ha]

/-- An abort changes the two words of a record at most. -/
theorem State.read_tornOutput_of_ne (s : State) (i : Instr) {a : Nat} (h0 : a / 4 ≠ s.outPtr.toNat)
    (h1 : a / 4 ≠ (s.outPtr + 1).toNat) : (s.tornOutput i).read a = s.outmem.read a := by
  unfold State.tornOutput
  split
  · exact Memory.read_writeWord_of_ne _ _ h1
  · exact (Memory.read_writeWord_of_ne _ _ h1).trans (Memory.read_writeWord_of_ne _ _ h0)
  · rfl

/-- OUTMEM is `m` after the abort of what the engine does in `s`: as it was where no record may have been half written, else as it
was outside the words of that record that the command had not written. -/
structure State.AbortLeaves (s : State) (m : Memory) : Prop where
  idle : s.engine = .idle → m = s.outmem
  noRecord : ∀ w, s.engine = .busy w → (∀ k w1, s.progress ≠ .record k w1) →
    s.progress = .over ∨ (∀ cs n, decode w ≠ .ok (.vlcRun cs n) ∧ decode w ≠ .ok (.fsmRun cs n)) → m = s.outmem
  outside : ∀ a, a / 4 ≠ s.outPtr.toNat → a / 4 ≠ (s.outPtr + 1).toNat → m.read a = s.outmem.read a
  firstWord : ∀ k w1, s.progress = .record k w1 → ∀ a, a / 4 ≠ (s.outPtr + 1).toNat → m.read a = s.outmem.read a

theorem State.AbortLeaves.refl (s : State) : s.AbortLeaves s.outmem :=
  ⟨fun _ => rfl, fun _ _ _ _ => rfl, fun _ _ _ => rfl, fun _ _ _ _ _ => rfl⟩

theorem State.tornOutput_abortLeaves {s : State} {w : Word} {i : Instr} (hbusy : s.engine = .busy w) (hi : decode w = .ok i) :
    s.AbortLeaves (s.tornOutput i) where
  idle hidle := by cases hbusy.symm.trans hidle
  noRecord w' hbusy' hrec h := by
    obtain rfl : w = w' := Engine.busy.inj (hbusy.symm.trans hbusy')
    refine State.tornOutput_of_no_record hrec (h.imp_right fun hrun => State.running_eq_none (fun cs n => ?_) s)
    simpa [hi] using hrun cs n
  outside _ h0 h1 := s.read_tornOutput_of_ne i h0 h1
  firstWord _ _ hp _ ha := State.read_tornOutput_of_record hp i ha

theorem State.abort_abortLeaves (s : State) : s.AbortLeaves s.abort.outmem := by
  unfold State.abort
  split
  · exact .refl s
  · rename_i w hbusy
    split
    · exact .refl s
    · rename_i i hi
      exact State.tornOutput_abortLeaves hbusy hi

/-- An abort changes OUTMEM, and the model's counter of free values. -/
theorem State.abort_eq (s : State) : s.abort = { s with outmem := s.abort.outmem, fresh := s.abort.fresh } := by
  unfold State.abort
  split
  · rfl
  · split <;> rfl

/-! ### The whole reset -/

/-- What a reset leaves (R340 to R344): beside the registers and tables, only OUTMEM, as the abort leaves it, and
the model's counter of free values may change. -/
theorem State.blockReset_eq (s : State) :
    s.blockReset = { s.resetBlock with outmem := s.abort.outmem, fresh := s.abort.fresh } := by
  rw [State.blockReset, s.abort_eq]
  rfl

theorem State.readReg_blockReset (s : State) {r : Reg} (h : r ≠ .params) : s.blockReset.readReg r = State.reset.readReg r :=
  s.abort.readReg_resetBlock h

/-! ### Host writes -/

/-- The port is dead while the reset input is asserted (R342). -/
theorem State.hostWrite_of_resetLine {s : State} (h : s.resetLine = true) (r : Reg) (v : Word) : s.hostWrite r v = s := if_pos h

theorem State.hostRead_of_resetLine {s : State} (h : s.resetLine = true) (r : Reg) : s.hostRead r = { s with readData := 0 } :=
  if_pos h

theorem State.hostWrite_of_busy {s : State} {w : Word} (hbusy : s.engine = .busy w) (hreset : s.resetLine = false) (r : Reg)
    (v : Word) : s.hostWrite r v = s.writeBusy r v := by
  simp [State.hostWrite, hbusy, hreset, Engine.isBusy]

/-- A write to `CTRL` with bit 31 set resets the block, idle or busy (R343). -/
theorem State.hostWrite_softReset {s : State} (hreset : s.resetLine = false) {v : Word} (hv : v.getLsbD 31 = true) :
    s.hostWrite .ctrl v = s.blockReset := by
  cases he : s.engine with
  | idle =>
    rw [State.hostWrite_of_idle he hreset]
    exact if_pos hv
  | busy w =>
    rw [State.hostWrite_of_busy he hreset]
    exact if_pos ⟨rfl, hv⟩

/-- So does the step in which the host writes it. -/
theorem step_softReset {s : State} {v : Word} {rest : List Input} (hreset : s.resetLine = false) (hv : v.getLsbD 31 = true)
    (hinputs : s.inputs = .write 0x008 .word v :: rest) : step s = .next (State.blockReset { s with inputs := rest }) :=
  (step_write hinputs (by decide)).trans
    (congrArg _ (State.hostWrite_softReset (s := { s with inputs := rest }) hreset hv))

/-- Another write to `CTRL` while a command runs (R350, R351). -/
theorem State.writeBusy_ctrl (s : State) {v : Word} (hv : v.getLsbD 31 = false) :
    s.writeBusy .ctrl v = { s with
      status := { s.status with overrun := true }
      ctrl := { s.ctrl with irqEn := v.getLsbD 0 } } :=
  if_neg fun h => Bool.false_ne_true (hv.symm.trans h.2)

/-- A write to any other register while a command runs is lost (R351). -/
theorem State.writeBusy_of_ne_ctrl (s : State) {r : Reg} (h : r ≠ .ctrl) (v : Word) :
    s.writeBusy r v = { s with status := { s.status with overrun := true } } :=
  (if_neg fun hreset => h hreset.1).trans (if_neg h)

/-- `CTRL` stands at one offset (R32). -/
theorem Reg.eq_of_ofOffset_eq_ctrl {n : Nat} (h : Reg.ofOffset n = .ctrl) : n = 0x008 := by
  unfold Reg.ofOffset at h
  split_ifs at h
  split at h <;> cases h
  rfl

/-- Settles O52: the write is a reset of the block, whose abort leaves OUTMEM so. -/
theorem softReset : Obligations.SoftReset := by
  intro s v rest hreset hv hinputs
  obtain ⟨hidle, hnoRecord, houtside, hfirst⟩ := State.abort_abortLeaves { s with inputs := rest }
  have field {α : Type} (f : State → α) := congrArg f (State.blockReset_eq { s with inputs := rest })
  exact ⟨_, step_softReset hreset hv hinputs, fun r => State.readReg_blockReset _, field State.params, rfl, rfl,
    field State.srcmem, field State.bsmem, field State.inputs, hidle, hnoRecord, houtside, hfirst⟩

/-- Settles O53: a dead port, a reset of the block, and the release, which changes the level of the input only. -/
theorem hardwareReset : Obligations.HardwareReset := by
  refine ⟨fun s o v rest hline ho => ⟨fun hinputs => ?_, fun hinputs => ?_⟩, fun s rest hinputs => ?_⟩
  · rw [step_write hinputs ho]
    exact congrArg _ (State.hostWrite_of_resetLine (s := { s with inputs := rest }) hline _ v)
  · rw [step_read hinputs ho]
    exact congrArg _ (State.hostRead_of_resetLine (s := { s with inputs := rest }) hline _)
  · let before : State := { s with inputs := .resetLine false :: rest }
    obtain ⟨hidle, hnoRecord, houtside, hfirst⟩ := before.abort_abortLeaves
    have field {α : Type} (f : State → α) := congrArg f before.blockReset_eq
    let asserted : State := { before.blockReset with resetLine := true }
    have hrelease : asserted.inputs = .resetLine false :: rest := field State.inputs
    exact ⟨asserted, _, step_of_inputs_cons hinputs, step_of_inputs_cons hrelease, rfl, rfl, rfl,
      fun r => before.readReg_blockReset, field State.params, field State.srcmem, field State.bsmem, hidle, hnoRecord, houtside,
      hfirst⟩

/-- Settles O54: `CTRL` stands at offset 0x008 and no other register does; a write while busy sets `OVERRUN`, or is a soft reset. -/
theorem writesWhileBusy : Obligations.WritesWhileBusy := by
  intro s w o v rest hbusy hreset ho hinputs
  have hstep : step s = .next (State.writeBusy { s with inputs := rest } (.ofOffset o.toNat) v) :=
    (step_write hinputs ho).trans (congrArg _ (State.hostWrite_of_busy (s := { s with inputs := rest }) hbusy hreset _ v))
  refine ⟨fun h8 hv => ?_, fun h8 hv => ?_, fun h8 => ?_⟩
  · subst h8
    exact hstep.trans (congrArg _ (State.writeBusy_ctrl _ hv))
  · subst h8
    exact ⟨_, step_softReset hreset hv hinputs, rfl, rfl⟩
  · have hne : Reg.ofOffset o.toNat ≠ .ctrl := fun h => h8 (BitVec.eq_of_toNat_eq (Reg.eq_of_ofOffset_eq_ctrl h))
    exact hstep.trans (congrArg _ (State.writeBusy_of_ne_ctrl _ hne v))

end Sys2Proof.Machine
end
